-- ==== Sys2Proof/Word.lean ====
section
/-! DEFINITION. The words of the block: bytes, 32-bit words (R12), and references to devices. -/

namespace Sys2Proof

/-- One byte of guest memory or of a data buffer (R106). -/
abbrev Byte := BitVec 8

/-- A descriptor word, register value or guest physical address (R12, R102, R103). -/
abbrev Word := BitVec 32

/-- An opaque device reference (R35, R100): only equality of references is ever used. -/
abbrev DevRef := Nat

end Sys2Proof
end

