-- ==== Sys2Proof/Config.lean ====
section
/-! DEFINITION. What an implementation fixes: the named parameters of R11 and D44, the fixed numbers of
R12, and the free values, which the spec leaves open. -/

namespace Sys2Proof

/-- The named parameters of the model (R11, D44). They are held in the state, where no step changes them,
so that a statement over all states holds for all their values (log 2). -/
structure Params where
  /-- `OPREG_BASE`, which CAPLENGTH reads (R38): 8 bits. -/
  opregBase : BitVec 8
  /-- `NUM_PORTS` (R39). -/
  numPorts : Nat
  /-- HCSPARAMS (R38, D44). -/
  hcsparams : Word
  /-- `HCCPARAMS_VALUE` (R38, D44). Bits 0 and 1 read 0 whatever is held here (D2, D13). -/
  hccparams : Word
  /-- HCIVERSION (R38, D44). -/
  hciversion : BitVec 16
  /-- `MAX_QH_VISITS` (R352). -/
  maxQhVisits : Nat
  /-- `LIST_HEAD_SEARCH_LIMIT` (R402). -/
  listHeadSearchLimit : Nat
  /-- `MAX_PERIODIC_VISITS` (R341). -/
  maxPeriodicVisits : Nat
  /-- `QUEUE_MAX_AGE` (R246). -/
  queueMaxAge : Nat
  /-- `MAX_UFR_PER_TICK` (R471). -/
  maxUfrPerTick : Nat
  /-- `MIN_UFR_PER_TICK` (R472). -/
  minUfrPerTick : Nat
deriving DecidableEq, Repr

/-- The constraints of `92_eei_decisions.md` on the named parameters. -/
def Params.wf (p : Params) : Bool :=
  p.opregBase.toNat % 4 == 0 && 16 ≤ p.opregBase.toNat && 1 ≤ p.numPorts && p.numPorts ≤ 15 &&
  1 ≤ p.maxQhVisits && 1 ≤ p.listHeadSearchLimit && 1 ≤ p.maxPeriodicVisits &&
  1 ≤ p.minUfrPerTick && p.minUfrPerTick ≤ p.maxUfrPerTick

/-- The parameters of `95_test_vectors.md`. The spec suggests `OPREG_BASE` 0x20; the other values are
DESIGN CHOICE (log 2): they are what `State.reset` holds, and no statement rests on them. -/
def Params.vectors : Params where
  opregBase := 0x20
  numPorts := 1
  hcsparams := 0x00000001
  hccparams := 0
  hciversion := 0x0100
  maxQhVisits := 16
  listHeadSearchLimit := 8
  maxPeriodicVisits := 16
  queueMaxAge := 32
  maxUfrPerTick := 8
  minUfrPerTick := 1

/-- `PIPELINE_DEPTH`: packets a Queue may hold, fixed 1 (R292, D29). -/
def Config.pipelineDepth : Nat := 1

/-- `UFRAME_US`: the microframe in microseconds (R12, R596). -/
def Config.uframeUs : Nat := 125

/-- What a device answers to a submission, or a completion callback carries (R174, R290). `count` carries the
bytes moved, so that the n of `COUNT(n)` is their number; for OUT and SETUP only the number matters (log 6). -/
inductive DevAnswer where
  /-- `COUNT(n)` with its n bytes: n bytes transferred. -/
  | count (data : List Byte)
  /-- `NAK`: retry later. -/
  | nak
  /-- `STALL`: protocol error. -/
  | stall
  /-- `IOERROR`. -/
  | ioerror
  /-- `NODEV`: no device. -/
  | nodev
  /-- `BABBLE`: data overrun. -/
  | babble
  /-- `PENDING`: the device completes later. -/
  | pending
deriving DecidableEq, Repr, Inhabited

/-- Free value: the answer of a device to the n-th draw, beyond the answers the environment has lined up
(R290: "which answer a device gives is a draw"; log 5). -/
opaque Config.deviceAnswer : Nat → DevAnswer

/-- What the block tells the port model: a write passed on to it (R509), or its reset (R583). -/
inductive PortCall where
  | write (off value : Word)
  | reset
deriving DecidableEq, Repr

/-- Free value: what the port model returns for the n-th draw, a read of CONFIGFLAG or PORTSC at an offset, after all
the block has told it, newest first (R509, log 9). -/
opaque Config.portRead : Nat → List PortCall → Word → Word

/-- Free value: the byte that a read returns at an address where there is no memory, after so many acts of the guest and
the bytes written where there is none, newest first (R101, U22, log 35). -/
opaque Config.holeByte : Nat → List Host.Cell → Word → Byte

/-- Free value, fixed for the machine: the byte of the capability block at an offset for which R38 names no
register (log 3). -/
opaque Config.capByte : Nat → Byte

end Sys2Proof
end

