-- ==== Sys2Proof/Syntax.lean ====
section
/-! DEFINITION. The syntax: what the block decodes, one constructor for each row of the opcode table, and the
messages in which a row is presented. -/

namespace Sys2Proof

/-- The schedule kind s of R15. -/
inductive Sched where
  | async
  | periodic
deriving DecidableEq, Repr

/-- The width of an MMIO access in bytes: 1, 2 or 4 (R500). -/
inductive Width where
  | w1
  | w2
  | w4
deriving DecidableEq, Repr

/-- The automaton states of R31, in the order of their tags (R176). -/
inductive AutoState where
  | inactive
  | active
  | waitListHead
  | fetchEntry
  | fetchQh
  | fetchItd
  | fetchSitd
  | advanceQueue
  | fetchQtd
  | execute
  | executing
  | writeback
  | horizontalQh
deriving DecidableEq, Repr

/-- The Fatal reasons of R531, in the order of their codes. -/
inductive FatalReason where
  | asyncType
  | fstn
  | reservedPid
  | pageIndex
deriving DecidableEq, Repr

/-- The fields of a qTD token (R160) beside the PID code and the Active bit, which tell the rows apart.
`status` is bits 6:0: Halted, DBE, Babble, XactErr, MMF, SplitX, P/ERR. -/
structure TokenOps where
  dt : BitVec 1
  total : BitVec 15
  ioc : BitVec 1
  cPage : BitVec 3
  cerr : BitVec 2
  status : BitVec 7
deriving DecidableEq, Repr

/-- One constructor for each row of `opcode_table.json`. Where a row is decoded by one of the two automata, its
first argument is the schedule kind (R15). -/
inductive Instr where
  -- link pointers (R150, R151)
  | linkEnd (k : Sched) (rest : BitVec 31)
  | linkItd (k : Sched) (addr : BitVec 27) (rsvd : BitVec 2)
  | linkQh (k : Sched) (addr : BitVec 27) (rsvd : BitVec 2)
  | linkSitd (k : Sched) (addr : BitVec 27) (rsvd : BitVec 2)
  | linkFstn (k : Sched) (addr : BitVec 27) (rsvd : BitVec 2)
  -- qTD tokens (R160, R165)
  | qtdInactive (k : Sched) (pid : BitVec 2) (t : TokenOps)
  | pidOut (k : Sched) (t : TokenOps)
  | pidIn (k : Sched) (t : TokenOps)
  | pidSetup (k : Sched) (t : TokenOps)
  | pidReserved (k : Sched) (t : TokenOps)
  -- queue head overlay token (R357)
  | qhHalted (k : Sched) (hi : BitVec 25) (lo : BitVec 6)
  -- device results (R174)
  | resultCount (k : Sched) (data : List Byte)
  | resultNak (k : Sched)
  | resultStall (k : Sched)
  | resultIoerror (k : Sched)
  | resultNodev (k : Sched)
  | resultBabble (k : Sched)
  | resultPending (k : Sched)
  | resultCountOverlong (k : Sched) (data : List Byte)
  -- stimuli (R175)
  | mmioRead (offset : Word) (width : Width)
  | mmioWrite (offset : Word) (width : Width) (value : Word)
  | tick (now : Nat)
  | complete (k : Sched) (qh : Word) (qtd : Word) (r : DevAnswer)
  | deviceRemove (dev : DevRef)
  | portChange
  | powerOn
  -- automaton states (R176)
  | stateInactive (k : Sched)
  | stateActive (k : Sched)
  | stateWaitListHead
  | stateFetchEntry (k : Sched)
  | stateFetchQh (k : Sched)
  | stateFetchItd
  | stateFetchSitd
  | stateAdvanceQueue (k : Sched)
  | stateFetchQtd (k : Sched)
  | stateExecute (k : Sched)
  | stateExecuting (k : Sched)
  | stateWriteback (k : Sched)
  | stateHorizontalQh (k : Sched)
  -- USBCMD writes (R502): the bits of the value that the row does not fix
  | usbcmdHcreset (hi : BitVec 30) (rs : BitVec 1)
  | usbcmdRun (hi : BitVec 30)
  | usbcmdPse (hi : BitVec 27) (fls : BitVec 2)
  | usbcmdAse (hi : BitVec 26) (fls : BitVec 2)
  | usbcmdIaad (hi : BitVec 25) (fls : BitVec 2)
  | usbcmdItc (hi : BitVec 25) (fls : BitVec 2)
  -- writes of the other operational registers (R503-R509)
  | writeUsbsts (value : Word)
  | writeUsbintr (value : Word)
  | writeFrindex (value : Word)
  | writeCtrldssegment (value : Word)
  | writePeriodiclistbase (value : Word)
  | writeAsynclistaddr (value : Word)
  | writeConfigflag (value : Word)
  | writePortsc (port : BitVec 4) (value : Word)
  -- read of an operational register (R510)
  | readOp (off : Word)
  -- Fatal reasons (R531)
  | fatalAsyncType
  | fatalFstn
  | fatalReservedPid
  | fatalPageIndex
deriving DecidableEq, Repr

/-- The ten code spaces of the opcode table. Which one a word belongs to is known from where it was found, not
from the word (R152, R177). -/
inductive Format where
  /-- A link pointer of the schedule (R150). -/
  | link
  /-- The token of the current qTD (R160). -/
  | qtdToken
  /-- The overlay token of the current QH (R357). -/
  | qhToken
  /-- A device result (R174), met with so many bytes left in the overlay token: COUNT is overlong above it (R307). -/
  | devResult (total : BitVec 15)
  /-- A stimulus (R175). -/
  | stimulus
  /-- The automaton state of the schedule (R176). -/
  | autoState
  /-- A write to USBCMD (R502). -/
  | usbcmdWrite
  /-- A write to another operational register (R503-R509). -/
  | opWrite
  /-- A read of an operational register (R510). -/
  | opRead
  /-- A Fatal reason (R531). -/
  | fatalReason
deriving DecidableEq, Repr

/-- A row as it is presented to the decoder: the code space, the schedule it was met in (ignored where the
space has none), and its bytes, lowest first (log 16). -/
structure Message where
  fmt : Format
  sched : Sched
  bytes : List Byte
deriving DecidableEq, Repr

end Sys2Proof
end

