-- ==== Sys2Proof/WellFormed.lean ====
section
/-! DEFINITION. Which terms of the syntax a message can carry. Register numbers and fields have their widths in
their types; what is left are the byte counts of device results and the widths of two operands of stimuli, whose
layout is the model's (log 16). -/

namespace Sys2Proof

/-- A device answer fits its encoding: the count is a 32-bit number. -/
def DevAnswer.wf : DevAnswer → Bool
  | .count data => data.length < 2 ^ 32
  | _ => true

/-- Well-formedness of an instruction. `RESULT_COUNT` is the row for a count that the 15 bits of TotalBytes can
hold, `RESULT_COUNT_OVERLONG` the row for a count above TotalBytes, so at least 1 (R300, R307). -/
def Instr.wf : Instr → Bool
  | .resultCount _ data => data.length < 2 ^ 15
  | .resultCountOverlong _ data => 0 < data.length && data.length < 2 ^ 32
  | .tick now => now < 2 ^ 64
  | .complete _ _ _ r => r.wf
  | .deviceRemove dev => dev < 2 ^ 32
  | _ => true

end Sys2Proof
end

