-- ==== Sys2Proof/Decode.lean ====
section
/-! DEFINITION. Bytes and words (R102), the decoder, total on any message and rejecting by name, and the encoder.
The layouts of link pointers and tokens are those of `30_encoding.md`; the layout of the operands of a stimulus or
a device result is the model's (log 16). -/

namespace Sys2Proof

/-! ### Byte order -/

/-- The word whose little-endian bytes are `b0` to `b3` (R102). -/
def wordOf (b0 b1 b2 b3 : Byte) : Word := b3 ++ b2 ++ b1 ++ b0

/-- The little-endian bytes of a word (R102). -/
def wordBytes (w : Word) : List Byte :=
  [w.extractLsb' 0 8, w.extractLsb' 8 8, w.extractLsb' 16 8, w.extractLsb' 24 8]

/-- Byte `i` of a message, 0 past its end. -/
def byteAt (bs : List Byte) (i : Nat) : Byte := bs.getD i 0

/-- The little-endian word at byte `i` of a message. -/
def wordAt (bs : List Byte) (i : Nat) : Word :=
  wordOf (byteAt bs i) (byteAt bs (i + 1)) (byteAt bs (i + 2)) (byteAt bs (i + 3))

/-- The first `n` little-endian bytes of a number. -/
def natBytes : Nat → Nat → List Byte
  | 0, _ => []
  | n + 1, w => BitVec.ofNat 8 w :: natBytes n (w / 256)

/-! ### The words of descriptors -/

/-- A link pointer from its fields (R150): address 31:5, reserved 4:3, Typ 2:1, T 0. -/
def linkWord (addr : BitVec 27) (rsvd typ : BitVec 2) (t : BitVec 1) : Word := addr ++ rsvd ++ typ ++ t

/-- A terminating link pointer: T = 1, the rest ignored (R150). -/
def linkEndWord (rest : BitVec 31) : Word := rest ++ 1#1

/-- A token from its fields, the PID code and the Active bit (R160). -/
def TokenOps.word (t : TokenOps) (pid : BitVec 2) (active : BitVec 1) : Word :=
  t.dt ++ t.total ++ t.ioc ++ t.cPage ++ t.cerr ++ pid ++ active ++ t.status

/-- The fields of a token beside the PID code and Active (R160). -/
def tokenOps (w : Word) : TokenOps where
  dt := w.extractLsb' 31 1
  total := w.extractLsb' 16 15
  ioc := w.extractLsb' 15 1
  cPage := w.extractLsb' 12 3
  cerr := w.extractLsb' 10 2
  status := w.extractLsb' 0 7

/-- A QH overlay token with Halted = 1 (R357). -/
def qhHaltedWord (hi : BitVec 25) (lo : BitVec 6) : Word := hi ++ 1#1 ++ lo

/-! ### The values of USBCMD writes (R502), one for each row -/

def hcresetValue (hi : BitVec 30) (rs : BitVec 1) : Word := hi ++ 1#1 ++ rs
def runValue (hi : BitVec 30) : Word := hi ++ 0b01#2
def pseValue (hi : BitVec 27) (fls : BitVec 2) : Word := hi ++ 1#1 ++ fls ++ 0b00#2
def aseValue (hi : BitVec 26) (fls : BitVec 2) : Word := hi ++ 0b10#2 ++ fls ++ 0b00#2
def iaadValue (hi : BitVec 25) (fls : BitVec 2) : Word := hi ++ 0b100#3 ++ fls ++ 0b00#2
def itcValue (hi : BitVec 25) (fls : BitVec 2) : Word := hi ++ 0b000#3 ++ fls ++ 0b00#2

/-! ### Tags -/

/-- The number of a schedule kind in a message (log 16). -/
def schedByte : Sched → Byte
  | .async => 0
  | .periodic => 1

/-- The code of an access width in a message: its logarithm (log 16). -/
def widthByte : Width → Byte
  | .w1 => 0
  | .w2 => 1
  | .w4 => 2

/-- The tag of an automaton state (R176). -/
def stateTag : AutoState → Byte
  | .inactive => 0
  | .active => 1
  | .waitListHead => 2
  | .fetchEntry => 3
  | .fetchQh => 4
  | .fetchItd => 5
  | .fetchSitd => 6
  | .advanceQueue => 7
  | .fetchQtd => 8
  | .execute => 9
  | .executing => 10
  | .writeback => 11
  | .horizontalQh => 12

/-- The tag of a device answer (R174). -/
def answerTag : DevAnswer → Byte
  | .count _ => 0
  | .nak => 1
  | .stall => 2
  | .ioerror => 3
  | .nodev => 4
  | .babble => 5
  | .pending => 6

/-- The bytes an answer moved. -/
def answerData : DevAnswer → List Byte
  | .count data => data
  | _ => []

/-- A device answer in a message: the tag, the count, the bytes moved (R174, log 16). -/
def answerBytes (r : DevAnswer) : List Byte :=
  answerTag r :: (wordBytes (BitVec.ofNat 32 (answerData r).length) ++ answerData r)

/-! ### Decoding -/

/-- Why the decoder refuses a message. -/
inductive Reject where
  /-- The message has fewer bytes than the row has. -/
  | short
  /-- The number is none of the code space: stimulus 7, result 7, states 13 to 15 (R174, R175, R176), or more bits than the space has. -/
  | badTag
  /-- The width of an MMIO access is none of 1, 2, 4 (R500). -/
  | badWidth
  /-- The schedule kind of a packet reference is neither. -/
  | badKind
  /-- The state belongs to the other schedule (R31, R444, R445). -/
  | wrongSchedule
  /-- The word matches no row of its code space. -/
  | noRow
deriving DecidableEq, Repr

/-- A link pointer (R150, R151). Every word is one. -/
def decodeLink (k : Sched) (w : Word) : Instr :=
  if w.getLsbD 0 then .linkEnd k (w.extractLsb' 1 31)
  else
    let addr := w.extractLsb' 5 27
    let rsvd := w.extractLsb' 3 2
    if w.extractLsb' 1 2 = 0b00#2 then .linkItd k addr rsvd
    else if w.extractLsb' 1 2 = 0b01#2 then .linkQh k addr rsvd
    else if w.extractLsb' 1 2 = 0b10#2 then .linkSitd k addr rsvd
    else .linkFstn k addr rsvd

/-- A qTD token (R160, R165). Every word is one. -/
def decodeToken (k : Sched) (w : Word) : Instr :=
  if w.getLsbD 7 then
    if w.extractLsb' 8 2 = 0b00#2 then .pidOut k (tokenOps w)
    else if w.extractLsb' 8 2 = 0b01#2 then .pidIn k (tokenOps w)
    else if w.extractLsb' 8 2 = 0b10#2 then .pidSetup k (tokenOps w)
    else .pidReserved k (tokenOps w)
  else .qtdInactive k (w.extractLsb' 8 2) (tokenOps w)

/-- An overlay token: the one row is Halted = 1 (R357). -/
def decodeQhToken (k : Sched) (w : Word) : Except Reject Instr :=
  if w.getLsbD 6 then .ok (.qhHalted k (w.extractLsb' 7 25) (w.extractLsb' 0 6)) else .error .noRow

/-- A device answer at byte `i` of a message (R174, log 16). -/
def decodeAnswer (bs : List Byte) (i : Nat) : Except Reject DevAnswer :=
  let n := (wordAt bs (i + 1)).toNat
  let data := (bs.drop (i + 5)).take n
  if bs.length < i + 5 then .error .short
  else if byteAt bs i = 0 then (if data.length = n then .ok (.count data) else .error .short)
  else if byteAt bs i = 1 then .ok .nak
  else if byteAt bs i = 2 then .ok .stall
  else if byteAt bs i = 3 then .ok .ioerror
  else if byteAt bs i = 4 then .ok .nodev
  else if byteAt bs i = 5 then .ok .babble
  else if byteAt bs i = 6 then .ok .pending
  else .error .badTag

/-- A device result met with `total` bytes left: a count above it is the overlong row (R307). -/
def decodeResult (k : Sched) (total : BitVec 15) (bs : List Byte) : Except Reject Instr :=
  match decodeAnswer bs 0 with
  | .error e => .error e
  | .ok (.count data) =>
    if data.length ≤ total.toNat then .ok (.resultCount k data) else .ok (.resultCountOverlong k data)
  | .ok .nak => .ok (.resultNak k)
  | .ok .stall => .ok (.resultStall k)
  | .ok .ioerror => .ok (.resultIoerror k)
  | .ok .nodev => .ok (.resultNodev k)
  | .ok .babble => .ok (.resultBabble k)
  | .ok .pending => .ok (.resultPending k)

/-- An access width (R500, log 16). -/
def decodeWidth (b : Byte) : Except Reject Width :=
  if b = 0 then .ok .w1 else if b = 1 then .ok .w2 else if b = 2 then .ok .w4 else .error .badWidth

/-- A schedule kind (log 16). -/
def decodeKind (b : Byte) : Except Reject Sched :=
  if b = 0 then .ok .async else if b = 1 then .ok .periodic else .error .badKind

def decodeMmioRead (bs : List Byte) : Except Reject Instr :=
  if bs.length < 6 then .error .short
  else match decodeWidth (byteAt bs 1) with
    | .error e => .error e
    | .ok w => .ok (.mmioRead (wordAt bs 2) w)

def decodeMmioWrite (bs : List Byte) : Except Reject Instr :=
  if bs.length < 10 then .error .short
  else match decodeWidth (byteAt bs 1) with
    | .error e => .error e
    | .ok w => .ok (.mmioWrite (wordAt bs 2) w (wordAt bs 6))

def decodeTick (bs : List Byte) : Except Reject Instr :=
  if bs.length < 9 then .error .short
  else .ok (.tick ((wordAt bs 1).toNat + 2 ^ 32 * (wordAt bs 5).toNat))

def decodeComplete (bs : List Byte) : Except Reject Instr :=
  if bs.length < 15 then .error .short
  else match decodeKind (byteAt bs 1) with
    | .error e => .error e
    | .ok k => match decodeAnswer bs 10 with
      | .error e => .error e
      | .ok r => .ok (.complete k (wordAt bs 2) (wordAt bs 6) r)

def decodeDeviceRemove (bs : List Byte) : Except Reject Instr :=
  if bs.length < 5 then .error .short else .ok (.deviceRemove (wordAt bs 1).toNat)

/-- A stimulus: its number (R175) and its operands (log 16). -/
def decodeStimulus (bs : List Byte) : Except Reject Instr :=
  if bs.length < 1 then .error .short
  else if byteAt bs 0 = 0 then decodeMmioRead bs
  else if byteAt bs 0 = 1 then decodeMmioWrite bs
  else if byteAt bs 0 = 2 then decodeTick bs
  else if byteAt bs 0 = 3 then decodeComplete bs
  else if byteAt bs 0 = 4 then decodeDeviceRemove bs
  else if byteAt bs 0 = 5 then .ok .portChange
  else if byteAt bs 0 = 6 then .ok .powerOn
  else .error .badTag

/-- A state of one schedule only (R31, R444, R445). -/
def onlyIn (want k : Sched) (i : Instr) : Except Reject Instr :=
  if k = want then .ok i else .error .wrongSchedule

/-- An automaton state tag (R176). -/
def decodeState (k : Sched) (bs : List Byte) : Except Reject Instr :=
  if bs.length < 1 then .error .short
  else if byteAt bs 0 = 0 then .ok (.stateInactive k)
  else if byteAt bs 0 = 1 then .ok (.stateActive k)
  else if byteAt bs 0 = 2 then onlyIn .async k .stateWaitListHead
  else if byteAt bs 0 = 3 then .ok (.stateFetchEntry k)
  else if byteAt bs 0 = 4 then .ok (.stateFetchQh k)
  else if byteAt bs 0 = 5 then onlyIn .periodic k .stateFetchItd
  else if byteAt bs 0 = 6 then onlyIn .periodic k .stateFetchSitd
  else if byteAt bs 0 = 7 then .ok (.stateAdvanceQueue k)
  else if byteAt bs 0 = 8 then .ok (.stateFetchQtd k)
  else if byteAt bs 0 = 9 then .ok (.stateExecute k)
  else if byteAt bs 0 = 10 then .ok (.stateExecuting k)
  else if byteAt bs 0 = 11 then .ok (.stateWriteback k)
  else if byteAt bs 0 = 12 then .ok (.stateHorizontalQh k)
  else .error .badTag

/-- A value written to USBCMD (R502). The rows overlap: a value is named by the first it matches in the order
HCRESET, RUN, PSE, ASE, IAAD, ITC (log 19). -/
def decodeUsbcmd (v : Word) : Instr :=
  if v.getLsbD 1 then .usbcmdHcreset (v.extractLsb' 2 30) (v.extractLsb' 0 1)
  else if v.getLsbD 0 then .usbcmdRun (v.extractLsb' 2 30)
  else if v.getLsbD 4 then .usbcmdPse (v.extractLsb' 5 27) (v.extractLsb' 2 2)
  else if v.getLsbD 5 then .usbcmdAse (v.extractLsb' 6 26) (v.extractLsb' 2 2)
  else if v.getLsbD 6 then .usbcmdIaad (v.extractLsb' 7 25) (v.extractLsb' 2 2)
  else .usbcmdItc (v.extractLsb' 7 25) (v.extractLsb' 2 2)

/-- The offset of PORTSC(i) (R39). -/
def portscOffset (i : BitVec 4) : Byte := 0x44#8 + (i.setWidth 8 <<< 2)

/-- A write at an operational offset (R39, R503-R509): the offset byte and the value. -/
def decodeOpWrite (bs : List Byte) : Except Reject Instr :=
  let off := byteAt bs 0
  let v := wordAt bs 1
  let port := (off - 0x44#8).extractLsb' 2 4
  if bs.length < 5 then .error .short
  else if off = 0x04#8 then .ok (.writeUsbsts v)
  else if off = 0x08#8 then .ok (.writeUsbintr v)
  else if off = 0x0C#8 then .ok (.writeFrindex v)
  else if off = 0x10#8 then .ok (.writeCtrldssegment v)
  else if off = 0x14#8 then .ok (.writePeriodiclistbase v)
  else if off = 0x18#8 then .ok (.writeAsynclistaddr v)
  else if off = 0x40#8 then .ok (.writeConfigflag v)
  else if off = portscOffset port then .ok (.writePortsc port v)
  else .error .noRow

/-- A Fatal code (R531). -/
def decodeFatal (bs : List Byte) : Except Reject Instr :=
  if bs.length < 1 then .error .short
  else if byteAt bs 0 = 0 then .ok .fatalAsyncType
  else if byteAt bs 0 = 1 then .ok .fatalFstn
  else if byteAt bs 0 = 2 then .ok .fatalReservedPid
  else if byteAt bs 0 = 3 then .ok .fatalPageIndex
  else .error .badTag

/-- A row whose bytes are one word. -/
def withWord (bs : List Byte) (f : Word → Except Reject Instr) : Except Reject Instr :=
  if bs.length < 4 then .error .short else f (wordAt bs 0)

/-- The decoder (R177). It reads a message from its front and leaves what follows the row. -/
def decode (m : Message) : Except Reject Instr :=
  match m.fmt with
  | .link => withWord m.bytes fun w => .ok (decodeLink m.sched w)
  | .qtdToken => withWord m.bytes fun w => .ok (decodeToken m.sched w)
  | .qhToken => withWord m.bytes fun w => decodeQhToken m.sched w
  | .devResult total => decodeResult m.sched total m.bytes
  | .stimulus => decodeStimulus m.bytes
  | .autoState => decodeState m.sched m.bytes
  | .usbcmdWrite => withWord m.bytes fun w => .ok (decodeUsbcmd w)
  | .opWrite => decodeOpWrite m.bytes
  | .opRead => withWord m.bytes fun w => .ok (.readOp w)
  | .fatalReason => decodeFatal m.bytes

/-! ### Encoding -/

/-- A message of one word. -/
def wordMsg (f : Format) (k : Sched) (w : Word) : Message := ⟨f, k, wordBytes w⟩

/-- A message of one tag byte and operand bytes. -/
def tagMsg (f : Format) (k : Sched) (tag : Byte) (rest : List Byte) : Message := ⟨f, k, tag :: rest⟩

/-- A stimulus. Its schedule is ignored by the decoder. -/
def stimulusMsg (tag : Byte) (rest : List Byte) : Message := tagMsg .stimulus .async tag rest

/-- A state tag of schedule k. -/
def stateMsg (k : Sched) (a : AutoState) : Message := tagMsg .autoState k (stateTag a) []

/-- A device answer as a device result, met with `total` bytes left. -/
def resultMsg (k : Sched) (total : BitVec 15) (r : DevAnswer) : Message := ⟨.devResult total, k, answerBytes r⟩

/-- The message of an instruction. A COUNT row is encoded with the bytes left that make it that row: the most
for `RESULT_COUNT`, none for `RESULT_COUNT_OVERLONG`. -/
def encode : Instr → Message
  | .linkEnd k rest => wordMsg .link k (linkEndWord rest)
  | .linkItd k a r => wordMsg .link k (linkWord a r 0b00#2 0#1)
  | .linkQh k a r => wordMsg .link k (linkWord a r 0b01#2 0#1)
  | .linkSitd k a r => wordMsg .link k (linkWord a r 0b10#2 0#1)
  | .linkFstn k a r => wordMsg .link k (linkWord a r 0b11#2 0#1)
  | .qtdInactive k pid t => wordMsg .qtdToken k (t.word pid 0#1)
  | .pidOut k t => wordMsg .qtdToken k (t.word 0b00#2 1#1)
  | .pidIn k t => wordMsg .qtdToken k (t.word 0b01#2 1#1)
  | .pidSetup k t => wordMsg .qtdToken k (t.word 0b10#2 1#1)
  | .pidReserved k t => wordMsg .qtdToken k (t.word 0b11#2 1#1)
  | .qhHalted k hi lo => wordMsg .qhToken k (qhHaltedWord hi lo)
  | .resultCount k data => resultMsg k 0x7FFF#15 (.count data)
  | .resultNak k => resultMsg k 0 .nak
  | .resultStall k => resultMsg k 0 .stall
  | .resultIoerror k => resultMsg k 0 .ioerror
  | .resultNodev k => resultMsg k 0 .nodev
  | .resultBabble k => resultMsg k 0 .babble
  | .resultPending k => resultMsg k 0 .pending
  | .resultCountOverlong k data => resultMsg k 0 (.count data)
  | .mmioRead off w => stimulusMsg 0 (widthByte w :: wordBytes off)
  | .mmioWrite off w v => stimulusMsg 1 (widthByte w :: (wordBytes off ++ wordBytes v))
  | .tick now => stimulusMsg 2 (wordBytes (BitVec.ofNat 32 now) ++ wordBytes (BitVec.ofNat 32 (now / 2 ^ 32)))
  | .complete k qh qtd r => stimulusMsg 3 (schedByte k :: (wordBytes qh ++ wordBytes qtd ++ answerBytes r))
  | .deviceRemove dev => stimulusMsg 4 (wordBytes (BitVec.ofNat 32 dev))
  | .portChange => stimulusMsg 5 []
  | .powerOn => stimulusMsg 6 []
  | .stateInactive k => stateMsg k .inactive
  | .stateActive k => stateMsg k .active
  | .stateWaitListHead => stateMsg .async .waitListHead
  | .stateFetchEntry k => stateMsg k .fetchEntry
  | .stateFetchQh k => stateMsg k .fetchQh
  | .stateFetchItd => stateMsg .periodic .fetchItd
  | .stateFetchSitd => stateMsg .periodic .fetchSitd
  | .stateAdvanceQueue k => stateMsg k .advanceQueue
  | .stateFetchQtd k => stateMsg k .fetchQtd
  | .stateExecute k => stateMsg k .execute
  | .stateExecuting k => stateMsg k .executing
  | .stateWriteback k => stateMsg k .writeback
  | .stateHorizontalQh k => stateMsg k .horizontalQh
  | .usbcmdHcreset hi rs => wordMsg .usbcmdWrite .async (hcresetValue hi rs)
  | .usbcmdRun hi => wordMsg .usbcmdWrite .async (runValue hi)
  | .usbcmdPse hi fls => wordMsg .usbcmdWrite .async (pseValue hi fls)
  | .usbcmdAse hi fls => wordMsg .usbcmdWrite .async (aseValue hi fls)
  | .usbcmdIaad hi fls => wordMsg .usbcmdWrite .async (iaadValue hi fls)
  | .usbcmdItc hi fls => wordMsg .usbcmdWrite .async (itcValue hi fls)
  | .writeUsbsts v => tagMsg .opWrite .async 0x04 (wordBytes v)
  | .writeUsbintr v => tagMsg .opWrite .async 0x08 (wordBytes v)
  | .writeFrindex v => tagMsg .opWrite .async 0x0C (wordBytes v)
  | .writeCtrldssegment v => tagMsg .opWrite .async 0x10 (wordBytes v)
  | .writePeriodiclistbase v => tagMsg .opWrite .async 0x14 (wordBytes v)
  | .writeAsynclistaddr v => tagMsg .opWrite .async 0x18 (wordBytes v)
  | .writeConfigflag v => tagMsg .opWrite .async 0x40 (wordBytes v)
  | .writePortsc i v => tagMsg .opWrite .async (portscOffset i) (wordBytes v)
  | .readOp off => wordMsg .opRead .async off
  | .fatalAsyncType => tagMsg .fatalReason .async 0 []
  | .fatalFstn => tagMsg .fatalReason .async 1 []
  | .fatalReservedPid => tagMsg .fatalReason .async 2 []
  | .fatalPageIndex => tagMsg .fatalReason .async 3 []

/-! ### A word of the opcode table -/

/-- The code space in which a bare word of the opcode table is read. The table numbers ten code spaces from 0
and a word alone does not say which is meant; the choice here covers as many rows as one answer a word can
(log 15). Links are read in the periodic schedule, where every type but FSTN has a step (R341). -/
def tableSpace (nbits w : Nat) : Format × Sched :=
  if nbits = 0 then (.opRead, .async)
  else if nbits ≤ 8 then
    if w ≤ 6 then (.stimulus, .async)
    else if w ≤ 12 then (.autoState, .async)
    else if w = 0x20 then (.usbcmdWrite, .async)
    else if w = 0x10 ∨ w = 0x14 ∨ w = 0x18 ∨ (0x40 ≤ w ∧ w < 0x80 ∧ w % 4 = 0) then (.opWrite, .async)
    else if w.testBit 7 then (.qtdToken, .async)
    else (.link, .periodic)
  else if nbits ≤ 16 then (.qtdToken, .async)
  else if w.testBit 7 then (.qtdToken, .async)
  else if w = 0x40 then (.qhToken, .async)
  else if w = 0x10 ∨ w = 0x20 then (.usbcmdWrite, .async)
  else (.link, .periodic)

/-- The longest row with no data bytes, in bytes (a COMPLETE: log 16). -/
def longestRow : Nat := 16

/-- The message of a bare word of the opcode table: its bytes, lowest first, and zeros after them. -/
def tableMessage (nbits w : Nat) : Message :=
  ⟨(tableSpace nbits (w % 2 ^ nbits)).1, (tableSpace nbits (w % 2 ^ nbits)).2,
    natBytes (longestRow + nbits / 8) (w % 2 ^ nbits)⟩

/-- The instruction the decoder reads from a bare word of the opcode table. -/
def decodeTableWord (nbits w : Nat) : Option Instr :=
  match decode (tableMessage nbits w) with
  | .ok i => some i
  | .error _ => none

end Sys2Proof
end

