-- ==== Sys2Proof/Machine/State.lean ====
section
/-! DEFINITION. The state, as plain data: every piece of state `10_state.md` gives the block, the guest memory and
the environment it works with, and the reasons a step can stop. -/

namespace Sys2Proof.Machine

/-- A transfer descriptor as read, words 0 to 7 (R159 to R162); the overlay of a queue head has the same layout (R157). -/
structure Qtd where
  /-- Word 0: next qTD pointer. -/
  next : Word
  /-- Word 1: alternate next qTD pointer (in an overlay its bits 4:1 are NakCnt). -/
  alt : Word
  /-- Word 2: the token (R160). -/
  token : Word
  /-- Words 3 to 7: buffer pointers 0 to 4 (R161, R162). -/
  buf0 : Word
  buf1 : Word
  buf2 : Word
  buf3 : Word
  buf4 : Word
deriving DecidableEq, Repr

/-- A queue head as read, words 0 to 11 (R153 to R158). -/
structure Qh where
  /-- Word 0: horizontal link pointer (R153). -/
  link : Word
  /-- Word 1: endpoint characteristics (R154). -/
  epchar : Word
  /-- Word 2: endpoint capabilities (R155). -/
  epcap : Word
  /-- Word 3: current qTD pointer (R156). -/
  current : Word
  /-- Words 4 to 11: the overlay (R157). -/
  ov : Qtd
deriving DecidableEq, Repr

/-- The state tag of a Packet (R36); it only advances. -/
inductive PacketTag where
  | uninit
  | inflight
  | finished
deriving DecidableEq, Repr

/-- The tag of a device result (R174). -/
inductive ResultTag where
  | count
  | nak
  | stall
  | ioerror
  | nodev
  | babble
  | pending
deriving DecidableEq, Repr

/-- A Packet: the host record of one qTD being executed (R36). -/
structure Packet where
  qtdaddr : Word
  qtd : Qtd
  /-- The PID code of the token, reserved code included until EXECUTE refuses it (R165, R241). -/
  pid : BitVec 2
  buf : List Byte
  len : BitVec 15
  result : Option ResultTag
  count : Nat
  tag : PacketTag
deriving DecidableEq, Repr

/-- A Queue: the host-side cache of one queue head (R35). -/
structure Queue where
  kind : Sched
  qhaddr : Word
  qh : Qh
  seen : Bool
  lastSeen : Nat
  dev : Option DevRef
  packets : List Packet
  qtdaddr : Word
deriving DecidableEq, Repr

/-- The registers and the descriptor cache of one schedule (R30 to R34). The cache is a finite map keyed by
`qhaddr`, kept as a list with rising keys. -/
structure SchedRegs where
  auto : AutoState
  fetchAddr : Word
  curQueue : Option Word
  visits : Nat
  cache : List Queue
deriving DecidableEq, Repr

/-- The stored bits of USBCMD (R40); every other bit reads 0. -/
structure UsbCmd where
  rs : Bool
  pse : Bool
  ase : Bool
  iaad : Bool
  itc : BitVec 8
deriving DecidableEq, Repr

/-- The fields of a submission (R173, R287). -/
structure Request where
  dir : BitVec 2
  devAddr : BitVec 7
  endpoint : BitVec 4
  speed : BitVec 2
  toggle : Bool
  buf : List Byte
  len : BitVec 15
deriving DecidableEq, Repr

/-- A completion callback: the Packet it names, by its queue and qTD address (log 14), and the result (R310). -/
structure Completion where
  kind : Sched
  qhaddr : Word
  qtdaddr : Word
  answer : DevAnswer
deriving DecidableEq, Repr

/-- What a device does inside one submit call: the completions it delivers, then the answer it returns (R287, R311). -/
structure SubmitAnswer where
  completions : List Completion
  answer : DevAnswer
deriving DecidableEq, Repr

/-- What the environment brings: a row presented to the decoder (the seven stimuli, R175), or what it does
between entries without telling the engine (log 4). -/
inductive Event where
  /-- A message to decode and run. -/
  | msg (m : Message)
  /-- The guest driver writes guest memory between entries (R9, R113). -/
  | guestWrite (addr : Word) (bytes : List Byte)
  /-- The port model's address map changes at one USB address (R354, D27, log 8). -/
  | setDevice (addr : BitVec 7) (dev : Option DevRef)
deriving DecidableEq, Repr

/-- What the block gives out (log 26). -/
inductive Output where
  /-- The value of an MMIO read of so many bytes (R500, R510). -/
  | readValue (width : Width) (value : Word)
  /-- A submission to a device (R287). -/
  | submit (dev : DevRef) (req : Request)
  /-- The device's cancel capability is called for a Packet (R244). -/
  | cancel (dev : DevRef) (kind : Sched) (qhaddr qtdaddr : Word)
  /-- A write passed to the port model (R509). -/
  | portWrite (off : Word) (value : Word)
  /-- The port model is reset (R583). -/
  | portReset
deriving DecidableEq, Repr

/-- A range of guest-physical addresses with no memory behind them, from `base` up to but not including `base + size`. -/
structure Hole where
  base : Nat
  size : Nat
deriving DecidableEq, Repr

/-- Guest physical memory (R100, R101): the whole 32-bit address space; see `Memory.wf` in `Machine/Ops.lean`. -/
structure Memory where
  /-- The listed bytes, addresses rising (log 1). -/
  cells : List Host.Cell
  /-- The parameter of R101: where there is no memory (log 35). No step changes it. -/
  holes : List Hole
  /-- The MODEL's: the bytes written where there is no memory, newest first (log 35). -/
  lost : List Host.Cell
  /-- The MODEL's: how often the guest has acted on memory; a byte read where there is none may differ from then on
  (R117, log 35). -/
  epoch : Nat
deriving DecidableEq, Repr

/-- The state of the block and of the environment it works with. -/
structure State where
  /-- The named parameters (R11, log 2). No step changes them. -/
  params : Params
  /-- USBCMD (R40). -/
  usbcmd : UsbCmd
  /-- USBSTS bits 5:0 (R41, R42). -/
  usbsts : BitVec 6
  /-- The reclamation flag, USBSTS bit 13 (R401). -/
  recl : Bool
  /-- USBINTR bits 5:0 (R45). -/
  usbintr : BitVec 6
  /-- FRINDEX bits 13:0 (R46). -/
  frindex : BitVec 14
  /-- PERIODICLISTBASE (R48). -/
  periodicListBase : Word
  /-- ASYNCLISTADDR (R49). -/
  asyncListAddr : Word
  /-- Interrupt bits raised and not yet committed (R50). -/
  usbstsPending : BitVec 6
  /-- The microframe count from which a threshold commit may happen (R51). -/
  nextCommit : Nat
  /-- Microframes accounted since power-on (R52). -/
  uframeCtr : Nat
  /-- The time up to which microframes are accounted, or unset (R52, R470). -/
  lastRunUs : Option Nat
  /-- The MODEL's: the time of the last tick, which D56 has a later one not go before, or none (log 36). -/
  lastTickUs : Option Nat
  /-- A visit bound was exceeded (R53). -/
  diagEmitted : Bool
  /-- The engine is handling a stimulus (R54). -/
  inEntry : Bool
  /-- The asynchronous schedule (R30 to R34). -/
  async : SchedRegs
  /-- The periodic schedule (R30 to R34). -/
  periodic : SchedRegs
  /-- Guest physical memory (R100, R101, log 1, log 35). -/
  mem : Memory
  /-- The port model's address map behind `lookupDevice` (D27, log 8). -/
  devices : List (BitVec 7 × DevRef)
  /-- The MODEL's: the device answers the environment has lined up (log 5). -/
  answers : List SubmitAnswer
  /-- The MODEL's: how many free values have been drawn and how often the port model has acted (log 5, log 9). -/
  draws : Nat
  /-- The MODEL's: what waits to be handled, first first (log 4). -/
  inbox : List Event
  /-- The MODEL's: what the block gave out, newest first; `portCalls` reads its port writes and resets (log 9, 26). -/
  outbox : List Output
deriving DecidableEq, Repr

/-- Why a step stops. -/
inductive Fault where
  /-- R310, R538: a completion for a Packet that is not INFLIGHT. Raised by COMPLETE and by a completion inside a
  submit call. Safe: the spec itself makes it a model fault (D41). -/
  | completionNotInflight
  /-- R310, R538: a completion that carries PENDING. Raised by the same. Safe, as above. -/
  | completionPending
  /-- R244: a Packet is INFLIGHT and its Queue has no device to cancel it. Raised by `cancelPacket`. Safe: the
  spec's model fault, unreachable by R287. -/
  | cancelNoDevice
  /-- R37: a step that works on the current Queue while there is none. Raised by the automaton steps from
  ADVANCE-QUEUE on. Safe: no run reaches it (log 20). -/
  | noCurrentQueue
  /-- R370, R375, R380: EXECUTE without its UNINIT Packet, or EXECUTING or WRITEBACK without its FINISHED one.
  Raised by those steps. Safe: no run reaches it (log 20). -/
  | noPacket
  /-- R287, R288: the answer PENDING for a Queue without a device. Raised by RESULT_PENDING presented alone.
  Safe: only a device that exists can answer so (log 30). -/
  | pendingNoDevice
  /-- R31: an automaton holds a state of the other schedule. Raised by `walkStep`. Safe: no run reaches it (log 20). -/
  | wrongSchedule
  /-- R346: a pass outlived the number of steps in which every pass ends. Raised by `run`. Safe: never raised from
  the start of a pass (log 10). -/
  | passTooLong
deriving DecidableEq, Repr

/-- Why an instruction or message has no meaning. -/
inductive Refusal where
  /-- An arm of `exec` that has no meaning yet. Raised by `exec` only. Safe. -/
  | notModelled (mnemonic : String)
  /-- R500, R501, D6: an access to the operational block that is not 4 bytes at a 4-aligned offset. Raised by
  MMIO_READ and MMIO_WRITE. Safe: the spec refuses it. -/
  | narrowAccess
  /-- R500: a read of the capability block that is not aligned or leaves the block. Raised by MMIO_READ. Safe: the
  spec refuses it. -/
  | capabilityAccess
  /-- R470, R538, D56: a tick with a time before `last_run_us`, or before the last tick's (log 36). Raised by TICK. Safe:
  the spec refuses it. -/
  | tickBackwards
  /-- R174, R175, R176: the decoder refuses the message. Raised by `step`. Safe: the spec gives it no meaning. -/
  | undecodable
deriving DecidableEq, Repr

/-- The registers of a schedule at power-on (R581). -/
def SchedRegs.reset : SchedRegs where
  auto := .inactive
  fetchAddr := 0
  curQueue := none
  visits := 0
  cache := []

/-- USBCMD after reset: 0x00080000, ITC = 8 (R40, R581). -/
def UsbCmd.reset : UsbCmd where
  rs := false
  pse := false
  ase := false
  iaad := false
  itc := 8

/-- The machine right after power-on: the column "power-on" of R581. The parameters, the memory, the address map
and the model's own fields are DESIGN CHOICE (log 1, 2, 4, 5, 8, 26, 35, 36). -/
def State.reset : State where
  params := Params.vectors
  usbcmd := UsbCmd.reset
  usbsts := 0
  recl := false
  usbintr := 0
  frindex := 0
  periodicListBase := 0
  asyncListAddr := 0
  usbstsPending := 0
  nextCommit := 0
  uframeCtr := 0
  lastRunUs := none
  lastTickUs := none
  diagEmitted := false
  inEntry := false
  async := SchedRegs.reset
  periodic := SchedRegs.reset
  mem := ⟨[], [], [], 0⟩
  devices := []
  answers := []
  draws := 0
  inbox := []
  outbox := []

end Sys2Proof.Machine
end

