-- ==== Sys2Proof/Machine/Operands.lean ====
section
/-! DEFINITION. The fields of descriptor words (`30_encoding.md`): how every step reads them. -/

namespace Sys2Proof.Machine

/-! ### Link and qTD pointers (R150, R156, R159) -/

/-- `addr(lp) = lp & 0xFFFFFFE0` (R150, R104). -/
def ptrAddr (lp : Word) : Word := lp &&& 0xFFFFFFE0#32

/-- The T bit: 1 means no link (R150, R156, R159). -/
def ptrT (lp : Word) : Bool := lp.getLsbD 0

/-- The QH type with T = 0 at address `a` (R402). -/
def qhLink (a : Word) : Word := a ||| 0x2#32

/-! ### Endpoint characteristics and capabilities (R154, R155) -/

/-- RL, NAK count reload: bits 31:28. -/
def epRl (w : Word) : BitVec 4 := w.extractLsb' 28 4
/-- MaxPkt: bits 26:16. -/
def epMaxPkt (w : Word) : BitVec 11 := w.extractLsb' 16 11
/-- H, head of reclamation list: bit 15. -/
def epHead (w : Word) : Bool := w.getLsbD 15
/-- DTC, data toggle control: bit 14. -/
def epDtc (w : Word) : Bool := w.getLsbD 14
/-- EPS, endpoint speed: bits 13:12. -/
def epSpeed (w : Word) : BitVec 2 := w.extractLsb' 12 2
/-- EndPt: bits 11:8. -/
def epEndpoint (w : Word) : BitVec 4 := w.extractLsb' 8 4
/-- DevAddr: bits 6:0. -/
def epDevAddr (w : Word) : BitVec 7 := w.extractLsb' 0 7

/-- Bit `i` of the S-mask (R155, R443): word 2 bits 7:0, `i` a microframe number. -/
def smaskBit (epcap : Word) (i : BitVec 3) : Bool := epcap.getLsbD i.toNat

/-! ### The token (R160) -/

/-- The data toggle: bit 31. -/
def tokToggle (t : Word) : Bool := t.getLsbD 31
/-- TotalBytes: bits 30:16. -/
def tokTotal (t : Word) : BitVec 15 := t.extractLsb' 16 15
/-- IOC: bit 15. -/
def tokIoc (t : Word) : Bool := t.getLsbD 15
/-- C_Page: bits 14:12. -/
def tokCPage (t : Word) : BitVec 3 := t.extractLsb' 12 3
/-- The PID code: bits 9:8 (R165). -/
def tokPid (t : Word) : BitVec 2 := t.extractLsb' 8 2
/-- Active: bit 7. -/
def tokActive (t : Word) : Bool := t.getLsbD 7
/-- Halted: bit 6. -/
def tokHalted (t : Word) : Bool := t.getLsbD 6
/-- P/ERR, the ping state: bit 0. -/
def tokPing (t : Word) : Bool := t.getLsbD 0

/-- A word with one bit set to a value. -/
def setBit (w : Word) (i : Nat) (b : Bool) : Word :=
  if b then w ||| (1#32 <<< i) else w &&& ~~~(1#32 <<< i)

/-- A word with TotalBytes replaced (R160). -/
def tokSetTotal (t : Word) (n : BitVec 15) : Word := (t &&& 0x8000FFFF#32) ||| (n.setWidth 32 <<< 16)

/-- A word with C_Page replaced (R160). -/
def tokSetCPage (t : Word) (n : BitVec 3) : Word := (t &&& 0xFFFF8FFF#32) ||| (n.setWidth 32 <<< 12)

/-! ### PID codes (R165) -/

def pidOutCode : BitVec 2 := 0b00#2
def pidInCode : BitVec 2 := 0b01#2
def pidSetupCode : BitVec 2 := 0b10#2
def pidReservedCode : BitVec 2 := 0b11#2

/-! ### Buffer pointers (R161 to R163) -/

/-- Buffer pointer `i`, 0 to 4: qTD word 3 + i, overlay word 7 + i. There is none above 4. -/
def Qtd.buf (d : Qtd) (i : Nat) : Word :=
  match i with
  | 0 => d.buf0
  | 1 => d.buf1
  | 2 => d.buf2
  | 3 => d.buf3
  | _ => d.buf4

/-- `page(i) = buf[i] & 0xFFFFF000` (R163). -/
def Qtd.page (d : Qtd) (i : Nat) : Word := d.buf i &&& 0xFFFFF000#32

/-- `offset0 = buf[0] & 0xFFF` (R163). -/
def Qtd.offset0 (d : Qtd) : BitVec 12 := d.buf0.extractLsb' 0 12

/-- Buffer pointer 0 with its offset replaced (R161, R300). -/
def bufSetOffset (b : Word) (off : BitVec 12) : Word := (b &&& 0xFFFFF000#32) ||| off.setWidth 32

/-- A byte range of guest memory (R106, R284). -/
structure Segment where
  addr : Word
  size : Nat
deriving DecidableEq, Repr

/-- The loop of R284: `left` bytes from page `cpage`, offset `off`. None where the walk needs a page index above 4.
`fuel` bounds the pages walked; six reach any index above 4. -/
def segmentsFrom (d : Qtd) : (fuel cpage off left : Nat) → Option (List Segment)
  | 0, _, _, left => if left = 0 then some [] else none
  | fuel + 1, cpage, off, left =>
    if left = 0 then some []
    else if 4 < cpage then none
    else
      let chunk := min left (4096 - off)
      match segmentsFrom d fuel (cpage + 1) 0 (left - chunk) with
      | none => none
      | some rest => some (⟨d.page cpage + BitVec.ofNat 32 off, chunk⟩ :: rest)

/-- `segments` (R284): the page walk of `len` bytes from the position of a qTD or overlay. -/
def segments (d : Qtd) (len : Nat) : Option (List Segment) :=
  segmentsFrom d 6 (tokCPage d.token).toNat d.offset0.toNat len

end Sys2Proof.Machine
end

