-- ==== Sys2Proof/Machine/Flags.lean ====
section
/-! DEFINITION. Status bits: the token updates of device results (`41_transaction_executor.md`), the computed bits of
USBSTS, the interrupt bits and their coalescing (`60_exceptions.md`), and the interrupt output. -/

namespace Sys2Proof.Machine

/-! ### Token updates (R300 to R306) -/

/-- STALL: Halted set, Active cleared (R303). -/
def tokStall (t : Word) : Word := setBit (setBit t 6 true) 7 false

/-- IOERROR and NODEV: Halted and XactErr set, CERR and Active cleared (R304, R305). -/
def tokIoerror (t : Word) : Word := setBit (setBit (setBit t 6 true) 3 true &&& 0xFFFFF3FF#32) 7 false

/-- BABBLE and an overlong COUNT: Halted and Babble set, Active cleared (R306, R307). -/
def tokBabble (t : Word) : Word := setBit (setBit (setBit t 6 true) 4 true) 7 false

/-- The packets a transfer of `n` bytes takes: `max(1, ceil(n / mp))`, one where the maximum is 0 (R300, D24). -/
def packetCount (mp n : Nat) : Nat := if mp = 0 then 1 else max 1 ((n + mp - 1) / mp)

/-- Success with `n` bytes from offset `off`: C_Page advances by the pages passed, TotalBytes falls by `n`, the toggle
flips once for each packet, Active is cleared (R300). -/
def tokCount (t : Word) (mp off n : Nat) : Word :=
  let t1 := tokSetCPage t (BitVec.ofNat 3 ((tokCPage t).toNat + (off + n) / 4096))
  let t2 := tokSetTotal t1 (tokTotal t1 - BitVec.ofNat 15 n)
  let t3 := setBit t2 31 (tokToggle t2 ^^ (packetCount mp n % 2 == 1))
  setBit t3 7 false

/-! ### Computed status bits and the interrupt level -/

/-- `HCH = (USBCMD.RS = 0) ∧ both schedules INACTIVE` (R43). -/
def State.hch (s : State) : Bool :=
  !s.usbcmd.rs && s.async.auto == .inactive && s.periodic.auto == .inactive

/-- `PSS = (state[PERIODIC] ≠ INACTIVE)` (R44). -/
def State.pss (s : State) : Bool := s.periodic.auto != .inactive

/-- `ASS = (state[ASYNC] ≠ INACTIVE)` (R44). -/
def State.ass (s : State) : Bool := s.async.auto != .inactive

/-- The interrupt output level, `(USBSTS[5:0] & USBINTR[5:0]) ≠ 0` (R55). A function of the two registers, so always
evaluated anew (log 24). -/
def State.irq (s : State) : Bool := s.usbsts &&& s.usbintr != 0

/-! ### Interrupt bits (R534 to R536) -/

/-- The interrupt sources: the bits of USBSTS[5:0] (R41, R539). -/
inductive IrqBit where
  | usbint
  | usberrint
  | pcd
  | flr
  | hse
  | iaa
deriving DecidableEq, Repr

/-- The bit of a source in USBSTS[5:0] (R41). -/
def IrqBit.mask : IrqBit → BitVec 6
  | .usbint => 0b000001#6
  | .usberrint => 0b000010#6
  | .pcd => 0b000100#6
  | .flr => 0b001000#6
  | .hse => 0b010000#6
  | .iaa => 0b100000#6

/-- FLR, PCD and HSE are raised at once, the others coalesced (R534, D32). -/
def IrqBit.immediate : IrqBit → Bool
  | .flr => true
  | .pcd => true
  | .hse => true
  | .usbint => false
  | .usberrint => false
  | .iaa => false

/-- `raise_irq(b)` (R534). -/
def State.raiseIrq (s : State) (b : IrqBit) : State :=
  if b.immediate then { s with usbsts := s.usbsts ||| b.mask }
  else { s with usbstsPending := s.usbstsPending ||| b.mask }

/-- USBSTS.IAA (R41). -/
def State.iaa (s : State) : Bool := s.usbsts.getLsbD 5

/-- The body of both commits: the pending bits enter USBSTS and the threshold starts anew (R535, R536). -/
def State.commit (s : State) : State :=
  { s with
    usbsts := s.usbsts ||| s.usbstsPending
    usbstsPending := 0
    nextCommit := s.uframeCtr + s.usbcmd.itc.toNat }

/-- `threshold_commit()` (R535). -/
def State.thresholdCommit (s : State) : State :=
  if s.usbstsPending ≠ 0 ∧ s.nextCommit ≤ s.uframeCtr then s.commit else s

/-- `commit_all()` (R536). -/
def State.commitAll (s : State) : State :=
  if s.usbstsPending ≠ 0 then s.commit else s

end Sys2Proof.Machine
end

