-- ==== Sys2Proof/Machine/Ops.lean ====
section
/-! DEFINITION. The named operations over guest memory, the registers of a schedule and the descriptor cache
(`20_memory.md`, `40_descriptor_cache.md`), and the block's one exception, the Fatal (R530), with the controller
reset it runs (R583). -/

namespace Sys2Proof.Machine

/-! ### Guest memory (R101, R102) -/

/-- What an unlisted byte of guest memory reads as: 0, as in `95_test_vectors.md` (DESIGN CHOICE, log 1). -/
def unlistedByte : Byte := 0

/-- The byte that a list of cells holds for an address: the listed one, else what an unlisted address reads as
(DESIGN CHOICE, log 1). -/
def memGet : List Host.Cell → Nat → Byte
  | [], _ => unlistedByte
  | (a, b) :: rest, x => if a = x then b else memGet rest x

/-- A list of cells with the byte at an address replaced, in canonical form (log 1). It is called for addresses with
memory behind them only (log 35). -/
def memSet : List Host.Cell → Nat → Byte → List Host.Cell
  | [], x, v => if v = unlistedByte then [] else [(x, v)]
  | (a, b) :: rest, x, v =>
    if x < a then (if v = unlistedByte then (a, b) :: rest else (x, v) :: (a, b) :: rest)
    else if x = a then (if v = unlistedByte then rest else (a, v) :: rest)
    else (a, b) :: memSet rest x v

/-- The canonical form of a list of cells: addresses rising and below 2^32, no entry equal to what an unlisted address
reads as. -/
def cellsWf : List Host.Cell → Bool
  | [] => true
  | (a, b) :: rest =>
    decide (a < 2 ^ 32) && decide (b ≠ unlistedByte) && rest.all (fun c => decide (a < c.1)) && cellsWf rest

/-- Whether an address lies outside every hole of a list. -/
def outsideHoles (hs : List Hole) (a : Nat) : Bool := hs.all fun h => decide (a < h.base ∨ h.base + h.size ≤ a)

/-- Whether there is memory at an address: the parameter of R101 (log 35). -/
def Memory.hasRam (m : Memory) (a : Word) : Bool := outsideHoles m.holes a.toNat

/-- The canonical form of guest memory: its cells in their one form, and none where there is no memory. -/
def Memory.wf (m : Memory) : Bool := cellsWf m.cells && m.cells.all fun c => outsideHoles m.holes c.1

/-- One byte read (R101): the byte held where there is memory, a free value where there is none (U22, log 35). -/
def readByte (m : Memory) (a : Word) : Byte :=
  if m.hasRam a then memGet m.cells a.toNat else Config.holeByte m.epoch m.lost a

/-- One byte written (R101): stored where there is memory; where there is none the write completes, changes no byte of
memory, and may change what such addresses read as (U22, log 35). -/
def Memory.setByte (m : Memory) (a : Word) (v : Byte) : Memory :=
  if m.hasRam a then { m with cells := memSet m.cells a.toNat v } else { m with lost := (a.toNat, v) :: m.lost }

/-- The guest has acted on memory: what addresses with no memory read as may differ from now on (R117, log 35). -/
def Memory.guestActs (m : Memory) : Memory := { m with epoch := m.epoch + 1 }

/-- `MemRead(a, n)` (R14); addresses wrap modulo 2^32 (R33). -/
def readBytes (m : Memory) : Word → Nat → List Byte
  | _, 0 => []
  | a, n + 1 => readByte m a :: readBytes m (a + 1) n

/-- `MemWrite(a, n, v)` (R14). -/
def writeBytes (m : Memory) : Word → List Byte → Memory
  | _, [] => m
  | a, b :: bs => writeBytes (m.setByte a b) (a + 1) bs

/-- `MemRead32(a)`: a little-endian word (R102). -/
def read32 (m : Memory) (a : Word) : Word :=
  wordOf (readByte m a) (readByte m (a + 1)) (readByte m (a + 2)) (readByte m (a + 3))

/-- `MemWrite32(a, w)` (R102). -/
def write32 (m : Memory) (a w : Word) : Memory := writeBytes m a (wordBytes w)

/-- The eight words of a qTD (R152, R362). -/
def readQtd (m : Memory) (a : Word) : Qtd where
  next := read32 m a
  alt := read32 m (a + 4)
  token := read32 m (a + 8)
  buf0 := read32 m (a + 12)
  buf1 := read32 m (a + 16)
  buf2 := read32 m (a + 20)
  buf3 := read32 m (a + 24)
  buf4 := read32 m (a + 28)

/-- The twelve words of a QH (R152, R350). -/
def readQh (m : Memory) (a : Word) : Qh where
  link := read32 m a
  epchar := read32 m (a + 4)
  epcap := read32 m (a + 8)
  current := read32 m (a + 12)
  ov := readQtd m (a + 16)

/-- The bytes of consecutive words. -/
def wordsBytes (ws : List Word) : List Byte := ws.flatMap wordBytes

/-- Words 3 to 11 of a QH. -/
def Qh.overlayWords (h : Qh) : List Word :=
  [h.current, h.ov.next, h.ov.alt, h.ov.token, h.ov.buf0, h.ov.buf1, h.ov.buf2, h.ov.buf3, h.ov.buf4]

/-- The memory writes of `flush_overlay`: QH words 3 to 11 at consecutive addresses from word 3 (R248). -/
def flushQh (m : Memory) (qhaddr : Word) (h : Qh) : Memory :=
  writeBytes m (qhaddr + 12) (wordsBytes h.overlayWords)

/-- The bytes of the segments, in order (R285). -/
def gatherBytes (m : Memory) : List Segment → List Byte
  | [] => []
  | g :: rest => readBytes m g.addr g.size ++ gatherBytes m rest

/-- The next bytes of `bs` into each segment, in order (R286). -/
def scatterBytes (m : Memory) : List Segment → List Byte → Memory
  | [], _ => m
  | g :: rest, bs => scatterBytes (writeBytes m g.addr (bs.take g.size)) rest (bs.drop g.size)

/-! ### The registers of a schedule (R15, R30) -/

/-- The copy of the per-schedule registers of schedule k. -/
def State.sched (s : State) : Sched → SchedRegs
  | .async => s.async
  | .periodic => s.periodic

/-- The state with that copy replaced. -/
def State.setSched (s : State) (k : Sched) (r : SchedRegs) : State :=
  match k with
  | .async => { s with async := r }
  | .periodic => { s with periodic := r }

/-- `state[k] <- a` (R31). -/
def State.setAuto (s : State) (k : Sched) (a : AutoState) : State :=
  s.setSched k { s.sched k with auto := a }

/-- `fetch_addr[k] <- w` (R32). -/
def State.setFetch (s : State) (k : Sched) (w : Word) : State :=
  s.setSched k { s.sched k with fetchAddr := w }

/-- `cur_queue[k] <- c` (R32). -/
def State.setCur (s : State) (k : Sched) (c : Option Word) : State :=
  s.setSched k { s.sched k with curQueue := c }

/-- `visits[k] <- n` (R30). -/
def State.setVisits (s : State) (k : Sched) (n : Nat) : State :=
  s.setSched k { s.sched k with visits := n }

/-- The descriptor cache of schedule k replaced (R34). -/
def State.setCache (s : State) (k : Sched) (c : List Queue) : State :=
  s.setSched k { s.sched k with cache := c }

/-- Something given out (log 26). -/
def State.emit (s : State) (o : Output) : State := { s with outbox := o :: s.outbox }

/-- Guest memory replaced. -/
def State.setMem (s : State) (m : Memory) : State := { s with mem := m }

/-- The reclamation flag (R401). -/
def State.setRecl (s : State) (b : Bool) : State := { s with recl := b }

/-- `RECL <- 1` where the schedule is the asynchronous one (R401, R372, R375). -/
def State.reclIfAsync (s : State) (k : Sched) : State :=
  match k with
  | .async => s.setRecl true
  | .periodic => s

/-! ### The descriptor cache as a finite map (R34) -/

/-- The Queue with a key. -/
def cacheFind : List Queue → Word → Option Queue
  | [], _ => none
  | q :: rest, a => if q.qhaddr = a then some q else cacheFind rest a

/-- The map with a Queue added or replaced at its key, keys rising. -/
def cachePut : List Queue → Queue → List Queue
  | [], q => [q]
  | r :: rest, q =>
    if q.qhaddr = r.qhaddr then q :: rest
    else if q.qhaddr.toNat < r.qhaddr.toNat then q :: r :: rest
    else r :: cachePut rest q

/-- The map without a key. -/
def cacheErase : List Queue → Word → List Queue
  | [], _ => []
  | q :: rest, a => if q.qhaddr = a then rest else q :: cacheErase rest a

/-- The Queue of schedule k at an address. -/
def State.queue? (s : State) (k : Sched) (a : Word) : Option Queue := cacheFind (s.sched k).cache a

/-- A Queue stored in the map of its own kind. -/
def State.putQueue (s : State) (q : Queue) : State := s.setCache q.kind (cachePut (s.sched q.kind).cache q)

/-- The Queue that `cur_queue[k]` refers to. -/
def State.current (s : State) (k : Sched) : Option Queue :=
  match (s.sched k).curQueue with
  | none => none
  | some a => s.queue? k a

/-- A new Queue (R230); its `<unset>` QH is written before it is ever read (log 11). -/
def newQueue (k : Sched) (a : Word) (ctr : Nat) : Queue where
  kind := k
  qhaddr := a
  qh := ⟨0, 0, 0, 0, ⟨0, 0, 0, 0, 0, 0, 0, 0⟩⟩
  seen := false
  lastSeen := ctr
  dev := none
  packets := []
  qtdaddr := 0

/-- `find_or_create_queue(k, a)` (R230): the Queue and whether it was created. -/
def State.findOrCreate (s : State) (k : Sched) (a : Word) : Queue × Bool :=
  match s.queue? k a with
  | some q => (q, false)
  | none => (newQueue k a s.uframeCtr, true)

/-- `mark_seen(q)` (R231). -/
def Queue.markSeen (q : Queue) (ctr : Nat) : Queue := { q with seen := true, lastSeen := ctr }

/-! ### Packets (R240 to R244) -/

/-- `find_packet(q, a)` (R240). -/
def findPacket : List Packet → Word → Option Packet
  | [], _ => none
  | p :: rest, a => if p.qtdaddr = a then some p else findPacket rest a

/-- A list without the Packet of an address (R243); by R241 there is at most one. -/
def dropPacket : List Packet → Word → List Packet
  | [], _ => []
  | p :: rest, a => if p.qtdaddr = a then rest else p :: dropPacket rest a

/-- A list with the Packet of an address replaced. -/
def replacePacket : List Packet → Packet → List Packet
  | [], _ => []
  | r :: rest, p => if r.qtdaddr = p.qtdaddr then p :: rest else r :: replacePacket rest p

/-- The Packet `allocate_packet` makes (R241). -/
def newPacket (a : Word) (d : Qtd) : Packet where
  qtdaddr := a
  qtd := d
  pid := tokPid d.token
  buf := []
  len := tokTotal d.token
  result := none
  count := 0
  tag := .uninit

/-- `allocate_packet(q, a, qtd)` (R241). -/
def Queue.allocate (q : Queue) (a : Word) (d : Qtd) : Queue := { q with packets := q.packets ++ [newPacket a d] }

/-- `free_packet(q, p)` (R243). -/
def Queue.freePacket (q : Queue) (p : Packet) : Queue := { q with packets := dropPacket q.packets p.qtdaddr }

/-- The Packet of a Queue stored back. -/
def Queue.putPacket (q : Queue) (p : Packet) : Queue := { q with packets := replacePacket q.packets p }

/-- `cancel_packet(q, p)` (R244): the device's cancel for an INFLIGHT Packet, then the Packet is dropped. -/
def cancelPacket (q : Queue) (p : Packet) (s : State) : Except Fault (Queue × State) :=
  if p.tag = .inflight then
    match q.dev with
    | none => .error .cancelNoDevice
    | some d => .ok (q.freePacket p, s.emit (.cancel d q.kind q.qhaddr p.qtdaddr))
  else .ok (q.freePacket p, s)

/-- `cancel_packet` for each Packet of a list, in order. -/
def cancelPackets : List Packet → Queue → State → Except Fault (Queue × State)
  | [], q, s => .ok (q, s)
  | p :: rest, q, s =>
    match cancelPacket q p s with
    | .error f => .error f
    | .ok (q', s') => cancelPackets rest q' s'

/-- `reset_queue(q)` (R242): every Packet cancelled, last first, and the device reference dropped. The caller stores
the Queue. -/
def resetQueue (q : Queue) (s : State) : Except Fault (Queue × State) :=
  match cancelPackets q.packets.reverse q s with
  | .error f => .error f
  | .ok (q', s') => .ok ({ q' with dev := none }, s')

/-- `free_queue(q)` (R251): reset, removed from its map, and no longer current. -/
def freeQueue (q : Queue) (s : State) : Except Fault State :=
  match resetQueue q s with
  | .error f => .error f
  | .ok (_, s1) =>
    let s2 := s1.setCache q.kind (cacheErase (s1.sched q.kind).cache q.qhaddr)
    if (s2.sched q.kind).curQueue = some q.qhaddr then .ok (s2.setCur q.kind none) else .ok s2

/-! ### Overlay (R245, R248) -/

/-- `flush_overlay(q)` (R248). -/
def flushOverlay (q : Queue) (s : State) : State := s.setMem (flushQh s.mem q.qhaddr q.qh)

/-- The overlay `load_overlay` makes of a qTD (R245): NakCnt from RL, the ping state kept at high speed, the toggle
kept where DTC = 0, C-prog-mask and FrameTag cleared. -/
def overlayOf (h : Qh) (d : Qtd) : Qtd :=
  let t1 := if epSpeed h.epchar = 0b10#2 then setBit d.token 0 (tokPing h.ov.token) else d.token
  let t2 := if epDtc h.epchar then t1 else setBit t1 31 (tokToggle h.ov.token)
  { next := d.next
    alt := (d.alt &&& ~~~0x1E#32) ||| ((epRl h.epchar).setWidth 32 <<< 1)
    token := t2
    buf0 := d.buf0
    buf1 := d.buf1 &&& ~~~0xFF#32
    buf2 := d.buf2 &&& ~~~0x1F#32
    buf3 := d.buf3
    buf4 := d.buf4 }

/-- The Queue `load_overlay(q, p)` leaves (R245), before its flush. -/
def Queue.loadOverlay (q : Queue) (p : Packet) : Queue :=
  { q with qh := { q.qh with current := p.qtdaddr, ov := overlayOf q.qh p.qtd } }

/-! ### Reaping (R246 to R250) -/

/-- `free_queue` for each Queue of a list that a test selects, in the list's order (log 13). -/
def freeQueues (sel : Queue → Bool) : List Queue → State → Except Fault State
  | [], s => .ok s
  | q :: rest, s =>
    if sel q then
      match freeQueue q s with
      | .error f => .error f
      | .ok s' => freeQueues sel rest s'
    else freeQueues sel rest s

/-- `reap_all(k)` (R250). -/
def reapAll (k : Sched) (s : State) : Except Fault State := freeQueues (fun _ => true) (s.sched k).cache s

/-- `reap_unseen(ASYNC)` (R247). -/
def reapUnseen (s : State) : Except Fault State := freeQueues (fun q => !q.seen) (s.sched .async).cache s

/-- `reap_device(dev)` (R249): both schedules. -/
def reapDevice (d : DevRef) (s : State) : Except Fault State :=
  match freeQueues (fun q => q.dev == some d) (s.sched .async).cache s with
  | .error f => .error f
  | .ok s' => freeQueues (fun q => q.dev == some d) (s'.sched .periodic).cache s'

/-- A Queue too old to keep: not seen for more than `QUEUE_MAX_AGE` microframes (R246). -/
def tooOld (s : State) (q : Queue) : Bool := decide (s.params.queueMaxAge < s.uframeCtr - q.lastSeen)

/-- The loop of `reap_unused` (R246) over the Queues of a list. -/
def reapUnusedList : List Queue → State → Except Fault State
  | [], s => .ok s
  | q :: rest, s =>
    if q.seen then reapUnusedList rest (s.putQueue { q with seen := false })
    else if tooOld s q then
      match freeQueue q s with
      | .error f => .error f
      | .ok s' => reapUnusedList rest s'
    else reapUnusedList rest s

/-- `reap_unused(k)` (R246). -/
def reapUnused (k : Sched) (s : State) : Except Fault State := reapUnusedList (s.sched k).cache s

/-! ### The port model's interface (D27, R541) -/

/-- `lookupDevice(addr)` (R354, D27). -/
def State.lookupDevice (s : State) (a : BitVec 7) : Option DevRef :=
  match s.devices.find? (fun e => e.1 == a) with
  | none => none
  | some e => some e.2

/-- The port model acts of its own accord: what its registers read as may differ from now on (R509, log 9). -/
def State.portActs (s : State) : State := { s with draws := s.draws + 1 }

/-- The port model's address map changes at one address (log 8). -/
def State.setDevice (s : State) (a : BitVec 7) (d : Option DevRef) : State :=
  let rest := s.devices.filter (fun e => e.1 != a)
  let map := match d with
    | none => rest
    | some d => (a, d) :: rest
  { s.portActs with devices := map }

/-- The port model drops its reference to a device (R541). -/
def State.dropDevice (s : State) (d : DevRef) : State :=
  { s.portActs with devices := s.devices.filter (fun e => e.2 != d) }

/-- The guest driver writes guest memory between entries (R113). -/
def State.guestWrite (s : State) (a : Word) (bs : List Byte) : State := s.setMem (writeBytes s.mem a bs).guestActs

/-! ### The controller reset and the Fatal (R530, R583) -/

/-- The registers of `controller_reset()` after both caches are flushed (R583, table of R581). `uframe_ctr` and
`diag_emitted` keep their values (D58); `in_entry` is false, because the entry that resets ends with it (R581). -/
def State.resetRegisters (s : State) : State :=
  { s with
    usbcmd := UsbCmd.reset
    usbsts := 0
    recl := false
    usbintr := 0
    frindex := 0
    periodicListBase := 0
    asyncListAddr := 0
    usbstsPending := 0
    nextCommit := 0
    lastRunUs := none
    inEntry := false
    async := { s.async with auto := .inactive, fetchAddr := 0, curQueue := none, visits := 0 }
    periodic := { s.periodic with auto := .inactive, fetchAddr := 0, curQueue := none, visits := 0 } }

/-- `controller_reset()` (R583): every Packet cancelled and every Queue freed, the registers at their reset values,
the port model reset. It reads and writes no guest memory. -/
def controllerReset (s : State) : Except Fault State :=
  match reapAll .async s with
  | .error f => .error f
  | .ok s1 => match reapAll .periodic s1 with
    | .error f => .error f
    | .ok s2 => .ok (s2.resetRegisters.emit .portReset)

/-- How a step of an entry ends early: by a Fatal raised in a state (R530), or by a fault of the model (R538). -/
inductive Stop where
  | fatal (r : FatalReason) (s : State)
  | fault (f : Fault)
deriving DecidableEq, Repr

/-- A fault of an operation inside an entry. -/
def orFault {α : Type} : Except Fault α → Except Stop α
  | .error f => .error (.fault f)
  | .ok a => .ok a

/-- `raise Fatal(reason)` (R530), the block's one exception: the entry has stopped in state `s`; the controller reset
runs and the entry ends. Nothing records the reason (R531) and there is no return (R533). -/
def takeFatal (_r : FatalReason) (s : State) : Except Fault State := controllerReset s

/-- The outcome of an operation that may fault. -/
def outcome : Except Fault State → Host.Outcome State Fault Refusal
  | .error f => .fault f
  | .ok s => .next s

/-- The outcome of an entry or of a step presented alone: a Fatal is taken (R530). -/
def finish : Except Stop State → Host.Outcome State Fault Refusal
  | .error (.fault f) => .fault f
  | .error (.fatal r s) => outcome (takeFatal r s)
  | .ok s => .next s

end Sys2Proof.Machine
end

