-- ==== Sys2Proof/Machine/Fatals.lean ====
section
/-! DEFINITION. Meanings of the Fatal rows (R530, R531): the exception is taken. The code is a label; nothing records
it (R531). -/

namespace Sys2Proof.Machine

/-- FATAL_ASYNC_TYPE (R341, R342, R530). -/
def execFatalAsyncType (s : State) : Host.Outcome State Fault Refusal := outcome (takeFatal .asyncType s)

/-- FATAL_FSTN (R446, R530). -/
def execFatalFstn (s : State) : Host.Outcome State Fault Refusal := outcome (takeFatal .fstn s)

/-- FATAL_RESERVED_PID (R280, R530). -/
def execFatalReservedPid (s : State) : Host.Outcome State Fault Refusal := outcome (takeFatal .reservedPid s)

/-- FATAL_PAGE_INDEX (R284, R530). -/
def execFatalPageIndex (s : State) : Host.Outcome State Fault Refusal := outcome (takeFatal .pageIndex s)

end Sys2Proof.Machine
end

