-- ==== Sys2Proof/Machine/Executor.lean ====
section
/-! DEFINITION. The transaction executor (`41_transaction_executor.md`): requests, submissions, immediate answers, and
the interpretation of results. -/

namespace Sys2Proof.Machine

/-! ### Building the request (R280 to R289) -/

/-- `direction(p)` (R280): the PID code, none where it is the reserved one. -/
def direction (p : Packet) : Option (BitVec 2) :=
  if tokPid p.qtd.token = pidReservedCode then none else some (tokPid p.qtd.token)

/-- Direction IN (R280). -/
def Packet.isIn (p : Packet) : Bool := tokPid p.qtd.token == pidInCode

/-- The request fields of a submission (R173, R287): the overlay's toggle, no data for IN. -/
def requestOf (q : Queue) (p : Packet) : Request where
  dir := tokPid p.qtd.token
  devAddr := epDevAddr q.qh.epchar
  endpoint := epEndpoint q.qh.epchar
  speed := epSpeed q.qh.epchar
  toggle := tokToggle q.qh.ov.token
  buf := if p.isIn then [] else p.buf
  len := tokTotal q.qh.ov.token

/-- The tag of a device answer (R174). -/
def answerResult : DevAnswer → ResultTag
  | .count _ => .count
  | .nak => .nak
  | .stall => .stall
  | .ioerror => .ioerror
  | .nodev => .nodev
  | .babble => .babble
  | .pending => .pending

/-- A Packet with its result (R288, R310): `COUNT(n)` records n, and for IN the bytes; the tag becomes FINISHED. -/
def Packet.settle (p : Packet) (r : DevAnswer) : Packet :=
  match r with
  | .count data =>
    { p with result := some .count, count := data.length, buf := if p.isIn then data else p.buf, tag := .finished }
  | r => { p with result := some (answerResult r), tag := .finished }

/-- The first lines of `COMPLETE` (R310): the Packet named must be INFLIGHT and the result one of tags 0 to 5; it
becomes FINISHED. -/
def deliver (c : Completion) (s : State) : Except Fault State :=
  match s.queue? c.kind c.qhaddr with
  | none => .error .completionNotInflight
  | some q => match findPacket q.packets c.qtdaddr with
    | none => .error .completionNotInflight
    | some p =>
      if p.tag ≠ .inflight then .error .completionNotInflight
      else if c.answer = .pending then .error .completionPending
      else .ok (s.putQueue (q.putPacket (p.settle c.answer)))

/-- Whether a completion names Packet p of Queue q (log 14). -/
def Completion.names (c : Completion) (q : Queue) (p : Packet) : Bool :=
  c.kind == q.kind && c.qhaddr == q.qhaddr && c.qtdaddr == p.qtdaddr

/-- The completions a device delivers inside the submit call of Packet p of Queue q (R311), in order. The first that
names p is p's immediate answer, `r` from then on; every other takes the first lines of R310, so that a second one for p
is the fault of a Packet that is not INFLIGHT. -/
def deliverAll (q : Queue) (p : Packet) : List Completion → Option DevAnswer → State →
    Except Fault (Option DevAnswer × State)
  | [], r, s => .ok (r, s)
  | c :: rest, r, s =>
    if r.isNone && c.names q p then
      if c.answer = .pending then .error .completionPending else deliverAll q p rest (some c.answer) s
    else
      match deliver c s with
      | .error f => .error f
      | .ok s' => deliverAll q p rest r s'

/-- The device's part of a submit call: the next answer lined up, or a draw (R290, U7, log 5). -/
def State.nextAnswer (s : State) : SubmitAnswer × State :=
  match s.answers with
  | a :: rest => (a, { s with answers := rest })
  | [] => (⟨[], Config.deviceAnswer s.draws⟩, { s with draws := s.draws + 1 })

/-- `submit` (R287) to device `d`: the request is given out, the device delivers its completions and returns an answer.
The immediate answer is the result the device completed p itself with, where it did, whatever it returns then (R311,
log 7). -/
def submit (d : DevRef) (q : Queue) (p : Packet) (s : State) : Except Fault (DevAnswer × State) :=
  let a := (s.emit (.submit d (requestOf q p))).nextAnswer
  match deliverAll q p a.1.completions none a.2 with
  | .error f => .error f
  | .ok (own, s') => .ok (own.getD a.1.answer, s')

/-- The answer EXECUTE gets: NODEV without a submission where the Queue has no device (R289), else the device's. -/
def answerFor (q : Queue) (p : Packet) (s : State) : Except Fault (DevAnswer × State) :=
  match q.dev with
  | none => .ok (.nodev, s)
  | some d => submit d q p s

/-- The PENDING step (R372): the overlay is flushed, RECL set in the asynchronous schedule, and the pass moves on. -/
def pendingStep (k : Sched) (q : Queue) (s : State) : State :=
  ((flushOverlay q s).reclIfAsync k).setAuto k .horizontalQh

/-- Immediate-answer handling (R288) and what follows it in EXECUTE (R370), for the Queue whose Packet p is. -/
def afterAnswer (k : Sched) (q : Queue) (p : Packet) (r : DevAnswer) (s : State) : State :=
  match r with
  | .pending =>
    let q' := q.putPacket { p with tag := .inflight }
    pendingStep k q' (s.putQueue q')
  | r => (s.putQueue (q.putPacket (p.settle r))).setAuto k .executing

/-! ### Interpreting the result (R300 to R308) -/

/-- The overlay after a success of `n` bytes (R300). -/
def overlayCount (h : Qh) (n : Nat) : Qh :=
  let off := h.ov.offset0.toNat
  { h with ov := { h.ov with
      token := tokCount h.ov.token (epMaxPkt h.epchar).toNat off n
      buf0 := bufSetOffset h.ov.buf0 (BitVec.ofNat 12 (off + n)) } }

/-- The Queue with its overlay token replaced. -/
def Queue.setToken (q : Queue) (t : Word) : Queue :=
  { q with qh := { q.qh with ov := { q.qh.ov with token := t } } }

/-- The interrupts of a success (R300, R301): USBINT where IOC = 1, or where an IN moved fewer bytes than asked. `t`
is the token after the update. -/
def successIrq (isIn : Bool) (t : Word) (s : State) : State :=
  if tokIoc t ∨ (isIn ∧ tokTotal t ≠ 0) then s.raiseIrq .usbint else s

/-- `COUNT(n)` with n ≤ TotalBytes (R300, R301): for IN the bytes are scattered from the position before the update
(R286). A walk that needs a page above 4 is the Fatal of R284; after EXECUTE's check it cannot happen. -/
def resultSuccess (q : Queue) (p : Packet) (n : Nat) (s : State) : Except Stop (Queue × State) :=
  let q' := { q with qh := overlayCount q.qh n }
  if p.isIn then
    match segments q.qh.ov n with
    | none => .error (.fatal .pageIndex s)
    | some segs =>
      .ok (q', successIrq true q'.qh.ov.token (s.setMem (scatterBytes s.mem segs p.buf)))
  else .ok (q', successIrq false q'.qh.ov.token s)

/-- `STALL` (R303). -/
def resultStall (q : Queue) (s : State) : Queue × State := (q.setToken (tokStall q.qh.ov.token), s.raiseIrq .usberrint)

/-- `IOERROR` (R304), and `NODEV`, which is identical (R305). -/
def resultIoerror (q : Queue) (s : State) : Queue × State :=
  (q.setToken (tokIoerror q.qh.ov.token), s.raiseIrq .usberrint)

/-- `BABBLE` (R306), and a COUNT above TotalBytes (R307). -/
def resultBabble (q : Queue) (s : State) : Queue × State := (q.setToken (tokBabble q.qh.ov.token), s.raiseIrq .usberrint)

/-- `COUNT(n)` (R300, R307): a success, or treated as BABBLE where n is above TotalBytes. -/
def resultCounted (q : Queue) (p : Packet) (n : Nat) (s : State) : Except Stop (Queue × State) :=
  if n ≤ (tokTotal q.qh.ov.token).toNat then resultSuccess q p n s else .ok (resultBabble q s)

/-- `process_result(q, p)` for a result other than NAK (R300 to R307); PENDING is never passed to it (R308). -/
def processResult (q : Queue) (p : Packet) (r : ResultTag) (s : State) : Except Stop (Queue × State) :=
  match r with
  | .count => resultCounted q p p.count s
  | .stall => .ok (resultStall q s)
  | .ioerror => .ok (resultIoerror q s)
  | .nodev => .ok (resultIoerror q s)
  | .babble => .ok (resultBabble q s)
  | .nak => .error (.fault .noPacket)
  | .pending => .error (.fault .noPacket)

/-- EXECUTING's end for a result other than NAK (R375): the interpreted Queue is stored and WRITEBACK follows. -/
def toWriteback (k : Sched) (x : Except Stop (Queue × State)) : Except Stop State :=
  match x with
  | .error e => .error e
  | .ok (q, s) => .ok ((s.putQueue q).setAuto k .writeback)

/-- EXECUTING's NAK (R302, R375): the Packet is freed, nothing else changes. -/
def nakStep (k : Sched) (q : Queue) (p : Packet) (s : State) : State :=
  (s.putQueue (q.freePacket p)).setAuto k .horizontalQh

/-- EXECUTING for a Packet with a result (R375). -/
def interpret (k : Sched) (q : Queue) (p : Packet) (s : State) : Except Stop State :=
  match p.result with
  | none => .error (.fault .noPacket)
  | some .nak => .ok (nakStep k q p s)
  | some r => toWriteback k (processResult q p r (s.reclIfAsync k))

end Sys2Proof.Machine
end

