-- ==== Sys2Proof/Machine/Walk.lean ====
section
/-! DEFINITION. The schedule walk (`42_schedule_walk.md`): the steps that both schedules share, the async-only and
periodic-only substeps inside them (R352, R403, R443), and `run`. -/

namespace Sys2Proof.Machine

/-! ### FETCH-ENTRY (R341) -/

/-- A link with T = 1: the pass ends (R341, D55). -/
def linkEndStep (k : Sched) (s : State) : State := s.setAuto k .active

/-- A link to a QH (R341). -/
def linkQhStep (k : Sched) (s : State) : State := s.setAuto k .fetchQh

/-- A link to an iTD: fatal in the asynchronous list (R341, R342). -/
def linkItdStep (k : Sched) (s : State) : Except Stop State :=
  match k with
  | .async => .error (.fatal .asyncType s)
  | .periodic => .ok (s.setAuto k .fetchItd)

/-- A link to an siTD: fatal in the asynchronous list (R341, R342). -/
def linkSitdStep (k : Sched) (s : State) : Except Stop State :=
  match k with
  | .async => .error (.fatal .asyncType s)
  | .periodic => .ok (s.setAuto k .fetchSitd)

/-- A link to an FSTN: fatal in either list (R341, R446). -/
def linkFstnStep (_k : Sched) (s : State) : Except Stop State := .error (.fatal .fstn s)

/-- The decode of a link pointer by FETCH-ENTRY (R341). -/
def linkStep (k : Sched) (lp : Word) (s : State) : Except Stop State :=
  if ptrT lp then .ok (linkEndStep k s)
  else if lp.extractLsb' 1 2 = 0b01#2 then .ok (linkQhStep k s)
  else if lp.extractLsb' 1 2 = 0b00#2 then linkItdStep k s
  else if lp.extractLsb' 1 2 = 0b10#2 then linkSitdStep k s
  else linkFstnStep k s

/-- A visit bound is exceeded: the pass ends, with the one-time diagnostic (R341, R352, D9, D36). -/
def boundExceeded (k : Sched) (s : State) : State := { s with diagEmitted := true }.setAuto k .active

/-- FETCH-ENTRY (R341). -/
def fetchEntry (k : Sched) (s : State) : Except Stop State :=
  match k with
  | .async => linkStep k (s.sched k).fetchAddr s
  | .periodic =>
    let s1 := s.setVisits k ((s.sched k).visits + 1)
    if s.params.maxPeriodicVisits < (s1.sched k).visits then .ok (boundExceeded k s1)
    else linkStep k (s1.sched k).fetchAddr s1

/-! ### FETCH-QH (R350 to R357, R403) -/

/-- The mismatch check (R353, D18). -/
def mismatch (s : State) (q : Queue) (fresh : Qh) : Bool :=
  epDevAddr q.qh.epchar != epDevAddr fresh.epchar ||
  epEndpoint q.qh.epchar != epEndpoint fresh.epchar ||
  q.qh.current != fresh.current || q.qh.ov != fresh.ov ||
  (q.dev.isSome && s.lookupDevice (epDevAddr fresh.epchar) != q.dev)

/-- Device resolution (R354). -/
def resolveDevice (s : State) (q : Queue) : Queue :=
  match q.dev with
  | none => { q with dev := s.lookupDevice (epDevAddr q.qh.epchar) }
  | some _ => q

/-- A halted overlay: the QH is skipped (R357). -/
def haltedStep (k : Sched) (s : State) : State := s.setAuto k .horizontalQh

/-- FETCH-QH's dispatch on the overlay (R357). -/
def dispatchQh (k : Sched) (q : Queue) (s : State) : State :=
  if tokHalted q.qh.ov.token then haltedStep k (s.putQueue q)
  else if tokActive q.qh.ov.token ∧ ptrT q.qh.current = false ∧ ptrAddr q.qh.current ≠ 0 then
    (s.putQueue { q with qtdaddr := ptrAddr q.qh.current }).setAuto k .fetchQtd
  else (s.putQueue q).setAuto k .advanceQueue

/-- FETCH-QH from the mismatch check on (R353, R354, R357), for a Queue already marked seen. -/
def checkQh (k : Sched) (q : Queue) (created : Bool) (fresh : Qh) (s : State) : Except Stop State :=
  let checked := if !created && mismatch s q fresh then resetQueue q s else .ok (q, s)
  match checked with
  | .error f => .error (.fault f)
  | .ok (q1, s1) => .ok (dispatchQh k (resolveDevice s1 { q1 with qh := fresh }) s1)

/-- FETCH-QH's visit of the QH that `fetch_addr` names (R350, R351, R403, R353 to R357). -/
def visitQh (k : Sched) (s : State) : Except Stop State :=
  let a := ptrAddr (s.sched k).fetchAddr
  let fresh := readQh s.mem a
  let fc := s.findOrCreate k a
  let q := fc.1.markSeen s.uframeCtr
  let s1 := (s.putQueue q).setCur k (some a)
  if k = .async ∧ epHead fresh.epchar then
    if s.recl then checkQh k q fc.2 fresh (s1.setRecl false) else .ok (s1.setAuto k .active)
  else checkQh k q fc.2 fresh s1

/-- FETCH-QH (R350): the async visit bound first (R352). -/
def fetchQh (k : Sched) (s : State) : Except Stop State :=
  match k with
  | .async =>
    let s1 := s.setVisits k ((s.sched k).visits + 1)
    if s.params.maxQhVisits < (s1.sched k).visits then .ok (boundExceeded k s1) else visitQh k s1
  | .periodic => visitQh k s

/-- FETCH-ITD and FETCH-SITD: follow word 0 (R444, R445). -/
def fetchStub (k : Sched) (s : State) : State :=
  (s.setFetch k (read32 s.mem (ptrAddr (s.sched k).fetchAddr))).setAuto k .fetchEntry

/-! ### ADVANCE-QUEUE and FETCH-QTD (R360 to R364) -/

/-- A step that works on the current Queue (R37, log 20). -/
def withCurrent (k : Sched) (s : State) (f : Queue → Except Stop State) : Except Stop State :=
  match s.current k with
  | none => .error (.fault .noCurrentQueue)
  | some q => f q

/-- ADVANCE-QUEUE (R360). -/
def advanceQueue (k : Sched) (s : State) : Except Stop State :=
  withCurrent k s fun q =>
    if tokTotal q.qh.ov.token ≠ 0 ∧ ptrT q.qh.ov.alt = false then
      .ok ((s.putQueue { q with qtdaddr := ptrAddr q.qh.ov.alt }).setAuto k .fetchQtd)
    else if ptrT q.qh.ov.next = false then
      .ok ((s.putQueue { q with qtdaddr := ptrAddr q.qh.ov.next }).setAuto k .fetchQtd)
    else .ok (s.setAuto k .horizontalQh)

/-- An inactive qTD: the pass moves to the next QH (R363). -/
def inactiveStep (k : Sched) (s : State) : State := s.setAuto k .horizontalQh

/-- FETCH-QTD's dispatch where no live Packet of the qTD is left (R363, R364, R443). -/
def dispatchNew (k : Sched) (q : Queue) (d : Qtd) (s : State) : State :=
  if tokActive d.token = false then inactiveStep k (s.putQueue q)
  else if k = .periodic ∧ smaskBit q.qh.epcap (s.frindex.extractLsb' 0 3) = false then
    (s.putQueue q).setAuto k .horizontalQh
  else if Config.pipelineDepth ≤ q.packets.length then (s.putQueue q).setAuto k .horizontalQh
  else (s.putQueue (q.allocate q.qtdaddr d)).setAuto k .execute

/-- FETCH-QTD's dispatch on the qTD `d` read at `q.qtdaddr` (R364). -/
def dispatchQtd (k : Sched) (q : Queue) (d : Qtd) (s : State) : Except Stop State :=
  match findPacket q.packets q.qtdaddr with
  | some p =>
    if p.qtd ≠ d then
      match resetQueue q s with
      | .error f => .error (.fault f)
      | .ok (q1, s1) => .ok (dispatchNew k q1 d s1)
    else match p.tag with
      | .inflight => .ok (s.setAuto k .horizontalQh)
      | .finished => .ok (s.setAuto k .executing)
      | .uninit => .ok (dispatchNew k q d s)
  | none =>
    if q.packets ≠ [] then
      match resetQueue q s with
      | .error f => .error (.fault f)
      | .ok (q1, s1) => .ok (dispatchNew k q1 d s1)
    else .ok (dispatchNew k q d s)

/-- FETCH-QTD (R362, R364). -/
def fetchQtd (k : Sched) (s : State) : Except Stop State :=
  withCurrent k s fun q => dispatchQtd k q (readQtd s.mem q.qtdaddr) s

/-! ### EXECUTE, EXECUTING, WRITEBACK, HORIZONTAL-QH (R370 to R385) -/

/-- EXECUTE on Packet p of Queue q (R370): both checks on the qTD copy, then the overlay is loaded and flushed, the
outbound bytes are gathered, the device answers, and the answer is handled. -/
def executePacket (k : Sched) (q : Queue) (p : Packet) (s : State) : Except Stop State :=
  match direction p with
  | none => .error (.fatal .reservedPid s)
  | some dir => match segments p.qtd p.len.toNat with
    | none => .error (.fatal .pageIndex s)
    | some segs =>
      let q1 := q.loadOverlay p
      let s1 := flushOverlay q1 s
      let p1 := if dir = pidInCode then p else { p with buf := gatherBytes s1.mem segs }
      match answerFor q1 p1 (s1.putQueue q1) with
      | .error f => .error (.fault f)
      | .ok (r, s2) => .ok (afterAnswer k q1 p1 r s2)

/-- A step that works on the current Queue's Packet at its current qTD, in a given tag (R36, R37, log 20). -/
def withPacket (k : Sched) (tag : PacketTag) (s : State) (f : Queue → Packet → Except Stop State) :
    Except Stop State :=
  withCurrent k s fun q =>
    match findPacket q.packets q.qtdaddr with
    | none => .error (.fault .noPacket)
    | some p => if p.tag = tag then f q p else .error (.fault .noPacket)

/-- EXECUTE (R370). -/
def execute (k : Sched) (s : State) : Except Stop State :=
  withPacket k .uninit s fun q p => executePacket k q p s

/-- EXECUTING (R375). -/
def executing (k : Sched) (s : State) : Except Stop State :=
  withPacket k .finished s fun q p => interpret k q p s

/-- The three words WRITEBACK stores at the qTD: next and alternate next as read, the token from the overlay (R380). -/
def writebackQtd (m : Memory) (p : Packet) (token : Word) : Memory :=
  write32 (write32 (write32 m p.qtdaddr p.qtd.next) (p.qtdaddr + 4) p.qtd.alt) (p.qtdaddr + 8) token

/-- Halt propagation (R381): every Packet left on a halted Queue is cancelled. -/
def haltPropagation (q : Queue) (s : State) : Except Fault (Queue × State) :=
  if tokHalted q.qh.ov.token then cancelPackets q.packets q s else .ok (q, s)

/-- WRITEBACK on Packet p of Queue q (R380, R381). -/
def writebackPacket (k : Sched) (q : Queue) (p : Packet) (s : State) : Except Stop State :=
  let s1 := s.setMem (writebackQtd s.mem p q.qh.ov.token)
  let s2 := flushOverlay q s1
  match haltPropagation (q.freePacket p) s2 with
  | .error f => .error (.fault f)
  | .ok (q3, s3) => .ok ((s3.putQueue q3).setAuto k .horizontalQh)

/-- WRITEBACK (R380). -/
def writeback (k : Sched) (s : State) : Except Stop State :=
  withPacket k .finished s fun q p => writebackPacket k q p s

/-- HORIZONTAL-QH (R385). -/
def horizontalQh (k : Sched) (s : State) : Except Stop State :=
  withCurrent k s fun q => .ok (((s.setFetch k q.qh.link).setCur k none).setAuto k .fetchEntry)

/-! ### WAIT-LIST-HEAD (R402) -/

/-- The head search: at most `n` queue heads from `a`, back to `start` or a T = 1 link ends it (R402, D10). -/
def findHead (m : Memory) (start : Word) : Nat → Word → Option Word
  | 0, _ => none
  | n + 1, a =>
    let w0 := read32 m a
    let w1 := read32 m (a + 4)
    if epHead w1 then some a
    else if ptrT w0 ∨ ptrAddr w0 = start then none
    else findHead m start n (ptrAddr w0)

/-- WAIT-LIST-HEAD (R402), of the asynchronous schedule only. -/
def waitListHead (s : State) : State :=
  let s1 := s.setRecl true
  let start := ptrAddr s.asyncListAddr
  match findHead s.mem start s.params.listHeadSearchLimit start with
  | some a => (s1.setFetch .async (qhLink a)).setAuto .async .fetchEntry
  | none => s1.setAuto .async .active

/-! ### Running a pass (R340) -/

/-- The step rule for `state[k]` (R340). INACTIVE and ACTIVE have none here: they end `run`. -/
def walkStep (k : Sched) (s : State) : Except Stop State :=
  match (s.sched k).auto with
  | .inactive => .ok s
  | .active => .ok s
  | .waitListHead => match k with
    | .async => .ok (waitListHead s)
    | .periodic => .error (.fault .wrongSchedule)
  | .fetchEntry => fetchEntry k s
  | .fetchQh => fetchQh k s
  | .fetchItd => match k with
    | .async => .error (.fault .wrongSchedule)
    | .periodic => .ok (fetchStub k s)
  | .fetchSitd => match k with
    | .async => .error (.fault .wrongSchedule)
    | .periodic => .ok (fetchStub k s)
  | .advanceQueue => advanceQueue k s
  | .fetchQtd => fetchQtd k s
  | .execute => execute k s
  | .executing => executing k s
  | .writeback => writeback k s
  | .horizontalQh => horizontalQh k s

/-- An automaton at rest: ACTIVE or INACTIVE (R31, R340). -/
def autoIdle : AutoState → Bool
  | .inactive => true
  | .active => true
  | .waitListHead => false
  | .fetchEntry => false
  | .fetchQh => false
  | .fetchItd => false
  | .fetchSitd => false
  | .advanceQueue => false
  | .fetchQtd => false
  | .execute => false
  | .executing => false
  | .writeback => false
  | .horizontalQh => false

/-- `run(k)` (R340), with a budget of steps. The budget of `passBudget` is never used up from the start of a pass
(R346, log 10). -/
def run (k : Sched) : Nat → State → Except Stop State
  | 0, s => if autoIdle (s.sched k).auto then .ok s else .error (.fault .passTooLong)
  | n + 1, s =>
    if autoIdle (s.sched k).auto then .ok s
    else match walkStep k s with
      | .error e => .error e
      | .ok s' => run k n s'

/-- Steps in which every pass ends: at most eight for each visit, the bound's own last visit, and the start
(R346 with its "six" read as the seven steps it lists, log 10). -/
def passBudget (k : Sched) (p : Params) : Nat :=
  match k with
  | .async => 8 * (p.maxQhVisits + 1) + 3
  | .periodic => 8 * (p.maxPeriodicVisits + 1) + 3

end Sys2Proof.Machine
end

