-- ==== Sys2Proof/Machine/Links.lean ====
section
/-! DEFINITION. Meanings of the link pointer rows and of the halted overlay token. A link pointer is what
`fetch_addr` holds when FETCH-ENTRY decodes it (R32, R341, R177): its meaning puts it there and takes the step that its
type selects. Only that: a link presented alone in the periodic schedule counts no visit and meets no visit bound, which
FETCH-ENTRY does before it decodes the link (DESIGN CHOICE, log 17). -/

namespace Sys2Proof.Machine

/-- LINK_END (R341, R150): T = 1 ends the pass. -/
def execLinkEnd (k : Sched) (rest : BitVec 31) (s : State) : Host.Outcome State Fault Refusal :=
  .next (linkEndStep k (s.setFetch k (linkEndWord rest)))

/-- LINK_ITD (R341, R444): FETCH-ITD in the periodic schedule, Fatal(ASYNC_TYPE) in the asynchronous one. -/
def execLinkItd (k : Sched) (addr : BitVec 27) (rsvd : BitVec 2) (s : State) : Host.Outcome State Fault Refusal :=
  finish (linkItdStep k (s.setFetch k (linkWord addr rsvd 0b00#2 0#1)))

/-- LINK_QH (R341, R350): FETCH-QH. `visits[PERIODIC]` is neither counted nor held to MAX_PERIODIC_VISITS (DESIGN CHOICE,
log 17). -/
def execLinkQh (k : Sched) (addr : BitVec 27) (rsvd : BitVec 2) (s : State) : Host.Outcome State Fault Refusal :=
  .next (linkQhStep k (s.setFetch k (linkWord addr rsvd 0b01#2 0#1)))

/-- LINK_SITD (R341, R445): FETCH-SITD in the periodic schedule, Fatal(ASYNC_TYPE) in the asynchronous one. -/
def execLinkSitd (k : Sched) (addr : BitVec 27) (rsvd : BitVec 2) (s : State) : Host.Outcome State Fault Refusal :=
  finish (linkSitdStep k (s.setFetch k (linkWord addr rsvd 0b10#2 0#1)))

/-- LINK_FSTN (R341, R446): Fatal(FSTN). -/
def execLinkFstn (k : Sched) (addr : BitVec 27) (rsvd : BitVec 2) (s : State) : Host.Outcome State Fault Refusal :=
  finish (linkFstnStep k (s.setFetch k (linkWord addr rsvd 0b11#2 0#1)))

/-- QH_HALTED (R357): the QH is skipped. The token itself is the overlay's, which FETCH-QH holds. -/
def execQhHalted (k : Sched) (_hi : BitVec 25) (_lo : BitVec 6) (s : State) : Host.Outcome State Fault Refusal :=
  .next (haltedStep k s)

end Sys2Proof.Machine
end

