-- ==== Sys2Proof/Machine/Registers.lean ====
section
/-! DEFINITION. Register access (`46_registers.md`): the effect of a read or write of each register, and the capability
block (R38). -/

namespace Sys2Proof.Machine

/-! ### The capability block (R38) -/

/-- HCCPARAMS as it reads: bits 0 and 1 are 0 (R38, D2, D13, log 25). -/
def hccparamsValue (p : Params) : Word := p.hccparams &&& 0xFFFFFFFC#32

/-- Byte `i` of a word, little-endian (R102). -/
def wordByte (w : Word) (i : Nat) : Byte := w.extractLsb' (8 * i) 8

/-- The capability image (R38): CAPLENGTH at 0, HCIVERSION at 2, HCSPARAMS at 4, HCCPARAMS at 8; the bytes it names no
register for are free (log 3). -/
def capabilityByte (p : Params) (i : Nat) : Byte :=
  if i = 0 then p.opregBase
  else if i = 2 ∨ i = 3 then wordByte (p.hciversion.setWidth 32) (i - 2)
  else if 4 ≤ i ∧ i < 8 then wordByte p.hcsparams (i - 4)
  else if 8 ≤ i ∧ i < 12 then wordByte (hccparamsValue p) (i - 8)
  else Config.capByte i

/-- The bytes of an access width (R500). -/
def widthBytes : Width → Nat
  | .w1 => 1
  | .w2 => 2
  | .w4 => 4

/-- The value read from the capability block, zero above the width (R500). -/
def capabilityValue (p : Params) (i : Nat) : Width → Word
  | .w1 => wordOf (capabilityByte p i) 0 0 0
  | .w2 => wordOf (capabilityByte p i) (capabilityByte p (i + 1)) 0 0
  | .w4 => wordOf (capabilityByte p i) (capabilityByte p (i + 1)) (capabilityByte p (i + 2)) (capabilityByte p (i + 3))

/-! ### Operational registers (R39) -/

def offUsbcmd : Word := 0x00
def offUsbsts : Word := 0x04
def offUsbintr : Word := 0x08
def offFrindex : Word := 0x0C
def offCtrldssegment : Word := 0x10
def offPeriodiclistbase : Word := 0x14
def offAsynclistaddr : Word := 0x18
def offConfigflag : Word := 0x40

/-- The offset of PORTSC(i) (R39). -/
def offPortsc (i : Nat) : Word := 0x44#32 + BitVec.ofNat 32 (4 * i)

/-- Whether an offset is that of a PORTSC(i) with i < `NUM_PORTS` (R39). -/
def isPortsc (p : Params) (off : Word) : Bool :=
  0x44 ≤ off.toNat && (off.toNat - 0x44) % 4 == 0 && decide ((off.toNat - 0x44) / 4 < p.numPorts)

/-! ### Writes (R502 to R509) -/

/-- The fields a USBCMD write stores (R502). -/
def usbcmdOf (v : Word) : UsbCmd where
  rs := v.getLsbD 0
  pse := v.getLsbD 4
  ase := v.getLsbD 5
  iaad := v.getLsbD 6
  itc := v.extractLsb' 16 8

/-- USBCMD write (R502): HCRESET resets the controller at once, and the other bits of such a write are discarded. -/
def writeUsbcmd (v : Word) (s : State) : Except Fault State :=
  if v.getLsbD 1 then controllerReset s else .ok { s with usbcmd := usbcmdOf v }

/-- USBSTS write: bits 5:0 are cleared by writing 1 (R503). -/
def writeUsbsts (v : Word) (s : State) : State := { s with usbsts := s.usbsts &&& ~~~(v.extractLsb' 0 6) }

/-- USBINTR write (R504). -/
def writeUsbintr (v : Word) (s : State) : State := { s with usbintr := v.extractLsb' 0 6 }

/-- FRINDEX write: only while HCH = 1 (R505, D47). -/
def writeFrindex (v : Word) (s : State) : State := if s.hch then { s with frindex := v.extractLsb' 0 14 } else s

/-- CTRLDSSEGMENT write: ignored (R506). -/
def writeCtrldssegment (_v : Word) (s : State) : State := s

/-- PERIODICLISTBASE write (R507). -/
def writePeriodiclistbase (v : Word) (s : State) : State := { s with periodicListBase := v &&& 0xFFFFF000#32 }

/-- ASYNCLISTADDR write (R508). -/
def writeAsynclistaddr (v : Word) (s : State) : State := { s with asyncListAddr := v &&& 0xFFFFFFE0#32 }

/-- CONFIGFLAG write: passed to the port model (R509, log 9). -/
def writeConfigflag (v : Word) (s : State) : State := s.emit (.portWrite offConfigflag v)

/-- PORTSC(i) write: passed to the port model where the port exists, else there is no register (R509, D52). -/
def writePortsc (i : Nat) (v : Word) (s : State) : State :=
  if i < s.params.numPorts then s.emit (.portWrite (offPortsc i) v) else s

/-- `write_op(off, v)` (R501 to R509); an offset without a register ignores the write (D52). -/
def writeOp (off v : Word) (s : State) : Except Fault State :=
  if off = offUsbcmd then writeUsbcmd v s
  else if off = offUsbsts then .ok (writeUsbsts v s)
  else if off = offUsbintr then .ok (writeUsbintr v s)
  else if off = offFrindex then .ok (writeFrindex v s)
  else if off = offCtrldssegment then .ok (writeCtrldssegment v s)
  else if off = offPeriodiclistbase then .ok (writePeriodiclistbase v s)
  else if off = offAsynclistaddr then .ok (writeAsynclistaddr v s)
  else if off = offConfigflag then .ok (writeConfigflag v s)
  else if isPortsc s.params off then .ok (writePortsc ((off.toNat - 0x44) / 4) v s)
  else .ok s

/-! ### Reads (R510) -/

/-- A Boolean as a one-bit field. -/
def bit (b : Bool) : BitVec 1 := BitVec.ofBool b

/-- USBCMD as it reads (R510, R40). -/
def usbcmdValue (c : UsbCmd) : Word :=
  0#8 ++ c.itc ++ 0#9 ++ bit c.iaad ++ bit c.ase ++ bit c.pse ++ 0#3 ++ bit c.rs

/-- USBSTS as it reads (R510, R41). -/
def usbstsValue (s : State) : Word :=
  0#16 ++ bit s.ass ++ bit s.pss ++ bit s.recl ++ bit s.hch ++ 0#6 ++ s.usbsts

/-- What the block has told the port model, newest first: the writes passed to it and its resets (log 9). -/
def portCalls : List Output → List PortCall
  | [] => []
  | .portWrite off v :: rest => .write off v :: portCalls rest
  | .portReset :: rest => .reset :: portCalls rest
  | .readValue _ _ :: rest => portCalls rest
  | .submit _ _ :: rest => portCalls rest
  | .cancel _ _ _ _ :: rest => portCalls rest

/-- The value of a read of the port model at an offset, a free value of the offset, of what the model has been told and
of the draw (R509, log 9). -/
def readPort (off : Word) (s : State) : Word × State :=
  (Config.portRead s.draws (portCalls s.outbox) off, { s with draws := s.draws + 1 })

/-- `read_op(off)` (R510). Only a read of the port model changes anything, the count of draws. -/
def readOpValue (off : Word) (s : State) : Word × State :=
  if off = offUsbcmd then (usbcmdValue s.usbcmd, s)
  else if off = offUsbsts then (usbstsValue s, s)
  else if off = offUsbintr then (s.usbintr.setWidth 32, s)
  else if off = offFrindex then (s.frindex.setWidth 32, s)
  else if off = offCtrldssegment then (0, s)
  else if off = offPeriodiclistbase then (s.periodicListBase, s)
  else if off = offAsynclistaddr then (s.asyncListAddr, s)
  else if off = offConfigflag ∨ isPortsc s.params off then readPort off s
  else (0, s)

/-- A read of an operational register with its value given out (R500, log 26). -/
def readOpEntry (off : Word) (s : State) : State :=
  let r := readOpValue off s
  r.2.emit (.readValue .w4 r.1)

end Sys2Proof.Machine
end

