-- ==== Sys2Proof/Machine/RegWrites.lean ====
section
/-! DEFINITION. Meanings of the register rows: the six rows of a USBCMD write, which are one write named by a bit it sets
(R502, log 19), the writes of the other operational registers (R503 to R509), and the read (R510). -/

namespace Sys2Proof.Machine

/-- USBCMD_HCRESET (R502, R583). -/
def execUsbcmdHcreset (hi : BitVec 30) (rs : BitVec 1) (s : State) : Host.Outcome State Fault Refusal :=
  outcome (writeUsbcmd (hcresetValue hi rs) s)

/-- USBCMD_RUN (R502, R43). -/
def execUsbcmdRun (hi : BitVec 30) (s : State) : Host.Outcome State Fault Refusal :=
  outcome (writeUsbcmd (runValue hi) s)

/-- USBCMD_PSE (R502, R440). -/
def execUsbcmdPse (hi : BitVec 27) (fls : BitVec 2) (s : State) : Host.Outcome State Fault Refusal :=
  outcome (writeUsbcmd (pseValue hi fls) s)

/-- USBCMD_ASE (R502, R404). -/
def execUsbcmdAse (hi : BitVec 26) (fls : BitVec 2) (s : State) : Host.Outcome State Fault Refusal :=
  outcome (writeUsbcmd (aseValue hi fls) s)

/-- USBCMD_IAAD (R502, R406). -/
def execUsbcmdIaad (hi : BitVec 25) (fls : BitVec 2) (s : State) : Host.Outcome State Fault Refusal :=
  outcome (writeUsbcmd (iaadValue hi fls) s)

/-- USBCMD_ITC (R502, R535). -/
def execUsbcmdItc (hi : BitVec 25) (fls : BitVec 2) (s : State) : Host.Outcome State Fault Refusal :=
  outcome (writeUsbcmd (itcValue hi fls) s)

/-- WRITE_USBSTS (R503). -/
def execWriteUsbsts (v : Word) (s : State) : Host.Outcome State Fault Refusal := .next (writeUsbsts v s)

/-- WRITE_USBINTR (R504). -/
def execWriteUsbintr (v : Word) (s : State) : Host.Outcome State Fault Refusal := .next (writeUsbintr v s)

/-- WRITE_FRINDEX (R505). -/
def execWriteFrindex (v : Word) (s : State) : Host.Outcome State Fault Refusal := .next (writeFrindex v s)

/-- WRITE_CTRLDSSEGMENT (R506). -/
def execWriteCtrldssegment (v : Word) (s : State) : Host.Outcome State Fault Refusal := .next (writeCtrldssegment v s)

/-- WRITE_PERIODICLISTBASE (R507). -/
def execWritePeriodiclistbase (v : Word) (s : State) : Host.Outcome State Fault Refusal :=
  .next (writePeriodiclistbase v s)

/-- WRITE_ASYNCLISTADDR (R508). -/
def execWriteAsynclistaddr (v : Word) (s : State) : Host.Outcome State Fault Refusal := .next (writeAsynclistaddr v s)

/-- WRITE_CONFIGFLAG (R509). -/
def execWriteConfigflag (v : Word) (s : State) : Host.Outcome State Fault Refusal := .next (writeConfigflag v s)

/-- WRITE_PORTSC (R509). -/
def execWritePortsc (port : BitVec 4) (v : Word) (s : State) : Host.Outcome State Fault Refusal :=
  .next (writePortsc port.toNat v s)

/-- READ_OP (R510). -/
def execReadOp (off : Word) (s : State) : Host.Outcome State Fault Refusal := .next (readOpEntry off s)

end Sys2Proof.Machine
end

