-- ==== Sys2Proof/Machine/Results.lean ====
section
/-! DEFINITION. Meanings of the device result rows: the result is the answer to the current Packet, which takes it (R288)
and is interpreted (R375, R300 to R307); PENDING leaves it in flight (R372) (log 17). -/

namespace Sys2Proof.Machine

/-- A result for the current Packet: it becomes FINISHED with it (R288) and `f` interprets it, after EXECUTING has set
RECL in the asynchronous schedule for a result other than NAK (R375, R401). A Packet in flight takes its result from
COMPLETE only (R310). R288 goes from UNINIT only; a Packet already FINISHED stays so (R36), the result presented replaces
the one recorded and is what `f` interprets (DESIGN CHOICE, log 17). -/
def answered (k : Sched) (r : DevAnswer) (s : State)
    (f : Queue → Packet → State → Except Stop (Queue × State)) : Except Stop State :=
  withCurrent k s fun q =>
    match findPacket q.packets q.qtdaddr with
    | none => .error (.fault .noPacket)
    | some p =>
      if p.tag = .inflight then .error (.fault .noPacket)
      else toWriteback k (f (q.putPacket (p.settle r)) (p.settle r) (s.reclIfAsync k))

/-- RESULT_COUNT (R300, R301): success with the bytes given. -/
def execResultCount (k : Sched) (data : List Byte) (s : State) : Host.Outcome State Fault Refusal :=
  finish (answered k (.count data) s fun q p s1 => resultCounted q p data.length s1)

/-- RESULT_NAK (R302): the Packet is freed and nothing else changes, whatever result a Packet already FINISHED has recorded
(DESIGN CHOICE, log 17). -/
def execResultNak (k : Sched) (s : State) : Host.Outcome State Fault Refusal :=
  finish (withCurrent k s fun q =>
    match findPacket q.packets q.qtdaddr with
    | none => .error (.fault .noPacket)
    | some p => if p.tag = .inflight then .error (.fault .noPacket) else .ok (nakStep k q p s))

/-- RESULT_STALL (R303). -/
def execResultStall (k : Sched) (s : State) : Host.Outcome State Fault Refusal :=
  finish (answered k .stall s fun q _ s1 => .ok (resultStall q s1))

/-- RESULT_IOERROR (R304). -/
def execResultIoerror (k : Sched) (s : State) : Host.Outcome State Fault Refusal :=
  finish (answered k .ioerror s fun q _ s1 => .ok (resultIoerror q s1))

/-- RESULT_NODEV (R305): as RESULT_IOERROR. -/
def execResultNodev (k : Sched) (s : State) : Host.Outcome State Fault Refusal :=
  finish (answered k .nodev s fun q _ s1 => .ok (resultIoerror q s1))

/-- RESULT_BABBLE (R306). -/
def execResultBabble (k : Sched) (s : State) : Host.Outcome State Fault Refusal :=
  finish (answered k .babble s fun q _ s1 => .ok (resultBabble q s1))

/-- RESULT_PENDING (R288, R372): the Packet, not yet submitted, goes in flight and the pass moves on. Only a device
answers so (R287, log 30). -/
def execResultPending (k : Sched) (s : State) : Host.Outcome State Fault Refusal :=
  finish (withPacket k .uninit s fun q p =>
    match q.dev with
    | none => .error (.fault .pendingNoDevice)
    | some _ => .ok (afterAnswer k q p .pending s))

/-- RESULT_COUNT_OVERLONG (R307): a count above TotalBytes is treated as BABBLE. -/
def execResultCountOverlong (k : Sched) (data : List Byte) (s : State) : Host.Outcome State Fault Refusal :=
  finish (answered k (.count data) s fun q p s1 =>
    if (tokTotal q.qh.ov.token).toNat < data.length then .ok (resultBabble q s1) else resultSuccess q p data.length s1)

end Sys2Proof.Machine
end

