-- ==== Sys2Proof/Machine/Async.lean ====
section
/-! DEFINITION. The asynchronous schedule (`43_async_schedule.md`): enable and disable, the start of a pass, the
doorbell, and the async step. -/

namespace Sys2Proof.Machine

/-- `USBCMD.RS = 1 ∧ USBCMD.ASE = 1` (R404). -/
def asyncEnabled (s : State) : Bool := s.usbcmd.rs && s.usbcmd.ase

/-- The enable and disable of R404. -/
def asyncEnable (s : State) : Except Fault State :=
  if s.async.auto = .inactive ∧ asyncEnabled s then .ok (s.setAuto .async .active)
  else if s.async.auto = .active ∧ asyncEnabled s = false then
    match reapAll .async s with
    | .error f => .error f
    | .ok s1 => .ok (s1.setAuto .async .inactive)
  else .ok s

/-- When an async pass may start (R404, D11). -/
def asyncCanStart (s : State) : Bool := s.async.auto == .active && !s.iaa && s.asyncListAddr != 0

/-- The start of an async pass (R404). -/
def asyncBegin (s : State) : State := ((s.setVisits .async 0).setCur .async none).setAuto .async .waitListHead

/-- The doorbell step (R406, D12). -/
def doorbell (s : State) : Except Fault State :=
  if s.usbcmd.iaad ∧ s.iaa = false then
    match reapUnseen s with
    | .error f => .error f
    | .ok s1 => .ok ({ s1 with usbcmd := { s1.usbcmd with iaad := false } }.raiseIrq .iaa)
  else .ok s

/-- What follows a pass in the async step: the doorbell, then `reap_unused` (R404, R406). -/
def asyncAfterPass (s : State) : Except Fault State :=
  match doorbell s with
  | .error f => .error f
  | .ok s1 => reapUnused .async s1

/-- `async_step()` (R404). -/
def asyncStep (s : State) : Except Stop State :=
  match asyncEnable s with
  | .error f => .error (.fault f)
  | .ok s1 =>
    if asyncCanStart s1 then
      match run .async (passBudget .async s1.params) (asyncBegin s1) with
      | .error e => .error e
      | .ok s2 => orFault (asyncAfterPass s2)
    else orFault (doorbell s1)

end Sys2Proof.Machine
end

