-- ==== Sys2Proof/Machine/Periodic.lean ====
section
/-! DEFINITION. The periodic schedule (`44_periodic_schedule.md`): enable and disable at a frame boundary, the start of
a microframe's pass, and the periodic step. -/

namespace Sys2Proof.Machine

/-- `USBCMD.RS = 1 ∧ USBCMD.PSE = 1` (R440). -/
def periodicEnabled (s : State) : Bool := s.usbcmd.rs && s.usbcmd.pse

/-- FRINDEX[2:0] = 0: a frame boundary (R440, R46). -/
def frameBoundary (s : State) : Bool := s.frindex.extractLsb' 0 3 == 0#3

/-- The enable and disable of R440. -/
def periodicEnable (s : State) : Except Fault State :=
  if frameBoundary s = false then .ok s
  else if s.periodic.auto = .inactive ∧ periodicEnabled s then .ok (s.setAuto .periodic .active)
  else if s.periodic.auto = .active ∧ periodicEnabled s = false then
    match reapAll .periodic s with
    | .error f => .error f
    | .ok s1 => .ok (s1.setAuto .periodic .inactive)
  else .ok s

/-- `PERIODICLISTBASE & 0xFFFFF000` (R441). -/
def periodicBase (s : State) : Word := s.periodicListBase &&& 0xFFFFF000#32

/-- The frame-list slot of the microframe: `base + 4 · FRINDEX[12:3]` (R441, R170). -/
def frameSlot (s : State) : Word := periodicBase s + ((s.frindex.extractLsb' 3 10).setWidth 32 <<< 2)

/-- When a periodic pass runs (R441). -/
def periodicCanStart (s : State) : Bool := s.periodic.auto == .active && periodicBase s != 0

/-- The start of a periodic pass (R441). -/
def periodicBegin (s : State) : State :=
  (((s.setFetch .periodic (read32 s.mem (frameSlot s))).setVisits .periodic 0).setCur .periodic none).setAuto
    .periodic .fetchEntry

/-- `periodic_step()` (R440, R441). -/
def periodicStep (s : State) : Except Stop State :=
  match periodicEnable s with
  | .error f => .error (.fault f)
  | .ok s1 =>
    if periodicCanStart s1 then
      match run .periodic (passBudget .periodic s1.params) (periodicBegin s1) with
      | .error e => .error e
      | .ok s2 => orFault (reapUnused .periodic s2)
    else .ok s1

end Sys2Proof.Machine
end

