-- ==== Sys2Proof/Machine/States.lean ====
section
/-! DEFINITION. Meanings of the automaton state rows (R176): the step rule of that state, performed once (R340), whatever
state the automaton is in. The step of INACTIVE is its enable, the step of ACTIVE its disable or the start of a pass; each
of these two first puts the automaton into that state (DESIGN CHOICE, log 18). -/

namespace Sys2Proof.Machine

/-- The enable and disable of a schedule (R404, R440). -/
def schedEnable (k : Sched) (s : State) : Except Fault State :=
  match k with
  | .async => asyncEnable s
  | .periodic => periodicEnable s

/-- The start of a pass where the schedule may start one (R404, R441). -/
def schedBegin (k : Sched) (s : State) : State :=
  match k with
  | .async => if asyncCanStart s then asyncBegin s else s
  | .periodic => if periodicCanStart s then periodicBegin s else s

/-- STATE_INACTIVE (R404, R440): from INACTIVE, whatever state it was in, the schedule becomes ACTIVE where it is enabled,
the periodic one on a frame boundary only; else it stays INACTIVE, and no Queue is reaped (DESIGN CHOICE, log 18). -/
def execStateInactive (k : Sched) (s : State) : Host.Outcome State Fault Refusal :=
  outcome (schedEnable k (s.setAuto k .inactive))

/-- STATE_ACTIVE (R404, R440, R441), from ACTIVE, whatever state it was in (DESIGN CHOICE, log 18): disabled, the schedule's Queues are freed and it becomes INACTIVE; else a pass
starts where one may. Only the start: the pass is walked by the steps that follow (log 33) and ends at ACTIVE, and neither
the doorbell step nor `reap_unused` of R404 and R441 comes after it, so that the marks of the Queues it saw stay (the
model's choice, log 18: R340 gives ACTIVE no step of its own). -/
def execStateActive (k : Sched) (s : State) : Host.Outcome State Fault Refusal :=
  outcome (match schedEnable k (s.setAuto k .active) with
    | .error f => .error f
    | .ok s1 => .ok (schedBegin k s1))

/-- STATE_WAIT_LIST_HEAD (R402). -/
def execStateWaitListHead (s : State) : Host.Outcome State Fault Refusal := .next (waitListHead s)

/-- STATE_FETCH_ENTRY (R341). -/
def execStateFetchEntry (k : Sched) (s : State) : Host.Outcome State Fault Refusal := finish (fetchEntry k s)

/-- STATE_FETCH_QH (R350 to R357, R403). -/
def execStateFetchQh (k : Sched) (s : State) : Host.Outcome State Fault Refusal := finish (fetchQh k s)

/-- STATE_FETCH_ITD (R444). -/
def execStateFetchItd (s : State) : Host.Outcome State Fault Refusal := .next (fetchStub .periodic s)

/-- STATE_FETCH_SITD (R445). -/
def execStateFetchSitd (s : State) : Host.Outcome State Fault Refusal := .next (fetchStub .periodic s)

/-- STATE_ADVANCE_QUEUE (R360). -/
def execStateAdvanceQueue (k : Sched) (s : State) : Host.Outcome State Fault Refusal := finish (advanceQueue k s)

/-- STATE_FETCH_QTD (R362 to R364). -/
def execStateFetchQtd (k : Sched) (s : State) : Host.Outcome State Fault Refusal := finish (fetchQtd k s)

/-- STATE_EXECUTE (R370). -/
def execStateExecute (k : Sched) (s : State) : Host.Outcome State Fault Refusal := finish (execute k s)

/-- STATE_EXECUTING (R375). -/
def execStateExecuting (k : Sched) (s : State) : Host.Outcome State Fault Refusal := finish (executing k s)

/-- STATE_WRITEBACK (R380, R381). -/
def execStateWriteback (k : Sched) (s : State) : Host.Outcome State Fault Refusal := finish (writeback k s)

/-- STATE_HORIZONTAL_QH (R385). -/
def execStateHorizontalQh (k : Sched) (s : State) : Host.Outcome State Fault Refusal := finish (horizontalQh k s)

end Sys2Proof.Machine
end

