-- ==== Sys2Proof/Machine/Timer.lean ====
section
/-! DEFINITION. The frame timer (`45_frame_timer.md`): the frame index, skipped and processed microframes, and the
tick; and the re-run that a completion starts (R310). -/

namespace Sys2Proof.Machine

/-- `advance_frindex()` (R473): FLR each time the frame-list index wraps (R474, D57). -/
def advanceFrindex (s : State) : State :=
  let f := s.frindex + 1
  let s1 := { s with frindex := f }
  if f.extractLsb' 0 13 = 0#13 then s1.raiseIrq .flr else s1

/-- The accounting of one microframe: the frame index while HCH = 0, and the counter (R471, R472). -/
def accountMicroframe (s : State) : State :=
  let s1 := if s.hch then s else advanceFrindex s
  { s1 with uframeCtr := s1.uframeCtr + 1 }

/-- Skipped microframes (R471). -/
def skipMicroframes : Nat → State → State
  | 0, s => s
  | n + 1, s => skipMicroframes n (accountMicroframe s)

/-- The loop over processed microframes (R472): `left` are to come, `i` are done. It answers how many were done. -/
def processMicroframes : (left i : Nat) → State → Except Stop (Nat × State)
  | 0, i, s => .ok (i, s)
  | left + 1, i, s =>
    let s1 := s.thresholdCommit
    if s1.params.minUfrPerTick ≤ i ∧ s1.irq then .ok (i, s1)
    else match periodicStep (accountMicroframe s1) with
      | .error e => .error e
      | .ok s2 => processMicroframes left (i + 1) s2

/-- The async step and the final commit, the end of a tick and of a completion's re-run (R310, R472). -/
def asyncAndCommit (s : State) : Except Stop State :=
  match asyncStep s with
  | .error e => .error e
  | .ok s1 => .ok { s1.commitAll with inEntry := false }

/-- The time the tick starts to account from: `last_run_us`, or `now` where it is unset (R470). -/
def tickBase (now : Nat) (s : State) : Nat := s.lastRunUs.getD now

/-- Whether a tick's time goes back: before `last_run_us` (R470), or before the time of the last tick (D56, U10, R538,
log 36). -/
def timeGoesBack (now : Nat) (s : State) : Bool :=
  decide (now < tickBase now s) || decide (now < s.lastTickUs.getD now)

/-- Elapsed microframes (R471). -/
def tickElapsed (now : Nat) (s : State) : Nat := (now - tickBase now s) / Config.uframeUs

/-- The time up to which a tick accounts (R471). -/
def tickUpTo (now : Nat) (s : State) : Nat := tickBase now s + tickElapsed now s * Config.uframeUs

/-- The start of a tick (R471, R472). Its time is kept for the test of the next tick (log 36). -/
def tickStart (now : Nat) (s : State) : State :=
  { s with inEntry := true, lastRunUs := some (tickUpTo now s), lastTickUs := some now }

/-- `tick(now)` (R472). -/
def tickEntry (now : Nat) (s : State) : Except Stop State :=
  let n := tickElapsed now s
  let s2 := skipMicroframes (n - s.params.maxUfrPerTick) (tickStart now s)
  let todo := min n s.params.maxUfrPerTick
  match processMicroframes todo 0 s2 with
  | .error e => .error e
  | .ok (i, s3) => asyncAndCommit { s3 with lastRunUs := some (tickUpTo now s - (todo - i) * Config.uframeUs) }

/-- `COMPLETE(p, r, n)` (R310): the Packet is finished, and outside an entry a completion of an asynchronous Packet
runs the async step once (D51). -/
def completeEntry (c : Completion) (s : State) : Except Stop State :=
  match deliver c s with
  | .error f => .error (.fault f)
  | .ok s1 =>
    if s1.inEntry = false ∧ c.kind = .async then asyncAndCommit { s1 with inEntry := true } else .ok s1

end Sys2Proof.Machine
end

