-- ==== Sys2Proof/Machine/Stimuli.lean ====
section
/-! DEFINITION. Meanings of the stimuli (R175): each runs to its end (R10). -/

namespace Sys2Proof.Machine

/-- An access to the operational block the spec gives a meaning: 4 bytes wide at a 4-aligned offset (R105, R500). -/
def opAccess (offset : Word) (w : Width) : Bool := w == .w4 && offset.toNat % 4 == 0

/-- A read of the capability block the spec gives a meaning: aligned and inside the block (R500). -/
def capAccess (p : Params) (offset : Word) (w : Width) : Bool :=
  offset.toNat % widthBytes w == 0 && decide (offset.toNat + widthBytes w ≤ p.opregBase.toNat)

/-- The operational offset of a window offset (R39, R500). -/
def opOffset (p : Params) (offset : Word) : Word := offset - p.opregBase.setWidth 32

/-- MMIO_READ (R500). -/
def execMmioRead (offset : Word) (w : Width) (s : State) : Host.Outcome State Fault Refusal :=
  if offset.toNat < s.params.opregBase.toNat then
    if capAccess s.params offset w then .next (s.emit (.readValue w (capabilityValue s.params offset.toNat w)))
    else .refused .capabilityAccess
  else if opAccess offset w then .next (readOpEntry (opOffset s.params offset) s)
  else .refused .narrowAccess

/-- MMIO_WRITE (R501): the capability block ignores writes. -/
def execMmioWrite (offset : Word) (w : Width) (value : Word) (s : State) : Host.Outcome State Fault Refusal :=
  if offset.toNat < s.params.opregBase.toNat then .next s
  else if opAccess offset w then outcome (writeOp (opOffset s.params offset) value s)
  else .refused .narrowAccess

/-- TICK (R470, R472, R538): a decreasing time is refused, one before `last_run_us` and one before the last tick's time,
which a remainder or owed microframes leave above `last_run_us` (R471, R472, D56, log 36). -/
def execTick (now : Nat) (s : State) : Host.Outcome State Fault Refusal :=
  if timeGoesBack now s then .refused .tickBackwards else finish (tickEntry now s)

/-- COMPLETE (R310). -/
def execComplete (k : Sched) (qh qtd : Word) (r : DevAnswer) (s : State) : Host.Outcome State Fault Refusal :=
  finish (completeEntry ⟨k, qh, qtd, r⟩ s)

/-- DEVICE_REMOVE (R541): the device's Queues are freed in both schedules, then the port model drops it. -/
def execDeviceRemove (dev : DevRef) (s : State) : Host.Outcome State Fault Refusal :=
  outcome (match reapDevice dev s with
    | .error f => .error f
    | .ok s1 => .ok (s1.dropDevice dev))

/-- PORT_CHANGE (R542): PCD is raised at once. The port model's registers have changed (log 9). -/
def execPortChange (s : State) : Host.Outcome State Fault Refusal := .next (s.portActs.raiseIrq .pcd)

/-- POWER_ON (R580): the engine is constructed; every piece of its state takes the power-on value of R581. Guest memory,
the port model's address map, the parameters and what the environment holds are not the engine's (R56, log 23). The engine
constructed has had no tick yet (log 36). -/
def execPowerOn (s : State) : Host.Outcome State Fault Refusal :=
  .next ({ State.reset with
    params := s.params
    mem := s.mem
    devices := s.devices
    answers := s.answers
    draws := s.draws
    inbox := s.inbox
    outbox := s.outbox }.emit .portReset)

end Sys2Proof.Machine
end

