-- ==== Sys2Proof/Machine/Tokens.lean ====
section
/-! DEFINITION. Meanings of the qTD token rows (R177). An inactive token is what FETCH-QTD dispatches on (R364); an
active one carries the PID code that EXECUTE decodes (R280, R370). The word presented is the token of the current qTD;
its other words are those in guest memory or in the Packet (log 17). -/

namespace Sys2Proof.Machine

/-- A Packet with the token presented (R241). -/
def Packet.withToken (p : Packet) (t : Word) : Packet :=
  { p with qtd := { p.qtd with token := t }, pid := tokPid t, len := tokTotal t }

/-- EXECUTE (R370) on the current Packet with the token presented. -/
def executeToken (k : Sched) (t : Word) (s : State) : Except Stop State :=
  withPacket k .uninit s fun q p => executePacket k q (p.withToken t) s

/-- QTD_INACTIVE (R363, R364): FETCH-QTD's dispatch; without a live Packet the pass moves on without executing. -/
def execQtdInactive (k : Sched) (pid : BitVec 2) (t : TokenOps) (s : State) : Host.Outcome State Fault Refusal :=
  finish (withCurrent k s fun q => dispatchQtd k q { readQtd s.mem q.qtdaddr with token := t.word pid 0#1 } s)

/-- PID_OUT (R280, R285, R370): the buffer is read and submitted. -/
def execPidOut (k : Sched) (t : TokenOps) (s : State) : Host.Outcome State Fault Refusal :=
  finish (executeToken k (t.word pidOutCode 1#1) s)

/-- PID_IN (R280, R286, R370): a request without data is submitted; the data is written at EXECUTING. -/
def execPidIn (k : Sched) (t : TokenOps) (s : State) : Host.Outcome State Fault Refusal :=
  finish (executeToken k (t.word pidInCode 1#1) s)

/-- PID_SETUP (R280, R285, R370): moves data as OUT does. -/
def execPidSetup (k : Sched) (t : TokenOps) (s : State) : Host.Outcome State Fault Refusal :=
  finish (executeToken k (t.word pidSetupCode 1#1) s)

/-- PID_RESERVED (R280, R370): Fatal(RESERVED_PID). -/
def execPidReserved (k : Sched) (t : TokenOps) (s : State) : Host.Outcome State Fault Refusal :=
  finish (executeToken k (t.word pidReservedCode 1#1) s)

end Sys2Proof.Machine
end

