-- ==== Sys2Proof/Machine/Dispatch.lean ====
section
/-! DEFINITION. The dispatch: one arm for each constructor of `Instr`. -/

namespace Sys2Proof.Machine

def exec (i : Instr) (s : State) : Host.Outcome State Fault Refusal :=
  match i with
  | .linkEnd k rest => Sys2Proof.Machine.execLinkEnd k rest s
  | .linkItd k addr rsvd => Sys2Proof.Machine.execLinkItd k addr rsvd s
  | .linkQh k addr rsvd => Sys2Proof.Machine.execLinkQh k addr rsvd s
  | .linkSitd k addr rsvd => Sys2Proof.Machine.execLinkSitd k addr rsvd s
  | .linkFstn k addr rsvd => Sys2Proof.Machine.execLinkFstn k addr rsvd s
  | .qtdInactive k pid t => Sys2Proof.Machine.execQtdInactive k pid t s
  | .pidOut k t => Sys2Proof.Machine.execPidOut k t s
  | .pidIn k t => Sys2Proof.Machine.execPidIn k t s
  | .pidSetup k t => Sys2Proof.Machine.execPidSetup k t s
  | .pidReserved k t => Sys2Proof.Machine.execPidReserved k t s
  | .qhHalted k hi lo => Sys2Proof.Machine.execQhHalted k hi lo s
  | .resultCount k data => Sys2Proof.Machine.execResultCount k data s
  | .resultNak k => Sys2Proof.Machine.execResultNak k s
  | .resultStall k => Sys2Proof.Machine.execResultStall k s
  | .resultIoerror k => Sys2Proof.Machine.execResultIoerror k s
  | .resultNodev k => Sys2Proof.Machine.execResultNodev k s
  | .resultBabble k => Sys2Proof.Machine.execResultBabble k s
  | .resultPending k => Sys2Proof.Machine.execResultPending k s
  | .resultCountOverlong k data => Sys2Proof.Machine.execResultCountOverlong k data s
  | .mmioRead offset width => Sys2Proof.Machine.execMmioRead offset width s
  | .mmioWrite offset width value => Sys2Proof.Machine.execMmioWrite offset width value s
  | .tick now => Sys2Proof.Machine.execTick now s
  | .complete k qh qtd r => Sys2Proof.Machine.execComplete k qh qtd r s
  | .deviceRemove dev => Sys2Proof.Machine.execDeviceRemove dev s
  | .portChange => Sys2Proof.Machine.execPortChange s
  | .powerOn => Sys2Proof.Machine.execPowerOn s
  | .stateInactive k => Sys2Proof.Machine.execStateInactive k s
  | .stateActive k => Sys2Proof.Machine.execStateActive k s
  | .stateWaitListHead => Sys2Proof.Machine.execStateWaitListHead s
  | .stateFetchEntry k => Sys2Proof.Machine.execStateFetchEntry k s
  | .stateFetchQh k => Sys2Proof.Machine.execStateFetchQh k s
  | .stateFetchItd => Sys2Proof.Machine.execStateFetchItd s
  | .stateFetchSitd => Sys2Proof.Machine.execStateFetchSitd s
  | .stateAdvanceQueue k => Sys2Proof.Machine.execStateAdvanceQueue k s
  | .stateFetchQtd k => Sys2Proof.Machine.execStateFetchQtd k s
  | .stateExecute k => Sys2Proof.Machine.execStateExecute k s
  | .stateExecuting k => Sys2Proof.Machine.execStateExecuting k s
  | .stateWriteback k => Sys2Proof.Machine.execStateWriteback k s
  | .stateHorizontalQh k => Sys2Proof.Machine.execStateHorizontalQh k s
  | .usbcmdHcreset hi rs => Sys2Proof.Machine.execUsbcmdHcreset hi rs s
  | .usbcmdRun hi => Sys2Proof.Machine.execUsbcmdRun hi s
  | .usbcmdPse hi fls => Sys2Proof.Machine.execUsbcmdPse hi fls s
  | .usbcmdAse hi fls => Sys2Proof.Machine.execUsbcmdAse hi fls s
  | .usbcmdIaad hi fls => Sys2Proof.Machine.execUsbcmdIaad hi fls s
  | .usbcmdItc hi fls => Sys2Proof.Machine.execUsbcmdItc hi fls s
  | .writeUsbsts value => Sys2Proof.Machine.execWriteUsbsts value s
  | .writeUsbintr value => Sys2Proof.Machine.execWriteUsbintr value s
  | .writeFrindex value => Sys2Proof.Machine.execWriteFrindex value s
  | .writeCtrldssegment value => Sys2Proof.Machine.execWriteCtrldssegment value s
  | .writePeriodiclistbase value => Sys2Proof.Machine.execWritePeriodiclistbase value s
  | .writeAsynclistaddr value => Sys2Proof.Machine.execWriteAsynclistaddr value s
  | .writeConfigflag value => Sys2Proof.Machine.execWriteConfigflag value s
  | .writePortsc port value => Sys2Proof.Machine.execWritePortsc port value s
  | .readOp off => Sys2Proof.Machine.execReadOp off s
  | .fatalAsyncType => Sys2Proof.Machine.execFatalAsyncType s
  | .fatalFstn => Sys2Proof.Machine.execFatalFstn s
  | .fatalReservedPid => Sys2Proof.Machine.execFatalReservedPid s
  | .fatalPageIndex => Sys2Proof.Machine.execFatalPageIndex s

end Sys2Proof.Machine
end

