-- ==== Sys2Proof/Machine/Fetch.lean ====
section
/-! DEFINITION. Where the next instruction comes from: an automaton in the middle of a walk runs on (R10, R340), and with
both at rest the next item of the inbox is taken (log 4, log 33). -/

namespace Sys2Proof.Machine

/-- The schedule whose automaton is in the middle of a walk, if one is. -/
def State.walking (s : State) : Option Sched :=
  if autoIdle s.periodic.auto = false then some .periodic
  else if autoIdle s.async.auto = false then some .async
  else none

/-- What a fetch finds: a message, with the state that has given it out, or nothing to decode, with the state that
follows (R9: the engine runs only when a stimulus arrives). -/
inductive Fetched where
  | message (m : Message) (s : State)
  | quiet (s : State)
deriving DecidableEq, Repr

/-- The fetch from the inbox: a message, or an action of the environment (R113, log 4, log 8), or nothing. -/
def fetchInbox (s : State) : Fetched :=
  match s.inbox with
  | [] => .quiet s
  | .msg m :: rest => .message m { s with inbox := rest }
  | .guestWrite a bs :: rest => .quiet ({ s with inbox := rest }.guestWrite a bs)
  | .setDevice a d :: rest => .quiet ({ s with inbox := rest }.setDevice a d)

/-- The fetch. -/
def State.fetch (s : State) : Fetched :=
  match s.walking with
  | some k => .message (stateMsg k (s.sched k).auto) s
  | none => fetchInbox s

/-- Both automata at rest, so that the inbox is fetched from. -/
def State.atRest (s : State) : State :=
  let s1 := if autoIdle s.async.auto then s else s.setAuto .async .active
  if autoIdle s1.periodic.auto then s1 else s1.setAuto .periodic .active

/-- A current Queue for schedule k with one Packet in a given tag, or with none, for a row that works on one. -/
def State.withWork (s : State) (k : Sched) (dev : Option DevRef) (tag : Option PacketTag) : State :=
  let d : Qtd := ⟨0, 0, 0, 0, 0, 0, 0, 0⟩
  let p : PacketTag → Packet := fun t =>
    { newPacket 0 d with tag := t, result := if t = .finished then some .count else none }
  let q := { newQueue k 0 s.uframeCtr with
    dev := dev
    packets := match tag with
      | none => []
      | some t => [p t] }
  (s.putQueue q).setCur k (some 0)

/-- The state in which a row can run: where it works on the current Queue or Packet, there is one (log 34). -/
def State.prepare (s : State) : Instr → State
  | .qtdInactive k _ _ => s.withWork k none none
  | .pidOut k _ => s.withWork k none (some .uninit)
  | .pidIn k _ => s.withWork k none (some .uninit)
  | .pidSetup k _ => s.withWork k none (some .uninit)
  | .pidReserved k _ => s.withWork k none (some .uninit)
  | .resultCount k _ => s.withWork k none (some .finished)
  | .resultNak k => s.withWork k none (some .finished)
  | .resultStall k => s.withWork k none (some .finished)
  | .resultIoerror k => s.withWork k none (some .finished)
  | .resultNodev k => s.withWork k none (some .finished)
  | .resultBabble k => s.withWork k none (some .finished)
  | .resultPending k => s.withWork k (some 0) (some .uninit)
  | .resultCountOverlong k _ => s.withWork k none (some .finished)
  | .stateAdvanceQueue k => s.withWork k none none
  | .stateFetchQtd k => s.withWork k none none
  | .stateExecute k => s.withWork k none (some .uninit)
  | .stateExecuting k => s.withWork k none (some .finished)
  | .stateWriteback k => s.withWork k none (some .finished)
  | .stateHorizontalQh k => s.withWork k none none
  | _ => s

/-- The state that a bare word of the opcode table needs beside the word itself. -/
def State.prepareWord (s : State) (nbits w : Nat) : State :=
  match decodeTableWord nbits w with
  | none => s.atRest
  | some i => (s.prepare i).atRest

end Sys2Proof.Machine
end

