-- ==== Sys2Proof/Machine/Step.lean ====
section
/-! DEFINITION. The step function: fetch, decode, execute. -/

namespace Sys2Proof.Machine

/-- One step. With nothing to decode, the state that the fetch leaves: the engine runs only when a stimulus arrives
(R9). A message the decoder refuses has no meaning. -/
def step (s : State) : Host.Outcome State Fault Refusal :=
  match s.fetch with
  | .quiet s' => .next s'
  | .message m s' =>
    match decode m with
    | .ok i => exec i s'
    | .error _ => .refused .undecodable

/-- The state with a bare word of the opcode table as the first item of the inbox, both automata at rest, and the
Queue and Packet that the row works on, if it works on one (log 15, log 34). -/
def State.withFetchWord (s : State) (nbits w : Nat) : State :=
  let s1 := s.prepareWord nbits w
  { s1 with inbox := .msg (tableMessage nbits w) :: s1.inbox }

end Sys2Proof.Machine
end

