-- ==== Sys2Proof/Safety.lean ====
section
/-! DEFINITION. What counts as a safe run, in the terms the statements use: the invariant of the block's state, the
automata at rest, and the state a controller reset leaves. -/

namespace Sys2Proof.Machine

/-- A Packet agrees with its tag (R36): in flight only with a device to complete or cancel it (R244, R287), finished
with a result other than PENDING (R288, R310). -/
def packetOk (dev : Option DevRef) (p : Packet) : Bool :=
  match p.tag with
  | .uninit => true
  | .inflight => dev.isSome
  | .finished => p.result != none && p.result != some .pending

/-- A Queue of schedule k is stored under its own kind and a 32-byte aligned key (R34), holds at most one Packet
(R292), and was not last seen in the future (R52). -/
def queueOk (ctr : Nat) (k : Sched) (q : Queue) : Bool :=
  q.kind == k && ptrAddr q.qhaddr == q.qhaddr && decide (q.packets.length ≤ Config.pipelineDepth) &&
  decide (q.lastSeen ≤ ctr) && q.packets.all (packetOk q.dev)

/-- The keys of a cache rise: a finite map in one form (R34). -/
def cacheRising : List Queue → Bool
  | [] => true
  | q :: rest => rest.all (fun r => decide (q.qhaddr.toNat < r.qhaddr.toNat)) && cacheRising rest

/-- The registers of a schedule: its cache is a map of good Queues, and `cur_queue` refers to one of them (R32, R251). -/
def schedOk (ctr : Nat) (k : Sched) (r : SchedRegs) : Bool :=
  cacheRising r.cache && r.cache.all (queueOk ctr k) &&
  (match r.curQueue with
    | none => true
    | some a => (cacheFind r.cache a).isSome)

/-- The read-only bits of the two list registers are 0 (R48, R49). -/
def regsOk (s : State) : Bool := s.periodicListBase &&& 0xFFF#32 == 0#32 && s.asyncListAddr &&& 0x1F#32 == 0#32

/-- The invariant of the block: memory in its one form, the list registers' read-only bits 0, both schedules good. -/
def Inv (s : State) : Bool :=
  Memory.wf s.mem && regsOk s && schedOk s.uframeCtr .async s.async && schedOk s.uframeCtr .periodic s.periodic

/-- Both automata at rest: ACTIVE or INACTIVE, as between engine entries (R31). -/
def Idle (s : State) : Bool := autoIdle s.async.auto && autoIdle s.periodic.auto

/-- No device answer lined up completes another Packet inside the submit call (R311). -/
def plainAnswers (s : State) : Bool := s.answers.all (fun a => a.completions.isEmpty)

/-- A call of a device's cancel for a Packet in flight (R244). -/
def CancelOf (s : State) (o : Output) : Prop :=
  ∃ k q p d, q ∈ (s.sched k).cache ∧ p ∈ q.packets ∧ p.tag = .inflight ∧ q.dev = some d ∧
    o = .cancel d k q.qhaddr p.qtdaddr

/-- What a controller reset of `s` leaves (R583, R581): every register at its reset value, both caches empty, every
Packet in flight cancelled, the port model reset last; `uframe_ctr`, `diag_emitted`, guest memory and all that is not
the engine's are as before. What the port model's reset does to its address map is not said, nor what becomes of
the record of the last tick's time: that the model keeps them is its own choice (log 8, log 36). -/
def ResetTo (s t : State) : Prop :=
  { t with outbox := s.outbox, devices := s.devices, lastTickUs := s.lastTickUs } =
    { s with
      usbcmd := ⟨false, false, false, false, 8⟩
      usbsts := 0
      recl := false
      usbintr := 0
      frindex := 0
      periodicListBase := 0
      asyncListAddr := 0
      usbstsPending := 0
      nextCommit := 0
      lastRunUs := none
      inEntry := false
      async := ⟨.inactive, 0, none, 0, []⟩
      periodic := ⟨.inactive, 0, none, 0, []⟩ } ∧
  ∃ cs : List Output, t.outbox = .portReset :: (cs ++ s.outbox) ∧ ∀ o, o ∈ cs ↔ CancelOf s o

/-- Two memories with memory at the same addresses and the same bytes there, but for those a test names. What is read
where there is no memory is left open (R101, log 35). -/
def SameRamBut (m n : Memory) (stored : Word → Prop) : Prop :=
  n.holes = m.holes ∧ ∀ a : Word, m.hasRam a = true → ¬ stored a → readByte n a = readByte m a

/-- Two states with the same bytes of guest memory, but for those a test names. -/
def SameBytesBut (s t : State) (stored : Word → Prop) : Prop := SameRamBut s.mem t.mem stored

/-- `a` is one of the `n` bytes from `b`, addresses wrapping modulo 2^32 (R33). -/
def InRange (a b : Word) (n : Nat) : Prop := (a - b).toNat < n

/-- The current Queue of schedule k is q, and p is its Packet at the current qTD (R37). -/
def HasPacket (s : State) (k : Sched) (q : Queue) (p : Packet) : Prop :=
  s.current k = some q ∧ findPacket q.packets q.qtdaddr = some p

/-- The guest changed what FETCH-QH compares, or the device moved: the mismatch of R353. -/
def GuestEdited (s : State) (q : Queue) (fresh : Qh) : Prop :=
  epDevAddr q.qh.epchar ≠ epDevAddr fresh.epchar ∨ epEndpoint q.qh.epchar ≠ epEndpoint fresh.epchar ∨
  q.qh.current ≠ fresh.current ∨ q.qh.ov ≠ fresh.ov ∨
  (q.dev ≠ none ∧ s.lookupDevice (epDevAddr fresh.epchar) ≠ q.dev)

/-- The cancel calls that resetting a Queue makes, newest first (R242, R244). -/
def cancelsOf (q : Queue) : List Output :=
  match q.dev with
  | none => []
  | some d => (q.packets.filter (fun p => p.tag == .inflight)).map fun p => .cancel d q.kind q.qhaddr p.qtdaddr

/-- In schedule k nothing changed but its automaton, its current Queue and the Queue at `a`; the other schedule is as
before. -/
def OnlyQueue (s t : State) (k : Sched) (a : Word) : Prop :=
  (∀ k' b, ¬ (k' = k ∧ b = a) → t.queue? k' b = s.queue? k' b) ∧ (t.sched k).fetchAddr = (s.sched k).fetchAddr ∧
  ∀ k', k' ≠ k → t.sched k' = s.sched k'

/-- The n-th queue head of the asynchronous list from `start`, each link's address followed (R402). -/
def ringAt (m : Memory) (start : Word) : Nat → Word
  | 0 => start
  | n + 1 => ptrAddr (read32 m (ringAt m start n))

/-- The head search of R402 stops at the queue head at `a`: its link has T = 1 or leads back to `start`. -/
def RingEnds (m : Memory) (start a : Word) : Prop :=
  (read32 m a).getLsbD 0 = true ∨ ptrAddr (read32 m a) = start

/-- Guest address of byte j of the transfer that a qTD or overlay describes: page `C_Page + (offset + j) div 4096`, at
`(offset + j) mod 4096` (R163, R284). -/
def bufByteAddr (d : Qtd) (j : Nat) : Word :=
  d.page ((tokCPage d.token).toNat + (d.offset0.toNat + j) / 4096) +
    BitVec.ofNat 32 ((d.offset0.toNat + j) % 4096)

/-- `n` bytes from the position of a qTD or overlay need no page index above 4 (R284). -/
def WalkFits (d : Qtd) (n : Nat) : Prop := n = 0 ∨ d.offset0.toNat + n ≤ (5 - (tokCPage d.token).toNat) * 4096

/-- The rows that perform EXECUTE on Packet p, with the Packet they perform it on: the state row on p itself, the PID
rows on p with the token presented (log 17). -/
def ExecutesAs (k : Sched) (p : Packet) (i : Instr) (e : Packet) : Prop :=
  (i = .stateExecute k ∧ e = p) ∨
  ∃ t : TokenOps, (i = .pidOut k t ∧ e = p.withToken (t.word 0b00#2 1#1)) ∨
    (i = .pidIn k t ∧ e = p.withToken (t.word 0b01#2 1#1)) ∨ (i = .pidSetup k t ∧ e = p.withToken (t.word 0b10#2 1#1))

/-- The answer a submission for Queue q gets now (R289, R290, log 5). -/
def answerNow (q : Queue) (s : State) : DevAnswer :=
  match q.dev, s.answers with
  | none, _ => .nodev
  | some _, a :: _ => a.answer
  | some _, [] => Config.deviceAnswer s.draws

/-- Between engine entries: both automata at rest and no Queue marked seen, as a pass's end leaves it (R31, R246). -/
def Rested (s : State) : Prop := Idle s = true ∧ ∀ k, ∀ q ∈ (s.sched k).cache, q.seen = false

/-- The stimuli (R175). -/
def isStimulus : Instr → Bool
  | .mmioRead _ _ => true
  | .mmioWrite _ _ _ => true
  | .tick _ => true
  | .complete _ _ _ _ => true
  | .deviceRemove _ => true
  | .portChange => true
  | .powerOn => true
  | _ => false

/-- The rows by which the guest writes a register, and power-on (R501 to R508, R580). -/
def writesRegisters : Instr → Bool
  | .mmioWrite _ _ _ => true
  | .powerOn => true
  | .usbcmdHcreset _ _ => true
  | .usbcmdRun _ => true
  | .usbcmdPse _ _ => true
  | .usbcmdAse _ _ => true
  | .usbcmdIaad _ _ => true
  | .usbcmdItc _ _ => true
  | .writeUsbsts _ => true
  | .writeUsbintr _ => true
  | .writeFrindex _ => true
  | .writePeriodiclistbase _ => true
  | .writeAsynclistaddr _ => true
  | _ => false

/-- The rows that may take a Fatal: those that meet a link, those that walk the pages of a transfer, the ticks and
completions that run a pass, and the Fatals themselves (R341, R370, R284, R530). -/
def mayTakeFatal : Instr → Bool
  | .tick _ => true
  | .complete .async _ _ _ => true
  | .linkItd .async _ _ => true
  | .linkSitd .async _ _ => true
  | .linkFstn _ _ _ => true
  | .pidOut _ _ => true
  | .pidIn _ _ => true
  | .pidSetup _ _ => true
  | .pidReserved _ _ => true
  | .resultCount _ _ => true
  | .resultCountOverlong _ _ => true
  | .stateFetchEntry _ => true
  | .stateExecute _ => true
  | .stateExecuting _ => true
  | .fatalAsyncType => true
  | .fatalFstn => true
  | .fatalReservedPid => true
  | .fatalPageIndex => true
  | _ => false

/-- Presented in this state, the row takes a Fatal: the next state is what a controller reset leaves (R530, R583). -/
def TakesFatal (i : Instr) (s : State) : Prop := ∃ t, exec i s = .next t ∧ ResetTo s t ∧ t.irq = false

end Sys2Proof.Machine
end

