-- ==== Sys2Proof/Certificates/Slice0/Obligations.lean ====
section
/-! DEFINITION. The statements for the provers, in the order of `OBLIGATIONS.json`. -/

section

open Sys2Proof Sys2Proof.Machine

/-! ### Memory and encoding -/

/-- R102: words are little-endian, a write is read back where there is memory, no other byte of memory changes; buffers
are byte strings in address order. What lies at an address without memory is left open (R101, log 35). -/
def Obligations.MemoryWordsAreLittleEndian : Prop :=
  ∀ (m : Memory) (a w : Word), Memory.wf m = true →
    read32 m a = (readByte m a).setWidth 32 ||| (readByte m (a + 1)).setWidth 32 <<< 8 |||
      (readByte m (a + 2)).setWidth 32 <<< 16 ||| (readByte m (a + 3)).setWidth 32 <<< 24 ∧
    (∀ i < 4, m.hasRam (a + BitVec.ofNat 32 i) = true →
      readByte (write32 m a w) (a + BitVec.ofNat 32 i) = w.extractLsb' (8 * i) 8) ∧
    ((∀ i < 4, m.hasRam (a + BitVec.ofNat 32 i) = true) → read32 (write32 m a w) a = w) ∧
    SameRamBut m (write32 m a w) (fun x => InRange x a 4) ∧
    (∀ n, readBytes m a n = (List.range n).map fun i => readByte m (a + BitVec.ofNat 32 i)) ∧
    ∀ bs : List Byte, bs.length ≤ 2 ^ 32 →
      Memory.wf (writeBytes m a bs) = true ∧
      (∀ i, (h : i < bs.length) → m.hasRam (a + BitVec.ofNat 32 i) = true →
        readByte (writeBytes m a bs) (a + BitVec.ofNat 32 i) = bs[i]) ∧
      SameRamBut m (writeBytes m a bs) fun x => InRange x a bs.length

/-- Every well-formed instruction decodes from its encoding, whatever its operands. -/
def Obligations.DecodeEncodeRoundTrip : Prop := ∀ i : Instr, i.wf = true → decode (encode i) = .ok i

/-- A one-word row loses no bit of its word in decoding. -/
def Obligations.DecodedWordsLoseNoBit : Prop :=
  ∀ (f : Format) (k : Sched) (w : Word) (i : Instr),
    (f = .link ∨ f = .qtdToken ∨ f = .qhToken ∨ f = .usbcmdWrite ∨ f = .opRead) → decode (wordMsg f k w) = .ok i →
      (encode i).fmt = f ∧ (encode i).bytes = wordBytes w ∧
      (f = .link ∨ f = .qtdToken ∨ f = .qhToken → (encode i).sched = k)

/-- Words of `95_test_vectors.md` decode to what the spec says they are; a stimulus tag and a state tag that no row has are
refused (R175, R176). -/
def Obligations.SpecWordsDecode : Prop :=
  decode ⟨.link, .async, [0x02, 0x10, 0x00, 0x00]⟩ = .ok (.linkQh .async 0x80#27 0#2) ∧
  decode ⟨.link, .async, [0x03, 0x10, 0x00, 0x00]⟩ = .ok (.linkEnd .async 0x801#31) ∧
  decode ⟨.link, .periodic, [0x04, 0x10, 0x00, 0x00]⟩ = .ok (.linkSitd .periodic 0x80#27 0#2) ∧
  decode ⟨.link, .async, [0x00, 0x10, 0x00, 0x00]⟩ = .ok (.linkItd .async 0x80#27 0#2) ∧
  decode ⟨.link, .periodic, [0x06, 0x10, 0x00, 0x00]⟩ = .ok (.linkFstn .periodic 0x80#27 0#2) ∧
  decode ⟨.qtdToken, .async, [0x80, 0x8D, 0x40, 0x00]⟩ = .ok (.pidIn .async ⟨0, 0x40, 1, 0, 3, 0⟩) ∧
  decode ⟨.qtdToken, .async, [0x80, 0x0C, 0xC8, 0x00]⟩ = .ok (.pidOut .async ⟨0, 200, 0, 0, 3, 0⟩) ∧
  decode ⟨.qtdToken, .async, [0x80, 0x0F, 0x40, 0x00]⟩ = .ok (.pidReserved .async ⟨0, 0x40, 0, 0, 3, 0⟩) ∧
  decode ⟨.usbcmdWrite, .async, [0x02, 0x00, 0x00, 0x00]⟩ = .ok (.usbcmdHcreset 0 0) ∧
  decode ⟨.stimulus, .async, [7]⟩ = .error .badTag ∧ decode ⟨.autoState, .async, [13]⟩ = .error .badTag

/-- A step runs the instruction that was fetched: the state's row while an automaton is in the middle of a walk, else
the message at the front of the inbox; what the environment does and an empty inbox run nothing. The inbox, and that
the periodic automaton goes first, are the model's choice (log 4, log 33). -/
def Obligations.StepRunsDecodedInstruction : Prop :=
  (∀ s m rest i, Idle s = true → s.inbox = .msg m :: rest → decode m = .ok i →
    step s = exec i { s with inbox := rest }) ∧
  (∀ s m rest e, Idle s = true → s.inbox = .msg m :: rest → decode m = .error e → step s = .refused .undecodable) ∧
  (∀ s a bs rest, Idle s = true → s.inbox = .guestWrite a bs :: rest →
    step s = .next { s with inbox := rest, mem := { writeBytes s.mem a bs with epoch := s.mem.epoch + 1 } }) ∧
  (∀ s a d rest, Idle s = true → s.inbox = .setDevice a d :: rest →
    step s = .next ({ s with inbox := rest }.setDevice a d)) ∧
  (∀ s, Idle s = true → s.inbox = [] → step s = .next s) ∧
  (∀ s i, autoIdle s.periodic.auto = false → decode (stateMsg .periodic s.periodic.auto) = .ok i → step s = exec i s) ∧
  (∀ s i, autoIdle s.periodic.auto = true → autoIdle s.async.auto = false →
    decode (stateMsg .async s.async.auto) = .ok i → step s = exec i s)

/-- R340: what `run` performs inside an entry is the row of `state[k]`. -/
def Obligations.RunPerformsTheStateRows : Prop :=
  ∀ (k : Sched) (s : State) (i : Instr) (n : Nat), autoIdle (s.sched k).auto = false →
    decode (stateMsg k (s.sched k).auto) = .ok i →
    exec i s = finish (walkStep k s) ∧
    (∀ u, walkStep k s = .ok u → run k (n + 1) s = run k n u) ∧
    (∀ e, walkStep k s = .error e → run k (n + 1) s = .error e)

/-! ### Registers -/

/-- R502: the fields a USBCMD write stores, for each row of such a write. -/
def Obligations.UsbcmdWriteStoresItsFields : Prop :=
  ∀ s : State,
    (∀ (hi : BitVec 30) (rs : BitVec 1), Inv s = true → TakesFatal (.usbcmdHcreset hi rs) s) ∧
    (∀ hi : BitVec 30, exec (.usbcmdRun hi) s = .next { s with
      usbcmd := ⟨true, hi.getLsbD 2, hi.getLsbD 3, hi.getLsbD 4, hi.extractLsb' 14 8⟩ }) ∧
    (∀ (hi : BitVec 27) (fls : BitVec 2), exec (.usbcmdPse hi fls) s = .next { s with
      usbcmd := ⟨false, true, hi.getLsbD 0, hi.getLsbD 1, hi.extractLsb' 11 8⟩ }) ∧
    (∀ (hi : BitVec 26) (fls : BitVec 2), exec (.usbcmdAse hi fls) s = .next { s with
      usbcmd := ⟨false, false, true, hi.getLsbD 0, hi.extractLsb' 10 8⟩ }) ∧
    (∀ (hi : BitVec 25) (fls : BitVec 2), exec (.usbcmdIaad hi fls) s = .next { s with
      usbcmd := ⟨false, false, false, true, hi.extractLsb' 9 8⟩ }) ∧
    (∀ (hi : BitVec 25) (fls : BitVec 2), exec (.usbcmdItc hi fls) s = .next { s with
      usbcmd := ⟨false, false, false, false, hi.extractLsb' 9 8⟩ }) ∧
    ∀ v : Word, v.getLsbD 1 = false → ∃ i, decode (wordMsg .usbcmdWrite .async v) = .ok i ∧
      exec i s = .next { s with
        usbcmd := ⟨v.getLsbD 0, v.getLsbD 4, v.getLsbD 5, v.getLsbD 6, v.extractLsb' 16 8⟩ }

/-- R583: what a controller reset leaves, whether HCRESET or a Fatal asked for it. -/
def Obligations.ControllerResetLeavesResetValues : Prop :=
  ∀ (s : State) (i : Instr), Inv s = true →
    ((∃ hi rs, i = .usbcmdHcreset hi rs) ∨ i = .fatalAsyncType ∨ i = .fatalFstn ∨ i = .fatalReservedPid ∨
      i = .fatalPageIndex) →
    ∃ t, exec i s = .next t ∧ ResetTo s t ∧ t.irq = false ∧ usbcmdValue t.usbcmd = 0x00080000#32 ∧
      usbstsValue t = 0x00001000#32 ∧ t.mem = s.mem

/-- R531, R532: the four conditions of a Fatal, their codes, and that guest memory is as before the failing step. That a
link or a token presented alone is met as the walk's own link and the current Packet's token is the model's reading
(log 17). -/
def Obligations.FatalConditionsResetTheController : Prop :=
  decode ⟨.fatalReason, .async, [0]⟩ = .ok .fatalAsyncType ∧ decode ⟨.fatalReason, .async, [1]⟩ = .ok .fatalFstn ∧
  decode ⟨.fatalReason, .async, [2]⟩ = .ok .fatalReservedPid ∧
  decode ⟨.fatalReason, .async, [3]⟩ = .ok .fatalPageIndex ∧
  ∀ s : State, Inv s = true →
    (∀ addr rsvd, TakesFatal (.linkItd .async addr rsvd) s ∧ TakesFatal (.linkSitd .async addr rsvd) s ∧
      ∀ k, TakesFatal (.linkFstn k addr rsvd) s) ∧
    (∀ k q p t, HasPacket s k q p → p.tag = .uninit → TakesFatal (.pidReserved k t) s) ∧
    (∀ k q p, HasPacket s k q p → p.tag = .uninit → tokPid p.qtd.token = 0b11#2 → TakesFatal (.stateExecute k) s) ∧
    (∀ k q p i e, HasPacket s k q p → p.tag = .uninit → ExecutesAs k p i e → ¬ WalkFits e.qtd e.len.toNat →
      TakesFatal i s) ∧
    ∀ t, ResetTo s t → t.mem = s.mem

/-- R503 to R506: writes of USBSTS, USBINTR, FRINDEX and CTRLDSSEGMENT. -/
def Obligations.StatusRegisterWrites : Prop :=
  ∀ (s : State) (v : Word),
    exec (.writeUsbsts v) s = .next { s with usbsts := s.usbsts &&& ~~~(v.extractLsb' 0 6) } ∧
    exec (.writeUsbintr v) s = .next { s with usbintr := v.extractLsb' 0 6 } ∧
    (s.usbcmd.rs = false ∧ s.async.auto = .inactive ∧ s.periodic.auto = .inactive →
      exec (.writeFrindex v) s = .next { s with frindex := v.extractLsb' 0 14 }) ∧
    (¬ (s.usbcmd.rs = false ∧ s.async.auto = .inactive ∧ s.periodic.auto = .inactive) →
      exec (.writeFrindex v) s = .next s) ∧
    exec (.writeCtrldssegment v) s = .next s ∧
    exec (.readOp 0x10#32) s = .next (s.emit (.readValue .w4 0#32)) ∧
    (s.irq = true ↔ ∃ b < 6, s.usbsts.getLsbD b = true ∧ s.usbintr.getLsbD b = true)

/-- R507, R508 and the read-only low bits of R48, R49. -/
def Obligations.ListBaseWritesMaskTheAddress : Prop :=
  ∀ (s : State) (v : Word), ∃ t u, exec (.writePeriodiclistbase v) s = .next t ∧ exec (.writeAsynclistaddr v) s = .next u ∧
    t = { s with periodicListBase := v &&& 0xFFFFF000#32 } ∧ u = { s with asyncListAddr := v &&& 0xFFFFFFE0#32 } ∧
    t.periodicListBase.extractLsb' 12 20 = v.extractLsb' 12 20 ∧ t.periodicListBase.extractLsb' 0 12 = 0#12 ∧
    u.asyncListAddr.extractLsb' 5 27 = v.extractLsb' 5 27 ∧ u.asyncListAddr.extractLsb' 0 5 = 0#5

/-- R509, log 9: what the block does with a write to the port model is the model's choice, a message given out. -/
def Obligations.PortWritesGoToThePortModel : Prop :=
  ∀ (s : State) (v : Word) (i : BitVec 4),
    exec (.writeConfigflag v) s = .next (s.emit (.portWrite 0x40#32 v)) ∧
    (i.toNat < s.params.numPorts →
      exec (.writePortsc i v) s = .next (s.emit (.portWrite (0x44#32 + 4#32 * i.setWidth 32) v))) ∧
    (s.params.numPorts ≤ i.toNat → exec (.writePortsc i v) s = .next s)

/-- R510: the table of register reads. The clause on CONFIGFLAG and PORTSC, that the port model answers with a free value
and the count of draws moves, is the model's choice (log 9). -/
def Obligations.ReadsReturnTheRegisterTable : Prop :=
  ∀ s : State,
    let value (v : Word) : Host.Outcome State Fault Refusal := .next (s.emit (.readValue .w4 v))
    exec (.readOp 0x00#32) s = value (BitVec.ofNat 32 (s.usbcmd.rs.toNat + s.usbcmd.pse.toNat * 2 ^ 4 +
      s.usbcmd.ase.toNat * 2 ^ 5 + s.usbcmd.iaad.toNat * 2 ^ 6 + s.usbcmd.itc.toNat * 2 ^ 16)) ∧
    exec (.readOp 0x04#32) s = value (BitVec.ofNat 32 (s.usbsts.toNat +
      (decide (s.usbcmd.rs = false ∧ s.async.auto = .inactive ∧ s.periodic.auto = .inactive)).toNat * 2 ^ 12 +
      s.recl.toNat * 2 ^ 13 + (decide (s.periodic.auto ≠ .inactive)).toNat * 2 ^ 14 +
      (decide (s.async.auto ≠ .inactive)).toNat * 2 ^ 15)) ∧
    exec (.readOp 0x08#32) s = value (BitVec.ofNat 32 s.usbintr.toNat) ∧
    exec (.readOp 0x0C#32) s = value (BitVec.ofNat 32 s.frindex.toNat) ∧
    exec (.readOp 0x10#32) s = value 0 ∧ exec (.readOp 0x14#32) s = value s.periodicListBase ∧
    exec (.readOp 0x18#32) s = value s.asyncListAddr ∧
    ∀ off : Word,
      ((off = 0x40 ∨ ∃ i < s.params.numPorts, off.toNat = 0x44 + 4 * i) → ∃ v, exec (.readOp off) s =
        .next ({ s with draws := s.draws + 1 }.emit (.readValue .w4 v))) ∧
      (off ∉ [0x00#32, 0x04, 0x08, 0x0C, 0x10, 0x14, 0x18, 0x40] →
        (¬ ∃ i < s.params.numPorts, off.toNat = 0x44 + 4 * i) → exec (.readOp off) s = value 0)

/-- R500: the dispatch of a register read. That a read of the port model moves the count of draws, a field of the model's
own, is its choice (log 9), and so is that the bytes of the block for which R38 names no register are free (log 3). -/
def Obligations.MmioReadDispatch : Prop :=
  ∀ (s : State) (off : Word) (w : Width), let n := match w with | .w1 => 1 | .w2 => 2 | .w4 => 4
    (off.toNat < s.params.opregBase.toNat →
      (off.toNat % n = 0 ∧ off.toNat + n ≤ s.params.opregBase.toNat → ∃ v : Word,
        exec (.mmioRead off w) s = .next (s.emit (.readValue w v)) ∧
        (∀ i < n, v.extractLsb' (8 * i) 8 = capabilityByte s.params (off.toNat + i)) ∧ v.toNat < 2 ^ (8 * n)) ∧
      (¬ (off.toNat % n = 0 ∧ off.toNat + n ≤ s.params.opregBase.toNat) →
        exec (.mmioRead off w) s = .refused .capabilityAccess)) ∧
    (s.params.opregBase.toNat ≤ off.toNat →
      (n = 4 ∧ off.toNat % 4 = 0 →
        exec (.mmioRead off w) s = exec (.readOp (off - s.params.opregBase.setWidth 32)) s ∧
        ∃ v s', (s' = s ∨ s' = { s with draws := s.draws + 1 }) ∧
          exec (.mmioRead off w) s = .next (s'.emit (.readValue .w4 v))) ∧
      (¬ (n = 4 ∧ off.toNat % 4 = 0) → exec (.mmioRead off w) s = .refused .narrowAccess))

/-- R38: the named capability registers, and that writes are ignored. -/
def Obligations.CapabilityRegistersReadTheParameters : Prop :=
  ∀ s : State, 12 ≤ s.params.opregBase.toNat →
    exec (.mmioRead 0x00#32 .w1) s = .next (s.emit (.readValue .w1 (s.params.opregBase.setWidth 32))) ∧
    exec (.mmioRead 0x02#32 .w2) s = .next (s.emit (.readValue .w2 (s.params.hciversion.setWidth 32))) ∧
    exec (.mmioRead 0x04#32 .w4) s = .next (s.emit (.readValue .w4 s.params.hcsparams)) ∧
    (∃ v : Word, exec (.mmioRead 0x08#32 .w4) s = .next (s.emit (.readValue .w4 v)) ∧ v.extractLsb' 0 2 = 0#2 ∧
      v.extractLsb' 2 30 = s.params.hccparams.extractLsb' 2 30) ∧
    ∀ off w v, off.toNat < s.params.opregBase.toNat → exec (.mmioWrite off w v) s = .next s

/-- R501: the dispatch of a register write. -/
def Obligations.MmioWriteDispatch : Prop :=
  ∀ (s : State) (off : Word) (w : Width) (v : Word), s.params.wf = true →
    let op := off - s.params.opregBase.setWidth 32
    (off.toNat < s.params.opregBase.toNat → exec (.mmioWrite off w v) s = .next s) ∧
    (s.params.opregBase.toNat ≤ off.toNat → ¬ (w = .w4 ∧ off.toNat % 4 = 0) →
      exec (.mmioWrite off w v) s = .refused .narrowAccess) ∧
    (s.params.opregBase.toNat ≤ off.toNat → w = .w4 → off.toNat % 4 = 0 →
      (op = 0x00 → ∀ i, decode (wordMsg .usbcmdWrite .async v) = .ok i → exec (.mmioWrite off w v) s = exec i s) ∧
      (op = 0x04 → exec (.mmioWrite off w v) s = exec (.writeUsbsts v) s) ∧
      (op = 0x08 → exec (.mmioWrite off w v) s = exec (.writeUsbintr v) s) ∧
      (op = 0x0C → exec (.mmioWrite off w v) s = exec (.writeFrindex v) s) ∧
      (op = 0x10 → exec (.mmioWrite off w v) s = exec (.writeCtrldssegment v) s) ∧
      (op = 0x14 → exec (.mmioWrite off w v) s = exec (.writePeriodiclistbase v) s) ∧
      (op = 0x18 → exec (.mmioWrite off w v) s = exec (.writeAsynclistaddr v) s) ∧
      (op = 0x40 → exec (.mmioWrite off w v) s = exec (.writeConfigflag v) s) ∧
      (∀ i : BitVec 4, i.toNat < s.params.numPorts → op = 0x44#32 + 4#32 * i.setWidth 32 →
        exec (.mmioWrite off w v) s = exec (.writePortsc i v) s) ∧
      (op ∉ [0x00#32, 0x04, 0x08, 0x0C, 0x10, 0x14, 0x18, 0x40] →
        (∀ i : BitVec 4, i.toNat < s.params.numPorts → op ≠ 0x44#32 + 4#32 * i.setWidth 32) →
        exec (.mmioWrite off w v) s = .next s) ∧
      (Inv s = true → ∃ t, exec (.mmioWrite off w v) s = .next t ∧ Inv t = true))

/-! ### Interrupts and events -/

/-- R534, R542, R55: which bits are raised at once and which wait for a commit, PORT_CHANGE, and the level of the
output. The count of draws, which is the model's own, is left open at PORT_CHANGE (log 9). -/
def Obligations.InterruptBitsAreRaised : Prop :=
  ∀ s : State,
    (∃ t, exec .portChange s = .next t ∧ { t with draws := s.draws } = { s with usbsts := s.usbsts ||| 0b000100#6 }) ∧
    s.raiseIrq .flr = { s with usbsts := s.usbsts ||| 0b001000#6 } ∧
    s.raiseIrq .pcd = { s with usbsts := s.usbsts ||| 0b000100#6 } ∧
    s.raiseIrq .hse = { s with usbsts := s.usbsts ||| 0b010000#6 } ∧
    s.raiseIrq .usbint = { s with usbstsPending := s.usbstsPending ||| 0b000001#6 } ∧
    s.raiseIrq .usberrint = { s with usbstsPending := s.usbstsPending ||| 0b000010#6 } ∧
    s.raiseIrq .iaa = { s with usbstsPending := s.usbstsPending ||| 0b100000#6 } ∧
    s.irq = decide (s.usbsts &&& s.usbintr ≠ 0)

/-- R535, R536: both commits, and when each acts. -/
def Obligations.CommitsMoveThePendingBits : Prop :=
  ∀ s : State, let moved : State := { s with
      usbsts := s.usbsts ||| s.usbstsPending, usbstsPending := 0, nextCommit := s.uframeCtr + s.usbcmd.itc.toNat }
    (s.usbstsPending ≠ 0 → s.nextCommit ≤ s.uframeCtr → s.thresholdCommit = moved) ∧
    (s.usbstsPending = 0 ∨ s.uframeCtr < s.nextCommit → s.thresholdCommit = s) ∧
    (s.usbstsPending ≠ 0 → s.commitAll = moved) ∧ (s.usbstsPending = 0 → s.commitAll = s)

/-- R541, R249: a departing device's Queues are freed in both schedules, their Packets in flight cancelled, then the
port model drops it; no interrupt is raised. -/
def Obligations.DeviceRemoveFreesItsQueues : Prop :=
  ∀ (s : State) (d : DevRef), Inv s = true →
    ∃ t cs, exec (.deviceRemove d) s = .next t ∧
      (∀ k a, t.queue? k a = (s.queue? k a).filter fun q => decide (q.dev ≠ some d)) ∧
      t.outbox = cs ++ s.outbox ∧
      (∀ o, o ∈ cs ↔ ∃ k q p, q ∈ (s.sched k).cache ∧ p ∈ q.packets ∧ p.tag = .inflight ∧ q.dev = some d ∧
        o = .cancel d k q.qhaddr p.qtdaddr) ∧
      (∀ a, t.lookupDevice a ≠ some d) ∧ t.devices = s.devices.filter (fun e => e.2 != d) ∧
      (∀ k, (t.sched k).curQueue = (s.sched k).curQueue.filter fun a =>
        !(s.queue? k a).any fun q => decide (q.dev = some d)) ∧
      (∀ k, (t.sched k).auto = (s.sched k).auto ∧ (t.sched k).fetchAddr = (s.sched k).fetchAddr ∧
        (t.sched k).visits = (s.sched k).visits) ∧
      { t with
        async := s.async, periodic := s.periodic, outbox := s.outbox, devices := s.devices, draws := s.draws } = s

/-- R580, R581: power-on. That what lies outside the engine is as before and that the port model's reset is given out is
the model's choice (log 23), as is that the new engine has had no tick (log 36). -/
def Obligations.PowerOnTakesTheResetValues : Prop :=
  ∀ s : State, ∃ t, exec .powerOn s = .next t ∧
    t.usbcmd = ⟨false, false, false, false, 8⟩ ∧ t.usbsts = 0 ∧ t.recl = false ∧ t.usbintr = 0 ∧ t.frindex = 0 ∧
    t.periodicListBase = 0 ∧ t.asyncListAddr = 0 ∧ t.async = ⟨.inactive, 0, none, 0, []⟩ ∧
    t.periodic = ⟨.inactive, 0, none, 0, []⟩ ∧ t.usbstsPending = 0 ∧ t.nextCommit = 0 ∧ t.uframeCtr = 0 ∧
    t.lastRunUs = none ∧ t.lastTickUs = none ∧ t.diagEmitted = false ∧ t.inEntry = false ∧ t.irq = false ∧
    usbcmdValue t.usbcmd = 0x00080000#32 ∧ usbstsValue t = 0x00001000#32 ∧
    t.mem = s.mem ∧ t.params = s.params ∧ t.devices = s.devices ∧ t.answers = s.answers ∧ t.draws = s.draws ∧
    t.inbox = s.inbox ∧ t.outbox = .portReset :: s.outbox

/-! ### The walk: links and entries -/

/-- R341, R357: the step a link pointer selects when it is presented (the model's reading, log 17), and the halted
overlay's skip. -/
def Obligations.LinkRowsSelectTheStep : Prop :=
  ∀ (s : State) (k : Sched) (rest : BitVec 31) (addr : BitVec 27) (rsvd : BitVec 2) (hi : BitVec 25) (lo : BitVec 6),
    exec (.linkEnd k rest) s = .next ((s.setFetch k (rest ++ 1#1)).setAuto k .active) ∧
    exec (.linkQh k addr rsvd) s = .next ((s.setFetch k (addr ++ rsvd ++ 0b01#2 ++ 0#1)).setAuto k .fetchQh) ∧
    exec (.linkItd .periodic addr rsvd) s =
      .next ((s.setFetch .periodic (addr ++ rsvd ++ 0b00#2 ++ 0#1)).setAuto .periodic .fetchItd) ∧
    exec (.linkSitd .periodic addr rsvd) s =
      .next ((s.setFetch .periodic (addr ++ rsvd ++ 0b10#2 ++ 0#1)).setAuto .periodic .fetchSitd) ∧
    exec (.qhHalted k hi lo) s = .next (s.setAuto k .horizontalQh) ∧
    (Inv s = true → TakesFatal (.linkFstn k addr rsvd) s)

/-- R341: FETCH-ENTRY. -/
def Obligations.FetchEntryDecodesTheLink : Prop :=
  ∀ (k : Sched) (s : State), Inv s = true →
    let lp := (s.sched k).fetchAddr
    let counted := match k with
      | .async => s
      | .periodic => s.setVisits .periodic (s.periodic.visits + 1)
    let tooMany := k = .periodic ∧ s.params.maxPeriodicVisits < s.periodic.visits + 1
    (tooMany → exec (.stateFetchEntry k) s = .next ({ counted with diagEmitted := true }.setAuto k .active)) ∧
    (¬ tooMany →
      (lp.getLsbD 0 = true → exec (.stateFetchEntry k) s = .next (counted.setAuto k .active)) ∧
      (lp.getLsbD 0 = false →
        (lp.extractLsb' 1 2 = 0b01#2 → exec (.stateFetchEntry k) s = .next (counted.setAuto k .fetchQh)) ∧
        (lp.extractLsb' 1 2 = 0b00#2 → (k = .async → TakesFatal (.stateFetchEntry k) s) ∧
          (k = .periodic → exec (.stateFetchEntry k) s = .next (counted.setAuto k .fetchItd))) ∧
        (lp.extractLsb' 1 2 = 0b10#2 → (k = .async → TakesFatal (.stateFetchEntry k) s) ∧
          (k = .periodic → exec (.stateFetchEntry k) s = .next (counted.setAuto k .fetchSitd))) ∧
        (lp.extractLsb' 1 2 = 0b11#2 → TakesFatal (.stateFetchEntry k) s)))

/-- R444, R445: the stub steps follow word 0 and change nothing else. -/
def Obligations.StubStepsFollowWordZero : Prop :=
  ∀ (s : State) (i : Instr), i = .stateFetchItd ∨ i = .stateFetchSitd →
    exec i s = .next ((s.setFetch .periodic (read32 s.mem (s.periodic.fetchAddr &&& 0xFFFFFFE0#32))).setAuto .periodic
      .fetchEntry)

/-- R402: the head search. -/
def Obligations.WaitListHeadFindsTheHead : Prop :=
  ∀ s : State,
    let start := s.asyncListAddr &&& 0xFFFFFFE0#32
    let qh := ringAt s.mem start
    let isHead (i : Nat) : Prop := (read32 s.mem (qh i + 4)).getLsbD 15 = true
    (∀ i < s.params.listHeadSearchLimit, isHead i → (∀ j < i, ¬ isHead j ∧ ¬ RingEnds s.mem start (qh j)) →
      exec .stateWaitListHead s =
        .next (({ s with recl := true }.setFetch .async (qh i ||| 0x2#32)).setAuto .async .fetchEntry)) ∧
    ((∀ i < s.params.listHeadSearchLimit, isHead i → ∃ j < i, RingEnds s.mem start (qh j)) →
      exec .stateWaitListHead s = .next ({ s with recl := true }.setAuto .async .active))

/-! ### The walk: queue heads -/

/-- R34, R230: the descriptor cache is a finite map for each schedule, and find_or_create_queue looks a Queue up in it
or makes a new one. -/
def Obligations.CacheIsAFiniteMapPerSchedule : Prop :=
  (∀ (s : State) (q : Queue) (k : Sched) (a : Word),
    (s.putQueue q).queue? k a = if k = q.kind ∧ a = q.qhaddr then some q else s.queue? k a) ∧
  (∀ (s : State) (k : Sched) (a : Word) (q : Queue), s.queue? k a = some q → s.findOrCreate k a = (q, false)) ∧
  (∀ (s : State) (k : Sched) (a : Word), s.queue? k a = none →
    (s.findOrCreate k a).2 = true ∧ (s.findOrCreate k a).1.kind = k ∧ (s.findOrCreate k a).1.qhaddr = a ∧
    (s.findOrCreate k a).1.seen = false ∧ (s.findOrCreate k a).1.lastSeen = s.uframeCtr ∧
    (s.findOrCreate k a).1.dev = none ∧ (s.findOrCreate k a).1.packets = [] ∧ (s.findOrCreate k a).1.qtdaddr = 0) ∧
  ∀ k a, State.reset.queue? k a = none

/-- R352: the visit bound of the asynchronous walk. -/
def Obligations.VisitBoundEndsTheAsyncPass : Prop :=
  ∀ s : State, s.params.maxQhVisits < s.async.visits + 1 →
    exec (.stateFetchQh .async) s =
      .next ({ s.setVisits .async (s.async.visits + 1) with diagEmitted := true }.setAuto .async .active)

/-- R403: the reclamation check at a queue head with H = 1. The QH that a new Queue holds is unset (R230), so it is left
open (log 11). -/
def Obligations.ReclamationCheckClosesTheLoop : Prop :=
  ∀ (s : State) (a : Word), Inv s = true → a = s.async.fetchAddr &&& 0xFFFFFFE0#32 →
    s.async.visits + 1 ≤ s.params.maxQhVisits → epHead (readQh s.mem a).epchar = true →
    (s.recl = true → ∃ t, exec (.stateFetchQh .async) s = .next t ∧ t.recl = false ∧
      (t.async.auto = .horizontalQh ∨ t.async.auto = .fetchQtd ∨ t.async.auto = .advanceQueue)) ∧
    (s.recl = false → ∃ t q, exec (.stateFetchQh .async) s = .next t ∧ t.async.auto = .active ∧
      t.queue? .async a = some q ∧ t.async.curQueue = some a ∧ t.async.visits = s.async.visits + 1 ∧
      (s.queue? .async a = none → q = ⟨.async, a, q.qh, true, s.uframeCtr, none, [], 0⟩) ∧
      (∀ r, s.queue? .async a = some r → q = { r with seen := true, lastSeen := s.uframeCtr }) ∧
      OnlyQueue s t .async a ∧ { t with async := s.async } = s)

/-- R350, R351, R353, R354, R357: a visit of a queue head, within the visit bound and past the reclamation check. -/
def Obligations.FetchQhVisitsTheQueueHead : Prop :=
  ∀ (k : Sched) (s : State) (a : Word) (fresh : Qh), Inv s = true →
    a = (s.sched k).fetchAddr &&& 0xFFFFFFE0#32 → fresh = readQh s.mem a →
    (k = .async → s.async.visits + 1 ≤ s.params.maxQhVisits ∧ (epHead fresh.epchar = true → s.recl = true)) →
    let found := s.lookupDevice (epDevAddr fresh.epchar)
    ∃ t q, exec (.stateFetchQh k) s = .next t ∧ t.queue? k a = some q ∧ (t.sched k).curQueue = some a ∧
      q.kind = k ∧ q.qhaddr = a ∧ q.qh = fresh ∧ q.seen = true ∧ q.lastSeen = s.uframeCtr ∧
      (s.queue? k a = none → q.packets = [] ∧ q.dev = found ∧ t.outbox = s.outbox) ∧
      (∀ r, s.queue? k a = some r → ¬ GuestEdited s r fresh →
        q.packets = r.packets ∧ (r.dev = none → q.dev = found) ∧ (r.dev ≠ none → q.dev = r.dev) ∧
        t.outbox = s.outbox) ∧
      (∀ r, s.queue? k a = some r → GuestEdited s r fresh →
        q.packets = [] ∧ q.dev = found ∧ t.outbox = cancelsOf r ++ s.outbox) ∧
      (tokHalted fresh.ov.token = true → (t.sched k).auto = .horizontalQh) ∧
      (tokHalted fresh.ov.token = false →
        (tokActive fresh.ov.token = true ∧ fresh.current.getLsbD 0 = false ∧ fresh.current &&& 0xFFFFFFE0#32 ≠ 0 →
          (t.sched k).auto = .fetchQtd ∧ q.qtdaddr = fresh.current &&& 0xFFFFFFE0#32) ∧
        (¬ (tokActive fresh.ov.token = true ∧ fresh.current.getLsbD 0 = false ∧
          fresh.current &&& 0xFFFFFFE0#32 ≠ 0) → (t.sched k).auto = .advanceQueue)) ∧
      ((t.sched k).auto ≠ .fetchQtd →
        (s.queue? k a = none → q.qtdaddr = 0) ∧ ∀ r, s.queue? k a = some r → q.qtdaddr = r.qtdaddr) ∧
      t.recl = (if k = .async ∧ epHead fresh.epchar = true then false else s.recl) ∧
      (t.sched k).visits = (s.sched k).visits + (if k = .async then 1 else 0) ∧ OnlyQueue s t k a ∧
      { t with async := s.async, periodic := s.periodic, recl := s.recl, outbox := s.outbox } = s

/-- R360: ADVANCE-QUEUE. -/
def Obligations.AdvanceQueuePicksTheNextQtd : Prop :=
  ∀ (k : Sched) (s : State) (q : Queue), s.current k = some q →
    let takeAlt := q.qh.ov.token.extractLsb' 16 15 ≠ 0 ∧ q.qh.ov.alt.getLsbD 0 = false
    (takeAlt → exec (.stateAdvanceQueue k) s =
      .next ((s.putQueue { q with qtdaddr := q.qh.ov.alt &&& 0xFFFFFFE0#32 }).setAuto k .fetchQtd)) ∧
    (¬ takeAlt → q.qh.ov.next.getLsbD 0 = false → exec (.stateAdvanceQueue k) s =
      .next ((s.putQueue { q with qtdaddr := q.qh.ov.next &&& 0xFFFFFFE0#32 }).setAuto k .fetchQtd)) ∧
    (¬ takeAlt → q.qh.ov.next.getLsbD 0 = true →
      exec (.stateAdvanceQueue k) s = .next (s.setAuto k .horizontalQh))

/-- R362, R363, R364, R443: FETCH-QTD. By R292 the Queue of a good state holds at most one Packet, so its Packets are
none or one. -/
def Obligations.FetchQtdDispatches : Prop :=
  ∀ (k : Sched) (s : State) (q : Queue), Inv s = true → s.current k = some q →
    let d := readQtd s.mem q.qtdaddr
    let skip := d.token.getLsbD 7 = false ∨
      (k = .periodic ∧ q.qh.epcap.getLsbD (s.frindex.toNat % 8) = false)
    let fresh : Packet := ⟨q.qtdaddr, d, d.token.extractLsb' 8 2, [], d.token.extractLsb' 16 15, none, 0, .uninit⟩
    let emptied : Queue := { q with packets := [], dev := none }
    let cancelled : State := { s with outbox := cancelsOf q ++ s.outbox }
    (∀ p, q.packets = [p] → p.qtdaddr = q.qtdaddr ∧ p.qtd = d →
      (p.tag = .finished → exec (.stateFetchQtd k) s = .next (s.setAuto k .executing)) ∧
      (p.tag ≠ .finished → exec (.stateFetchQtd k) s = .next (s.setAuto k .horizontalQh))) ∧
    (∀ p, q.packets = [p] → ¬ (p.qtdaddr = q.qtdaddr ∧ p.qtd = d) →
      (skip → exec (.stateFetchQtd k) s = .next ((cancelled.putQueue emptied).setAuto k .horizontalQh)) ∧
      (¬ skip → exec (.stateFetchQtd k) s =
        .next ((cancelled.putQueue { emptied with packets := [fresh] }).setAuto k .execute))) ∧
    (q.packets = [] →
      (skip → exec (.stateFetchQtd k) s = .next (s.setAuto k .horizontalQh)) ∧
      (¬ skip → exec (.stateFetchQtd k) s = .next ((s.putQueue { q with packets := [fresh] }).setAuto k .execute))) ∧
    (q.packets = [] ∨ ∃ p, q.packets = [p])

/-- R363, R364: an inactive token, presented for the current qTD (the model's reading, log 17), is skipped, after the
check for a live Packet. -/
def Obligations.InactiveQtdIsSkipped : Prop :=
  ∀ (k : Sched) (s : State) (q : Queue) (pid : BitVec 2) (t : TokenOps), Inv s = true → s.current k = some q →
    let d := { readQtd s.mem q.qtdaddr with token := t.word pid 0#1 }
    (q.packets = [] → exec (.qtdInactive k pid t) s = .next (s.setAuto k .horizontalQh)) ∧
    (∀ p, q.packets = [p] → ¬ (p.qtdaddr = q.qtdaddr ∧ p.qtd = d) → exec (.qtdInactive k pid t) s =
      .next (({ s with outbox := cancelsOf q ++ s.outbox }.putQueue { q with packets := [], dev := none }).setAuto k
        .horizontalQh)) ∧
    (∀ p, q.packets = [p] → p.qtdaddr = q.qtdaddr ∧ p.qtd = d →
      exec (.qtdInactive k pid t) s = .next (s.setAuto k (if p.tag = .finished then .executing else .horizontalQh)))

/-- R385: HORIZONTAL-QH. -/
def Obligations.HorizontalQhFollowsTheLink : Prop :=
  ∀ (k : Sched) (s : State) (q : Queue), s.current k = some q →
    exec (.stateHorizontalQh k) s = .next (((s.setFetch k q.qh.link).setCur k none).setAuto k .fetchEntry)

/-! ### The transaction executor -/

/-- R284: the page walk. Where it fits, its segments are the transfer's bytes in order, none crosses a page; a read of
them gives the bytes in order (R285). -/
def Obligations.PageWalkSplitsAtPages : Prop :=
  ∀ (d : Qtd) (n : Nat),
    (segments d n = none ↔ ¬ WalkFits d n) ∧
    ∀ gs, segments d n = some gs →
      (gs.map Segment.size).sum = n ∧ (∀ g ∈ gs, 0 < g.size ∧ g.addr.toNat % 4096 + g.size ≤ 4096) ∧
      (gs.flatMap fun g => (List.range g.size).map fun i => g.addr + BitVec.ofNat 32 i) =
        (List.range n).map (bufByteAddr d) ∧
      ∀ m, gatherBytes m gs = (List.range n).map fun j => readByte m (bufByteAddr d j)

/-- R245, R248: the overlay that a qTD is loaded into, and the nine words the flush stores, one after the other. -/
def Obligations.OverlayLoadAndFlush : Prop :=
  (∀ (q : Queue) (p : Packet),
    let ov := (q.loadOverlay p).qh.ov
    q.loadOverlay p = { q with qh := { q.qh with current := p.qtdaddr, ov := ov } } ∧
    ov.next = p.qtd.next ∧ ov.buf0 = p.qtd.buf0 ∧ ov.buf3 = p.qtd.buf3 ∧ ov.buf4 = p.qtd.buf4 ∧
    ov.alt.getLsbD 0 = p.qtd.alt.getLsbD 0 ∧ ov.alt.extractLsb' 1 4 = q.qh.epchar.extractLsb' 28 4 ∧
    ov.alt.extractLsb' 5 27 = p.qtd.alt.extractLsb' 5 27 ∧
    ov.token.extractLsb' 1 30 = p.qtd.token.extractLsb' 1 30 ∧
    ov.token.getLsbD 0 = (if q.qh.epchar.extractLsb' 12 2 = 0b10#2 then q.qh.ov.token else p.qtd.token).getLsbD 0 ∧
    ov.token.getLsbD 31 = (if q.qh.epchar.getLsbD 14 = false then q.qh.ov.token else p.qtd.token).getLsbD 31 ∧
    ov.buf1.extractLsb' 0 8 = 0#8 ∧ ov.buf1.extractLsb' 8 24 = p.qtd.buf1.extractLsb' 8 24 ∧
    ov.buf2.extractLsb' 0 5 = 0#5 ∧ ov.buf2.extractLsb' 5 27 = p.qtd.buf2.extractLsb' 5 27) ∧
  ∀ (q : Queue) (s : State), Memory.wf s.mem = true →
    let m := (flushOverlay q s).mem
    let words : List (Nat × Word) := [(12, q.qh.current), (16, q.qh.ov.next), (20, q.qh.ov.alt), (24, q.qh.ov.token),
      (28, q.qh.ov.buf0), (32, q.qh.ov.buf1), (36, q.qh.ov.buf2), (40, q.qh.ov.buf3), (44, q.qh.ov.buf4)]
    flushOverlay q s = { s with mem := m } ∧ Memory.wf m = true ∧
    m = words.foldl (fun n w => write32 n (q.qhaddr + BitVec.ofNat 32 w.1) w.2) s.mem ∧
    (∀ w ∈ words, (∀ i < 4, s.mem.hasRam (q.qhaddr + BitVec.ofNat 32 w.1 + BitVec.ofNat 32 i) = true) →
      read32 m (q.qhaddr + BitVec.ofNat 32 w.1) = w.2) ∧
    SameRamBut s.mem m fun x => InRange x (q.qhaddr + 12) 36

/-- R288, R310: how a Packet takes a final answer, one that is not PENDING. -/
def Obligations.PacketTakesItsAnswer : Prop :=
  ∀ (p : Packet) (r : DevAnswer), r ≠ .pending → (p.settle r).tag = .finished ∧ (p.settle r).qtdaddr = p.qtdaddr ∧
    (p.settle r).qtd = p.qtd ∧ (p.settle r).pid = p.pid ∧ (p.settle r).len = p.len ∧
    (∀ data, r = .count data → (p.settle r).result = some .count ∧ (p.settle r).count = data.length ∧
      (p.settle r).buf = if tokPid p.qtd.token = 0b01#2 then data else p.buf) ∧
    (r = .nak → p.settle r = { p with result := some .nak, tag := .finished }) ∧
    (r = .stall → p.settle r = { p with result := some .stall, tag := .finished }) ∧
    (r = .ioerror → p.settle r = { p with result := some .ioerror, tag := .finished }) ∧
    (r = .nodev → p.settle r = { p with result := some .nodev, tag := .finished }) ∧
    (r = .babble → p.settle r = { p with result := some .babble, tag := .finished })

/-- R370, R285, R287, R288, R289, R372: EXECUTE loads and flushes the overlay, submits once (or takes NODEV), and
handles the answer, where the device completes nothing inside the submit call. OUT and SETUP data are read when the
overlay has been flushed; where there is memory the bytes read are those of the next state too. Where the answer comes
from, the front of the answers lined up or else a draw that moves the count of draws, is the model's choice (log 5, on
R290), and the rows that present a token are its reading (log 17). -/
def Obligations.ExecuteSubmitsThePacket : Prop :=
  ∀ (k : Sched) (s : State) (q : Queue) (p e : Packet) (i : Instr), Inv s = true →
    (∀ a ∈ s.answers.head?, a.completions = []) → HasPacket s k q p → p.tag = .uninit → ExecutesAs k p i e →
    tokPid e.qtd.token ≠ 0b11#2 → WalkFits e.qtd e.len.toNat →
    let isIn := tokPid e.qtd.token = 0b01#2
    let flushed (x : Word) : Prop := InRange x (q.qhaddr + 12) 36
    ∃ t q' buf, exec i s = .next t ∧ t.queue? k q.qhaddr = some q' ∧
      q' = { q.loadOverlay e with packets := q'.packets } ∧
      (∀ x, s.mem.hasRam x = true → flushed x → readByte t.mem x =
        (wordsBytes q'.qh.overlayWords).getD (x - (q.qhaddr + 12)).toNat 0) ∧
      SameBytesBut s t flushed ∧ Memory.wf t.mem = true ∧
      (isIn → buf = e.buf) ∧
      (¬ isIn → buf = (List.range e.len.toNat).map
          (fun j => readByte (flushOverlay (q.loadOverlay e) s).mem (bufByteAddr e.qtd j)) ∧
        ∀ j < e.len.toNat, s.mem.hasRam (bufByteAddr e.qtd j) = true →
          buf[j]? = some (readByte t.mem (bufByteAddr e.qtd j))) ∧
      (q.dev = none → t.outbox = s.outbox ∧ t.answers = s.answers ∧ t.draws = s.draws) ∧
      (∀ d, q.dev = some d →
        t.outbox = .submit d
          { dir := tokPid e.qtd.token
            devAddr := q.qh.epchar.extractLsb' 0 7
            endpoint := q.qh.epchar.extractLsb' 8 4
            speed := q.qh.epchar.extractLsb' 12 2
            toggle := q'.qh.ov.token.getLsbD 31
            buf := if isIn then [] else buf
            len := q'.qh.ov.token.extractLsb' 16 15 } :: s.outbox ∧
        t.answers = s.answers.tail ∧ t.draws = s.draws + (if s.answers = [] then 1 else 0)) ∧
      (answerNow q s = .pending → q'.packets = [{ e with buf := buf, tag := .inflight }] ∧
        (t.sched k).auto = .horizontalQh ∧ t.recl = (if k = .async then true else s.recl)) ∧
      (answerNow q s ≠ .pending → q'.packets = [{ e with buf := buf }.settle (answerNow q s)] ∧
        (t.sched k).auto = .executing ∧ t.recl = s.recl) ∧
      (t.sched k).curQueue = (s.sched k).curQueue ∧ (t.sched k).visits = (s.sched k).visits ∧
      OnlyQueue s t k q.qhaddr ∧
      { t with
        async := s.async, periodic := s.periodic, recl := s.recl, mem := s.mem, outbox := s.outbox
        answers := s.answers, draws := s.draws } = s

/-- R300, R301, R286: a success. For IN the device's bytes are stored at the transfer's addresses, the later byte where
two of its positions have one address. The result is presented for the current Packet (the model's reading, log 17). -/
def Obligations.CountIsASuccess : Prop :=
  ∀ (k : Sched) (s : State) (q : Queue) (p : Packet) (data : List Byte), Inv s = true → HasPacket s k q p →
    p.tag ≠ .inflight →
    let T := q.qh.ov.token
    let n := data.length
    let total := (T.extractLsb' 16 15).toNat
    let off := (q.qh.ov.buf0.extractLsb' 0 12).toNat
    let mp := (q.qh.epchar.extractLsb' 16 11).toNat
    let packets := if mp = 0 then 1 else max 1 ((n + mp - 1) / mp)
    let isIn := tokPid p.qtd.token = 0b01#2
    n ≤ total → (isIn → WalkFits q.qh.ov n) →
    ∃ t T' b, exec (.resultCount k data) s = .next t ∧ exec (.resultCountOverlong k data) s = .next t ∧
      t.queue? k q.qhaddr = some { q with
        packets := [p.settle (.count data)]
        qh := { q.qh with ov := { q.qh.ov with token := T', buf0 := b } } } ∧
      T'.getLsbD 31 = (T.getLsbD 31 ^^ (packets % 2 == 1)) ∧ (T'.extractLsb' 16 15).toNat = total - n ∧
      (T'.extractLsb' 12 3).toNat = ((T.extractLsb' 12 3).toNat + (off + n) / 4096) % 8 ∧ T'.getLsbD 7 = false ∧
      T'.getLsbD 15 = T.getLsbD 15 ∧ T'.extractLsb' 8 4 = T.extractLsb' 8 4 ∧ T'.extractLsb' 0 7 = T.extractLsb' 0 7 ∧
      (b.extractLsb' 0 12).toNat = (off + n) % 4096 ∧ b.extractLsb' 12 20 = q.qh.ov.buf0.extractLsb' 12 20 ∧
      (isIn → ∀ j < n, (∀ i < n, j < i → bufByteAddr q.qh.ov i ≠ bufByteAddr q.qh.ov j) →
        s.mem.hasRam (bufByteAddr q.qh.ov j) = true → readByte t.mem (bufByteAddr q.qh.ov j) = data.getD j 0) ∧
      (isIn → SameBytesBut s t fun x => ∃ j < n, x = bufByteAddr q.qh.ov j) ∧ (¬ isIn → t.mem = s.mem) ∧
      t.usbstsPending =
        (if T.getLsbD 15 = true ∨ (isIn ∧ n < total) then s.usbstsPending ||| 0b000001#6 else s.usbstsPending) ∧
      (t.sched k).auto = .writeback ∧ t.recl = (if k = .async then true else s.recl) ∧
      (t.sched k).curQueue = (s.sched k).curQueue ∧ (t.sched k).visits = (s.sched k).visits ∧
      OnlyQueue s t k q.qhaddr ∧
      { t with
        async := s.async, periodic := s.periodic, recl := s.recl, mem := s.mem
        usbstsPending := s.usbstsPending } = s

/-- R303 to R307: the error results and the overlong COUNT, presented for the current Packet (the model's reading,
log 17). -/
def Obligations.ErrorResultsHaltTheQueue : Prop :=
  ∀ (k : Sched) (s : State) (q : Queue) (p : Packet), HasPacket s k q p → p.tag ≠ .inflight →
    let T := q.qh.ov.token
    let raised : State := { s with
      recl := if k = .async then true else s.recl, usbstsPending := s.usbstsPending ||| 0b000010#6 }
    let halted (r : DevAnswer) (t : Word) : Host.Outcome State Fault Refusal :=
      .next ((raised.putQueue { q with
        packets := replacePacket q.packets (p.settle r)
        qh := { q.qh with ov := { q.qh.ov with token := t } } }).setAuto k .writeback)
    exec (.resultStall k) s = halted .stall ((T ||| 0x40#32) &&& ~~~0x80#32) ∧
    exec (.resultIoerror k) s = halted .ioerror ((T ||| 0x48#32) &&& ~~~0xC80#32) ∧
    exec (.resultNodev k) s = halted .nodev ((T ||| 0x48#32) &&& ~~~0xC80#32) ∧
    exec (.resultBabble k) s = halted .babble ((T ||| 0x50#32) &&& ~~~0x80#32) ∧
    ∀ data : List Byte, (T.extractLsb' 16 15).toNat < data.length →
      exec (.resultCountOverlong k data) s = halted (.count data) ((T ||| 0x50#32) &&& ~~~0x80#32) ∧
      exec (.resultCount k data) s = halted (.count data) ((T ||| 0x50#32) &&& ~~~0x80#32)

/-- R302: NAK, presented for the current Packet (the model's reading, log 17), frees it and changes nothing else. -/
def Obligations.NakLeavesTheTransferAsItIs : Prop :=
  ∀ (k : Sched) (s : State) (q : Queue) (p : Packet), HasPacket s k q p → p.tag ≠ .inflight →
    exec (.resultNak k) s =
      .next ((s.putQueue { q with packets := dropPacket q.packets p.qtdaddr }).setAuto k .horizontalQh) ∧
    (Inv s = true → ∃ t, exec (.resultNak k) s = .next t ∧ t.queue? k q.qhaddr = some { q with packets := [] } ∧
      (t.sched k).auto = .horizontalQh ∧ OnlyQueue s t k q.qhaddr ∧
      { t with async := s.async, periodic := s.periodic } = s)

/-- R372: PENDING, presented for the current Packet (the model's reading, log 17, log 30). -/
def Obligations.PendingFlushesAndMovesOn : Prop :=
  ∀ (k : Sched) (s : State) (q : Queue) (p : Packet) (d : DevRef), Inv s = true → HasPacket s k q p →
    p.tag = .uninit → q.dev = some d →
    let flushed (x : Word) : Prop := InRange x (q.qhaddr + 12) 36
    ∃ t, exec (.resultPending k) s = .next t ∧
      t.queue? k q.qhaddr = some { q with packets := [{ p with tag := .inflight }] } ∧
      (∀ x, s.mem.hasRam x = true → flushed x →
        readByte t.mem x = (wordsBytes q.qh.overlayWords).getD (x - (q.qhaddr + 12)).toNat 0) ∧
      SameBytesBut s t flushed ∧ (t.sched k).auto = .horizontalQh ∧
      t.recl = (if k = .async then true else s.recl) ∧ (t.sched k).curQueue = (s.sched k).curQueue ∧
      (t.sched k).visits = (s.sched k).visits ∧ OnlyQueue s t k q.qhaddr ∧
      { t with async := s.async, periodic := s.periodic, recl := s.recl, mem := s.mem } = s

/-- R375: EXECUTING does for a finished Packet what the row of its result does. That a result row presented alone is the
answer of the current Packet is the model's reading (log 17). -/
def Obligations.ExecutingInterpretsTheResult : Prop :=
  ∀ (k : Sched) (s : State) (q : Queue) (p : Packet), HasPacket s k q p → p.tag = .finished →
    (p.result = some .nak → exec (.stateExecuting k) s = exec (.resultNak k) s) ∧
    (p.result = some .stall → exec (.stateExecuting k) s = exec (.resultStall k) s) ∧
    (p.result = some .ioerror → exec (.stateExecuting k) s = exec (.resultIoerror k) s) ∧
    (p.result = some .nodev → exec (.stateExecuting k) s = exec (.resultNodev k) s) ∧
    (p.result = some .babble → exec (.stateExecuting k) s = exec (.resultBabble k) s) ∧
    (∀ data : List Byte, p.result = some .count → data.length = p.count →
      (tokPid p.qtd.token = 0b01#2 → p.buf = data) →
      exec (.stateExecuting k) s = exec (.resultCount k data) s) ∧
    (Inv s = true → p.result ≠ some .count → ∃ t, exec (.stateExecuting k) s = .next t)

/-- R380, R381: WRITEBACK stores the qTD's words 0 to 2 and then the overlay, and frees the Packet. -/
def Obligations.WritebackStoresTheStatus : Prop :=
  ∀ (k : Sched) (s : State) (q : Queue) (p : Packet), Inv s = true → HasPacket s k q p → p.tag = .finished →
    let overlay (x : Word) : Prop := InRange x (q.qhaddr + 12) 36
    let status (x : Word) : Prop := InRange x p.qtdaddr 12
    ∃ t, exec (.stateWriteback k) s = .next t ∧ t.queue? k q.qhaddr = some { q with packets := [] } ∧
      (∀ x, s.mem.hasRam x = true → overlay x → readByte t.mem x = (wordsBytes q.qh.overlayWords).getD (x - (q.qhaddr + 12)).toNat 0) ∧
      (∀ x, s.mem.hasRam x = true → status x → ¬ overlay x → readByte t.mem x =
        (wordsBytes [p.qtd.next, p.qtd.alt, q.qh.ov.token]).getD (x - p.qtdaddr).toNat 0) ∧
      SameBytesBut s t (fun x => overlay x ∨ status x) ∧ (t.sched k).auto = .horizontalQh ∧
      (t.sched k).curQueue = (s.sched k).curQueue ∧ (t.sched k).visits = (s.sched k).visits ∧
      OnlyQueue s t k q.qhaddr ∧ { t with async := s.async, periodic := s.periodic, mem := s.mem } = s

/-! ### Schedules at rest: enable, disable, start, reaping -/

/-- R404, R440: the row of INACTIVE (log 18). -/
def Obligations.InactiveScheduleIsEnabled : Prop :=
  ∀ s : State,
    exec (.stateInactive .async) s =
      .next (s.setAuto .async (if s.usbcmd.rs = true ∧ s.usbcmd.ase = true then .active else .inactive)) ∧
    exec (.stateInactive .periodic) s = .next (s.setAuto .periodic
      (if s.usbcmd.rs = true ∧ s.usbcmd.pse = true ∧ s.frindex.toNat % 8 = 0 then .active else .inactive))

/-- R404, R440, R441, R250: the row of ACTIVE (log 18). A disabled schedule frees its Queues and goes INACTIVE, else a
pass starts where one may; the periodic enable is looked at on frame boundaries only. -/
def Obligations.ActiveScheduleStopsOrStarts : Prop :=
  ∀ s : State, Inv s = true →
    let aOn := s.usbcmd.rs = true ∧ s.usbcmd.ase = true
    let pOff := s.frindex.toNat % 8 = 0 ∧ ¬ (s.usbcmd.rs = true ∧ s.usbcmd.pse = true)
    let base := s.periodicListBase &&& 0xFFFFF000#32
    let freed (k : Sched) (t : State) : Prop := ∃ cs,
      t = { s with outbox := cs ++ s.outbox }.setSched k ⟨.inactive, (s.sched k).fetchAddr, none, (s.sched k).visits, []⟩ ∧
      ∀ o, o ∈ cs ↔ ∃ q d p, q ∈ (s.sched k).cache ∧ p ∈ q.packets ∧ p.tag = .inflight ∧ q.dev = some d ∧
        o = .cancel d k q.qhaddr p.qtdaddr
    (¬ aOn → ∃ t, exec (.stateActive .async) s = .next t ∧ freed .async t) ∧
    (aOn → s.usbsts.getLsbD 5 = false → s.asyncListAddr ≠ 0 → exec (.stateActive .async) s =
      .next { s with async := ⟨.waitListHead, s.async.fetchAddr, none, 0, s.async.cache⟩ }) ∧
    (aOn → s.usbsts.getLsbD 5 = true ∨ s.asyncListAddr = 0 →
      exec (.stateActive .async) s = .next (s.setAuto .async .active)) ∧
    (pOff → ∃ t, exec (.stateActive .periodic) s = .next t ∧ freed .periodic t) ∧
    (¬ pOff → base ≠ 0 → exec (.stateActive .periodic) s = .next { s with
      periodic := ⟨.fetchEntry, read32 s.mem (base + BitVec.ofNat 32 (4 * (s.frindex.toNat / 8 % 1024))), none, 0,
        s.periodic.cache⟩ }) ∧
    (¬ pOff → base = 0 → exec (.stateActive .periodic) s = .next (s.setAuto .periodic .active))

/-- R246, R244, R251: `reap_unused` clears the marks of the Queues seen and frees those unseen and too old, cancelling
their Packets in flight; the current Queue is given up where it is one of them, and nothing else changes. -/
def Obligations.ReapUnusedAgesTheCache : Prop :=
  ∀ (k : Sched) (s : State), Inv s = true → ∃ t, reapUnused k s = .ok t ∧ Inv t = true ∧
    (∀ a q, s.queue? k a = some q → q.seen = true → t.queue? k a = some { q with seen := false }) ∧
    (∀ a q, s.queue? k a = some q → q.seen = false → s.params.queueMaxAge < s.uframeCtr - q.lastSeen →
      t.queue? k a = none) ∧
    (∀ a q, s.queue? k a = some q → q.seen = false → s.uframeCtr - q.lastSeen ≤ s.params.queueMaxAge →
      t.queue? k a = some q) ∧
    (∀ a, s.queue? k a = none → t.queue? k a = none) ∧
    (∃ cs, t.outbox = cs ++ s.outbox ∧
      ∀ o, o ∈ cs ↔ ∃ q d p, q ∈ (s.sched k).cache ∧ q.seen = false ∧
        s.params.queueMaxAge < s.uframeCtr - q.lastSeen ∧ p ∈ q.packets ∧ p.tag = .inflight ∧ q.dev = some d ∧
        o = .cancel d k q.qhaddr p.qtdaddr) ∧
    (t.sched k).curQueue = ((s.sched k).curQueue.filter fun a =>
      (s.queue? k a).any fun q => q.seen || decide (s.uframeCtr - q.lastSeen ≤ s.params.queueMaxAge)) ∧
    (t.sched k).auto = (s.sched k).auto ∧ (t.sched k).fetchAddr = (s.sched k).fetchAddr ∧
    (t.sched k).visits = (s.sched k).visits ∧ (∀ j ≠ k, t.sched j = s.sched j) ∧
    { t with async := s.async, periodic := s.periodic, outbox := s.outbox } = s

/-- R404, R405, R250, R440, R441, R470, R471, R472, R592, R593: what a tick runs, the first tick after a reset included.
First, an enabled asynchronous schedule without a list, or with IAA not acknowledged, runs no pass: a tick in which no microframe
has elapsed makes it ACTIVE, commits what is pending and changes nothing else. Second, with a list and IAA acknowledged
such a tick runs the asynchronous pass from WAIT-LIST-HEAD, then the doorbell step, `reap_unused` and the commit. Third, a
disabled schedule that is ACTIVE is freed by such a tick and goes INACTIVE. Fourth, the asynchronous step of every tick and
of a completion's re-run: disabled and ACTIVE it frees the Queues and goes INACTIVE; else it is enabled where R404 says and
runs the pass, the doorbell step and `reap_unused`; where there is no pass the doorbell step alone follows. Fifth, the
periodic step of a microframe enables or disables, runs the periodic pass from the frame list's entry and then
`reap_unused`. Sixth, each processed microframe commits at the threshold, is accounted and takes its periodic step. Last, a
tick skips, processes and ends with the asynchronous step. The number of steps that `run` is given, 8 (bound + 1) + 3, is
the model's (log 10); `EveryPassEnds` says that it is never used up. That a tick records its time, with which the next
one's is compared, is the model's way to tell a decreasing time (log 36). -/
def Obligations.TickRunsThePasses : Prop :=
  (∀ (s : State) (now : Nat), s.usbcmd.rs = true → s.usbcmd.ase = true →
    s.async.auto = .inactive ∨ s.async.auto = .active →
    let b := s.lastRunUs.getD now
    b ≤ now → s.lastTickUs.getD now ≤ now → now < b + 125 →
    (s.asyncListAddr = 0 ∧ s.usbcmd.iaad = false) ∨ s.usbsts.getLsbD 5 = true →
    ∃ t, exec (.tick now) s = .next t ∧
      t = { s.setAuto .async .active with
        inEntry := false, lastRunUs := some b, lastTickUs := some now }.commitAll ∧
      t.ass = true ∧ t.hch = false ∧ t.mem = s.mem) ∧
  (∀ (s : State) (now : Nat), Inv s = true → s.usbcmd.rs = true → s.usbcmd.ase = true →
    s.async.auto = .inactive ∨ s.async.auto = .active →
    let b := s.lastRunUs.getD now
    b ≤ now → s.lastTickUs.getD now ≤ now → now < b + 125 → s.asyncListAddr ≠ 0 → s.usbsts.getLsbD 5 = false →
    let pass := run .async (8 * (s.params.maxQhVisits + 1) + 3)
      { s with
        inEntry := true, lastRunUs := some b, lastTickUs := some now
        async := ⟨.waitListHead, s.async.fetchAddr, none, 0, s.async.cache⟩ }
    (∀ u, pass = .ok u → ∃ v w, doorbell u = .ok v ∧ reapUnused .async v = .ok w ∧
      exec (.tick now) s = .next { w.commitAll with inEntry := false }) ∧
    (∀ x u, pass = .error (.fatal x u) → exec (.tick now) s = outcome (controllerReset u)) ∧
    ∀ f, pass = .error (.fault f) → exec (.tick now) s = .fault f) ∧
  (∀ (s : State) (now : Nat), Inv s = true → ¬ (s.usbcmd.rs = true ∧ s.usbcmd.ase = true) → s.async.auto = .active →
    s.lastRunUs.getD now ≤ now → s.lastTickUs.getD now ≤ now → now < s.lastRunUs.getD now + 125 →
    ∃ t cs, exec (.tick now) s = .next t ∧ t.async = ⟨.inactive, s.async.fetchAddr, none, s.async.visits, []⟩ ∧
      t.ass = false ∧ t.periodic = s.periodic ∧ t.mem = s.mem ∧ t.inEntry = false ∧ t.outbox = cs ++ s.outbox ∧
      ∀ o, o ∈ cs ↔ ∃ q d p, q ∈ s.async.cache ∧ p ∈ q.packets ∧ p.tag = .inflight ∧ q.dev = some d ∧
        o = .cancel d .async q.qhaddr p.qtdaddr) ∧
  (∀ s : State, Inv s = true →
    let on := s.usbcmd.rs = true ∧ s.usbcmd.ase = true
    let e := if s.async.auto = .inactive ∧ on then s.setAuto .async .active else s
    let stops := s.async.auto = .active ∧ ¬ on
    let passes := e.async.auto = .active ∧ s.usbsts.getLsbD 5 = false ∧ s.asyncListAddr ≠ 0
    (stops → ∃ cs u, doorbell ({ s with outbox := cs ++ s.outbox }.setSched .async
        ⟨.inactive, s.async.fetchAddr, none, s.async.visits, []⟩) = .ok u ∧ asyncStep s = .ok u ∧
      ∀ o, o ∈ cs ↔ ∃ q d p, q ∈ s.async.cache ∧ p ∈ q.packets ∧ p.tag = .inflight ∧ q.dev = some d ∧
        o = .cancel d .async q.qhaddr p.qtdaddr) ∧
    (¬ stops → passes →
      let pass := run .async (8 * (s.params.maxQhVisits + 1) + 3)
        { s with async := ⟨.waitListHead, s.async.fetchAddr, none, 0, s.async.cache⟩ }
      (∀ u, pass = .ok u → ∃ v w, doorbell u = .ok v ∧ reapUnused .async v = .ok w ∧ asyncStep s = .ok w) ∧
      ∀ x, pass = .error x → asyncStep s = .error x) ∧
    (¬ stops → ¬ passes → ∃ u, doorbell e = .ok u ∧ asyncStep s = .ok u)) ∧
  (∀ s : State, Inv s = true →
    let on := s.usbcmd.rs = true ∧ s.usbcmd.pse = true
    let boundary := s.frindex.toNat % 8 = 0
    let base := s.periodicListBase &&& 0xFFFFF000#32
    let e := if boundary ∧ s.periodic.auto = .inactive ∧ on then s.setAuto .periodic .active else s
    let stops := boundary ∧ s.periodic.auto = .active ∧ ¬ on
    (stops → ∃ cs, periodicStep s = .ok ({ s with outbox := cs ++ s.outbox }.setSched .periodic
        ⟨.inactive, s.periodic.fetchAddr, none, s.periodic.visits, []⟩) ∧
      ∀ o, o ∈ cs ↔ ∃ q d p, q ∈ s.periodic.cache ∧ p ∈ q.packets ∧ p.tag = .inflight ∧ q.dev = some d ∧
        o = .cancel d .periodic q.qhaddr p.qtdaddr) ∧
    (¬ stops → e.periodic.auto = .active → base ≠ 0 →
      let pass := run .periodic (8 * (s.params.maxPeriodicVisits + 1) + 3) { e with
        periodic := ⟨.fetchEntry, read32 s.mem (base + BitVec.ofNat 32 (4 * (s.frindex.toNat / 8 % 1024))), none, 0,
          s.periodic.cache⟩ }
      (∀ u, pass = .ok u → ∃ w, reapUnused .periodic u = .ok w ∧ periodicStep s = .ok w) ∧
      ∀ x, pass = .error x → periodicStep s = .error x) ∧
    (¬ stops → e.periodic.auto ≠ .active ∨ base = 0 → periodicStep s = .ok e)) ∧
  (∀ (left i : Nat) (s : State),
    let s1 := s.thresholdCommit
    let enough := s.params.minUfrPerTick ≤ i ∧ s1.irq = true
    let counted := { (if s1.hch then s1 else advanceFrindex s1) with uframeCtr := s.uframeCtr + 1 }
    (enough → processMicroframes (left + 1) i s = .ok (i, s1)) ∧
    (¬ enough → (∀ u, periodicStep counted = .ok u →
        processMicroframes (left + 1) i s = processMicroframes left (i + 1) u) ∧
      ∀ x, periodicStep counted = .error x → processMicroframes (left + 1) i s = .error x)) ∧
  ∀ (s : State) (now : Nat),
    let b := s.lastRunUs.getD now
    b ≤ now → s.lastTickUs.getD now ≤ now →
    let n := (now - b) / 125
    let todo := min n s.params.maxUfrPerTick
    let loop := processMicroframes todo 0 (skipMicroframes (n - s.params.maxUfrPerTick)
      { s with inEntry := true, lastRunUs := some (b + 125 * n), lastTickUs := some now })
    (∀ i u, loop = .ok (i, u) →
      let v := { u with lastRunUs := some (b + 125 * (n - (todo - i))) }
      (∀ w, asyncStep v = .ok w → exec (.tick now) s = .next { w.commitAll with inEntry := false }) ∧
      (∀ x w, asyncStep v = .error (.fatal x w) → exec (.tick now) s = outcome (controllerReset w)) ∧
      ∀ f, asyncStep v = .error (.fault f) → exec (.tick now) s = .fault f) ∧
    (∀ x w, loop = .error (.fatal x w) → exec (.tick now) s = outcome (controllerReset w)) ∧
    ∀ f, loop = .error (.fault f) → exec (.tick now) s = .fault f

/-- R406, R247: the doorbell step, where it answers, frees exactly the Queues that the pass has not seen, withdraws IAAD
and raises IAA. A tick that is not ended by a Fatal answers the doorbell: IAAD is withdrawn, IAA is set, and every
Queue left was last seen at the present microframe count (by this tick's pass, or by an earlier entry at the same
count). -/
def Obligations.TickAnswersTheDoorbell : Prop :=
  (∀ s : State, Inv s = true →
    (s.usbcmd.iaad = true → s.usbsts.getLsbD 5 = false → ∃ t cs, doorbell s = .ok t ∧
      t.usbcmd = { s.usbcmd with iaad := false } ∧ t.usbstsPending = s.usbstsPending ||| 0b100000#6 ∧
      (∀ a, t.queue? .async a = (s.queue? .async a).filter fun q => q.seen) ∧ t.outbox = cs ++ s.outbox ∧
      (∀ o, o ∈ cs ↔ ∃ q d p, q ∈ s.async.cache ∧ q.seen = false ∧ p ∈ q.packets ∧ p.tag = .inflight ∧
        q.dev = some d ∧ o = .cancel d .async q.qhaddr p.qtdaddr) ∧
      t.async.auto = s.async.auto ∧ t.async.fetchAddr = s.async.fetchAddr ∧ t.async.visits = s.async.visits ∧
      t.async.curQueue = (s.async.curQueue.filter fun a => (s.queue? .async a).any fun q => q.seen) ∧
      { t with
        usbcmd := s.usbcmd, usbstsPending := s.usbstsPending, async := s.async, outbox := s.outbox } = s) ∧
    (s.usbcmd.iaad = false ∨ s.usbsts.getLsbD 5 = true → doorbell s = .ok s)) ∧
  ∀ (s t : State) (now : Nat), Inv s = true → Rested s → s.usbcmd.iaad = true → s.usbsts.getLsbD 5 = false →
    s.usbstsPending.getLsbD 5 = false → exec (.tick now) s = .next t → t.lastRunUs ≠ none →
    t.usbcmd.iaad = false ∧ t.usbsts.getLsbD 5 = true ∧ ∀ q ∈ t.async.cache, q.lastSeen = t.uframeCtr

/-! ### The frame timer -/

/-- R470, R538: a time before `last_run_us` is refused, and so is one before the time of the last tick; every tick that is
not refused records its time, also where a Fatal ends it (that record is the model's, log 36). The first tick takes its
time and processes no microframe. The next state of a tick that a Fatal ends has `last_run_us` unset (R583). -/
def Obligations.FirstAndBackwardTicks : Prop :=
  (∀ (s : State) (b now : Nat), s.lastRunUs = some b ∨ s.lastTickUs = some b → now < b →
    exec (.tick now) s = .refused .tickBackwards) ∧
  (∀ (s t : State) (now : Nat), exec (.tick now) s = .next t → t.lastTickUs = some now) ∧
  ∀ (s t : State) (now : Nat), s.lastRunUs = none → exec (.tick now) s = .next t → t.lastRunUs ≠ none →
    t.lastRunUs = some now ∧ t.uframeCtr = s.uframeCtr ∧ t.frindex = s.frindex

/-- R476: a tick while HCH = 1 counts microframes and runs no schedule; like every tick it commits what is pending (R536),
and it answers a doorbell (R406). That it records its time is the model's (log 36). -/
def Obligations.HaltedTickRunsNoSchedule : Prop :=
  ∀ (s : State) (now : Nat), Inv s = true → s.usbcmd.rs = false → s.async.auto = .inactive →
    s.periodic.auto = .inactive → s.lastRunUs.getD now ≤ now → s.lastTickUs.getD now ≤ now →
    ∃ t b, exec (.tick now) s = .next t ∧ t.lastRunUs = some b ∧ s.lastRunUs.getD now ≤ b ∧ b ≤ now ∧
      t.lastTickUs = some now ∧
      t.uframeCtr = s.uframeCtr + (b - s.lastRunUs.getD now) / 125 ∧ t.frindex = s.frindex ∧
      t.periodic = s.periodic ∧ t.async.auto = .inactive ∧ t.async.fetchAddr = s.async.fetchAddr ∧
      t.async.visits = s.async.visits ∧ t.hch = true ∧ t.inEntry = false ∧ t.usbstsPending = 0 ∧
      t.usbsts = s.usbsts ||| s.usbstsPending ||| (if s.usbcmd.iaad = true then 0b100000#6 else 0) ∧
      (s.usbcmd.iaad = false ∨ s.usbsts.getLsbD 5 = true →
        t.usbcmd = s.usbcmd ∧ t.async = s.async ∧ t.outbox = s.outbox) ∧
      (s.usbcmd.iaad = true → s.usbsts.getLsbD 5 = false → s.usbstsPending.getLsbD 5 = false →
        t.usbcmd = { s.usbcmd with iaad := false } ∧
        ∀ a, t.queue? .async a = (s.queue? .async a).filter fun q => q.seen) ∧
      { t with
        usbcmd := s.usbcmd, usbsts := s.usbsts, usbstsPending := s.usbstsPending, nextCommit := s.nextCommit
        uframeCtr := s.uframeCtr, lastRunUs := s.lastRunUs, lastTickUs := s.lastTickUs, inEntry := s.inEntry
        async := s.async, outbox := s.outbox } = s

/-- R471 to R475: one tick of a running controller. The frame index moves by the microframes accounted, FLR is set
where it wraps, and what stays owed is bounded. -/
def Obligations.RunningTickAdvancesTheFrameIndex : Prop :=
  ∀ (s t : State) (now b : Nat), s.usbcmd.rs = true → s.usbstsPending.getLsbD 3 = false →
    exec (.tick now) s = .next t → t.lastRunUs = some b →
    ∃ n, b = s.lastRunUs.getD now + 125 * n ∧ b ≤ now ∧
      now < b + 125 * (1 + (s.params.maxUfrPerTick - s.params.minUfrPerTick)) ∧
      t.uframeCtr = s.uframeCtr + n ∧ t.frindex = s.frindex + BitVec.ofNat 14 n ∧
      (t.usbsts.getLsbD 3 = true ↔ s.usbsts.getLsbD 3 = true ∨
        ∃ m, 1 ≤ m ∧ m ≤ n ∧ (s.frindex + BitVec.ofNat 14 m).extractLsb' 0 13 = 0#13)

/-- R536, R54: nothing stays pending after an entry that commits, and the entry is over. -/
def Obligations.EntriesCommitAllPendingBits : Prop :=
  (∀ (s t : State) (now : Nat), exec (.tick now) s = .next t → t.usbstsPending = 0 ∧ t.inEntry = false) ∧
  ∀ (s t : State) (qh qtd : Word) (r : DevAnswer), s.inEntry = false →
    exec (.complete .async qh qtd r) s = .next t → t.usbstsPending = 0 ∧ t.inEntry = false

/-- A tick whose time does not go back (R470, R538, log 36) in a good state at rest always completes, in a good state at
rest, whatever the guest's descriptors hold. -/
def Obligations.TicksComplete : Prop :=
  ∀ (s : State) (now : Nat), Inv s = true → Idle s = true → plainAnswers s = true → s.lastRunUs.getD now ≤ now →
    s.lastTickUs.getD now ≤ now →
    ∃ t, exec (.tick now) s = .next t ∧ Inv t = true ∧ Idle t = true ∧ t.inEntry = false

/-- R310: the completion callback. That it names its Packet by schedule, queue head and qTD address is the model's choice
(log 14). -/
def Obligations.CompletionFinishesThePacket : Prop :=
  ∀ (k : Sched) (s : State) (qh qtd : Word) (r : DevAnswer),
    ((∀ q p, s.queue? k qh = some q → findPacket q.packets qtd = some p → p.tag ≠ .inflight) →
      exec (.complete k qh qtd r) s = .fault .completionNotInflight) ∧
    ∀ q p, s.queue? k qh = some q → findPacket q.packets qtd = some p → p.tag = .inflight →
      let done := s.putQueue { q with packets := replacePacket q.packets (p.settle r) }
      (r = .pending → exec (.complete k qh qtd r) s = .fault .completionPending) ∧
      (r ≠ .pending → s.inEntry = true ∨ k = .periodic → exec (.complete k qh qtd r) s = .next done) ∧
      (r ≠ .pending → s.inEntry = false → k = .async →
        (∀ u, asyncStep { done with inEntry := true } = .ok u →
          exec (.complete k qh qtd r) s = .next { u.commitAll with inEntry := false }) ∧
        (∀ x u, asyncStep { done with inEntry := true } = .error (.fatal x u) →
          exec (.complete k qh qtd r) s = outcome (controllerReset u)) ∧
        (Inv s = true → Idle s = true → plainAnswers s = true →
          ∃ t, exec (.complete k qh qtd r) s = .next t ∧ Inv t = true ∧ Idle t = true ∧ t.inEntry = false))

/-! ### Whole-machine rules -/

/-- R346, log 10: every pass ends. No tick and no pass, from any state, uses up the steps in which a pass must end. -/
def Obligations.EveryPassEnds : Prop :=
  (∀ s : State, run .async (8 * (s.params.maxQhVisits + 1) + 3) (asyncBegin s) ≠ .error (.fault .passTooLong)) ∧
  (∀ s : State,
    run .periodic (8 * (s.params.maxPeriodicVisits + 1) + 3) (periodicBegin s) ≠ .error (.fault .passTooLong)) ∧
  (∀ (k : Sched) (n : Nat) (s t : State), run k n s = .ok t → autoIdle (t.sched k).auto = true) ∧
  ∀ (s : State) (now : Nat), exec (.tick now) s ≠ .fault .passTooLong

/-- The invariant of the block is kept by every step. -/
def Obligations.StepsKeepTheInvariant : Prop := ∀ s t : State, Inv s = true → step s = .next t → Inv t = true

/-- The state after reset meets the invariant and is at rest. -/
def Obligations.ResetMeetsTheInvariant : Prop :=
  Inv State.reset = true ∧ Rested State.reset ∧ Memory.wf State.reset.mem = true ∧ State.reset.params.wf = true

/-- R31, R246: every stimulus handled at rest ends at rest, with no Queue marked seen. -/
def Obligations.StimuliEndAtRest : Prop :=
  ∀ (i : Instr) (s t : State), isStimulus i = true → Inv s = true → Rested s → exec i s = .next t → Rested t

/-- R49, R42, R539: what the engine itself never writes. Where the row is no write of the guest's, the list bases, the
enables and the interrupt mask are kept and no status bit is cleared; or the row is one that may take a Fatal, and the
controller was reset. -/
def Obligations.EngineKeepsTheGuestsRegisters : Prop :=
  ∀ (i : Instr) (s t : State), writesRegisters i = false → exec i s = .next t →
    (t.asyncListAddr = s.asyncListAddr ∧ t.periodicListBase = s.periodicListBase ∧ t.usbintr = s.usbintr ∧
      t.usbcmd = { s.usbcmd with iaad := t.usbcmd.iaad } ∧ (t.usbcmd.iaad = true → s.usbcmd.iaad = true) ∧
      s.usbsts &&& t.usbsts = s.usbsts) ∨
    (mayTakeFatal i = true ∧ t.asyncListAddr = 0 ∧ t.periodicListBase = 0 ∧ t.usbintr = 0 ∧
      t.usbcmd = ⟨false, false, false, false, 8⟩ ∧ t.usbsts = 0 ∧ t.usbstsPending = 0 ∧ t.frindex = 0 ∧ t.lastRunUs = none ∧
      t.async = ⟨.inactive, 0, none, 0, t.async.cache⟩ ∧ t.periodic = ⟨.inactive, 0, none, 0, t.periodic.cache⟩)

/-- The parameters are fixed, where there is guest memory among them; HSE is never set and only coalesced bits are ever
pending; a commit is never farther off than the largest interrupt threshold; the time accounted is never later than the
last tick's (whose record is the model's, log 36). -/
def Obligations.StepsKeepTheInterruptAndTimerState : Prop :=
  ∀ s t : State, step s = .next t →
    t.params = s.params ∧ t.mem.holes = s.mem.holes ∧
    (s.usbstsPending &&& 0b011100#6 = 0 → t.usbstsPending &&& 0b011100#6 = 0) ∧
    (s.usbstsPending &&& 0b011100#6 = 0 → s.usbsts.getLsbD 4 = false → t.usbsts.getLsbD 4 = false) ∧
    (s.nextCommit ≤ s.uframeCtr + 255 → t.nextCommit ≤ t.uframeCtr + 255) ∧
    ((∀ b, s.lastRunUs = some b → ∃ l, s.lastTickUs = some l ∧ b ≤ l) →
      ∀ b, t.lastRunUs = some b → ∃ l, t.lastTickUs = some l ∧ b ≤ l)

/-- R311: a submit call in which the device completes Packets. A completion of the Packet submitted is its immediate
answer, whatever the device returns then; every other one finishes its Packet and does nothing else, so that the rest is
as with that answer and no completions. The first completion stops the machine where R310 has it stop. That the
completions come lined up with the answer is the model's choice (log 5, log 7), as are the rows that present a token
(log 17) and the naming of Packets (log 14). -/
def Obligations.SubmitDeliversCompletions : Prop :=
  ∀ (k : Sched) (s : State) (q : Queue) (p e : Packet) (i : Instr) (d : DevRef) (cs : List Completion) (a : DevAnswer)
    (rest : List SubmitAnswer), Inv s = true → HasPacket s k q p → p.tag = .uninit → ExecutesAs k p i e →
    tokPid e.qtd.token ≠ 0b11#2 → WalkFits e.qtd e.len.toNat → q.dev = some d → s.answers = ⟨cs, a⟩ :: rest →
    let own (c : Completion) : Prop := c.kind = k ∧ c.qhaddr = q.qhaddr ∧ c.qtdaddr = p.qtdaddr
    let inflight (c : Completion) : Prop := ∃ y z, s.queue? c.kind c.qhaddr = some y ∧
      findPacket y.packets c.qtdaddr = some z ∧ z.tag = .inflight
    (∀ c cs', cs = c :: cs' →
      (¬ own c → ¬ inflight c → exec i s = .fault .completionNotInflight) ∧
      (own c ∨ inflight c → c.answer = .pending → exec i s = .fault .completionPending)) ∧
    ((∀ c ∈ cs, c.answer ≠ .pending ∧ (own c ∨ inflight c)) →
      (cs.map fun c => (c.kind, c.qhaddr, c.qtdaddr)).Nodup →
      ∀ r, (r = a ∧ ∀ c ∈ cs, ¬ own c) ∨ (∃ c ∈ cs, own c ∧ r = c.answer) →
      ∃ t0 t, exec i { s with answers := ⟨[], r⟩ :: rest } = .next t0 ∧ exec i s = .next t ∧
        (∀ c ∈ cs, ¬ own c → ∀ y z, s.queue? c.kind c.qhaddr = some y → findPacket y.packets c.qtdaddr = some z →
          t.queue? c.kind c.qhaddr = some { y with packets := [z.settle c.answer] }) ∧
        (∀ j b, (¬ ∃ c ∈ cs, ¬ own c ∧ c.kind = j ∧ c.qhaddr = b) → t.queue? j b = t0.queue? j b) ∧
        (∀ j, (t.sched j).auto = (t0.sched j).auto ∧ (t.sched j).fetchAddr = (t0.sched j).fetchAddr ∧
          (t.sched j).curQueue = (t0.sched j).curQueue ∧ (t.sched j).visits = (t0.sched j).visits) ∧
        { t with async := t0.async, periodic := t0.periodic } = t0)

end
end

