-- ==== Sys2Proof/Laws/Memory.lean ====
section
/-! SUPPORT. Guest memory: reading after writing, and that every operation keeps the canonical form. -/

namespace Sys2Proof.Machine

/-! ### One byte -/

theorem cellsWf_cons (a : Nat) (b : Byte) (m : List Host.Cell) :
    cellsWf ((a, b) :: m) = true ↔
      a < 2 ^ 32 ∧ b ≠ unlistedByte ∧ (∀ c ∈ m, a < c.1) ∧ cellsWf m = true := by
  simp [cellsWf, and_assoc]

theorem memGet_below {m : List Host.Cell} {x : Nat} (h : ∀ c ∈ m, x < c.1) : memGet m x = unlistedByte := by
  induction m with
  | nil => rfl
  | cons c m ih =>
    have h1 := h c (by simp)
    simp only [memGet]
    rw [if_neg (by omega)]
    exact ih fun d hd => h d (by simp [hd])

/-- Reading a byte after writing one. -/
theorem memGet_memSet {m : List Host.Cell} (hm : cellsWf m = true) (x : Nat) (v : Byte) (y : Nat) :
    memGet (memSet m x v) y = if y = x then v else memGet m y := by
  induction m with
  | nil =>
    by_cases hv : v = unlistedByte
    · simp [memSet, memGet, hv]
    · simp only [memSet, if_neg hv, memGet]
      by_cases hy : x = y
      · subst hy; simp
      · rw [if_neg hy, if_neg (Ne.symm hy)]
  | cons c m ih =>
    obtain ⟨a, b⟩ := c
    obtain ⟨-, -, hlt, hwf⟩ := (cellsWf_cons a b m).1 hm
    simp only [memSet]
    by_cases h1 : x < a
    · have hx : memGet ((a, b) :: m) x = unlistedByte := memGet_below fun d hd => by
        rcases List.mem_cons.1 hd with rfl | hd
        · exact h1
        · exact lt_trans h1 (hlt d hd)
      rw [if_pos h1]
      by_cases h2 : v = unlistedByte
      · rw [if_pos h2]
        by_cases hy : y = x
        · rw [if_pos hy, hy, hx, h2]
        · rw [if_neg hy]
      · rw [if_neg h2, memGet]
        by_cases hy : y = x
        · rw [if_pos hy, if_pos hy.symm]
        · rw [if_neg hy, if_neg (Ne.symm hy)]
    · rw [if_neg h1]
      by_cases h3 : x = a
      · subst h3
        rw [if_pos rfl]
        by_cases h4 : v = unlistedByte
        · rw [if_pos h4]
          by_cases hy : y = x
          · rw [if_pos hy, hy, memGet_below hlt, h4]
          · rw [if_neg hy, memGet, if_neg (Ne.symm hy)]
        · rw [if_neg h4, memGet, memGet]
          by_cases hy : y = x
          · rw [if_pos hy, if_pos hy.symm]
          · rw [if_neg hy, if_neg (Ne.symm hy), if_neg (Ne.symm hy)]
      · rw [if_neg h3, memGet, memGet, ih hwf]
        by_cases hy : a = y
        · rw [if_pos hy, if_neg (by omega), if_pos hy]
        · rw [if_neg hy, if_neg hy]

theorem mem_memSet {m : List Host.Cell} {x : Nat} {v : Byte} {c : Host.Cell} (h : c ∈ memSet m x v) :
    c = (x, v) ∨ c ∈ m := by
  induction m with
  | nil =>
    simp only [memSet] at h
    split at h <;> simp_all
  | cons d m ih =>
    obtain ⟨a, b⟩ := d
    simp only [memSet] at h
    split_ifs at h with h1 h2 h3 h4
    · exact .inr h
    · rcases List.mem_cons.1 h with h | h
      · exact .inl h
      · exact .inr h
    · exact .inr (by simp [h])
    · subst h3
      rcases List.mem_cons.1 h with h | h
      · exact .inl h
      · exact .inr (by simp [h])
    · rcases List.mem_cons.1 h with h | h
      · exact .inr (by simp [h])
      · rcases ih h with h | h
        · exact .inl h
        · exact .inr (by simp [h])

/-- A write of a byte keeps the canonical form. -/
theorem memSet_wf {m : List Host.Cell} (hm : cellsWf m = true) {x : Nat} (hx : x < 2 ^ 32) (v : Byte) :
    cellsWf (memSet m x v) = true := by
  induction m with
  | nil =>
    simp only [memSet]
    split_ifs with h
    · rfl
    · rw [cellsWf_cons]; exact ⟨hx, h, by simp, rfl⟩
  | cons c m ih =>
    obtain ⟨a, b⟩ := c
    obtain ⟨ha, hb, hlt, hwf⟩ := (cellsWf_cons a b m).1 hm
    simp only [memSet]
    split_ifs with h1 h2 h3 h4
    · exact hm
    · rw [cellsWf_cons]
      refine ⟨hx, h2, fun d hd => ?_, hm⟩
      rcases List.mem_cons.1 hd with rfl | hd
      · exact h1
      · exact lt_trans h1 (hlt d hd)
    · exact hwf
    · rw [cellsWf_cons]; exact ⟨ha, h4, hlt, hwf⟩
    · rw [cellsWf_cons]
      refine ⟨ha, hb, fun d hd => ?_, ih hwf⟩
      rcases mem_memSet hd with rfl | hd
      · simp only; omega
      · exact hlt d hd

/-! ### Guest memory -/

theorem Memory.wf_iff {m : Memory} :
    Memory.wf m = true ↔ cellsWf m.cells = true ∧ ∀ c ∈ m.cells, outsideHoles m.holes c.1 = true := by
  simp [Memory.wf]

theorem Memory.hasRam_congr {m n : Memory} (h : n.holes = m.holes) (a : Word) : n.hasRam a = m.hasRam a := by
  rw [Memory.hasRam, Memory.hasRam, h]

@[simp] theorem Memory.setByte_holes (m : Memory) (a : Word) (v : Byte) : (m.setByte a v).holes = m.holes := by
  unfold Memory.setByte; split <;> rfl

@[simp] theorem Memory.setByte_epoch (m : Memory) (a : Word) (v : Byte) : (m.setByte a v).epoch = m.epoch := by
  unfold Memory.setByte; split <;> rfl

@[simp] theorem Memory.guestActs_cells (m : Memory) : m.guestActs.cells = m.cells := rfl
@[simp] theorem Memory.guestActs_holes (m : Memory) : m.guestActs.holes = m.holes := rfl
@[simp] theorem Memory.guestActs_lost (m : Memory) : m.guestActs.lost = m.lost := rfl
@[simp] theorem Memory.guestActs_epoch (m : Memory) : m.guestActs.epoch = m.epoch + 1 := rfl

theorem Memory.guestActs_wf (m : Memory) : Memory.wf m.guestActs = Memory.wf m := rfl

theorem readByte_guestActs (m : Memory) {b : Word} (hb : m.hasRam b = true) : readByte m.guestActs b = readByte m b := by
  rw [readByte, readByte, if_pos (show m.guestActs.hasRam b = true from hb), if_pos hb]; rfl

/-- A byte with memory behind it, after a byte is written somewhere. -/
theorem readByte_setByte {m : Memory} (hm : Memory.wf m = true) (a : Word) {b : Word} (v : Byte)
    (hb : m.hasRam b = true) : readByte (m.setByte a v) b = if b = a then v else readByte m b := by
  rw [readByte, readByte, Memory.hasRam_congr (Memory.setByte_holes m a v), if_pos hb, if_pos hb, Memory.setByte]
  by_cases h : b = a
  · subst h
    rw [if_pos hb, if_pos rfl]
    simp [memGet_memSet (Memory.wf_iff.1 hm).1]
  · rw [if_neg h]
    split
    · rw [memGet_memSet (Memory.wf_iff.1 hm).1, if_neg fun h' => h (BitVec.eq_of_toNat_eq h')]
    · rfl

/-- A write of a byte keeps the canonical form. -/
theorem setByte_wf {m : Memory} (hm : Memory.wf m = true) (a : Word) (v : Byte) : Memory.wf (m.setByte a v) = true := by
  obtain ⟨h1, h2⟩ := Memory.wf_iff.1 hm
  unfold Memory.setByte
  split
  · rename_i ha
    refine Memory.wf_iff.2 ⟨memSet_wf h1 a.isLt v, fun c hc => ?_⟩
    rcases mem_memSet hc with rfl | hc
    · exact ha
    · exact h2 c hc
  · exact hm

/-! ### Byte strings -/

@[simp] theorem writeBytes_holes (m : Memory) (a : Word) (bs : List Byte) : (writeBytes m a bs).holes = m.holes := by
  induction bs generalizing m a with
  | nil => rfl
  | cons b bs ih => rw [writeBytes, ih, Memory.setByte_holes]

theorem writeBytes_wf {m : Memory} (hm : Memory.wf m = true) (a : Word) (bs : List Byte) :
    Memory.wf (writeBytes m a bs) = true := by
  induction bs generalizing m a with
  | nil => exact hm
  | cons b bs ih => exact ih (setByte_wf hm a b) (a + 1)

theorem sub_one_toNat {a b : Word} (h : b ≠ a) : (b - (a + 1)).toNat + 1 = (b - a).toNat := by
  bv_omega

/-- What a byte with memory behind it reads as after a byte string is written: the string's byte inside its range, which
wraps modulo 2^32 (R33), and what it read before outside it. -/
theorem readByte_writeBytes {m : Memory} (hm : Memory.wf m = true) (a : Word) (bs : List Byte)
    (hl : bs.length ≤ 2 ^ 32) {b : Word} (hb : m.hasRam b = true) :
    readByte (writeBytes m a bs) b =
      if (b - a).toNat < bs.length then bs.getD (b - a).toNat 0 else readByte m b := by
  induction bs generalizing m a with
  | nil => simp [writeBytes]
  | cons v bs ih =>
    simp only [List.length_cons] at hl
    have hb' : (m.setByte a v).hasRam b = true := by rw [Memory.hasRam_congr (Memory.setByte_holes m a v)]; exact hb
    simp only [writeBytes, ih (setByte_wf hm a v) (a + 1) (by omega) hb', readByte_setByte hm a v hb, List.length_cons]
    by_cases h : b = a
    · subst h
      have h0 : (b - b).toNat = 0 := by simp
      have h1 : (b - (b + 1)).toNat = 2 ^ 32 - 1 := by bv_omega
      rw [if_neg (by omega), if_pos rfl, if_pos (by omega), h0]
      rfl
    · have h1 := sub_one_toNat h
      simp only [if_neg h]
      rw [← h1]
      by_cases h2 : (b - (a + 1)).toNat < bs.length
      · rw [if_pos h2, if_pos (by omega)]; rfl
      · rw [if_neg h2, if_neg (by omega)]

theorem readBytes_length (m : Memory) (a : Word) (n : Nat) : (readBytes m a n).length = n := by
  induction n generalizing a with
  | zero => rfl
  | succ n ih => simp [readBytes, ih]

theorem readBytes_getD (m : Memory) (a : Word) (n i : Nat) (h : i < n) :
    (readBytes m a n).getD i 0 = readByte m (a + BitVec.ofNat 32 i) := by
  induction n generalizing a i with
  | zero => omega
  | succ n ih =>
    cases i with
    | zero => simp [readBytes]
    | succ i =>
      have : a + BitVec.ofNat 32 (i + 1) = a + 1 + BitVec.ofNat 32 i := by
        apply BitVec.eq_of_toNat_eq; simp; omega
      simp only [readBytes, List.getD_cons_succ, ih (a + 1) i (by omega), this]

/-! ### Words -/

theorem wordOf_wordBytes (w : Word) :
    wordOf (w.extractLsb' 0 8) (w.extractLsb' 8 8) (w.extractLsb' 16 8) (w.extractLsb' 24 8) = w := by
  apply BitVec.eq_of_getLsbD_eq
  intro i hi
  simp only [wordOf, BitVec.getLsbD_append, BitVec.getLsbD_extractLsb']
  split_ifs
  · rw [decide_eq_true (by omega), Bool.true_and]; congr 1; omega
  · rw [decide_eq_true (by omega), Bool.true_and]; congr 1; omega
  · rw [decide_eq_true (by omega), Bool.true_and]; congr 1; omega
  · rw [decide_eq_true (by omega), Bool.true_and]; congr 1; omega

theorem wordBytes_length (w : Word) : (wordBytes w).length = 4 := rfl

theorem write32_wf {m : Memory} (hm : Memory.wf m = true) (a w : Word) : Memory.wf (write32 m a w) = true :=
  writeBytes_wf hm a _

/-- One byte after a word is written (R102). -/
theorem readByte_write32 {m : Memory} (hm : Memory.wf m = true) (a w : Word) {b : Word} (hb : m.hasRam b = true) :
    readByte (write32 m a w) b =
      if (b - a).toNat < 4 then (wordBytes w).getD (b - a).toNat 0 else readByte m b :=
  readByte_writeBytes hm a (wordBytes w) (by simp [wordBytes_length]) hb

@[simp] theorem write32_holes (m : Memory) (a w : Word) : (write32 m a w).holes = m.holes := writeBytes_holes m a _

theorem wordsBytes_length (ws : List Word) : (wordsBytes ws).length = 4 * ws.length := by
  induction ws with
  | nil => rfl
  | cons w ws ih =>
    have : wordsBytes (w :: ws) = wordBytes w ++ wordsBytes ws := rfl
    rw [this, List.length_append, ih, wordBytes_length, List.length_cons]; omega

theorem flushQh_wf {m : Memory} (hm : Memory.wf m = true) (a : Word) (h : Qh) : Memory.wf (flushQh m a h) = true :=
  writeBytes_wf hm _ _

/-- One byte after an overlay is flushed (R248): only QH words 3 to 11 change. -/
theorem readByte_flushQh {m : Memory} (hm : Memory.wf m = true) (a : Word) (h : Qh) {b : Word}
    (hb : m.hasRam b = true) :
    readByte (flushQh m a h) b =
      if (b - (a + 12)).toNat < 36 then (wordsBytes h.overlayWords).getD (b - (a + 12)).toNat 0 else readByte m b := by
  have hl : (wordsBytes h.overlayWords).length = 36 := by rw [wordsBytes_length]; rfl
  rw [flushQh, readByte_writeBytes hm _ _ (by omega) hb, hl]

@[simp] theorem flushQh_holes (m : Memory) (a : Word) (h : Qh) : (flushQh m a h).holes = m.holes := writeBytes_holes m _ _

@[simp] theorem scatterBytes_holes (m : Memory) (segs : List Segment) (bs : List Byte) :
    (scatterBytes m segs bs).holes = m.holes := by
  induction segs generalizing m bs with
  | nil => rfl
  | cons g segs ih => rw [scatterBytes, ih, writeBytes_holes]

@[simp] theorem writebackQtd_holes (m : Memory) (p : Packet) (t : Word) : (writebackQtd m p t).holes = m.holes := by
  simp only [writebackQtd, write32_holes]

theorem scatterBytes_wf {m : Memory} (hm : Memory.wf m = true) (segs : List Segment) (bs : List Byte) :
    Memory.wf (scatterBytes m segs bs) = true := by
  induction segs generalizing m bs with
  | nil => exact hm
  | cons g segs ih => exact ih (writeBytes_wf hm _ _) _

theorem writebackQtd_wf {m : Memory} (hm : Memory.wf m = true) (p : Packet) (t : Word) :
    Memory.wf (writebackQtd m p t) = true := write32_wf (write32_wf (write32_wf hm _ _) _ _) _ _

theorem reset_memory_wf : Memory.wf State.reset.mem = true := rfl

end Sys2Proof.Machine
end

