-- ==== Sys2Proof/Laws/Bits.lean ====
section
/-! SUPPORT. The words of descriptors, taken apart and put together again, and messages read from their front. -/

namespace Sys2Proof

/-- A field of a word, bit by bit. -/
theorem field_of_bits {n m : Nat} {x : BitVec n} {s : Nat} {y : BitVec m}
    (h : ∀ i, i < m → x.getLsbD (s + i) = y.getLsbD i) : x.extractLsb' s m = y := by
  apply BitVec.eq_of_getLsbD_eq
  intro i hi
  rw [BitVec.getLsbD_extractLsb', h i hi, decide_eq_true hi, Bool.true_and]

/-- The bit of a one-bit field. -/
theorem one_bit (b : BitVec 1) : BitVec.ofBool (b.getLsbD 0) = b := by
  revert b; decide

/-! ### Link pointers (R150) -/

theorem linkWord_addr (a : BitVec 27) (r ty : BitVec 2) (t : BitVec 1) :
    (linkWord a r ty t).extractLsb' 5 27 = a := by
  refine field_of_bits fun i hi => ?_
  simp only [linkWord, BitVec.getLsbD_append]
  split_ifs <;> first | omega | (congr 1; omega)

theorem linkWord_rsvd (a : BitVec 27) (r ty : BitVec 2) (t : BitVec 1) :
    (linkWord a r ty t).extractLsb' 3 2 = r := by
  refine field_of_bits fun i hi => ?_
  simp only [linkWord, BitVec.getLsbD_append]
  split_ifs <;> first | omega | (congr 1; omega)

theorem linkWord_typ (a : BitVec 27) (r ty : BitVec 2) (t : BitVec 1) :
    (linkWord a r ty t).extractLsb' 1 2 = ty := by
  refine field_of_bits fun i hi => ?_
  simp only [linkWord, BitVec.getLsbD_append]
  split_ifs <;> first | omega | (congr 1; omega)

theorem linkWord_t (a : BitVec 27) (r ty : BitVec 2) (t : BitVec 1) :
    (linkWord a r ty t).getLsbD 0 = t.getLsbD 0 := by
  simp only [linkWord, BitVec.getLsbD_append]; rfl

theorem linkEndWord_rest (rest : BitVec 31) : (linkEndWord rest).extractLsb' 1 31 = rest := by
  refine field_of_bits fun i hi => ?_
  simp only [linkEndWord, BitVec.getLsbD_append]
  split_ifs <;> first | omega | (congr 1; omega)

theorem linkEndWord_t (rest : BitVec 31) : (linkEndWord rest).getLsbD 0 = true := by
  simp only [linkEndWord, BitVec.getLsbD_append]; rfl

/-- A link pointer is its fields. -/
theorem linkWord_fields (w : Word) (h : w.getLsbD 0 = false) :
    linkWord (w.extractLsb' 5 27) (w.extractLsb' 3 2) (w.extractLsb' 1 2) 0#1 = w := by
  apply BitVec.eq_of_getLsbD_eq
  intro i hi
  simp only [linkWord, BitVec.getLsbD_append, BitVec.getLsbD_extractLsb']
  split_ifs
  · have : i = 0 := by omega
    subst this; rw [h]; rfl
  all_goals rw [decide_eq_true (by omega), Bool.true_and]; congr 1; omega

theorem linkEndWord_fields (w : Word) (h : w.getLsbD 0 = true) : linkEndWord (w.extractLsb' 1 31) = w := by
  apply BitVec.eq_of_getLsbD_eq
  intro i hi
  simp only [linkEndWord, BitVec.getLsbD_append, BitVec.getLsbD_extractLsb']
  split_ifs
  · have : i = 0 := by omega
    subst this; simp [h]
  · rw [decide_eq_true (by omega), Bool.true_and]; congr 1; omega

/-! ### Tokens (R160) -/

theorem tokenOps_word (t : TokenOps) (p : BitVec 2) (a : BitVec 1) : tokenOps (t.word p a) = t := by
  obtain ⟨d, tt, io, cp, ce, st⟩ := t
  simp only [tokenOps, TokenOps.mk.injEq]
  refine ⟨?_, ?_, ?_, ?_, ?_, ?_⟩ <;> refine field_of_bits fun i hi => ?_ <;>
    simp only [TokenOps.word, BitVec.getLsbD_append] <;>
    split_ifs <;> first | omega | (congr 1; omega)

theorem token_pid (t : TokenOps) (p : BitVec 2) (a : BitVec 1) : (t.word p a).extractLsb' 8 2 = p := by
  refine field_of_bits fun i hi => ?_
  simp only [TokenOps.word, BitVec.getLsbD_append]
  split_ifs <;> first | omega | (congr 1; omega)

theorem token_active (t : TokenOps) (p : BitVec 2) (a : BitVec 1) : (t.word p a).getLsbD 7 = a.getLsbD 0 := by
  simp only [TokenOps.word, BitVec.getLsbD_append]; rfl

theorem token_fields (w : Word) (a : BitVec 1) (h : w.getLsbD 7 = a.getLsbD 0) :
    (tokenOps w).word (w.extractLsb' 8 2) a = w := by
  apply BitVec.eq_of_getLsbD_eq
  intro i hi
  simp only [TokenOps.word, tokenOps, BitVec.getLsbD_append, BitVec.getLsbD_extractLsb']
  split_ifs
  case pos => rw [decide_eq_true (by omega), Bool.true_and]; congr 1; omega
  case pos =>
    have : i = 7 := by omega
    subst this; rw [h]
  all_goals rw [decide_eq_true (by omega), Bool.true_and]; congr 1; omega

theorem qhHaltedWord_hi (hi : BitVec 25) (lo : BitVec 6) : (qhHaltedWord hi lo).extractLsb' 7 25 = hi := by
  refine field_of_bits fun i hi => ?_
  simp only [qhHaltedWord, BitVec.getLsbD_append]
  split_ifs <;> first | omega | (congr 1; omega)

theorem qhHaltedWord_lo (hi : BitVec 25) (lo : BitVec 6) : (qhHaltedWord hi lo).extractLsb' 0 6 = lo := by
  refine field_of_bits fun i hi => ?_
  simp only [qhHaltedWord, BitVec.getLsbD_append]
  split_ifs <;> first | omega | (congr 1; omega)

theorem qhHaltedWord_halted (hi : BitVec 25) (lo : BitVec 6) : (qhHaltedWord hi lo).getLsbD 6 = true := by
  simp only [qhHaltedWord, BitVec.getLsbD_append]; rfl

theorem qhHaltedWord_fields (w : Word) (h : w.getLsbD 6 = true) :
    qhHaltedWord (w.extractLsb' 7 25) (w.extractLsb' 0 6) = w := by
  apply BitVec.eq_of_getLsbD_eq
  intro i hi
  simp only [qhHaltedWord, BitVec.getLsbD_append, BitVec.getLsbD_extractLsb']
  split_ifs
  case pos => rw [decide_eq_true (by omega), Bool.true_and]; congr 1; omega
  case pos =>
    have : i = 6 := by omega
    subst this; simp [h]
  all_goals rw [decide_eq_true (by omega), Bool.true_and]; congr 1; omega

/-! ### Messages -/

theorem byteAt_zero (b : Byte) (bs : List Byte) : byteAt (b :: bs) 0 = b := rfl

theorem byteAt_succ (b : Byte) (bs : List Byte) (i : Nat) : byteAt (b :: bs) (i + 1) = byteAt bs i := rfl

theorem wordAt_succ (b : Byte) (bs : List Byte) (i : Nat) : wordAt (b :: bs) (i + 1) = wordAt bs i := rfl

theorem wordAt_front (w : Word) (bs : List Byte) : wordAt (wordBytes w ++ bs) 0 = w :=
  Machine.wordOf_wordBytes w

theorem wordAt_word (w : Word) : wordAt (wordBytes w) 0 = w := Machine.wordOf_wordBytes w

theorem wordAt_skip (w : Word) (bs : List Byte) (i : Nat) : wordAt (wordBytes w ++ bs) (i + 4) = wordAt bs i := rfl

theorem byteAt_skip (w : Word) (bs : List Byte) (i : Nat) : byteAt (wordBytes w ++ bs) (i + 4) = byteAt bs i := rfl

theorem drop_skip (w : Word) (bs : List Byte) (i : Nat) : (wordBytes w ++ bs).drop (i + 4) = bs.drop i := rfl

theorem withWord_word (w : Word) (f : Word → Except Reject Instr) : withWord (wordBytes w) f = f w := by
  simp only [withWord, wordAt_word]; rfl

end Sys2Proof
end

