-- ==== Sys2Proof/Laws/State.lean ====
section
/-! SUPPORT. The state as a record: for each named update, what every field holds after it, so that no later proof unfolds
a record update. -/

namespace Sys2Proof.Machine

/-! ### The registers of a schedule -/

@[simp] theorem State.sched_async (s : State) : s.sched .async = s.async := rfl
@[simp] theorem State.sched_periodic (s : State) : s.sched .periodic = s.periodic := rfl

theorem Sched.eq_other {k k' : Sched} (h : k' ≠ k) : (k = .async ∧ k' = .periodic) ∨ (k = .periodic ∧ k' = .async) := by
  cases k <;> cases k' <;> simp_all

/-! ### `setSched` and the updates of one register of a schedule -/

@[simp] theorem State.setSched_params (s : State) (k : Sched) (r : SchedRegs) : (s.setSched k r).params = s.params := by cases k <;> rfl
@[simp] theorem State.setSched_usbcmd (s : State) (k : Sched) (r : SchedRegs) : (s.setSched k r).usbcmd = s.usbcmd := by cases k <;> rfl
@[simp] theorem State.setSched_usbsts (s : State) (k : Sched) (r : SchedRegs) : (s.setSched k r).usbsts = s.usbsts := by cases k <;> rfl
@[simp] theorem State.setSched_recl (s : State) (k : Sched) (r : SchedRegs) : (s.setSched k r).recl = s.recl := by cases k <;> rfl
@[simp] theorem State.setSched_usbintr (s : State) (k : Sched) (r : SchedRegs) : (s.setSched k r).usbintr = s.usbintr := by cases k <;> rfl
@[simp] theorem State.setSched_frindex (s : State) (k : Sched) (r : SchedRegs) : (s.setSched k r).frindex = s.frindex := by cases k <;> rfl
@[simp] theorem State.setSched_periodicListBase (s : State) (k : Sched) (r : SchedRegs) : (s.setSched k r).periodicListBase = s.periodicListBase := by cases k <;> rfl
@[simp] theorem State.setSched_asyncListAddr (s : State) (k : Sched) (r : SchedRegs) : (s.setSched k r).asyncListAddr = s.asyncListAddr := by cases k <;> rfl
@[simp] theorem State.setSched_usbstsPending (s : State) (k : Sched) (r : SchedRegs) : (s.setSched k r).usbstsPending = s.usbstsPending := by cases k <;> rfl
@[simp] theorem State.setSched_nextCommit (s : State) (k : Sched) (r : SchedRegs) : (s.setSched k r).nextCommit = s.nextCommit := by cases k <;> rfl
@[simp] theorem State.setSched_uframeCtr (s : State) (k : Sched) (r : SchedRegs) : (s.setSched k r).uframeCtr = s.uframeCtr := by cases k <;> rfl
@[simp] theorem State.setSched_lastRunUs (s : State) (k : Sched) (r : SchedRegs) : (s.setSched k r).lastRunUs = s.lastRunUs := by cases k <;> rfl
@[simp] theorem State.setSched_lastTickUs (s : State) (k : Sched) (r : SchedRegs) : (s.setSched k r).lastTickUs = s.lastTickUs := by cases k <;> rfl
@[simp] theorem State.setSched_diagEmitted (s : State) (k : Sched) (r : SchedRegs) : (s.setSched k r).diagEmitted = s.diagEmitted := by cases k <;> rfl
@[simp] theorem State.setSched_inEntry (s : State) (k : Sched) (r : SchedRegs) : (s.setSched k r).inEntry = s.inEntry := by cases k <;> rfl
@[simp] theorem State.setSched_mem (s : State) (k : Sched) (r : SchedRegs) : (s.setSched k r).mem = s.mem := by cases k <;> rfl
@[simp] theorem State.setSched_devices (s : State) (k : Sched) (r : SchedRegs) : (s.setSched k r).devices = s.devices := by cases k <;> rfl
@[simp] theorem State.setSched_answers (s : State) (k : Sched) (r : SchedRegs) : (s.setSched k r).answers = s.answers := by cases k <;> rfl
@[simp] theorem State.setSched_draws (s : State) (k : Sched) (r : SchedRegs) : (s.setSched k r).draws = s.draws := by cases k <;> rfl
@[simp] theorem State.setSched_inbox (s : State) (k : Sched) (r : SchedRegs) : (s.setSched k r).inbox = s.inbox := by cases k <;> rfl
@[simp] theorem State.setSched_outbox (s : State) (k : Sched) (r : SchedRegs) : (s.setSched k r).outbox = s.outbox := by cases k <;> rfl
@[simp] theorem State.setSched_sched (s : State) (k : Sched) (r : SchedRegs) : (s.setSched k r).sched k = r := by
  cases k <;> rfl
@[simp] theorem State.setSched_sched_ne (s : State) {k k' : Sched} (r : SchedRegs) (h : k' ≠ k) :
    (s.setSched k r).sched k' = s.sched k' := by
  cases k <;> cases k' <;> first | rfl | exact absurd rfl h
@[simp] theorem State.setSched_self (s : State) (k : Sched) : s.setSched k (s.sched k) = s := by cases k <;> rfl
@[simp] theorem State.setSched_setSched (s : State) (k : Sched) (r r' : SchedRegs) :
    (s.setSched k r).setSched k r' = s.setSched k r' := by cases k <;> rfl
@[simp] theorem State.setSched_async_async (s : State) (r : SchedRegs) : (s.setSched .async r).async = r := rfl
@[simp] theorem State.setSched_async_periodic (s : State) (r : SchedRegs) : (s.setSched .async r).periodic = s.periodic := rfl
@[simp] theorem State.setSched_periodic_periodic (s : State) (r : SchedRegs) : (s.setSched .periodic r).periodic = r := rfl
@[simp] theorem State.setSched_periodic_async (s : State) (r : SchedRegs) : (s.setSched .periodic r).async = s.async := rfl

@[simp] theorem State.setAuto_params (s : State) (k : Sched) (x : AutoState) : (s.setAuto k x).params = s.params := State.setSched_params s k _
@[simp] theorem State.setAuto_usbcmd (s : State) (k : Sched) (x : AutoState) : (s.setAuto k x).usbcmd = s.usbcmd := State.setSched_usbcmd s k _
@[simp] theorem State.setAuto_usbsts (s : State) (k : Sched) (x : AutoState) : (s.setAuto k x).usbsts = s.usbsts := State.setSched_usbsts s k _
@[simp] theorem State.setAuto_recl (s : State) (k : Sched) (x : AutoState) : (s.setAuto k x).recl = s.recl := State.setSched_recl s k _
@[simp] theorem State.setAuto_usbintr (s : State) (k : Sched) (x : AutoState) : (s.setAuto k x).usbintr = s.usbintr := State.setSched_usbintr s k _
@[simp] theorem State.setAuto_frindex (s : State) (k : Sched) (x : AutoState) : (s.setAuto k x).frindex = s.frindex := State.setSched_frindex s k _
@[simp] theorem State.setAuto_periodicListBase (s : State) (k : Sched) (x : AutoState) : (s.setAuto k x).periodicListBase = s.periodicListBase := State.setSched_periodicListBase s k _
@[simp] theorem State.setAuto_asyncListAddr (s : State) (k : Sched) (x : AutoState) : (s.setAuto k x).asyncListAddr = s.asyncListAddr := State.setSched_asyncListAddr s k _
@[simp] theorem State.setAuto_usbstsPending (s : State) (k : Sched) (x : AutoState) : (s.setAuto k x).usbstsPending = s.usbstsPending := State.setSched_usbstsPending s k _
@[simp] theorem State.setAuto_nextCommit (s : State) (k : Sched) (x : AutoState) : (s.setAuto k x).nextCommit = s.nextCommit := State.setSched_nextCommit s k _
@[simp] theorem State.setAuto_uframeCtr (s : State) (k : Sched) (x : AutoState) : (s.setAuto k x).uframeCtr = s.uframeCtr := State.setSched_uframeCtr s k _
@[simp] theorem State.setAuto_lastRunUs (s : State) (k : Sched) (x : AutoState) : (s.setAuto k x).lastRunUs = s.lastRunUs := State.setSched_lastRunUs s k _
@[simp] theorem State.setAuto_lastTickUs (s : State) (k : Sched) (x : AutoState) : (s.setAuto k x).lastTickUs = s.lastTickUs := State.setSched_lastTickUs s k _
@[simp] theorem State.setAuto_diagEmitted (s : State) (k : Sched) (x : AutoState) : (s.setAuto k x).diagEmitted = s.diagEmitted := State.setSched_diagEmitted s k _
@[simp] theorem State.setAuto_inEntry (s : State) (k : Sched) (x : AutoState) : (s.setAuto k x).inEntry = s.inEntry := State.setSched_inEntry s k _
@[simp] theorem State.setAuto_mem (s : State) (k : Sched) (x : AutoState) : (s.setAuto k x).mem = s.mem := State.setSched_mem s k _
@[simp] theorem State.setAuto_devices (s : State) (k : Sched) (x : AutoState) : (s.setAuto k x).devices = s.devices := State.setSched_devices s k _
@[simp] theorem State.setAuto_answers (s : State) (k : Sched) (x : AutoState) : (s.setAuto k x).answers = s.answers := State.setSched_answers s k _
@[simp] theorem State.setAuto_draws (s : State) (k : Sched) (x : AutoState) : (s.setAuto k x).draws = s.draws := State.setSched_draws s k _
@[simp] theorem State.setAuto_inbox (s : State) (k : Sched) (x : AutoState) : (s.setAuto k x).inbox = s.inbox := State.setSched_inbox s k _
@[simp] theorem State.setAuto_outbox (s : State) (k : Sched) (x : AutoState) : (s.setAuto k x).outbox = s.outbox := State.setSched_outbox s k _
@[simp] theorem State.setAuto_sched (s : State) (k : Sched) (x : AutoState) :
    (s.setAuto k x).sched k = { s.sched k with auto := x } := State.setSched_sched s k _
@[simp] theorem State.setAuto_sched_ne (s : State) {k k' : Sched} (x : AutoState) (h : k' ≠ k) :
    (s.setAuto k x).sched k' = s.sched k' := State.setSched_sched_ne s _ h
@[simp] theorem State.setAuto_async_async (s : State) (x : AutoState) : (s.setAuto .async x).async = { s.async with auto := x } := rfl
@[simp] theorem State.setAuto_async_periodic (s : State) (x : AutoState) : (s.setAuto .async x).periodic = s.periodic := rfl
@[simp] theorem State.setAuto_periodic_periodic (s : State) (x : AutoState) : (s.setAuto .periodic x).periodic = { s.periodic with auto := x } := rfl
@[simp] theorem State.setAuto_periodic_async (s : State) (x : AutoState) : (s.setAuto .periodic x).async = s.async := rfl

@[simp] theorem State.setFetch_params (s : State) (k : Sched) (x : Word) : (s.setFetch k x).params = s.params := State.setSched_params s k _
@[simp] theorem State.setFetch_usbcmd (s : State) (k : Sched) (x : Word) : (s.setFetch k x).usbcmd = s.usbcmd := State.setSched_usbcmd s k _
@[simp] theorem State.setFetch_usbsts (s : State) (k : Sched) (x : Word) : (s.setFetch k x).usbsts = s.usbsts := State.setSched_usbsts s k _
@[simp] theorem State.setFetch_recl (s : State) (k : Sched) (x : Word) : (s.setFetch k x).recl = s.recl := State.setSched_recl s k _
@[simp] theorem State.setFetch_usbintr (s : State) (k : Sched) (x : Word) : (s.setFetch k x).usbintr = s.usbintr := State.setSched_usbintr s k _
@[simp] theorem State.setFetch_frindex (s : State) (k : Sched) (x : Word) : (s.setFetch k x).frindex = s.frindex := State.setSched_frindex s k _
@[simp] theorem State.setFetch_periodicListBase (s : State) (k : Sched) (x : Word) : (s.setFetch k x).periodicListBase = s.periodicListBase := State.setSched_periodicListBase s k _
@[simp] theorem State.setFetch_asyncListAddr (s : State) (k : Sched) (x : Word) : (s.setFetch k x).asyncListAddr = s.asyncListAddr := State.setSched_asyncListAddr s k _
@[simp] theorem State.setFetch_usbstsPending (s : State) (k : Sched) (x : Word) : (s.setFetch k x).usbstsPending = s.usbstsPending := State.setSched_usbstsPending s k _
@[simp] theorem State.setFetch_nextCommit (s : State) (k : Sched) (x : Word) : (s.setFetch k x).nextCommit = s.nextCommit := State.setSched_nextCommit s k _
@[simp] theorem State.setFetch_uframeCtr (s : State) (k : Sched) (x : Word) : (s.setFetch k x).uframeCtr = s.uframeCtr := State.setSched_uframeCtr s k _
@[simp] theorem State.setFetch_lastRunUs (s : State) (k : Sched) (x : Word) : (s.setFetch k x).lastRunUs = s.lastRunUs := State.setSched_lastRunUs s k _
@[simp] theorem State.setFetch_lastTickUs (s : State) (k : Sched) (x : Word) : (s.setFetch k x).lastTickUs = s.lastTickUs := State.setSched_lastTickUs s k _
@[simp] theorem State.setFetch_diagEmitted (s : State) (k : Sched) (x : Word) : (s.setFetch k x).diagEmitted = s.diagEmitted := State.setSched_diagEmitted s k _
@[simp] theorem State.setFetch_inEntry (s : State) (k : Sched) (x : Word) : (s.setFetch k x).inEntry = s.inEntry := State.setSched_inEntry s k _
@[simp] theorem State.setFetch_mem (s : State) (k : Sched) (x : Word) : (s.setFetch k x).mem = s.mem := State.setSched_mem s k _
@[simp] theorem State.setFetch_devices (s : State) (k : Sched) (x : Word) : (s.setFetch k x).devices = s.devices := State.setSched_devices s k _
@[simp] theorem State.setFetch_answers (s : State) (k : Sched) (x : Word) : (s.setFetch k x).answers = s.answers := State.setSched_answers s k _
@[simp] theorem State.setFetch_draws (s : State) (k : Sched) (x : Word) : (s.setFetch k x).draws = s.draws := State.setSched_draws s k _
@[simp] theorem State.setFetch_inbox (s : State) (k : Sched) (x : Word) : (s.setFetch k x).inbox = s.inbox := State.setSched_inbox s k _
@[simp] theorem State.setFetch_outbox (s : State) (k : Sched) (x : Word) : (s.setFetch k x).outbox = s.outbox := State.setSched_outbox s k _
@[simp] theorem State.setFetch_sched (s : State) (k : Sched) (x : Word) :
    (s.setFetch k x).sched k = { s.sched k with fetchAddr := x } := State.setSched_sched s k _
@[simp] theorem State.setFetch_sched_ne (s : State) {k k' : Sched} (x : Word) (h : k' ≠ k) :
    (s.setFetch k x).sched k' = s.sched k' := State.setSched_sched_ne s _ h
@[simp] theorem State.setFetch_async_async (s : State) (x : Word) : (s.setFetch .async x).async = { s.async with fetchAddr := x } := rfl
@[simp] theorem State.setFetch_async_periodic (s : State) (x : Word) : (s.setFetch .async x).periodic = s.periodic := rfl
@[simp] theorem State.setFetch_periodic_periodic (s : State) (x : Word) : (s.setFetch .periodic x).periodic = { s.periodic with fetchAddr := x } := rfl
@[simp] theorem State.setFetch_periodic_async (s : State) (x : Word) : (s.setFetch .periodic x).async = s.async := rfl

@[simp] theorem State.setCur_params (s : State) (k : Sched) (x : Option Word) : (s.setCur k x).params = s.params := State.setSched_params s k _
@[simp] theorem State.setCur_usbcmd (s : State) (k : Sched) (x : Option Word) : (s.setCur k x).usbcmd = s.usbcmd := State.setSched_usbcmd s k _
@[simp] theorem State.setCur_usbsts (s : State) (k : Sched) (x : Option Word) : (s.setCur k x).usbsts = s.usbsts := State.setSched_usbsts s k _
@[simp] theorem State.setCur_recl (s : State) (k : Sched) (x : Option Word) : (s.setCur k x).recl = s.recl := State.setSched_recl s k _
@[simp] theorem State.setCur_usbintr (s : State) (k : Sched) (x : Option Word) : (s.setCur k x).usbintr = s.usbintr := State.setSched_usbintr s k _
@[simp] theorem State.setCur_frindex (s : State) (k : Sched) (x : Option Word) : (s.setCur k x).frindex = s.frindex := State.setSched_frindex s k _
@[simp] theorem State.setCur_periodicListBase (s : State) (k : Sched) (x : Option Word) : (s.setCur k x).periodicListBase = s.periodicListBase := State.setSched_periodicListBase s k _
@[simp] theorem State.setCur_asyncListAddr (s : State) (k : Sched) (x : Option Word) : (s.setCur k x).asyncListAddr = s.asyncListAddr := State.setSched_asyncListAddr s k _
@[simp] theorem State.setCur_usbstsPending (s : State) (k : Sched) (x : Option Word) : (s.setCur k x).usbstsPending = s.usbstsPending := State.setSched_usbstsPending s k _
@[simp] theorem State.setCur_nextCommit (s : State) (k : Sched) (x : Option Word) : (s.setCur k x).nextCommit = s.nextCommit := State.setSched_nextCommit s k _
@[simp] theorem State.setCur_uframeCtr (s : State) (k : Sched) (x : Option Word) : (s.setCur k x).uframeCtr = s.uframeCtr := State.setSched_uframeCtr s k _
@[simp] theorem State.setCur_lastRunUs (s : State) (k : Sched) (x : Option Word) : (s.setCur k x).lastRunUs = s.lastRunUs := State.setSched_lastRunUs s k _
@[simp] theorem State.setCur_lastTickUs (s : State) (k : Sched) (x : Option Word) : (s.setCur k x).lastTickUs = s.lastTickUs := State.setSched_lastTickUs s k _
@[simp] theorem State.setCur_diagEmitted (s : State) (k : Sched) (x : Option Word) : (s.setCur k x).diagEmitted = s.diagEmitted := State.setSched_diagEmitted s k _
@[simp] theorem State.setCur_inEntry (s : State) (k : Sched) (x : Option Word) : (s.setCur k x).inEntry = s.inEntry := State.setSched_inEntry s k _
@[simp] theorem State.setCur_mem (s : State) (k : Sched) (x : Option Word) : (s.setCur k x).mem = s.mem := State.setSched_mem s k _
@[simp] theorem State.setCur_devices (s : State) (k : Sched) (x : Option Word) : (s.setCur k x).devices = s.devices := State.setSched_devices s k _
@[simp] theorem State.setCur_answers (s : State) (k : Sched) (x : Option Word) : (s.setCur k x).answers = s.answers := State.setSched_answers s k _
@[simp] theorem State.setCur_draws (s : State) (k : Sched) (x : Option Word) : (s.setCur k x).draws = s.draws := State.setSched_draws s k _
@[simp] theorem State.setCur_inbox (s : State) (k : Sched) (x : Option Word) : (s.setCur k x).inbox = s.inbox := State.setSched_inbox s k _
@[simp] theorem State.setCur_outbox (s : State) (k : Sched) (x : Option Word) : (s.setCur k x).outbox = s.outbox := State.setSched_outbox s k _
@[simp] theorem State.setCur_sched (s : State) (k : Sched) (x : Option Word) :
    (s.setCur k x).sched k = { s.sched k with curQueue := x } := State.setSched_sched s k _
@[simp] theorem State.setCur_sched_ne (s : State) {k k' : Sched} (x : Option Word) (h : k' ≠ k) :
    (s.setCur k x).sched k' = s.sched k' := State.setSched_sched_ne s _ h
@[simp] theorem State.setCur_async_async (s : State) (x : Option Word) : (s.setCur .async x).async = { s.async with curQueue := x } := rfl
@[simp] theorem State.setCur_async_periodic (s : State) (x : Option Word) : (s.setCur .async x).periodic = s.periodic := rfl
@[simp] theorem State.setCur_periodic_periodic (s : State) (x : Option Word) : (s.setCur .periodic x).periodic = { s.periodic with curQueue := x } := rfl
@[simp] theorem State.setCur_periodic_async (s : State) (x : Option Word) : (s.setCur .periodic x).async = s.async := rfl

@[simp] theorem State.setVisits_params (s : State) (k : Sched) (x : Nat) : (s.setVisits k x).params = s.params := State.setSched_params s k _
@[simp] theorem State.setVisits_usbcmd (s : State) (k : Sched) (x : Nat) : (s.setVisits k x).usbcmd = s.usbcmd := State.setSched_usbcmd s k _
@[simp] theorem State.setVisits_usbsts (s : State) (k : Sched) (x : Nat) : (s.setVisits k x).usbsts = s.usbsts := State.setSched_usbsts s k _
@[simp] theorem State.setVisits_recl (s : State) (k : Sched) (x : Nat) : (s.setVisits k x).recl = s.recl := State.setSched_recl s k _
@[simp] theorem State.setVisits_usbintr (s : State) (k : Sched) (x : Nat) : (s.setVisits k x).usbintr = s.usbintr := State.setSched_usbintr s k _
@[simp] theorem State.setVisits_frindex (s : State) (k : Sched) (x : Nat) : (s.setVisits k x).frindex = s.frindex := State.setSched_frindex s k _
@[simp] theorem State.setVisits_periodicListBase (s : State) (k : Sched) (x : Nat) : (s.setVisits k x).periodicListBase = s.periodicListBase := State.setSched_periodicListBase s k _
@[simp] theorem State.setVisits_asyncListAddr (s : State) (k : Sched) (x : Nat) : (s.setVisits k x).asyncListAddr = s.asyncListAddr := State.setSched_asyncListAddr s k _
@[simp] theorem State.setVisits_usbstsPending (s : State) (k : Sched) (x : Nat) : (s.setVisits k x).usbstsPending = s.usbstsPending := State.setSched_usbstsPending s k _
@[simp] theorem State.setVisits_nextCommit (s : State) (k : Sched) (x : Nat) : (s.setVisits k x).nextCommit = s.nextCommit := State.setSched_nextCommit s k _
@[simp] theorem State.setVisits_uframeCtr (s : State) (k : Sched) (x : Nat) : (s.setVisits k x).uframeCtr = s.uframeCtr := State.setSched_uframeCtr s k _
@[simp] theorem State.setVisits_lastRunUs (s : State) (k : Sched) (x : Nat) : (s.setVisits k x).lastRunUs = s.lastRunUs := State.setSched_lastRunUs s k _
@[simp] theorem State.setVisits_lastTickUs (s : State) (k : Sched) (x : Nat) : (s.setVisits k x).lastTickUs = s.lastTickUs := State.setSched_lastTickUs s k _
@[simp] theorem State.setVisits_diagEmitted (s : State) (k : Sched) (x : Nat) : (s.setVisits k x).diagEmitted = s.diagEmitted := State.setSched_diagEmitted s k _
@[simp] theorem State.setVisits_inEntry (s : State) (k : Sched) (x : Nat) : (s.setVisits k x).inEntry = s.inEntry := State.setSched_inEntry s k _
@[simp] theorem State.setVisits_mem (s : State) (k : Sched) (x : Nat) : (s.setVisits k x).mem = s.mem := State.setSched_mem s k _
@[simp] theorem State.setVisits_devices (s : State) (k : Sched) (x : Nat) : (s.setVisits k x).devices = s.devices := State.setSched_devices s k _
@[simp] theorem State.setVisits_answers (s : State) (k : Sched) (x : Nat) : (s.setVisits k x).answers = s.answers := State.setSched_answers s k _
@[simp] theorem State.setVisits_draws (s : State) (k : Sched) (x : Nat) : (s.setVisits k x).draws = s.draws := State.setSched_draws s k _
@[simp] theorem State.setVisits_inbox (s : State) (k : Sched) (x : Nat) : (s.setVisits k x).inbox = s.inbox := State.setSched_inbox s k _
@[simp] theorem State.setVisits_outbox (s : State) (k : Sched) (x : Nat) : (s.setVisits k x).outbox = s.outbox := State.setSched_outbox s k _
@[simp] theorem State.setVisits_sched (s : State) (k : Sched) (x : Nat) :
    (s.setVisits k x).sched k = { s.sched k with visits := x } := State.setSched_sched s k _
@[simp] theorem State.setVisits_sched_ne (s : State) {k k' : Sched} (x : Nat) (h : k' ≠ k) :
    (s.setVisits k x).sched k' = s.sched k' := State.setSched_sched_ne s _ h
@[simp] theorem State.setVisits_async_async (s : State) (x : Nat) : (s.setVisits .async x).async = { s.async with visits := x } := rfl
@[simp] theorem State.setVisits_async_periodic (s : State) (x : Nat) : (s.setVisits .async x).periodic = s.periodic := rfl
@[simp] theorem State.setVisits_periodic_periodic (s : State) (x : Nat) : (s.setVisits .periodic x).periodic = { s.periodic with visits := x } := rfl
@[simp] theorem State.setVisits_periodic_async (s : State) (x : Nat) : (s.setVisits .periodic x).async = s.async := rfl

@[simp] theorem State.setCache_params (s : State) (k : Sched) (x : List Queue) : (s.setCache k x).params = s.params := State.setSched_params s k _
@[simp] theorem State.setCache_usbcmd (s : State) (k : Sched) (x : List Queue) : (s.setCache k x).usbcmd = s.usbcmd := State.setSched_usbcmd s k _
@[simp] theorem State.setCache_usbsts (s : State) (k : Sched) (x : List Queue) : (s.setCache k x).usbsts = s.usbsts := State.setSched_usbsts s k _
@[simp] theorem State.setCache_recl (s : State) (k : Sched) (x : List Queue) : (s.setCache k x).recl = s.recl := State.setSched_recl s k _
@[simp] theorem State.setCache_usbintr (s : State) (k : Sched) (x : List Queue) : (s.setCache k x).usbintr = s.usbintr := State.setSched_usbintr s k _
@[simp] theorem State.setCache_frindex (s : State) (k : Sched) (x : List Queue) : (s.setCache k x).frindex = s.frindex := State.setSched_frindex s k _
@[simp] theorem State.setCache_periodicListBase (s : State) (k : Sched) (x : List Queue) : (s.setCache k x).periodicListBase = s.periodicListBase := State.setSched_periodicListBase s k _
@[simp] theorem State.setCache_asyncListAddr (s : State) (k : Sched) (x : List Queue) : (s.setCache k x).asyncListAddr = s.asyncListAddr := State.setSched_asyncListAddr s k _
@[simp] theorem State.setCache_usbstsPending (s : State) (k : Sched) (x : List Queue) : (s.setCache k x).usbstsPending = s.usbstsPending := State.setSched_usbstsPending s k _
@[simp] theorem State.setCache_nextCommit (s : State) (k : Sched) (x : List Queue) : (s.setCache k x).nextCommit = s.nextCommit := State.setSched_nextCommit s k _
@[simp] theorem State.setCache_uframeCtr (s : State) (k : Sched) (x : List Queue) : (s.setCache k x).uframeCtr = s.uframeCtr := State.setSched_uframeCtr s k _
@[simp] theorem State.setCache_lastRunUs (s : State) (k : Sched) (x : List Queue) : (s.setCache k x).lastRunUs = s.lastRunUs := State.setSched_lastRunUs s k _
@[simp] theorem State.setCache_lastTickUs (s : State) (k : Sched) (x : List Queue) : (s.setCache k x).lastTickUs = s.lastTickUs := State.setSched_lastTickUs s k _
@[simp] theorem State.setCache_diagEmitted (s : State) (k : Sched) (x : List Queue) : (s.setCache k x).diagEmitted = s.diagEmitted := State.setSched_diagEmitted s k _
@[simp] theorem State.setCache_inEntry (s : State) (k : Sched) (x : List Queue) : (s.setCache k x).inEntry = s.inEntry := State.setSched_inEntry s k _
@[simp] theorem State.setCache_mem (s : State) (k : Sched) (x : List Queue) : (s.setCache k x).mem = s.mem := State.setSched_mem s k _
@[simp] theorem State.setCache_devices (s : State) (k : Sched) (x : List Queue) : (s.setCache k x).devices = s.devices := State.setSched_devices s k _
@[simp] theorem State.setCache_answers (s : State) (k : Sched) (x : List Queue) : (s.setCache k x).answers = s.answers := State.setSched_answers s k _
@[simp] theorem State.setCache_draws (s : State) (k : Sched) (x : List Queue) : (s.setCache k x).draws = s.draws := State.setSched_draws s k _
@[simp] theorem State.setCache_inbox (s : State) (k : Sched) (x : List Queue) : (s.setCache k x).inbox = s.inbox := State.setSched_inbox s k _
@[simp] theorem State.setCache_outbox (s : State) (k : Sched) (x : List Queue) : (s.setCache k x).outbox = s.outbox := State.setSched_outbox s k _
@[simp] theorem State.setCache_sched (s : State) (k : Sched) (x : List Queue) :
    (s.setCache k x).sched k = { s.sched k with cache := x } := State.setSched_sched s k _
@[simp] theorem State.setCache_sched_ne (s : State) {k k' : Sched} (x : List Queue) (h : k' ≠ k) :
    (s.setCache k x).sched k' = s.sched k' := State.setSched_sched_ne s _ h
@[simp] theorem State.setCache_async_async (s : State) (x : List Queue) : (s.setCache .async x).async = { s.async with cache := x } := rfl
@[simp] theorem State.setCache_async_periodic (s : State) (x : List Queue) : (s.setCache .async x).periodic = s.periodic := rfl
@[simp] theorem State.setCache_periodic_periodic (s : State) (x : List Queue) : (s.setCache .periodic x).periodic = { s.periodic with cache := x } := rfl
@[simp] theorem State.setCache_periodic_async (s : State) (x : List Queue) : (s.setCache .periodic x).async = s.async := rfl

@[simp] theorem State.putQueue_params (s : State) (q : Queue) : (s.putQueue q).params = s.params := State.setCache_params s _ _
@[simp] theorem State.putQueue_usbcmd (s : State) (q : Queue) : (s.putQueue q).usbcmd = s.usbcmd := State.setCache_usbcmd s _ _
@[simp] theorem State.putQueue_usbsts (s : State) (q : Queue) : (s.putQueue q).usbsts = s.usbsts := State.setCache_usbsts s _ _
@[simp] theorem State.putQueue_recl (s : State) (q : Queue) : (s.putQueue q).recl = s.recl := State.setCache_recl s _ _
@[simp] theorem State.putQueue_usbintr (s : State) (q : Queue) : (s.putQueue q).usbintr = s.usbintr := State.setCache_usbintr s _ _
@[simp] theorem State.putQueue_frindex (s : State) (q : Queue) : (s.putQueue q).frindex = s.frindex := State.setCache_frindex s _ _
@[simp] theorem State.putQueue_periodicListBase (s : State) (q : Queue) : (s.putQueue q).periodicListBase = s.periodicListBase := State.setCache_periodicListBase s _ _
@[simp] theorem State.putQueue_asyncListAddr (s : State) (q : Queue) : (s.putQueue q).asyncListAddr = s.asyncListAddr := State.setCache_asyncListAddr s _ _
@[simp] theorem State.putQueue_usbstsPending (s : State) (q : Queue) : (s.putQueue q).usbstsPending = s.usbstsPending := State.setCache_usbstsPending s _ _
@[simp] theorem State.putQueue_nextCommit (s : State) (q : Queue) : (s.putQueue q).nextCommit = s.nextCommit := State.setCache_nextCommit s _ _
@[simp] theorem State.putQueue_uframeCtr (s : State) (q : Queue) : (s.putQueue q).uframeCtr = s.uframeCtr := State.setCache_uframeCtr s _ _
@[simp] theorem State.putQueue_lastRunUs (s : State) (q : Queue) : (s.putQueue q).lastRunUs = s.lastRunUs := State.setCache_lastRunUs s _ _
@[simp] theorem State.putQueue_lastTickUs (s : State) (q : Queue) : (s.putQueue q).lastTickUs = s.lastTickUs := State.setCache_lastTickUs s _ _
@[simp] theorem State.putQueue_diagEmitted (s : State) (q : Queue) : (s.putQueue q).diagEmitted = s.diagEmitted := State.setCache_diagEmitted s _ _
@[simp] theorem State.putQueue_inEntry (s : State) (q : Queue) : (s.putQueue q).inEntry = s.inEntry := State.setCache_inEntry s _ _
@[simp] theorem State.putQueue_mem (s : State) (q : Queue) : (s.putQueue q).mem = s.mem := State.setCache_mem s _ _
@[simp] theorem State.putQueue_devices (s : State) (q : Queue) : (s.putQueue q).devices = s.devices := State.setCache_devices s _ _
@[simp] theorem State.putQueue_answers (s : State) (q : Queue) : (s.putQueue q).answers = s.answers := State.setCache_answers s _ _
@[simp] theorem State.putQueue_draws (s : State) (q : Queue) : (s.putQueue q).draws = s.draws := State.setCache_draws s _ _
@[simp] theorem State.putQueue_inbox (s : State) (q : Queue) : (s.putQueue q).inbox = s.inbox := State.setCache_inbox s _ _
@[simp] theorem State.putQueue_outbox (s : State) (q : Queue) : (s.putQueue q).outbox = s.outbox := State.setCache_outbox s _ _
@[simp] theorem State.putQueue_sched (s : State) (q : Queue) :
    (s.putQueue q).sched q.kind = { s.sched q.kind with cache := cachePut (s.sched q.kind).cache q } :=
  State.setCache_sched s _ _
@[simp] theorem State.putQueue_sched_ne (s : State) {k : Sched} (q : Queue) (h : k ≠ q.kind) :
    (s.putQueue q).sched k = s.sched k := State.setCache_sched_ne s _ h

/-! ### The other updates -/

@[simp] theorem State.emit_params (s : State) (o : Output) : (s.emit o).params = s.params := rfl
@[simp] theorem State.emit_usbcmd (s : State) (o : Output) : (s.emit o).usbcmd = s.usbcmd := rfl
@[simp] theorem State.emit_usbsts (s : State) (o : Output) : (s.emit o).usbsts = s.usbsts := rfl
@[simp] theorem State.emit_recl (s : State) (o : Output) : (s.emit o).recl = s.recl := rfl
@[simp] theorem State.emit_usbintr (s : State) (o : Output) : (s.emit o).usbintr = s.usbintr := rfl
@[simp] theorem State.emit_frindex (s : State) (o : Output) : (s.emit o).frindex = s.frindex := rfl
@[simp] theorem State.emit_periodicListBase (s : State) (o : Output) : (s.emit o).periodicListBase = s.periodicListBase := rfl
@[simp] theorem State.emit_asyncListAddr (s : State) (o : Output) : (s.emit o).asyncListAddr = s.asyncListAddr := rfl
@[simp] theorem State.emit_usbstsPending (s : State) (o : Output) : (s.emit o).usbstsPending = s.usbstsPending := rfl
@[simp] theorem State.emit_nextCommit (s : State) (o : Output) : (s.emit o).nextCommit = s.nextCommit := rfl
@[simp] theorem State.emit_uframeCtr (s : State) (o : Output) : (s.emit o).uframeCtr = s.uframeCtr := rfl
@[simp] theorem State.emit_lastRunUs (s : State) (o : Output) : (s.emit o).lastRunUs = s.lastRunUs := rfl
@[simp] theorem State.emit_lastTickUs (s : State) (o : Output) : (s.emit o).lastTickUs = s.lastTickUs := rfl
@[simp] theorem State.emit_diagEmitted (s : State) (o : Output) : (s.emit o).diagEmitted = s.diagEmitted := rfl
@[simp] theorem State.emit_inEntry (s : State) (o : Output) : (s.emit o).inEntry = s.inEntry := rfl
@[simp] theorem State.emit_async (s : State) (o : Output) : (s.emit o).async = s.async := rfl
@[simp] theorem State.emit_periodic (s : State) (o : Output) : (s.emit o).periodic = s.periodic := rfl
@[simp] theorem State.emit_mem (s : State) (o : Output) : (s.emit o).mem = s.mem := rfl
@[simp] theorem State.emit_devices (s : State) (o : Output) : (s.emit o).devices = s.devices := rfl
@[simp] theorem State.emit_answers (s : State) (o : Output) : (s.emit o).answers = s.answers := rfl
@[simp] theorem State.emit_draws (s : State) (o : Output) : (s.emit o).draws = s.draws := rfl
@[simp] theorem State.emit_inbox (s : State) (o : Output) : (s.emit o).inbox = s.inbox := rfl
@[simp] theorem State.emit_outbox (s : State) (o : Output) : (s.emit o).outbox = o :: s.outbox := rfl
@[simp] theorem State.emit_sched (s : State) (o : Output) (k : Sched) : (s.emit o).sched k = s.sched k := by
  cases k <;> rfl

@[simp] theorem State.setMem_params (s : State) (m : Memory) : (s.setMem m).params = s.params := rfl
@[simp] theorem State.setMem_usbcmd (s : State) (m : Memory) : (s.setMem m).usbcmd = s.usbcmd := rfl
@[simp] theorem State.setMem_usbsts (s : State) (m : Memory) : (s.setMem m).usbsts = s.usbsts := rfl
@[simp] theorem State.setMem_recl (s : State) (m : Memory) : (s.setMem m).recl = s.recl := rfl
@[simp] theorem State.setMem_usbintr (s : State) (m : Memory) : (s.setMem m).usbintr = s.usbintr := rfl
@[simp] theorem State.setMem_frindex (s : State) (m : Memory) : (s.setMem m).frindex = s.frindex := rfl
@[simp] theorem State.setMem_periodicListBase (s : State) (m : Memory) : (s.setMem m).periodicListBase = s.periodicListBase := rfl
@[simp] theorem State.setMem_asyncListAddr (s : State) (m : Memory) : (s.setMem m).asyncListAddr = s.asyncListAddr := rfl
@[simp] theorem State.setMem_usbstsPending (s : State) (m : Memory) : (s.setMem m).usbstsPending = s.usbstsPending := rfl
@[simp] theorem State.setMem_nextCommit (s : State) (m : Memory) : (s.setMem m).nextCommit = s.nextCommit := rfl
@[simp] theorem State.setMem_uframeCtr (s : State) (m : Memory) : (s.setMem m).uframeCtr = s.uframeCtr := rfl
@[simp] theorem State.setMem_lastRunUs (s : State) (m : Memory) : (s.setMem m).lastRunUs = s.lastRunUs := rfl
@[simp] theorem State.setMem_lastTickUs (s : State) (m : Memory) : (s.setMem m).lastTickUs = s.lastTickUs := rfl
@[simp] theorem State.setMem_diagEmitted (s : State) (m : Memory) : (s.setMem m).diagEmitted = s.diagEmitted := rfl
@[simp] theorem State.setMem_inEntry (s : State) (m : Memory) : (s.setMem m).inEntry = s.inEntry := rfl
@[simp] theorem State.setMem_async (s : State) (m : Memory) : (s.setMem m).async = s.async := rfl
@[simp] theorem State.setMem_periodic (s : State) (m : Memory) : (s.setMem m).periodic = s.periodic := rfl
@[simp] theorem State.setMem_devices (s : State) (m : Memory) : (s.setMem m).devices = s.devices := rfl
@[simp] theorem State.setMem_answers (s : State) (m : Memory) : (s.setMem m).answers = s.answers := rfl
@[simp] theorem State.setMem_draws (s : State) (m : Memory) : (s.setMem m).draws = s.draws := rfl
@[simp] theorem State.setMem_inbox (s : State) (m : Memory) : (s.setMem m).inbox = s.inbox := rfl
@[simp] theorem State.setMem_outbox (s : State) (m : Memory) : (s.setMem m).outbox = s.outbox := rfl
@[simp] theorem State.setMem_mem (s : State) (m : Memory) : (s.setMem m).mem = m := rfl
@[simp] theorem State.setMem_sched (s : State) (m : Memory) (k : Sched) : (s.setMem m).sched k = s.sched k := by
  cases k <;> rfl

@[simp] theorem State.setRecl_params (s : State) (b : Bool) : (s.setRecl b).params = s.params := rfl
@[simp] theorem State.setRecl_usbcmd (s : State) (b : Bool) : (s.setRecl b).usbcmd = s.usbcmd := rfl
@[simp] theorem State.setRecl_usbsts (s : State) (b : Bool) : (s.setRecl b).usbsts = s.usbsts := rfl
@[simp] theorem State.setRecl_usbintr (s : State) (b : Bool) : (s.setRecl b).usbintr = s.usbintr := rfl
@[simp] theorem State.setRecl_frindex (s : State) (b : Bool) : (s.setRecl b).frindex = s.frindex := rfl
@[simp] theorem State.setRecl_periodicListBase (s : State) (b : Bool) : (s.setRecl b).periodicListBase = s.periodicListBase := rfl
@[simp] theorem State.setRecl_asyncListAddr (s : State) (b : Bool) : (s.setRecl b).asyncListAddr = s.asyncListAddr := rfl
@[simp] theorem State.setRecl_usbstsPending (s : State) (b : Bool) : (s.setRecl b).usbstsPending = s.usbstsPending := rfl
@[simp] theorem State.setRecl_nextCommit (s : State) (b : Bool) : (s.setRecl b).nextCommit = s.nextCommit := rfl
@[simp] theorem State.setRecl_uframeCtr (s : State) (b : Bool) : (s.setRecl b).uframeCtr = s.uframeCtr := rfl
@[simp] theorem State.setRecl_lastRunUs (s : State) (b : Bool) : (s.setRecl b).lastRunUs = s.lastRunUs := rfl
@[simp] theorem State.setRecl_lastTickUs (s : State) (b : Bool) : (s.setRecl b).lastTickUs = s.lastTickUs := rfl
@[simp] theorem State.setRecl_diagEmitted (s : State) (b : Bool) : (s.setRecl b).diagEmitted = s.diagEmitted := rfl
@[simp] theorem State.setRecl_inEntry (s : State) (b : Bool) : (s.setRecl b).inEntry = s.inEntry := rfl
@[simp] theorem State.setRecl_async (s : State) (b : Bool) : (s.setRecl b).async = s.async := rfl
@[simp] theorem State.setRecl_periodic (s : State) (b : Bool) : (s.setRecl b).periodic = s.periodic := rfl
@[simp] theorem State.setRecl_mem (s : State) (b : Bool) : (s.setRecl b).mem = s.mem := rfl
@[simp] theorem State.setRecl_devices (s : State) (b : Bool) : (s.setRecl b).devices = s.devices := rfl
@[simp] theorem State.setRecl_answers (s : State) (b : Bool) : (s.setRecl b).answers = s.answers := rfl
@[simp] theorem State.setRecl_draws (s : State) (b : Bool) : (s.setRecl b).draws = s.draws := rfl
@[simp] theorem State.setRecl_inbox (s : State) (b : Bool) : (s.setRecl b).inbox = s.inbox := rfl
@[simp] theorem State.setRecl_outbox (s : State) (b : Bool) : (s.setRecl b).outbox = s.outbox := rfl
@[simp] theorem State.setRecl_recl (s : State) (b : Bool) : (s.setRecl b).recl = b := rfl
@[simp] theorem State.setRecl_sched (s : State) (b : Bool) (k : Sched) : (s.setRecl b).sched k = s.sched k := by
  cases k <;> rfl


@[simp] theorem State.reclIfAsync_params (s : State) (k : Sched) : (s.reclIfAsync k).params = s.params := by cases k <;> rfl
@[simp] theorem State.reclIfAsync_usbcmd (s : State) (k : Sched) : (s.reclIfAsync k).usbcmd = s.usbcmd := by cases k <;> rfl
@[simp] theorem State.reclIfAsync_usbsts (s : State) (k : Sched) : (s.reclIfAsync k).usbsts = s.usbsts := by cases k <;> rfl
@[simp] theorem State.reclIfAsync_usbintr (s : State) (k : Sched) : (s.reclIfAsync k).usbintr = s.usbintr := by cases k <;> rfl
@[simp] theorem State.reclIfAsync_frindex (s : State) (k : Sched) : (s.reclIfAsync k).frindex = s.frindex := by cases k <;> rfl
@[simp] theorem State.reclIfAsync_periodicListBase (s : State) (k : Sched) : (s.reclIfAsync k).periodicListBase = s.periodicListBase := by cases k <;> rfl
@[simp] theorem State.reclIfAsync_asyncListAddr (s : State) (k : Sched) : (s.reclIfAsync k).asyncListAddr = s.asyncListAddr := by cases k <;> rfl
@[simp] theorem State.reclIfAsync_usbstsPending (s : State) (k : Sched) : (s.reclIfAsync k).usbstsPending = s.usbstsPending := by cases k <;> rfl
@[simp] theorem State.reclIfAsync_nextCommit (s : State) (k : Sched) : (s.reclIfAsync k).nextCommit = s.nextCommit := by cases k <;> rfl
@[simp] theorem State.reclIfAsync_uframeCtr (s : State) (k : Sched) : (s.reclIfAsync k).uframeCtr = s.uframeCtr := by cases k <;> rfl
@[simp] theorem State.reclIfAsync_lastRunUs (s : State) (k : Sched) : (s.reclIfAsync k).lastRunUs = s.lastRunUs := by cases k <;> rfl
@[simp] theorem State.reclIfAsync_lastTickUs (s : State) (k : Sched) : (s.reclIfAsync k).lastTickUs = s.lastTickUs := by cases k <;> rfl
@[simp] theorem State.reclIfAsync_diagEmitted (s : State) (k : Sched) : (s.reclIfAsync k).diagEmitted = s.diagEmitted := by cases k <;> rfl
@[simp] theorem State.reclIfAsync_inEntry (s : State) (k : Sched) : (s.reclIfAsync k).inEntry = s.inEntry := by cases k <;> rfl
@[simp] theorem State.reclIfAsync_async (s : State) (k : Sched) : (s.reclIfAsync k).async = s.async := by cases k <;> rfl
@[simp] theorem State.reclIfAsync_periodic (s : State) (k : Sched) : (s.reclIfAsync k).periodic = s.periodic := by cases k <;> rfl
@[simp] theorem State.reclIfAsync_mem (s : State) (k : Sched) : (s.reclIfAsync k).mem = s.mem := by cases k <;> rfl
@[simp] theorem State.reclIfAsync_devices (s : State) (k : Sched) : (s.reclIfAsync k).devices = s.devices := by cases k <;> rfl
@[simp] theorem State.reclIfAsync_answers (s : State) (k : Sched) : (s.reclIfAsync k).answers = s.answers := by cases k <;> rfl
@[simp] theorem State.reclIfAsync_draws (s : State) (k : Sched) : (s.reclIfAsync k).draws = s.draws := by cases k <;> rfl
@[simp] theorem State.reclIfAsync_inbox (s : State) (k : Sched) : (s.reclIfAsync k).inbox = s.inbox := by cases k <;> rfl
@[simp] theorem State.reclIfAsync_outbox (s : State) (k : Sched) : (s.reclIfAsync k).outbox = s.outbox := by cases k <;> rfl
@[simp] theorem State.reclIfAsync_sched (s : State) (k k' : Sched) : (s.reclIfAsync k).sched k' = s.sched k' := by
  cases k <;> cases k' <;> rfl
@[simp] theorem State.reclIfAsync_recl_async (s : State) : (s.reclIfAsync .async).recl = true := rfl
@[simp] theorem State.reclIfAsync_recl_periodic (s : State) : (s.reclIfAsync .periodic).recl = s.recl := rfl

@[simp] theorem State.raiseIrq_params (s : State) (b : IrqBit) : (s.raiseIrq b).params = s.params := by cases b <;> rfl
@[simp] theorem State.raiseIrq_usbcmd (s : State) (b : IrqBit) : (s.raiseIrq b).usbcmd = s.usbcmd := by cases b <;> rfl
@[simp] theorem State.raiseIrq_recl (s : State) (b : IrqBit) : (s.raiseIrq b).recl = s.recl := by cases b <;> rfl
@[simp] theorem State.raiseIrq_usbintr (s : State) (b : IrqBit) : (s.raiseIrq b).usbintr = s.usbintr := by cases b <;> rfl
@[simp] theorem State.raiseIrq_frindex (s : State) (b : IrqBit) : (s.raiseIrq b).frindex = s.frindex := by cases b <;> rfl
@[simp] theorem State.raiseIrq_periodicListBase (s : State) (b : IrqBit) : (s.raiseIrq b).periodicListBase = s.periodicListBase := by cases b <;> rfl
@[simp] theorem State.raiseIrq_asyncListAddr (s : State) (b : IrqBit) : (s.raiseIrq b).asyncListAddr = s.asyncListAddr := by cases b <;> rfl
@[simp] theorem State.raiseIrq_nextCommit (s : State) (b : IrqBit) : (s.raiseIrq b).nextCommit = s.nextCommit := by cases b <;> rfl
@[simp] theorem State.raiseIrq_uframeCtr (s : State) (b : IrqBit) : (s.raiseIrq b).uframeCtr = s.uframeCtr := by cases b <;> rfl
@[simp] theorem State.raiseIrq_lastRunUs (s : State) (b : IrqBit) : (s.raiseIrq b).lastRunUs = s.lastRunUs := by cases b <;> rfl
@[simp] theorem State.raiseIrq_lastTickUs (s : State) (b : IrqBit) : (s.raiseIrq b).lastTickUs = s.lastTickUs := by cases b <;> rfl
@[simp] theorem State.raiseIrq_diagEmitted (s : State) (b : IrqBit) : (s.raiseIrq b).diagEmitted = s.diagEmitted := by cases b <;> rfl
@[simp] theorem State.raiseIrq_inEntry (s : State) (b : IrqBit) : (s.raiseIrq b).inEntry = s.inEntry := by cases b <;> rfl
@[simp] theorem State.raiseIrq_async (s : State) (b : IrqBit) : (s.raiseIrq b).async = s.async := by cases b <;> rfl
@[simp] theorem State.raiseIrq_periodic (s : State) (b : IrqBit) : (s.raiseIrq b).periodic = s.periodic := by cases b <;> rfl
@[simp] theorem State.raiseIrq_mem (s : State) (b : IrqBit) : (s.raiseIrq b).mem = s.mem := by cases b <;> rfl
@[simp] theorem State.raiseIrq_devices (s : State) (b : IrqBit) : (s.raiseIrq b).devices = s.devices := by cases b <;> rfl
@[simp] theorem State.raiseIrq_answers (s : State) (b : IrqBit) : (s.raiseIrq b).answers = s.answers := by cases b <;> rfl
@[simp] theorem State.raiseIrq_draws (s : State) (b : IrqBit) : (s.raiseIrq b).draws = s.draws := by cases b <;> rfl
@[simp] theorem State.raiseIrq_inbox (s : State) (b : IrqBit) : (s.raiseIrq b).inbox = s.inbox := by cases b <;> rfl
@[simp] theorem State.raiseIrq_outbox (s : State) (b : IrqBit) : (s.raiseIrq b).outbox = s.outbox := by cases b <;> rfl
@[simp] theorem State.raiseIrq_sched (s : State) (b : IrqBit) (k : Sched) : (s.raiseIrq b).sched k = s.sched k := by
  cases k <;> simp

@[simp] theorem State.commit_params (s : State)  : (s.commit).params = s.params := rfl
@[simp] theorem State.commit_usbcmd (s : State)  : (s.commit).usbcmd = s.usbcmd := rfl
@[simp] theorem State.commit_recl (s : State)  : (s.commit).recl = s.recl := rfl
@[simp] theorem State.commit_usbintr (s : State)  : (s.commit).usbintr = s.usbintr := rfl
@[simp] theorem State.commit_frindex (s : State)  : (s.commit).frindex = s.frindex := rfl
@[simp] theorem State.commit_periodicListBase (s : State)  : (s.commit).periodicListBase = s.periodicListBase := rfl
@[simp] theorem State.commit_asyncListAddr (s : State)  : (s.commit).asyncListAddr = s.asyncListAddr := rfl
@[simp] theorem State.commit_uframeCtr (s : State)  : (s.commit).uframeCtr = s.uframeCtr := rfl
@[simp] theorem State.commit_lastRunUs (s : State)  : (s.commit).lastRunUs = s.lastRunUs := rfl
@[simp] theorem State.commit_lastTickUs (s : State)  : (s.commit).lastTickUs = s.lastTickUs := rfl
@[simp] theorem State.commit_diagEmitted (s : State)  : (s.commit).diagEmitted = s.diagEmitted := rfl
@[simp] theorem State.commit_inEntry (s : State)  : (s.commit).inEntry = s.inEntry := rfl
@[simp] theorem State.commit_async (s : State)  : (s.commit).async = s.async := rfl
@[simp] theorem State.commit_periodic (s : State)  : (s.commit).periodic = s.periodic := rfl
@[simp] theorem State.commit_mem (s : State)  : (s.commit).mem = s.mem := rfl
@[simp] theorem State.commit_devices (s : State)  : (s.commit).devices = s.devices := rfl
@[simp] theorem State.commit_answers (s : State)  : (s.commit).answers = s.answers := rfl
@[simp] theorem State.commit_draws (s : State)  : (s.commit).draws = s.draws := rfl
@[simp] theorem State.commit_inbox (s : State)  : (s.commit).inbox = s.inbox := rfl
@[simp] theorem State.commit_outbox (s : State)  : (s.commit).outbox = s.outbox := rfl
@[simp] theorem State.commit_usbsts (s : State)  : (s.commit).usbsts = s.usbsts ||| s.usbstsPending := rfl
@[simp] theorem State.commit_usbstsPending (s : State)  : (s.commit).usbstsPending = 0 := rfl
@[simp] theorem State.commit_nextCommit (s : State)  : (s.commit).nextCommit = s.uframeCtr + s.usbcmd.itc.toNat := rfl
@[simp] theorem State.commit_sched (s : State)  (k : Sched) : (s.commit).sched k = s.sched k := by
  cases k <;> rfl

@[simp] theorem State.thresholdCommit_params (s : State)  : (s.thresholdCommit).params = s.params := by unfold State.thresholdCommit; split <;> rfl
@[simp] theorem State.thresholdCommit_usbcmd (s : State)  : (s.thresholdCommit).usbcmd = s.usbcmd := by unfold State.thresholdCommit; split <;> rfl
@[simp] theorem State.thresholdCommit_recl (s : State)  : (s.thresholdCommit).recl = s.recl := by unfold State.thresholdCommit; split <;> rfl
@[simp] theorem State.thresholdCommit_usbintr (s : State)  : (s.thresholdCommit).usbintr = s.usbintr := by unfold State.thresholdCommit; split <;> rfl
@[simp] theorem State.thresholdCommit_frindex (s : State)  : (s.thresholdCommit).frindex = s.frindex := by unfold State.thresholdCommit; split <;> rfl
@[simp] theorem State.thresholdCommit_periodicListBase (s : State)  : (s.thresholdCommit).periodicListBase = s.periodicListBase := by unfold State.thresholdCommit; split <;> rfl
@[simp] theorem State.thresholdCommit_asyncListAddr (s : State)  : (s.thresholdCommit).asyncListAddr = s.asyncListAddr := by unfold State.thresholdCommit; split <;> rfl
@[simp] theorem State.thresholdCommit_uframeCtr (s : State)  : (s.thresholdCommit).uframeCtr = s.uframeCtr := by unfold State.thresholdCommit; split <;> rfl
@[simp] theorem State.thresholdCommit_lastRunUs (s : State)  : (s.thresholdCommit).lastRunUs = s.lastRunUs := by unfold State.thresholdCommit; split <;> rfl
@[simp] theorem State.thresholdCommit_lastTickUs (s : State)  : (s.thresholdCommit).lastTickUs = s.lastTickUs := by unfold State.thresholdCommit; split <;> rfl
@[simp] theorem State.thresholdCommit_diagEmitted (s : State)  : (s.thresholdCommit).diagEmitted = s.diagEmitted := by unfold State.thresholdCommit; split <;> rfl
@[simp] theorem State.thresholdCommit_inEntry (s : State)  : (s.thresholdCommit).inEntry = s.inEntry := by unfold State.thresholdCommit; split <;> rfl
@[simp] theorem State.thresholdCommit_async (s : State)  : (s.thresholdCommit).async = s.async := by unfold State.thresholdCommit; split <;> rfl
@[simp] theorem State.thresholdCommit_periodic (s : State)  : (s.thresholdCommit).periodic = s.periodic := by unfold State.thresholdCommit; split <;> rfl
@[simp] theorem State.thresholdCommit_mem (s : State)  : (s.thresholdCommit).mem = s.mem := by unfold State.thresholdCommit; split <;> rfl
@[simp] theorem State.thresholdCommit_devices (s : State)  : (s.thresholdCommit).devices = s.devices := by unfold State.thresholdCommit; split <;> rfl
@[simp] theorem State.thresholdCommit_answers (s : State)  : (s.thresholdCommit).answers = s.answers := by unfold State.thresholdCommit; split <;> rfl
@[simp] theorem State.thresholdCommit_draws (s : State)  : (s.thresholdCommit).draws = s.draws := by unfold State.thresholdCommit; split <;> rfl
@[simp] theorem State.thresholdCommit_inbox (s : State)  : (s.thresholdCommit).inbox = s.inbox := by unfold State.thresholdCommit; split <;> rfl
@[simp] theorem State.thresholdCommit_outbox (s : State)  : (s.thresholdCommit).outbox = s.outbox := by unfold State.thresholdCommit; split <;> rfl
@[simp] theorem State.thresholdCommit_sched (s : State)  (k : Sched) : (s.thresholdCommit).sched k = s.sched k := by
  cases k <;> simp

@[simp] theorem State.commitAll_params (s : State)  : (s.commitAll).params = s.params := by unfold State.commitAll; split <;> rfl
@[simp] theorem State.commitAll_usbcmd (s : State)  : (s.commitAll).usbcmd = s.usbcmd := by unfold State.commitAll; split <;> rfl
@[simp] theorem State.commitAll_recl (s : State)  : (s.commitAll).recl = s.recl := by unfold State.commitAll; split <;> rfl
@[simp] theorem State.commitAll_usbintr (s : State)  : (s.commitAll).usbintr = s.usbintr := by unfold State.commitAll; split <;> rfl
@[simp] theorem State.commitAll_frindex (s : State)  : (s.commitAll).frindex = s.frindex := by unfold State.commitAll; split <;> rfl
@[simp] theorem State.commitAll_periodicListBase (s : State)  : (s.commitAll).periodicListBase = s.periodicListBase := by unfold State.commitAll; split <;> rfl
@[simp] theorem State.commitAll_asyncListAddr (s : State)  : (s.commitAll).asyncListAddr = s.asyncListAddr := by unfold State.commitAll; split <;> rfl
@[simp] theorem State.commitAll_uframeCtr (s : State)  : (s.commitAll).uframeCtr = s.uframeCtr := by unfold State.commitAll; split <;> rfl
@[simp] theorem State.commitAll_lastRunUs (s : State)  : (s.commitAll).lastRunUs = s.lastRunUs := by unfold State.commitAll; split <;> rfl
@[simp] theorem State.commitAll_lastTickUs (s : State)  : (s.commitAll).lastTickUs = s.lastTickUs := by unfold State.commitAll; split <;> rfl
@[simp] theorem State.commitAll_diagEmitted (s : State)  : (s.commitAll).diagEmitted = s.diagEmitted := by unfold State.commitAll; split <;> rfl
@[simp] theorem State.commitAll_inEntry (s : State)  : (s.commitAll).inEntry = s.inEntry := by unfold State.commitAll; split <;> rfl
@[simp] theorem State.commitAll_async (s : State)  : (s.commitAll).async = s.async := by unfold State.commitAll; split <;> rfl
@[simp] theorem State.commitAll_periodic (s : State)  : (s.commitAll).periodic = s.periodic := by unfold State.commitAll; split <;> rfl
@[simp] theorem State.commitAll_mem (s : State)  : (s.commitAll).mem = s.mem := by unfold State.commitAll; split <;> rfl
@[simp] theorem State.commitAll_devices (s : State)  : (s.commitAll).devices = s.devices := by unfold State.commitAll; split <;> rfl
@[simp] theorem State.commitAll_answers (s : State)  : (s.commitAll).answers = s.answers := by unfold State.commitAll; split <;> rfl
@[simp] theorem State.commitAll_draws (s : State)  : (s.commitAll).draws = s.draws := by unfold State.commitAll; split <;> rfl
@[simp] theorem State.commitAll_inbox (s : State)  : (s.commitAll).inbox = s.inbox := by unfold State.commitAll; split <;> rfl
@[simp] theorem State.commitAll_outbox (s : State)  : (s.commitAll).outbox = s.outbox := by unfold State.commitAll; split <;> rfl
@[simp] theorem State.commitAll_sched (s : State)  (k : Sched) : (s.commitAll).sched k = s.sched k := by
  cases k <;> simp

@[simp] theorem State.guestWrite_params (s : State) (a : Word) (bs : List Byte) : (s.guestWrite a bs).params = s.params := rfl
@[simp] theorem State.guestWrite_usbcmd (s : State) (a : Word) (bs : List Byte) : (s.guestWrite a bs).usbcmd = s.usbcmd := rfl
@[simp] theorem State.guestWrite_usbsts (s : State) (a : Word) (bs : List Byte) : (s.guestWrite a bs).usbsts = s.usbsts := rfl
@[simp] theorem State.guestWrite_recl (s : State) (a : Word) (bs : List Byte) : (s.guestWrite a bs).recl = s.recl := rfl
@[simp] theorem State.guestWrite_usbintr (s : State) (a : Word) (bs : List Byte) : (s.guestWrite a bs).usbintr = s.usbintr := rfl
@[simp] theorem State.guestWrite_frindex (s : State) (a : Word) (bs : List Byte) : (s.guestWrite a bs).frindex = s.frindex := rfl
@[simp] theorem State.guestWrite_periodicListBase (s : State) (a : Word) (bs : List Byte) : (s.guestWrite a bs).periodicListBase = s.periodicListBase := rfl
@[simp] theorem State.guestWrite_asyncListAddr (s : State) (a : Word) (bs : List Byte) : (s.guestWrite a bs).asyncListAddr = s.asyncListAddr := rfl
@[simp] theorem State.guestWrite_usbstsPending (s : State) (a : Word) (bs : List Byte) : (s.guestWrite a bs).usbstsPending = s.usbstsPending := rfl
@[simp] theorem State.guestWrite_nextCommit (s : State) (a : Word) (bs : List Byte) : (s.guestWrite a bs).nextCommit = s.nextCommit := rfl
@[simp] theorem State.guestWrite_uframeCtr (s : State) (a : Word) (bs : List Byte) : (s.guestWrite a bs).uframeCtr = s.uframeCtr := rfl
@[simp] theorem State.guestWrite_lastRunUs (s : State) (a : Word) (bs : List Byte) : (s.guestWrite a bs).lastRunUs = s.lastRunUs := rfl
@[simp] theorem State.guestWrite_lastTickUs (s : State) (a : Word) (bs : List Byte) : (s.guestWrite a bs).lastTickUs = s.lastTickUs := rfl
@[simp] theorem State.guestWrite_diagEmitted (s : State) (a : Word) (bs : List Byte) : (s.guestWrite a bs).diagEmitted = s.diagEmitted := rfl
@[simp] theorem State.guestWrite_inEntry (s : State) (a : Word) (bs : List Byte) : (s.guestWrite a bs).inEntry = s.inEntry := rfl
@[simp] theorem State.guestWrite_async (s : State) (a : Word) (bs : List Byte) : (s.guestWrite a bs).async = s.async := rfl
@[simp] theorem State.guestWrite_periodic (s : State) (a : Word) (bs : List Byte) : (s.guestWrite a bs).periodic = s.periodic := rfl
@[simp] theorem State.guestWrite_devices (s : State) (a : Word) (bs : List Byte) : (s.guestWrite a bs).devices = s.devices := rfl
@[simp] theorem State.guestWrite_answers (s : State) (a : Word) (bs : List Byte) : (s.guestWrite a bs).answers = s.answers := rfl
@[simp] theorem State.guestWrite_draws (s : State) (a : Word) (bs : List Byte) : (s.guestWrite a bs).draws = s.draws := rfl
@[simp] theorem State.guestWrite_inbox (s : State) (a : Word) (bs : List Byte) : (s.guestWrite a bs).inbox = s.inbox := rfl
@[simp] theorem State.guestWrite_outbox (s : State) (a : Word) (bs : List Byte) : (s.guestWrite a bs).outbox = s.outbox := rfl
@[simp] theorem State.guestWrite_mem (s : State) (a : Word) (bs : List Byte) : (s.guestWrite a bs).mem = (writeBytes s.mem a bs).guestActs := rfl
@[simp] theorem State.guestWrite_sched (s : State) (a : Word) (bs : List Byte) (k : Sched) : (s.guestWrite a bs).sched k = s.sched k := by
  cases k <;> rfl

@[simp] theorem State.portActs_params (s : State) : s.portActs.params = s.params := rfl
@[simp] theorem State.portActs_usbcmd (s : State) : s.portActs.usbcmd = s.usbcmd := rfl
@[simp] theorem State.portActs_usbsts (s : State) : s.portActs.usbsts = s.usbsts := rfl
@[simp] theorem State.portActs_recl (s : State) : s.portActs.recl = s.recl := rfl
@[simp] theorem State.portActs_usbintr (s : State) : s.portActs.usbintr = s.usbintr := rfl
@[simp] theorem State.portActs_frindex (s : State) : s.portActs.frindex = s.frindex := rfl
@[simp] theorem State.portActs_periodicListBase (s : State) : s.portActs.periodicListBase = s.periodicListBase := rfl
@[simp] theorem State.portActs_asyncListAddr (s : State) : s.portActs.asyncListAddr = s.asyncListAddr := rfl
@[simp] theorem State.portActs_usbstsPending (s : State) : s.portActs.usbstsPending = s.usbstsPending := rfl
@[simp] theorem State.portActs_nextCommit (s : State) : s.portActs.nextCommit = s.nextCommit := rfl
@[simp] theorem State.portActs_uframeCtr (s : State) : s.portActs.uframeCtr = s.uframeCtr := rfl
@[simp] theorem State.portActs_lastRunUs (s : State) : s.portActs.lastRunUs = s.lastRunUs := rfl
@[simp] theorem State.portActs_lastTickUs (s : State) : s.portActs.lastTickUs = s.lastTickUs := rfl
@[simp] theorem State.portActs_diagEmitted (s : State) : s.portActs.diagEmitted = s.diagEmitted := rfl
@[simp] theorem State.portActs_inEntry (s : State) : s.portActs.inEntry = s.inEntry := rfl
@[simp] theorem State.portActs_async (s : State) : s.portActs.async = s.async := rfl
@[simp] theorem State.portActs_periodic (s : State) : s.portActs.periodic = s.periodic := rfl
@[simp] theorem State.portActs_mem (s : State) : s.portActs.mem = s.mem := rfl
@[simp] theorem State.portActs_devices (s : State) : s.portActs.devices = s.devices := rfl
@[simp] theorem State.portActs_answers (s : State) : s.portActs.answers = s.answers := rfl
@[simp] theorem State.portActs_inbox (s : State) : s.portActs.inbox = s.inbox := rfl
@[simp] theorem State.portActs_outbox (s : State) : s.portActs.outbox = s.outbox := rfl
@[simp] theorem State.portActs_draws (s : State) : s.portActs.draws = s.draws + 1 := rfl
@[simp] theorem State.portActs_sched (s : State) (k : Sched) : s.portActs.sched k = s.sched k := by
  cases k <;> rfl

@[simp] theorem State.setDevice_params (s : State) (a : BitVec 7) (d : Option DevRef) : (s.setDevice a d).params = s.params := by cases d <;> rfl
@[simp] theorem State.setDevice_usbcmd (s : State) (a : BitVec 7) (d : Option DevRef) : (s.setDevice a d).usbcmd = s.usbcmd := by cases d <;> rfl
@[simp] theorem State.setDevice_usbsts (s : State) (a : BitVec 7) (d : Option DevRef) : (s.setDevice a d).usbsts = s.usbsts := by cases d <;> rfl
@[simp] theorem State.setDevice_recl (s : State) (a : BitVec 7) (d : Option DevRef) : (s.setDevice a d).recl = s.recl := by cases d <;> rfl
@[simp] theorem State.setDevice_usbintr (s : State) (a : BitVec 7) (d : Option DevRef) : (s.setDevice a d).usbintr = s.usbintr := by cases d <;> rfl
@[simp] theorem State.setDevice_frindex (s : State) (a : BitVec 7) (d : Option DevRef) : (s.setDevice a d).frindex = s.frindex := by cases d <;> rfl
@[simp] theorem State.setDevice_periodicListBase (s : State) (a : BitVec 7) (d : Option DevRef) : (s.setDevice a d).periodicListBase = s.periodicListBase := by cases d <;> rfl
@[simp] theorem State.setDevice_asyncListAddr (s : State) (a : BitVec 7) (d : Option DevRef) : (s.setDevice a d).asyncListAddr = s.asyncListAddr := by cases d <;> rfl
@[simp] theorem State.setDevice_usbstsPending (s : State) (a : BitVec 7) (d : Option DevRef) : (s.setDevice a d).usbstsPending = s.usbstsPending := by cases d <;> rfl
@[simp] theorem State.setDevice_nextCommit (s : State) (a : BitVec 7) (d : Option DevRef) : (s.setDevice a d).nextCommit = s.nextCommit := by cases d <;> rfl
@[simp] theorem State.setDevice_uframeCtr (s : State) (a : BitVec 7) (d : Option DevRef) : (s.setDevice a d).uframeCtr = s.uframeCtr := by cases d <;> rfl
@[simp] theorem State.setDevice_lastRunUs (s : State) (a : BitVec 7) (d : Option DevRef) : (s.setDevice a d).lastRunUs = s.lastRunUs := by cases d <;> rfl
@[simp] theorem State.setDevice_lastTickUs (s : State) (a : BitVec 7) (d : Option DevRef) : (s.setDevice a d).lastTickUs = s.lastTickUs := by cases d <;> rfl
@[simp] theorem State.setDevice_diagEmitted (s : State) (a : BitVec 7) (d : Option DevRef) : (s.setDevice a d).diagEmitted = s.diagEmitted := by cases d <;> rfl
@[simp] theorem State.setDevice_inEntry (s : State) (a : BitVec 7) (d : Option DevRef) : (s.setDevice a d).inEntry = s.inEntry := by cases d <;> rfl
@[simp] theorem State.setDevice_async (s : State) (a : BitVec 7) (d : Option DevRef) : (s.setDevice a d).async = s.async := by cases d <;> rfl
@[simp] theorem State.setDevice_periodic (s : State) (a : BitVec 7) (d : Option DevRef) : (s.setDevice a d).periodic = s.periodic := by cases d <;> rfl
@[simp] theorem State.setDevice_mem (s : State) (a : BitVec 7) (d : Option DevRef) : (s.setDevice a d).mem = s.mem := by cases d <;> rfl
@[simp] theorem State.setDevice_answers (s : State) (a : BitVec 7) (d : Option DevRef) : (s.setDevice a d).answers = s.answers := by cases d <;> rfl
@[simp] theorem State.setDevice_draws (s : State) (a : BitVec 7) (d : Option DevRef) : (s.setDevice a d).draws = s.draws + 1 := by cases d <;> rfl
@[simp] theorem State.setDevice_inbox (s : State) (a : BitVec 7) (d : Option DevRef) : (s.setDevice a d).inbox = s.inbox := by cases d <;> rfl
@[simp] theorem State.setDevice_outbox (s : State) (a : BitVec 7) (d : Option DevRef) : (s.setDevice a d).outbox = s.outbox := by cases d <;> rfl
@[simp] theorem State.setDevice_sched (s : State) (a : BitVec 7) (d : Option DevRef) (k : Sched) : (s.setDevice a d).sched k = s.sched k := by
  cases k <;> simp

@[simp] theorem State.dropDevice_params (s : State) (d : DevRef) : (s.dropDevice d).params = s.params := rfl
@[simp] theorem State.dropDevice_usbcmd (s : State) (d : DevRef) : (s.dropDevice d).usbcmd = s.usbcmd := rfl
@[simp] theorem State.dropDevice_usbsts (s : State) (d : DevRef) : (s.dropDevice d).usbsts = s.usbsts := rfl
@[simp] theorem State.dropDevice_recl (s : State) (d : DevRef) : (s.dropDevice d).recl = s.recl := rfl
@[simp] theorem State.dropDevice_usbintr (s : State) (d : DevRef) : (s.dropDevice d).usbintr = s.usbintr := rfl
@[simp] theorem State.dropDevice_frindex (s : State) (d : DevRef) : (s.dropDevice d).frindex = s.frindex := rfl
@[simp] theorem State.dropDevice_periodicListBase (s : State) (d : DevRef) : (s.dropDevice d).periodicListBase = s.periodicListBase := rfl
@[simp] theorem State.dropDevice_asyncListAddr (s : State) (d : DevRef) : (s.dropDevice d).asyncListAddr = s.asyncListAddr := rfl
@[simp] theorem State.dropDevice_usbstsPending (s : State) (d : DevRef) : (s.dropDevice d).usbstsPending = s.usbstsPending := rfl
@[simp] theorem State.dropDevice_nextCommit (s : State) (d : DevRef) : (s.dropDevice d).nextCommit = s.nextCommit := rfl
@[simp] theorem State.dropDevice_uframeCtr (s : State) (d : DevRef) : (s.dropDevice d).uframeCtr = s.uframeCtr := rfl
@[simp] theorem State.dropDevice_lastRunUs (s : State) (d : DevRef) : (s.dropDevice d).lastRunUs = s.lastRunUs := rfl
@[simp] theorem State.dropDevice_lastTickUs (s : State) (d : DevRef) : (s.dropDevice d).lastTickUs = s.lastTickUs := rfl
@[simp] theorem State.dropDevice_diagEmitted (s : State) (d : DevRef) : (s.dropDevice d).diagEmitted = s.diagEmitted := rfl
@[simp] theorem State.dropDevice_inEntry (s : State) (d : DevRef) : (s.dropDevice d).inEntry = s.inEntry := rfl
@[simp] theorem State.dropDevice_async (s : State) (d : DevRef) : (s.dropDevice d).async = s.async := rfl
@[simp] theorem State.dropDevice_periodic (s : State) (d : DevRef) : (s.dropDevice d).periodic = s.periodic := rfl
@[simp] theorem State.dropDevice_mem (s : State) (d : DevRef) : (s.dropDevice d).mem = s.mem := rfl
@[simp] theorem State.dropDevice_answers (s : State) (d : DevRef) : (s.dropDevice d).answers = s.answers := rfl
@[simp] theorem State.dropDevice_draws (s : State) (d : DevRef) : (s.dropDevice d).draws = s.draws + 1 := rfl
@[simp] theorem State.dropDevice_inbox (s : State) (d : DevRef) : (s.dropDevice d).inbox = s.inbox := rfl
@[simp] theorem State.dropDevice_outbox (s : State) (d : DevRef) : (s.dropDevice d).outbox = s.outbox := rfl
@[simp] theorem State.dropDevice_sched (s : State) (d : DevRef) (k : Sched) : (s.dropDevice d).sched k = s.sched k := by
  cases k <;> rfl

/-! ### The registers after a controller reset -/

@[simp] theorem State.resetRegisters_params (s : State) : s.resetRegisters.params = s.params := rfl
@[simp] theorem State.resetRegisters_uframeCtr (s : State) : s.resetRegisters.uframeCtr = s.uframeCtr := rfl
@[simp] theorem State.resetRegisters_diagEmitted (s : State) : s.resetRegisters.diagEmitted = s.diagEmitted := rfl
@[simp] theorem State.resetRegisters_mem (s : State) : s.resetRegisters.mem = s.mem := rfl
@[simp] theorem State.resetRegisters_devices (s : State) : s.resetRegisters.devices = s.devices := rfl
@[simp] theorem State.resetRegisters_answers (s : State) : s.resetRegisters.answers = s.answers := rfl
@[simp] theorem State.resetRegisters_draws (s : State) : s.resetRegisters.draws = s.draws := rfl
@[simp] theorem State.resetRegisters_inbox (s : State) : s.resetRegisters.inbox = s.inbox := rfl
@[simp] theorem State.resetRegisters_outbox (s : State) : s.resetRegisters.outbox = s.outbox := rfl
@[simp] theorem State.resetRegisters_usbcmd (s : State) : s.resetRegisters.usbcmd = UsbCmd.reset := rfl
@[simp] theorem State.resetRegisters_usbsts (s : State) : s.resetRegisters.usbsts = 0 := rfl
@[simp] theorem State.resetRegisters_recl (s : State) : s.resetRegisters.recl = false := rfl
@[simp] theorem State.resetRegisters_usbintr (s : State) : s.resetRegisters.usbintr = 0 := rfl
@[simp] theorem State.resetRegisters_frindex (s : State) : s.resetRegisters.frindex = 0 := rfl
@[simp] theorem State.resetRegisters_periodicListBase (s : State) : s.resetRegisters.periodicListBase = 0 := rfl
@[simp] theorem State.resetRegisters_asyncListAddr (s : State) : s.resetRegisters.asyncListAddr = 0 := rfl
@[simp] theorem State.resetRegisters_usbstsPending (s : State) : s.resetRegisters.usbstsPending = 0 := rfl
@[simp] theorem State.resetRegisters_nextCommit (s : State) : s.resetRegisters.nextCommit = 0 := rfl
@[simp] theorem State.resetRegisters_lastRunUs (s : State) : s.resetRegisters.lastRunUs = none := rfl
@[simp] theorem State.resetRegisters_lastTickUs (s : State) : s.resetRegisters.lastTickUs = s.lastTickUs := rfl
@[simp] theorem State.resetRegisters_inEntry (s : State) : s.resetRegisters.inEntry = false := rfl
@[simp] theorem State.resetRegisters_sched (s : State) (k : Sched) :
    s.resetRegisters.sched k = { SchedRegs.reset with cache := (s.sched k).cache } := by cases k <;> rfl

end Sys2Proof.Machine
end

