-- ==== Sys2Proof/Laws/Cache.lean ====
section
/-! SUPPORT. The descriptor cache as a finite map: finding after storing and after erasing, and that both keep the keys
rising; and the list of Packets of a Queue. -/

namespace Sys2Proof.Machine

/-! ### The map -/

theorem cacheRising_cons (q : Queue) (c : List Queue) :
    cacheRising (q :: c) = true ↔ (∀ r ∈ c, q.qhaddr.toNat < r.qhaddr.toNat) ∧ cacheRising c = true := by
  simp [cacheRising]

theorem cacheFind_some {c : List Queue} {a : Word} {q : Queue} (h : cacheFind c a = some q) :
    q ∈ c ∧ q.qhaddr = a := by
  induction c with
  | nil => cases h
  | cons r c ih =>
    simp only [cacheFind] at h
    split at h
    · cases h; exact ⟨by simp, ‹_›⟩
    · exact ⟨by simp [(ih h).1], (ih h).2⟩

theorem cacheFind_eq_none {c : List Queue} {a : Word} : cacheFind c a = none ↔ ∀ q ∈ c, q.qhaddr ≠ a := by
  induction c with
  | nil => simp [cacheFind]
  | cons r c ih =>
    by_cases h : r.qhaddr = a
    · simp [cacheFind, h]
    · simp [cacheFind, h, ih]

theorem cacheFind_of_mem {c : List Queue} (hc : cacheRising c = true) {q : Queue} (h : q ∈ c) :
    cacheFind c q.qhaddr = some q := by
  induction c with
  | nil => cases h
  | cons r c ih =>
    obtain ⟨h1, h2⟩ := (cacheRising_cons r c).1 hc
    rcases List.mem_cons.1 h with rfl | h
    · simp [cacheFind]
    · have := h1 q h
      rw [cacheFind, if_neg (fun e => by rw [e] at this; omega), ih h2 h]

/-- Finding after storing. -/
theorem cacheFind_cachePut (c : List Queue) (q : Queue) (a : Word) :
    cacheFind (cachePut c q) a = if a = q.qhaddr then some q else cacheFind c a := by
  induction c with
  | nil => simp only [cachePut, cacheFind, eq_comm]
  | cons r c ih =>
    simp only [cachePut]
    by_cases h1 : q.qhaddr = r.qhaddr
    · rw [if_pos h1]
      simp only [cacheFind]
      by_cases ha : a = q.qhaddr
      · rw [if_pos ha, if_pos ha.symm]
      · rw [if_neg ha, if_neg (Ne.symm ha), if_neg (by rw [← h1]; exact Ne.symm ha)]
    · rw [if_neg h1]
      by_cases h2 : q.qhaddr.toNat < r.qhaddr.toNat
      · rw [if_pos h2, cacheFind]
        by_cases ha : a = q.qhaddr
        · rw [if_pos ha, if_pos ha.symm]
        · rw [if_neg ha, if_neg (Ne.symm ha)]
      · rw [if_neg h2, cacheFind, cacheFind, ih]
        by_cases hr : r.qhaddr = a
        · rw [if_pos hr, if_neg (by rw [← hr]; exact Ne.symm h1), if_pos hr]
        · rw [if_neg hr, if_neg hr]

theorem mem_cachePut {c : List Queue} {q r : Queue} (h : r ∈ cachePut c q) : r = q ∨ r ∈ c := by
  induction c with
  | nil => simp_all [cachePut]
  | cons t c ih =>
    simp only [cachePut] at h
    split_ifs at h with h1 h2
    · rcases List.mem_cons.1 h with h | h
      · exact .inl h
      · exact .inr (by simp [h])
    · rcases List.mem_cons.1 h with h | h
      · exact .inl h
      · exact .inr h
    · rcases List.mem_cons.1 h with h | h
      · exact .inr (by simp [h])
      · rcases ih h with h | h
        · exact .inl h
        · exact .inr (by simp [h])

theorem cachePut_rising {c : List Queue} (hc : cacheRising c = true) (q : Queue) :
    cacheRising (cachePut c q) = true := by
  induction c with
  | nil => simp [cachePut, cacheRising]
  | cons r c ih =>
    obtain ⟨h1, h2⟩ := (cacheRising_cons r c).1 hc
    simp only [cachePut]
    by_cases e1 : q.qhaddr = r.qhaddr
    · rw [if_pos e1, cacheRising_cons]; exact ⟨fun t ht => by rw [e1]; exact h1 t ht, h2⟩
    · rw [if_neg e1]
      by_cases e2 : q.qhaddr.toNat < r.qhaddr.toNat
      · rw [if_pos e2, cacheRising_cons]
        refine ⟨fun t ht => ?_, hc⟩
        rcases List.mem_cons.1 ht with rfl | ht
        · exact e2
        · exact lt_trans e2 (h1 t ht)
      · rw [if_neg e2, cacheRising_cons]
        refine ⟨fun t ht => ?_, ih h2⟩
        rcases mem_cachePut ht with rfl | ht
        · have : t.qhaddr.toNat ≠ r.qhaddr.toNat := fun e => e1 (BitVec.eq_of_toNat_eq e)
          omega
        · exact h1 t ht

/-- What is in the map after storing. -/
theorem mem_cachePut_iff {c : List Queue} (hc : cacheRising c = true) {q r : Queue} :
    r ∈ cachePut c q ↔ r = q ∨ (r ∈ c ∧ r.qhaddr ≠ q.qhaddr) := by
  have hf := cacheFind_cachePut c q
  constructor
  · intro h
    have h1 := cacheFind_of_mem (cachePut_rising hc q) h
    rw [hf] at h1
    split_ifs at h1 with h2
    · exact .inl (Option.some.inj h1).symm
    · exact .inr ⟨(cacheFind_some h1).1, h2⟩
  · rintro (rfl | ⟨h1, h2⟩)
    · have := hf r.qhaddr
      rw [if_pos rfl] at this
      exact (cacheFind_some this).1
    · have := hf r.qhaddr
      rw [if_neg h2, cacheFind_of_mem hc h1] at this
      exact (cacheFind_some this).1

/-- Storing what is stored changes nothing. -/
theorem cachePut_self {c : List Queue} (hc : cacheRising c = true) {q : Queue} (h : q ∈ c) : cachePut c q = c := by
  induction c with
  | nil => cases h
  | cons r c ih =>
    obtain ⟨h1, h2⟩ := (cacheRising_cons r c).1 hc
    rcases List.mem_cons.1 h with rfl | h
    · simp [cachePut]
    · have := h1 q h
      rw [cachePut, if_neg (fun e => by rw [e] at this; omega), if_neg (by omega), ih h2 h]

theorem cachePut_cachePut (c : List Queue) {q r : Queue} (h : q.qhaddr = r.qhaddr) :
    cachePut (cachePut c q) r = cachePut c r := by
  induction c with
  | nil => simp [cachePut, h]
  | cons t c ih =>
    simp only [cachePut, ← h]
    by_cases e1 : q.qhaddr = t.qhaddr
    · rw [if_pos e1, if_pos e1, cachePut, if_pos h.symm]
    · rw [if_neg e1, if_neg e1]
      by_cases e2 : q.qhaddr.toNat < t.qhaddr.toNat
      · rw [if_pos e2, if_pos e2, cachePut, if_pos h.symm]
      · rw [if_neg e2, if_neg e2, cachePut, ← h, if_neg e1, if_neg e2, ih]

theorem mem_of_mem_cacheErase {c : List Queue} {a : Word} {q : Queue} (h : q ∈ cacheErase c a) : q ∈ c := by
  induction c with
  | nil => cases h
  | cons r c ih =>
    simp only [cacheErase] at h
    split at h
    · simp [h]
    · rcases List.mem_cons.1 h with rfl | h
      · simp
      · simp [ih h]

theorem cacheErase_rising {c : List Queue} (hc : cacheRising c = true) (a : Word) :
    cacheRising (cacheErase c a) = true := by
  induction c with
  | nil => rfl
  | cons r c ih =>
    obtain ⟨h1, h2⟩ := (cacheRising_cons r c).1 hc
    simp only [cacheErase]
    split
    · exact h2
    · rw [cacheRising_cons]; exact ⟨fun t ht => h1 t (mem_of_mem_cacheErase ht), ih h2⟩

/-- What is in the map after erasing. -/
theorem mem_cacheErase_iff {c : List Queue} (hc : cacheRising c = true) {a : Word} {q : Queue} :
    q ∈ cacheErase c a ↔ q ∈ c ∧ q.qhaddr ≠ a := by
  induction c with
  | nil => simp [cacheErase]
  | cons r c ih =>
    obtain ⟨h1, h2⟩ := (cacheRising_cons r c).1 hc
    simp only [cacheErase]
    by_cases e : r.qhaddr = a
    · rw [if_pos e]
      constructor
      · intro h
        refine ⟨by simp [h], fun e' => ?_⟩
        have := h1 q h
        rw [e, e'] at this
        omega
      · rintro ⟨h, hne⟩
        rcases List.mem_cons.1 h with rfl | h
        · exact absurd e hne
        · exact h
    · rw [if_neg e, List.mem_cons, List.mem_cons, ih h2]
      constructor
      · rintro (rfl | h)
        · exact ⟨.inl rfl, e⟩
        · exact ⟨.inr h.1, h.2⟩
      · rintro ⟨rfl | h, hne⟩
        · exact .inl rfl
        · exact .inr ⟨h, hne⟩

/-- Finding after erasing. -/
theorem cacheFind_cacheErase {c : List Queue} (hc : cacheRising c = true) (a b : Word) :
    cacheFind (cacheErase c a) b = if b = a then none else cacheFind c b := by
  by_cases h : b = a
  · rw [if_pos h, cacheFind_eq_none]
    intro q hq e
    exact ((mem_cacheErase_iff hc).1 hq).2 (e.trans h)
  · rw [if_neg h]
    cases hf : cacheFind c b with
    | none =>
      rw [cacheFind_eq_none] at hf ⊢
      exact fun q hq => hf q (mem_of_mem_cacheErase hq)
    | some q =>
      obtain ⟨h1, h2⟩ := cacheFind_some hf
      have := cacheFind_of_mem (cacheErase_rising hc a) ((mem_cacheErase_iff hc).2 ⟨h1, by rw [h2]; exact h⟩)
      rwa [h2] at this

/-! ### Packets of a Queue -/

theorem findPacket_some {ps : List Packet} {a : Word} {p : Packet} (h : findPacket ps a = some p) :
    p ∈ ps ∧ p.qtdaddr = a := by
  induction ps with
  | nil => cases h
  | cons r ps ih =>
    simp only [findPacket] at h
    split at h
    · cases h; exact ⟨by simp, ‹_›⟩
    · exact ⟨by simp [(ih h).1], (ih h).2⟩

theorem replacePacket_length (ps : List Packet) (p : Packet) : (replacePacket ps p).length = ps.length := by
  induction ps with
  | nil => rfl
  | cons r ps ih => simp only [replacePacket]; split <;> simp [ih]

theorem mem_replacePacket {ps : List Packet} {p r : Packet} (h : r ∈ replacePacket ps p) : r = p ∨ r ∈ ps := by
  induction ps with
  | nil => cases h
  | cons t ps ih =>
    simp only [replacePacket] at h
    split at h
    · rcases List.mem_cons.1 h with h | h
      · exact .inl h
      · exact .inr (by simp [h])
    · rcases List.mem_cons.1 h with h | h
      · exact .inr (by simp [h])
      · rcases ih h with h | h
        · exact .inl h
        · exact .inr (by simp [h])

/-- Finding a Packet after one is stored back. -/
theorem findPacket_replacePacket {ps : List Packet} {p : Packet} {r : Packet}
    (h : findPacket ps p.qtdaddr = some r) : findPacket (replacePacket ps p) p.qtdaddr = some p := by
  induction ps with
  | nil => cases h
  | cons t ps ih =>
    simp only [findPacket] at h
    simp only [replacePacket]
    split at h
    · rw [if_pos ‹_›, findPacket, if_pos rfl]
    · rw [if_neg ‹_›, findPacket, if_neg ‹_›]; exact ih h

theorem replacePacket_self {ps : List Packet} {p : Packet} (h : findPacket ps p.qtdaddr = some p) :
    replacePacket ps p = ps := by
  induction ps with
  | nil => rfl
  | cons t ps ih =>
    simp only [findPacket] at h
    simp only [replacePacket]
    split at h
    · cases h; rw [if_pos rfl]
    · rw [if_neg ‹_›, ih h]

theorem mem_dropPacket {ps : List Packet} {a : Word} {p : Packet} (h : p ∈ dropPacket ps a) : p ∈ ps := by
  induction ps with
  | nil => cases h
  | cons t ps ih =>
    simp only [dropPacket] at h
    split at h
    · simp [h]
    · rcases List.mem_cons.1 h with rfl | h
      · simp
      · simp [ih h]

theorem dropPacket_length {ps : List Packet} (a : Word) : (dropPacket ps a).length ≤ ps.length := by
  induction ps with
  | nil => exact le_refl _
  | cons t ps ih => simp only [dropPacket]; split <;> simp; omega

theorem dropPacket_head (p : Packet) (ps : List Packet) : dropPacket (p :: ps) p.qtdaddr = ps := by
  simp [dropPacket]

/-- A Queue with at most one Packet (R292): the Packet found is the only one. -/
theorem packets_of_findPacket {ps : List Packet} {a : Word} {p : Packet} (h : findPacket ps a = some p)
    (hl : ps.length ≤ 1) : ps = [p] := by
  have hm := (findPacket_some h).1
  match ps, hl with
  | [], _ => cases hm
  | [r], _ => simp_all

end Sys2Proof.Machine
end

