-- ==== Sys2Proof/Laws/Reap.lean ====
section
/-! SUPPORT. Cancelling, resetting, freeing and reaping (R242 to R251): one lemma for each operation that says what it does
to a good schedule, and one that says what it leaves alone in any state. -/

namespace Sys2Proof.Machine

/-! ### Goodness, unfolded -/

theorem queueOk_iff {ctr : Nat} {k : Sched} {q : Queue} :
    queueOk ctr k q = true ↔
      q.kind = k ∧ ptrAddr q.qhaddr = q.qhaddr ∧ q.packets.length ≤ 1 ∧ q.lastSeen ≤ ctr ∧
        ∀ p ∈ q.packets, packetOk q.dev p = true := by
  simp only [queueOk, Bool.and_eq_true, beq_iff_eq, decide_eq_true_iff, List.all_eq_true, and_assoc]
  rfl

theorem schedOk_iff {ctr : Nat} {k : Sched} {r : SchedRegs} :
    schedOk ctr k r = true ↔
      cacheRising r.cache = true ∧ (∀ q ∈ r.cache, queueOk ctr k q = true) ∧
        ∀ a, r.curQueue = some a → ∃ q, cacheFind r.cache a = some q := by
  simp only [schedOk, Bool.and_eq_true, List.all_eq_true, and_assoc]
  cases h : r.curQueue with
  | none => simp
  | some a => simp [Option.isSome_iff_exists]

/-- A good schedule stays good when only the state tag, the fetch address and the visit count change. -/
theorem schedOk_congr {ctr : Nat} {k : Sched} {r r' : SchedRegs} (h : schedOk ctr k r = true)
    (hc : r'.cache = r.cache) (hq : r'.curQueue = r.curQueue) : schedOk ctr k r' = true := by
  rw [schedOk_iff] at h ⊢
  rw [hc, hq]; exact h

/-- A good schedule stays good as the counter grows. -/
theorem schedOk_mono {ctr ctr' : Nat} {k : Sched} {r : SchedRegs} (h : schedOk ctr k r = true) (hc : ctr ≤ ctr') :
    schedOk ctr' k r = true := by
  rw [schedOk_iff] at h ⊢
  refine ⟨h.1, fun q hq => ?_, h.2.2⟩
  have := h.2.1 q hq
  rw [queueOk_iff] at this ⊢
  exact ⟨this.1, this.2.1, this.2.2.1, this.2.2.2.1.trans hc, this.2.2.2.2⟩

/-- Storing a good Queue keeps a schedule good. -/
theorem schedOk_put {ctr : Nat} {k : Sched} {r : SchedRegs} (h : schedOk ctr k r = true) {q : Queue}
    (hq : queueOk ctr k q = true) : schedOk ctr k { r with cache := cachePut r.cache q } = true := by
  rw [schedOk_iff] at h ⊢
  refine ⟨cachePut_rising h.1 q, fun t ht => ?_, fun a ha => ?_⟩
  · rcases mem_cachePut ht with rfl | ht
    · exact hq
    · exact h.2.1 t ht
  · rw [cacheFind_cachePut]
    split
    · exact ⟨q, rfl⟩
    · exact h.2.2 a ha

theorem schedOk_cur {ctr : Nat} {k : Sched} {r : SchedRegs} (h : schedOk ctr k r = true) {u : Option Word}
    (hu : ∀ a, u = some a → ∃ q, cacheFind r.cache a = some q) : schedOk ctr k { r with curQueue := u } = true := by
  rw [schedOk_iff] at h ⊢
  exact ⟨h.1, h.2.1, hu⟩

/-! ### Cancelling and resetting (R242, R244) -/

/-- `cancel_packet` faults or drops the Packet, giving out at most a cancel. -/
theorem cancelPacket_frame {q q' : Queue} {p : Packet} {s t : State} (h : cancelPacket q p s = .ok (q', t)) :
    q' = q.freePacket p ∧ ∃ cs, t = { s with outbox := cs ++ s.outbox } := by
  unfold cancelPacket at h
  split at h
  · split at h
    · cases h
    · cases h; exact ⟨rfl, [_], rfl⟩
  · cases h; exact ⟨rfl, [], rfl⟩

/-- Cancelling a list of Packets leaves everything else of the Queue and of the state alone. -/
theorem cancelPackets_frame {ps : List Packet} {q q' : Queue} {s t : State} (h : cancelPackets ps q s = .ok (q', t)) :
    (∃ l, q' = { q with packets := l } ∧ l.length ≤ q.packets.length ∧ ∀ p ∈ l, p ∈ q.packets) ∧
      ∃ cs, t = { s with outbox := cs ++ s.outbox } := by
  induction ps generalizing q s with
  | nil => cases h; exact ⟨⟨_, rfl, le_refl _, fun _ h => h⟩, [], rfl⟩
  | cons p ps ih =>
    simp only [cancelPackets] at h
    split at h
    · cases h
    · rename_i q1 s1 h1
      obtain ⟨rfl, cs1, rfl⟩ := cancelPacket_frame h1
      obtain ⟨⟨l, rfl, hl, hm⟩, cs2, rfl⟩ := ih h
      refine ⟨⟨l, rfl, hl.trans (dropPacket_length _), fun p hp => mem_dropPacket (hm p hp)⟩, cs2 ++ cs1, ?_⟩
      simp

/-- `reset_queue` leaves everything else of the Queue and of the state alone. -/
theorem resetQueue_frame {q q' : Queue} {s t : State} (h : resetQueue q s = .ok (q', t)) :
    (∃ l, q' = { q with packets := l, dev := none } ∧ l.length ≤ q.packets.length ∧ ∀ p ∈ l, p ∈ q.packets) ∧
      ∃ cs, t = { s with outbox := cs ++ s.outbox } := by
  simp only [resetQueue] at h
  split at h
  · cases h
  · rename_i q1 s1 h1
    obtain ⟨⟨l, rfl, hl⟩, cs, rfl⟩ := cancelPackets_frame h1
    cases h
    exact ⟨⟨l, rfl, hl⟩, cs, rfl⟩

/-- Cancelling the one Packet of a good Queue: it is dropped, and its device told where it was in flight. -/
theorem cancelPackets_good {q : Queue} (s : State) (hl : q.packets.length ≤ 1)
    (hp : ∀ p ∈ q.packets, packetOk q.dev p = true) :
    ∃ cs, cancelPackets q.packets q s = .ok ({ q with packets := [] }, { s with outbox := cs ++ s.outbox }) ∧
      ∀ o, o ∈ cs ↔ ∃ p d, p ∈ q.packets ∧ p.tag = .inflight ∧ q.dev = some d ∧
        o = .cancel d q.kind q.qhaddr p.qtdaddr := by
  match hq : q.packets, hl with
  | [], _ =>
    refine ⟨[], ?_, by simp⟩
    have : ({ q with packets := [] } : Queue) = q := by rw [← hq]
    simp [cancelPackets, this]
  | [p], _ =>
    have hpp := hp p (by simp [hq])
    by_cases ht : p.tag = .inflight
    · simp only [packetOk, ht] at hpp
      obtain ⟨d, hd⟩ := Option.isSome_iff_exists.1 hpp
      refine ⟨[.cancel d q.kind q.qhaddr p.qtdaddr], ?_, fun o => ?_⟩
      · simp [cancelPackets, cancelPacket, ht, hd, Queue.freePacket, hq, dropPacket_head, State.emit]
      · constructor
        · intro h; exact ⟨p, d, by simp, ht, hd, by simpa using h⟩
        · rintro ⟨p', d', h1, -, h3, rfl⟩
          rw [hd] at h3; cases h3
          rw [List.mem_singleton.1 h1]; simp
    · refine ⟨[], ?_, fun o => ?_⟩
      · simp [cancelPackets, cancelPacket, ht, Queue.freePacket, hq, dropPacket_head]
      · constructor
        · intro h; cases h
        · rintro ⟨p', d', h1, h2, -⟩
          rw [List.mem_singleton.1 h1] at h2
          exact absurd h2 ht

theorem reverse_short {α : Type} {l : List α} (h : l.length ≤ 1) : l.reverse = l := by
  match l, h with
  | [], _ => rfl
  | [_], _ => rfl

/-- `reset_queue` on a good Queue: no Packet is left, no device, and the cancels are those of the Packets in flight. -/
theorem resetQueue_good {q : Queue} (s : State) (hl : q.packets.length ≤ 1)
    (hp : ∀ p ∈ q.packets, packetOk q.dev p = true) :
    ∃ cs, resetQueue q s = .ok ({ q with packets := [], dev := none }, { s with outbox := cs ++ s.outbox }) ∧
      ∀ o, o ∈ cs ↔ ∃ p d, p ∈ q.packets ∧ p.tag = .inflight ∧ q.dev = some d ∧
        o = .cancel d q.kind q.qhaddr p.qtdaddr := by
  obtain ⟨cs, h1, h2⟩ := cancelPackets_good s hl hp
  refine ⟨cs, ?_, h2⟩
  rw [resetQueue, reverse_short hl, h1]

/-! ### Freeing (R251) -/

/-- All that freeing and reaping can change: the outbox, the caches, and the references to the current Queue. -/
def Reaped (s t : State) : Prop :=
  t = { s with
    outbox := t.outbox
    async := { s.async with cache := t.async.cache, curQueue := t.async.curQueue }
    periodic := { s.periodic with cache := t.periodic.cache, curQueue := t.periodic.curQueue } }

theorem Reaped.refl (s : State) : Reaped s s := rfl

theorem Reaped.trans {s t u : State} (h1 : Reaped s t) (h2 : Reaped t u) : Reaped s u := by
  unfold Reaped at h1 h2 ⊢
  rw [h2, h1]

theorem Reaped.cur {s : State} (k : Sched) (u : Option Word) : Reaped s (s.setCur k u) := by cases k <;> rfl

theorem Reaped.cache {s : State} (k : Sched) (c : List Queue) : Reaped s (s.setCache k c) := by cases k <;> rfl

theorem Reaped.outbox {s : State} (o : List Output) : Reaped s { s with outbox := o } := rfl

theorem freeQueue_frame {q : Queue} {s t : State} (h : freeQueue q s = .ok t) : Reaped s t := by
  simp only [freeQueue] at h
  split at h
  · cases h
  · rename_i q1 s1 h1
    obtain ⟨-, cs, rfl⟩ := resetQueue_frame h1
    refine (Reaped.outbox (cs ++ s.outbox)).trans ?_
    split at h
    · cases h; exact (Reaped.cache _ _).trans (Reaped.cur _ _)
    · cases h; exact Reaped.cache _ _

theorem freeQueues_frame {sel : Queue → Bool} {l : List Queue} {s t : State} (h : freeQueues sel l s = .ok t) :
    Reaped s t := by
  induction l generalizing s with
  | nil => cases h; exact Reaped.refl _
  | cons q l ih =>
    simp only [freeQueues] at h
    split at h
    · split at h
      · cases h
      · exact (freeQueue_frame ‹_›).trans (ih h)
    · exact ih h

theorem reapAll_frame {k : Sched} {s t : State} (h : reapAll k s = .ok t) : Reaped s t := freeQueues_frame h

theorem reapUnseen_frame {s t : State} (h : reapUnseen s = .ok t) : Reaped s t := freeQueues_frame h

theorem reapDevice_frame {d : DevRef} {s t : State} (h : reapDevice d s = .ok t) : Reaped s t := by
  simp only [reapDevice] at h
  split at h
  · cases h
  · exact (freeQueues_frame ‹_›).trans (freeQueues_frame h)

theorem reapUnusedList_frame {l : List Queue} {s t : State} (h : reapUnusedList l s = .ok t) : Reaped s t := by
  induction l generalizing s with
  | nil => cases h; exact Reaped.refl _
  | cons q l ih =>
    simp only [reapUnusedList] at h
    split at h
    · exact Reaped.trans (Reaped.cache _ _) (ih h)
    · split at h
      · split at h
        · cases h
        · exact (freeQueue_frame ‹_›).trans (ih h)
      · exact ih h

theorem reapUnused_frame {k : Sched} {s t : State} (h : reapUnused k s = .ok t) : Reaped s t := reapUnusedList_frame h

/-- The reference to the current Queue, kept where a cache still holds that Queue. -/
def keptCur (cur : Option Word) (c : List Queue) : Option Word := cur.filter fun a => (cacheFind c a).isSome

theorem keptCur_cases (cur : Option Word) (c : List Queue) : keptCur cur c = none ∨ keptCur cur c = cur := by
  cases cur with
  | none => exact .inl rfl
  | some a =>
    cases h : (cacheFind c a).isSome
    · exact .inl (by simp [keptCur, Option.filter, h])
    · exact .inr (by simp [keptCur, Option.filter, h])

theorem keptCur_self {ctr : Nat} {k : Sched} {r : SchedRegs} (h : schedOk ctr k r = true) :
    keptCur r.curQueue r.cache = r.curQueue := by
  cases hc : r.curQueue with
  | none => rfl
  | some a =>
    obtain ⟨q, hq⟩ := (schedOk_iff.1 h).2.2 a hc
    simp [keptCur, Option.filter, hq]

/-- A cache with fewer keys keeps less: what it still holds the other one held. -/
theorem keptCur_of_keys {cur : Option Word} {c d : List Queue}
    (hd : ∀ a q, cacheFind d a = some q → (cacheFind c a).isSome = true) : keptCur (keptCur cur c) d = keptCur cur d := by
  cases cur with
  | none => rfl
  | some a =>
    cases h : cacheFind d a with
    | none => cases h' : (cacheFind c a).isSome <;> simp [keptCur, Option.filter, h, h']
    | some q => simp [keptCur, Option.filter, h, hd a q h]

/-- A smaller cache keeps less. -/
theorem keptCur_keptCur {cur : Option Word} {c d : List Queue} (hc : cacheRising c = true) (hd : ∀ r ∈ d, r ∈ c) :
    keptCur (keptCur cur c) d = keptCur cur d :=
  keptCur_of_keys fun a q h => by
    obtain ⟨hm, he⟩ := cacheFind_some h
    have := cacheFind_of_mem hc (hd q hm)
    rw [he] at this
    rw [this]; rfl

/-- `free_queue` on a Queue of a good schedule: it leaves the map, it is no longer current, and the cancels are those of
its Packets in flight. -/
theorem freeQueue_good {s : State} {k : Sched} (h : schedOk s.uframeCtr k (s.sched k) = true) {q : Queue}
    (hq : q ∈ (s.sched k).cache) :
    ∃ cs u, freeQueue q s = .ok ({ s with outbox := cs ++ s.outbox }.setSched k
        { s.sched k with cache := cacheErase (s.sched k).cache q.qhaddr, curQueue := u }) ∧
      u = keptCur (s.sched k).curQueue (cacheErase (s.sched k).cache q.qhaddr) ∧
      schedOk s.uframeCtr k { s.sched k with cache := cacheErase (s.sched k).cache q.qhaddr, curQueue := u } = true ∧
      ∀ o, o ∈ cs ↔ ∃ p d, p ∈ q.packets ∧ p.tag = .inflight ∧ q.dev = some d ∧
        o = .cancel d k q.qhaddr p.qtdaddr := by
  obtain ⟨h1, h2, h3⟩ := schedOk_iff.1 h
  obtain ⟨e1, -, e3, -, e5⟩ := queueOk_iff.1 (h2 q hq)
  obtain ⟨cs, hr, hcs⟩ := resetQueue_good s e3 e5
  have hgood : ∀ u, (∀ a, u = some a → a ≠ q.qhaddr ∧ (s.sched k).curQueue = some a) →
      schedOk s.uframeCtr k { s.sched k with cache := cacheErase (s.sched k).cache q.qhaddr, curQueue := u } = true := by
    intro u hu
    rw [schedOk_iff]
    refine ⟨cacheErase_rising h1 _, fun r hr => h2 r (mem_of_mem_cacheErase hr), fun a ha => ?_⟩
    obtain ⟨hne, hc⟩ := hu a ha
    obtain ⟨r, hr⟩ := h3 a hc
    exact ⟨r, by rw [cacheFind_cacheErase h1, if_neg hne, hr]⟩
  rw [e1] at hcs
  simp only [freeQueue, hr, e1]
  have hs : ({ s with outbox := cs ++ s.outbox } : State).sched k = s.sched k := by cases k <;> rfl
  by_cases hcur : (s.sched k).curQueue = some q.qhaddr
  · have hk : keptCur (s.sched k).curQueue (cacheErase (s.sched k).cache q.qhaddr) = none := by
      simp [keptCur, hcur, Option.filter, cacheFind_cacheErase h1]
    refine ⟨cs, none, ?_, hk.symm, hgood none (by simp), hcs⟩
    have hc : ((({ s with outbox := cs ++ s.outbox } : State).setCache k
        (cacheErase (({ s with outbox := cs ++ s.outbox } : State).sched k).cache q.qhaddr)).sched k).curQueue =
        some q.qhaddr := by rw [State.setCache_sched, hs]; exact hcur
    rw [if_pos hc]
    cases k <;> rfl
  · have hk : keptCur (s.sched k).curQueue (cacheErase (s.sched k).cache q.qhaddr) = (s.sched k).curQueue := by
      cases hc : (s.sched k).curQueue with
      | none => rfl
      | some a =>
        obtain ⟨r, hr'⟩ := h3 a hc
        have hne : a ≠ q.qhaddr := fun e => hcur (by rw [hc, e])
        simp [keptCur, Option.filter, cacheFind_cacheErase h1, hne, hr']
    refine ⟨cs, (s.sched k).curQueue, ?_, hk.symm, hgood _ fun a ha => ⟨fun e => hcur (e ▸ ha), ha⟩, hcs⟩
    have hc : ¬ ((({ s with outbox := cs ++ s.outbox } : State).setCache k
        (cacheErase (({ s with outbox := cs ++ s.outbox } : State).sched k).cache q.qhaddr)).sched k).curQueue =
        some q.qhaddr := by rw [State.setCache_sched, hs]; exact hcur
    rw [if_neg hc]
    cases k <;> rfl

/-- Freeing the selected Queues of a list of a good schedule's Queues, keys rising: no fault; those are gone and the rest
stays; the cancels are those of their Packets in flight. -/
theorem freeQueues_good (sel : Queue → Bool) {k : Sched} {l : List Queue} {s : State}
    (h : schedOk s.uframeCtr k (s.sched k) = true) (hl : ∀ q ∈ l, q ∈ (s.sched k).cache) (hr : cacheRising l = true) :
    ∃ cs c u, freeQueues sel l s =
        .ok ({ s with outbox := cs ++ s.outbox }.setSched k { s.sched k with cache := c, curQueue := u }) ∧
      schedOk s.uframeCtr k { s.sched k with cache := c, curQueue := u } = true ∧
      u = keptCur (s.sched k).curQueue c ∧
      (∀ r, r ∈ c ↔ r ∈ (s.sched k).cache ∧ ¬ (r ∈ l ∧ sel r = true)) ∧
      ∀ o, o ∈ cs ↔ ∃ q p d, q ∈ l ∧ sel q = true ∧ p ∈ q.packets ∧ p.tag = .inflight ∧ q.dev = some d ∧
        o = .cancel d k q.qhaddr p.qtdaddr := by
  induction l generalizing s with
  | nil =>
    refine ⟨[], (s.sched k).cache, (s.sched k).curQueue, ?_, h, (keptCur_self h).symm, by simp, by simp⟩
    simp [freeQueues]
    cases k <;> rfl
  | cons q l ih =>
    obtain ⟨hlt, hrl⟩ := (cacheRising_cons q l).1 hr
    simp only [freeQueues]
    by_cases hsel : sel q = true
    · rw [if_pos hsel]
      obtain ⟨cs1, u1, e1, hu1, g1, ho1⟩ := freeQueue_good h (hl q (by simp))
      rw [e1]
      set s1 := ({ s with outbox := cs1 ++ s.outbox } : State).setSched k
        { s.sched k with cache := cacheErase (s.sched k).cache q.qhaddr, curQueue := u1 } with hs1
      have hsk : s1.sched k = { s.sched k with cache := cacheErase (s.sched k).cache q.qhaddr, curQueue := u1 } := by
        rw [hs1, State.setSched_sched]
      have hctr : s1.uframeCtr = s.uframeCtr := by rw [hs1, State.setSched_uframeCtr]
      have hout : s1.outbox = cs1 ++ s.outbox := by rw [hs1, State.setSched_outbox]
      have hrc := (schedOk_iff.1 h).1
      have hl1 : ∀ r ∈ l, r ∈ (s1.sched k).cache := by
        intro r hrl'
        rw [hsk, mem_cacheErase_iff hrc]
        refine ⟨hl r (by simp [hrl']), fun e => ?_⟩
        have := hlt r hrl'
        rw [e] at this; omega
      obtain ⟨cs2, c2, u2, e2, g2, hu2, hm2, ho2⟩ := ih (s := s1) (by rw [hctr, hsk]; exact g1) hl1 hrl
      refine ⟨cs2 ++ cs1, c2, u2, ?_, ?_, ?_, fun r => ?_, fun o => ?_⟩
      · simp only [e2]
        rw [hsk]
        simp only [hs1, State.setSched_outbox, List.append_assoc]
        cases k <;> rfl
      · rw [hctr, hsk] at g2; exact g2
      · rw [hsk, hu1] at hu2
        rw [hu2]
        exact keptCur_keptCur (cacheErase_rising hrc _) fun r hr => by
          have := ((hm2 r).1 hr).1
          rw [hsk] at this; exact this
      · rw [hm2, hsk, mem_cacheErase_iff hrc]
        constructor
        · rintro ⟨⟨ha, hb⟩, hc⟩
          refine ⟨ha, ?_⟩
          rintro ⟨hd, he⟩
          rcases List.mem_cons.1 hd with rfl | hd
          · exact hb rfl
          · exact hc ⟨hd, he⟩
        · rintro ⟨ha, hb⟩
          refine ⟨⟨ha, fun e => ?_⟩, fun hc => hb ⟨by simp [hc.1], hc.2⟩⟩
          have h1 := cacheFind_of_mem hrc ha
          have h2 := cacheFind_of_mem hrc (hl q (by simp))
          rw [e, h2] at h1
          cases h1
          exact hb ⟨by simp, hsel⟩
      · rw [List.mem_append, ho2, ho1]
        constructor
        · rintro (⟨q', p, d, h1, h2⟩ | ⟨p, d, h1⟩)
          · exact ⟨q', p, d, by simp [h1], h2⟩
          · exact ⟨q, p, d, by simp, hsel, h1⟩
        · rintro ⟨q', p, d, h1, h2, h3⟩
          rcases List.mem_cons.1 h1 with rfl | h1
          · exact .inr ⟨p, d, h3⟩
          · exact .inl ⟨q', p, d, h1, h2, h3⟩
    · rw [if_neg hsel]
      obtain ⟨cs, c, u, e, g, hu, hm, ho⟩ := ih h (fun r hr' => hl r (by simp [hr'])) hrl
      refine ⟨cs, c, u, e, g, hu, fun r => ?_, fun o => ?_⟩
      · rw [hm]
        constructor
        · rintro ⟨ha, hb⟩
          refine ⟨ha, ?_⟩
          rintro ⟨hc, hd⟩
          rcases List.mem_cons.1 hc with rfl | hc
          · exact hsel hd
          · exact hb ⟨hc, hd⟩
        · rintro ⟨ha, hb⟩
          exact ⟨ha, fun hc => hb ⟨by simp [hc.1], hc.2⟩⟩
      · rw [ho]
        constructor
        · rintro ⟨q', p, d, h1, h2⟩
          exact ⟨q', p, d, by simp [h1], h2⟩
        · rintro ⟨q', p, d, h1, h2, h3⟩
          rcases List.mem_cons.1 h1 with rfl | h1
          · exact absurd h2 hsel
          · exact ⟨q', p, d, h1, h2, h3⟩

end Sys2Proof.Machine
end

