-- ==== Sys2Proof/Laws/Reset.lean ====
section
/-! SUPPORT. What reaping a schedule (R246, R247, R249, R250), the controller reset (R583) and the Fatal (R530) do to a good
state. -/

namespace Sys2Proof.Machine

/-- The cancels that freeing the selected Queues of schedule k gives out. -/
def Cancelled (s : State) (k : Sched) (sel : Queue → Bool) (o : Output) : Prop :=
  ∃ q p d, q ∈ (s.sched k).cache ∧ sel q = true ∧ p ∈ q.packets ∧ p.tag = .inflight ∧ q.dev = some d ∧
    o = .cancel d k q.qhaddr p.qtdaddr

/-- Freeing the selected Queues of a good schedule. -/
theorem reapSel_good (sel : Queue → Bool) {k : Sched} {s : State} (h : schedOk s.uframeCtr k (s.sched k) = true) :
    ∃ cs c u, freeQueues sel (s.sched k).cache s =
        .ok ({ s with outbox := cs ++ s.outbox }.setSched k { s.sched k with cache := c, curQueue := u }) ∧
      schedOk s.uframeCtr k { s.sched k with cache := c, curQueue := u } = true ∧
      u = keptCur (s.sched k).curQueue c ∧
      (∀ r, r ∈ c ↔ r ∈ (s.sched k).cache ∧ sel r = false) ∧
      ∀ o, o ∈ cs ↔ Cancelled s k sel o := by
  obtain ⟨cs, c, u, e, g, hu, hm, ho⟩ := freeQueues_good sel h (fun q hq => hq) (schedOk_iff.1 h).1
  refine ⟨cs, c, u, e, g, hu, fun r => ?_, ho⟩
  rw [hm]
  cases sel r <;> simp +contextual

/-- A Queue looked up after freeing the selected ones. -/
theorem reapSel_find {k : Sched} {s : State} {sel : Queue → Bool} {c : List Queue} {u : Option Word}
    (h : schedOk s.uframeCtr k (s.sched k) = true)
    (g : schedOk s.uframeCtr k { s.sched k with cache := c, curQueue := u } = true)
    (hm : ∀ r, r ∈ c ↔ r ∈ (s.sched k).cache ∧ sel r = false) (a : Word) :
    cacheFind c a = (cacheFind (s.sched k).cache a).filter fun q => !sel q := by
  have hd : cacheRising c = true := (schedOk_iff.1 g).1
  cases hf : cacheFind (s.sched k).cache a with
  | none =>
    rw [cacheFind_eq_none] at hf
    exact cacheFind_eq_none.2 fun q hq => hf q ((hm q).1 hq).1
  | some r =>
    obtain ⟨h1, h2⟩ := cacheFind_some hf
    cases hs : sel r with
    | false =>
      have := cacheFind_of_mem hd ((hm r).2 ⟨h1, hs⟩)
      rw [h2] at this
      simp [this, Option.filter, hs]
    | true =>
      rw [show (some r).filter (fun q => !sel q) = none by simp [Option.filter, hs], cacheFind_eq_none]
      intro q hq he
      have := cacheFind_of_mem (schedOk_iff.1 h).1 ((hm q).1 hq).1
      rw [he, hf] at this
      cases this
      rw [((hm r).1 hq).2] at hs; cases hs

/-- `reap_all` (R250): the cache is empty, nothing is current. -/
theorem reapAll_good {k : Sched} {s : State} (h : schedOk s.uframeCtr k (s.sched k) = true) :
    ∃ cs, reapAll k s = .ok ({ s with outbox := cs ++ s.outbox }.setSched k
        { s.sched k with cache := [], curQueue := none }) ∧
      ∀ o, o ∈ cs ↔ Cancelled s k (fun _ => true) o := by
  obtain ⟨cs, c, u, e, g, hu, hm, ho⟩ := reapSel_good (fun _ => true) h
  have hc : c = [] := List.eq_nil_iff_forall_not_mem.2 fun r hr => by
    have := ((hm r).1 hr).2
    cases this
  subst hc
  have hu' : u = none := by
    cases u with
    | none => rfl
    | some a =>
      obtain ⟨q, hq⟩ := (schedOk_iff.1 g).2.2 a rfl
      cases hq
  subst hu'
  exact ⟨cs, e, ho⟩

theorem Inv_iff {s : State} : Inv s = true ↔ Memory.wf s.mem = true ∧ regsOk s = true ∧
    schedOk s.uframeCtr .async s.async = true ∧ schedOk s.uframeCtr .periodic s.periodic = true := by
  simp [Inv, and_assoc]

theorem inv_sched {s : State} (h : Inv s = true) (k : Sched) : schedOk s.uframeCtr k (s.sched k) = true := by
  obtain ⟨-, -, h1, h2⟩ := Inv_iff.1 h
  cases k
  · exact h1
  · exact h2

theorem cancelOf_iff {s : State} {o : Output} : CancelOf s o ↔
    Cancelled s .async (fun _ => true) o ∨ Cancelled s .periodic (fun _ => true) o := by
  constructor
  · rintro ⟨k, q, p, d, h1, h2, h3, h4, h5⟩
    cases k
    · exact .inl ⟨q, p, d, h1, rfl, h2, h3, h4, h5⟩
    · exact .inr ⟨q, p, d, h1, rfl, h2, h3, h4, h5⟩
  · rintro (⟨q, p, d, h1, -, h2, h3, h4, h5⟩ | ⟨q, p, d, h1, -, h2, h3, h4, h5⟩)
    · exact ⟨_, q, p, d, h1, h2, h3, h4, h5⟩
    · exact ⟨_, q, p, d, h1, h2, h3, h4, h5⟩

/-- `controller_reset()` (R583) of a good state. -/
theorem controllerReset_good {s : State} (h : Inv s = true) : ∃ t, controllerReset s = .ok t ∧ ResetTo s t := by
  obtain ⟨cs1, e1, h1⟩ := reapAll_good (inv_sched h .async)
  set s1 := ({ s with outbox := cs1 ++ s.outbox } : State).setSched .async
    { s.sched .async with cache := [], curQueue := none } with hs1
  have hp : s1.sched .periodic = s.periodic := rfl
  obtain ⟨cs2, e2, h2⟩ := reapAll_good (k := .periodic) (s := s1) (inv_sched h .periodic)
  have e : controllerReset s = .ok ((({ s1 with outbox := cs2 ++ s1.outbox } : State).setSched .periodic
      { s1.sched .periodic with cache := [], curQueue := none }).resetRegisters.emit .portReset) := by
    simp only [controllerReset, e1, e2]
  refine ⟨_, e, rfl, cs2 ++ cs1, ?_, ?_⟩
  · show Output.portReset :: (cs2 ++ (cs1 ++ s.outbox)) = _
    rw [List.append_assoc]
  · intro o
    rw [List.mem_append, h1, h2, cancelOf_iff, or_comm]
    exact Iff.rfl

/-- A Fatal (R530) taken in a good state leaves what the controller reset leaves. -/
theorem takeFatal_good (r : FatalReason) {s : State} (h : Inv s = true) :
    ∃ t, outcome (takeFatal r s) = .next t ∧ ResetTo s t := by
  obtain ⟨t, e, ht⟩ := controllerReset_good h
  exact ⟨t, by simp only [takeFatal, e, outcome], ht⟩

/-- The state a controller reset leaves is good. -/
theorem ResetTo.inv {s t : State} (h : ResetTo s t) (hs : Inv s = true) : Inv t = true := by
  obtain ⟨hm, -, -, -⟩ := Inv_iff.1 hs
  have h1 := h.1
  have e1 : t.mem = s.mem := by have h := congrArg State.mem h1; exact h
  have e2 : t.async = ⟨.inactive, 0, none, 0, []⟩ := by have h := congrArg State.async h1; exact h
  have e3 : t.periodic = ⟨.inactive, 0, none, 0, []⟩ := by have h := congrArg State.periodic h1; exact h
  have e4 : t.periodicListBase = 0 := by have h := congrArg State.periodicListBase h1; exact h
  have e5 : t.asyncListAddr = 0 := by have h := congrArg State.asyncListAddr h1; exact h
  rw [Inv_iff, e1, e2, e3]
  refine ⟨hm, ?_, rfl, rfl⟩
  rw [regsOk, e4, e5]; rfl

/-- What `reap_unused` leaves of a Queue (R246): seen, it stays with its mark cleared; unseen, it stays unless it is too
old. -/
def agedQueue (s : State) (q : Queue) : Option Queue :=
  if q.seen then some { q with seen := false } else if tooOld s q then none else some q

/-- `reap_unused` over a list of a good schedule's Queues (R246): no fault; the Queues of the list are aged, the current
one stays current where it is kept, and the cancels are those of the freed Queues. -/
theorem reapUnusedList_good {k : Sched} {l : List Queue} {s : State}
    (h : schedOk s.uframeCtr k (s.sched k) = true) (hl : ∀ q ∈ l, q ∈ (s.sched k).cache) (hr : cacheRising l = true) :
    ∃ cs c u, reapUnusedList l s =
        .ok ({ s with outbox := cs ++ s.outbox }.setSched k { s.sched k with cache := c, curQueue := u }) ∧
      schedOk s.uframeCtr k { s.sched k with cache := c, curQueue := u } = true ∧
      u = keptCur (s.sched k).curQueue c ∧
      (∀ a, cacheFind c a = (cacheFind (s.sched k).cache a).bind fun q => if q ∈ l then agedQueue s q else some q) ∧
      ∀ o, o ∈ cs ↔ ∃ q p d, q ∈ l ∧ q.seen = false ∧ tooOld s q = true ∧ p ∈ q.packets ∧ p.tag = .inflight ∧
        q.dev = some d ∧ o = .cancel d k q.qhaddr p.qtdaddr := by
  induction l generalizing s with
  | nil =>
    refine ⟨[], (s.sched k).cache, (s.sched k).curQueue, ?_, h, (keptCur_self h).symm, by simp, by simp⟩
    simp only [reapUnusedList]
    cases k <;> rfl
  | cons q l ih =>
    obtain ⟨hlt, hrl⟩ := (cacheRising_cons q l).1 hr
    obtain ⟨h1, h2, h3⟩ := schedOk_iff.1 h
    have hqc := hl q (by simp)
    have hqok := h2 q hqc
    have hkind := (queueOk_iff.1 hqok).1
    have hne : ∀ r ∈ l, r.qhaddr ≠ q.qhaddr := fun r hr' e => by
      have := hlt r hr'
      rw [e] at this; omega
    have hql : q ∉ l := fun hm => hne q hm rfl
    have hfq := cacheFind_of_mem h1 hqc
    have hfne : ∀ {a r}, a ≠ q.qhaddr → cacheFind (s.sched k).cache a = some r → r ≠ q := fun ha hf e =>
      ha (by rw [← (cacheFind_some hf).2, e])
    simp only [reapUnusedList]
    by_cases hseen : q.seen = true
    · rw [if_pos hseen]
      have hput : s.putQueue { q with seen := false } =
          s.setSched k { s.sched k with cache := cachePut (s.sched k).cache { q with seen := false } } := by
        rw [State.putQueue, hkind]; rfl
      rw [hput]
      set s1 := s.setSched k { s.sched k with cache := cachePut (s.sched k).cache { q with seen := false } } with hs1
      have hsk : s1.sched k = { s.sched k with cache := cachePut (s.sched k).cache { q with seen := false } } := by
        rw [hs1, State.setSched_sched]
      have hctr : s1.uframeCtr = s.uframeCtr := by rw [hs1, State.setSched_uframeCtr]
      have hpar : s1.params = s.params := by rw [hs1, State.setSched_params]
      have hold : ∀ r, tooOld s1 r = tooOld s r := fun r => by rw [tooOld, tooOld, hctr, hpar]
      have hl1 : ∀ r ∈ l, r ∈ (s1.sched k).cache := fun r hr' => by
        rw [hsk]
        exact (mem_cachePut_iff h1).2 (.inr ⟨hl r (by simp [hr']), hne r hr'⟩)
      obtain ⟨cs, c, u, e, g, hu, hf, ho⟩ := ih (s := s1) (by
        rw [hctr, hsk]
        exact schedOk_put h (by rw [queueOk_iff] at hqok ⊢; exact hqok)) hl1 hrl
      refine ⟨cs, c, u, ?_, ?_, ?_, fun a => ?_, fun o => ?_⟩
      · rw [e, hsk]; simp only [hs1, State.setSched_outbox]; cases k <;> rfl
      · rw [hctr, hsk] at g; exact g
      · rw [hsk] at hu; exact hu
      · rw [hf, hsk, cacheFind_cachePut]
        by_cases ha : a = q.qhaddr
        · have hnl : ({ q with seen := false } : Queue) ∉ l := fun hm => hne _ hm rfl
          rw [if_pos ha, ha, hfq, Option.bind_some, Option.bind_some, if_neg hnl, if_pos (by simp), agedQueue,
            if_pos hseen]
        · rw [if_neg ha]
          cases hr : cacheFind (s.sched k).cache a with
          | none => rfl
          | some r => simp only [Option.bind_some, List.mem_cons, hfne ha hr, false_or, agedQueue, hold]
      · rw [ho]
        simp only [hold, List.mem_cons]
        constructor
        · rintro ⟨r, p, d, h1, h2⟩; exact ⟨r, p, d, .inr h1, h2⟩
        · rintro ⟨r, p, d, rfl | h1, h2, h3⟩
          · rw [hseen] at h2; cases h2
          · exact ⟨r, p, d, h1, h2, h3⟩
    · rw [if_neg hseen]
      by_cases hto : tooOld s q = true
      · rw [if_pos hto]
        obtain ⟨cs1, u1, e1, hu1, g1, ho1⟩ := freeQueue_good h hqc
        rw [e1]
        set s1 := ({ s with outbox := cs1 ++ s.outbox } : State).setSched k
          { s.sched k with cache := cacheErase (s.sched k).cache q.qhaddr, curQueue := u1 } with hs1
        have hsk : s1.sched k = { s.sched k with cache := cacheErase (s.sched k).cache q.qhaddr, curQueue := u1 } := by
          rw [hs1, State.setSched_sched]
        have hctr : s1.uframeCtr = s.uframeCtr := by rw [hs1, State.setSched_uframeCtr]
        have hpar : s1.params = s.params := by rw [hs1, State.setSched_params]
        have hold : ∀ r, tooOld s1 r = tooOld s r := fun r => by rw [tooOld, tooOld, hctr, hpar]
        have hl1 : ∀ r ∈ l, r ∈ (s1.sched k).cache := fun r hr' => by
          rw [hsk, mem_cacheErase_iff h1]
          exact ⟨hl r (by simp [hr']), hne r hr'⟩
        obtain ⟨cs2, c2, u2, e2, g2, hu2, hf2, ho2⟩ := ih (s := s1) (by rw [hctr, hsk]; exact g1) hl1 hrl
        rw [hsk] at hf2 hu2
        refine ⟨cs2 ++ cs1, c2, u2, ?_, ?_, ?_, fun a => ?_, fun o => ?_⟩
        · simp only [e2]
          rw [hsk]
          simp only [hs1, State.setSched_outbox, List.append_assoc]
          cases k <;> rfl
        · rw [hctr, hsk] at g2; exact g2
        · rw [hu2, hu1]
          refine keptCur_of_keys fun a r hr => ?_
          rw [hf2] at hr
          obtain ⟨x, hx, -⟩ := Option.bind_eq_some_iff.1 hr
          exact Option.isSome_iff_exists.2 ⟨x, hx⟩
        · rw [hf2, cacheFind_cacheErase h1]
          by_cases ha : a = q.qhaddr
          · rw [if_pos ha, ha, hfq, Option.bind_none, Option.bind_some, if_pos (by simp), agedQueue, if_neg hseen,
              if_pos hto]
          · rw [if_neg ha]
            cases hr : cacheFind (s.sched k).cache a with
            | none => rfl
            | some r => simp only [Option.bind_some, List.mem_cons, hfne ha hr, false_or, agedQueue, hold]
        · rw [List.mem_append, ho2, ho1]
          simp only [hold, List.mem_cons]
          have hs0 : q.seen = false := by simpa using hseen
          constructor
          · rintro (⟨r, p, d, h1, h2⟩ | ⟨p, d, h1⟩)
            · exact ⟨r, p, d, .inr h1, h2⟩
            · exact ⟨q, p, d, .inl rfl, hs0, hto, h1⟩
          · rintro ⟨r, p, d, rfl | h1, h2, h3, h4⟩
            · exact .inr ⟨p, d, h4⟩
            · exact .inl ⟨r, p, d, h1, h2, h3, h4⟩
      · rw [if_neg hto]
        obtain ⟨cs, c, u, e, g, hu, hf, ho⟩ := ih h (fun r hr' => hl r (by simp [hr'])) hrl
        refine ⟨cs, c, u, e, g, hu, fun a => ?_, fun o => ?_⟩
        · rw [hf]
          by_cases ha : a = q.qhaddr
          · rw [ha, hfq, Option.bind_some, Option.bind_some, if_neg hql, if_pos (by simp), agedQueue, if_neg hseen,
              if_neg hto]
          · cases hr : cacheFind (s.sched k).cache a with
            | none => rfl
            | some r => simp only [Option.bind_some, List.mem_cons, hfne ha hr, false_or]
        rw [ho]
        simp only [List.mem_cons]
        constructor
        · rintro ⟨r, p, d, h1, h2⟩; exact ⟨r, p, d, .inr h1, h2⟩
        · rintro ⟨r, p, d, rfl | h1, h2, h3, h4⟩
          · exact absurd h3 hto
          · exact ⟨r, p, d, h1, h2, h3, h4⟩

/-- `reap_unused` (R246) of a good schedule: no fault, the schedule stays good, every Queue is aged, the current one stays
current where it is kept, and the cancels are those of the freed Queues. -/
theorem reapUnused_good {k : Sched} {s : State} (h : schedOk s.uframeCtr k (s.sched k) = true) :
    ∃ cs c u, reapUnused k s =
        .ok ({ s with outbox := cs ++ s.outbox }.setSched k { s.sched k with cache := c, curQueue := u }) ∧
      schedOk s.uframeCtr k { s.sched k with cache := c, curQueue := u } = true ∧
      u = keptCur (s.sched k).curQueue c ∧
      (∀ a, cacheFind c a = (cacheFind (s.sched k).cache a).bind (agedQueue s)) ∧
      ∀ o, o ∈ cs ↔ Cancelled s k (fun q => !q.seen && tooOld s q) o := by
  obtain ⟨cs, c, u, e, g, hu, hf, ho⟩ := reapUnusedList_good h (fun q hq => hq) (schedOk_iff.1 h).1
  refine ⟨cs, c, u, e, g, hu, fun a => ?_, fun o => ?_⟩
  · rw [hf]
    cases hr : cacheFind (s.sched k).cache a with
    | none => rfl
    | some r => rw [Option.bind_some, Option.bind_some, if_pos (cacheFind_some hr).1]
  · rw [ho]
    simp only [Cancelled, Bool.and_eq_true, Bool.not_eq_true', and_assoc]

end Sys2Proof.Machine
end

