-- ==== Sys2Proof/Laws/Walk.lean ====
section
/-! SUPPORT. What a step of the walk of one schedule can change, in any state: it leaves the guest's registers, the timer
and the other automaton alone. -/

namespace Sys2Proof.Machine

/-- The interrupt bits no step of a walk raises: PCD, FLR, HSE, IAA (R534). -/
def walkQuietBits : BitVec 6 := 0b111100#6

/-- What a step of schedule k's walk leaves alone. -/
structure Walked (k : Sched) (s t : State) : Prop where
  params : t.params = s.params
  usbcmd : t.usbcmd = s.usbcmd
  usbsts : t.usbsts = s.usbsts
  usbintr : t.usbintr = s.usbintr
  frindex : t.frindex = s.frindex
  periodicListBase : t.periodicListBase = s.periodicListBase
  asyncListAddr : t.asyncListAddr = s.asyncListAddr
  nextCommit : t.nextCommit = s.nextCommit
  uframeCtr : t.uframeCtr = s.uframeCtr
  lastRunUs : t.lastRunUs = s.lastRunUs
  lastTickUs : t.lastTickUs = s.lastTickUs
  inEntry : t.inEntry = s.inEntry
  devices : t.devices = s.devices
  inbox : t.inbox = s.inbox
  pending : t.usbstsPending &&& walkQuietBits = s.usbstsPending &&& walkQuietBits
  otherAuto : ∀ k', k' ≠ k → (t.sched k').auto = (s.sched k').auto
  otherFetch : ∀ k', k' ≠ k → (t.sched k').fetchAddr = (s.sched k').fetchAddr

namespace Walked

variable {k : Sched} {s t u : State}

theorem refl (k : Sched) (s : State) : Walked k s s :=
  ⟨rfl, rfl, rfl, rfl, rfl, rfl, rfl, rfl, rfl, rfl, rfl, rfl, rfl, rfl, rfl, fun _ _ => rfl, fun _ _ => rfl⟩

theorem trans (h1 : Walked k s t) (h2 : Walked k t u) : Walked k s u :=
  ⟨h2.params.trans h1.params, h2.usbcmd.trans h1.usbcmd, h2.usbsts.trans h1.usbsts, h2.usbintr.trans h1.usbintr,
    h2.frindex.trans h1.frindex, h2.periodicListBase.trans h1.periodicListBase,
    h2.asyncListAddr.trans h1.asyncListAddr, h2.nextCommit.trans h1.nextCommit, h2.uframeCtr.trans h1.uframeCtr,
    h2.lastRunUs.trans h1.lastRunUs, h2.lastTickUs.trans h1.lastTickUs,
    h2.inEntry.trans h1.inEntry, h2.devices.trans h1.devices,
    h2.inbox.trans h1.inbox, h2.pending.trans h1.pending,
    fun k' hk => (h2.otherAuto k' hk).trans (h1.otherAuto k' hk),
    fun k' hk => (h2.otherFetch k' hk).trans (h1.otherFetch k' hk)⟩

/-! ### The updates a step is made of -/

theorem setSched (r : SchedRegs) : Walked k s (s.setSched k r) := by
  constructor <;> first | (intro k' hk; rw [State.setSched_sched_ne _ _ hk]) | simp

theorem setAuto (x : AutoState) : Walked k s (s.setAuto k x) := setSched _
theorem setFetch (x : Word) : Walked k s (s.setFetch k x) := setSched _
theorem setCur (x : Option Word) : Walked k s (s.setCur k x) := setSched _
theorem setVisits (x : Nat) : Walked k s (s.setVisits k x) := setSched _

/-- A change of a cache alone, of either schedule. -/
theorem setCache (j : Sched) (c : List Queue) : Walked k s (s.setCache j c) := by
  have hs : ∀ k', ((s.setCache j c).sched k').auto = (s.sched k').auto ∧
      ((s.setCache j c).sched k').fetchAddr = (s.sched k').fetchAddr := by
    intro k'
    by_cases h : k' = j
    · subst h; simp
    · rw [State.setCache_sched_ne _ _ h]; exact ⟨rfl, rfl⟩
  constructor <;> first | exact fun k' _ => (hs k').1 | exact fun k' _ => (hs k').2 | simp

theorem putQueue (q : Queue) : Walked k s (s.putQueue q) := setCache _ _

theorem emit (o : Output) : Walked k s (s.emit o) := by constructor <;> simp
theorem setMem (m : Memory) : Walked k s (s.setMem m) := by constructor <;> simp
theorem setRecl (b : Bool) : Walked k s (s.setRecl b) := by constructor <;> simp
theorem reclIfAsync (j : Sched) : Walked k s (s.reclIfAsync j) := by constructor <;> simp
theorem outbox (o : List Output) : Walked k s { s with outbox := o } := by
  constructor <;> first | rfl | (intro k' _; cases k' <;> rfl)
theorem diag : Walked k s { s with diagEmitted := true } := by
  constructor <;> first | rfl | (intro k' _; cases k' <;> rfl)

theorem raiseIrq {b : IrqBit} (h : b = .usbint ∨ b = .usberrint) : Walked k s (s.raiseIrq b) := by
  rcases h with rfl | rfl
  all_goals
    constructor <;> first | rfl | (intro k' _; cases k' <;> rfl) | skip
    show (s.usbstsPending ||| _) &&& walkQuietBits = _
    generalize s.usbstsPending = x
    revert x; decide

/-! ### Operations -/

theorem resetQueue {q q' : Queue} (h : Machine.resetQueue q s = .ok (q', t)) : Walked k s t := by
  obtain ⟨-, cs, rfl⟩ := resetQueue_frame h
  exact outbox _

theorem cancelPackets {l : List Packet} {q q' : Queue} (h : Machine.cancelPackets l q s = .ok (q', t)) :
    Walked k s t := by
  obtain ⟨-, cs, rfl⟩ := cancelPackets_frame h
  exact outbox _

theorem deliver {c : Completion} (h : Machine.deliver c s = .ok t) : Walked k s t := by
  simp only [Machine.deliver] at h
  split at h
  · cases h
  · split at h
    · cases h
    · split_ifs at h
      cases h; exact putQueue _

theorem deliverAll {q : Queue} {p : Packet} {cs : List Completion} {r r' : Option DevAnswer}
    (h : Machine.deliverAll q p cs r s = .ok (r', t)) : Walked k s t := by
  induction cs generalizing r s with
  | nil => cases h; exact refl k _
  | cons c cs ih =>
    simp only [Machine.deliverAll] at h
    split at h
    · split at h
      · cases h
      · exact ih h
    · split at h
      · cases h
      · exact (deliver ‹_›).trans (ih h)

theorem nextAnswer : Walked k s s.nextAnswer.2 := by
  unfold State.nextAnswer
  split <;> constructor <;> first | rfl | (intro k' _; cases k' <;> rfl)

theorem answerFor {q : Queue} {p : Packet} {r : DevAnswer} (h : Machine.answerFor q p s = .ok (r, t)) :
    Walked k s t := by
  simp only [Machine.answerFor] at h
  split at h
  · cases h; exact refl k _
  · simp only [submit] at h
    split at h
    · cases h
    · cases h
      exact ((emit _).trans nextAnswer).trans (deliverAll ‹_›)

theorem afterAnswer (q : Queue) (p : Packet) (r : DevAnswer) : Walked k s (Machine.afterAnswer k q p r s) := by
  unfold Machine.afterAnswer
  split
  · exact (((putQueue _).trans (setMem _)).trans (reclIfAsync k)).trans (setAuto _)
  · exact (putQueue _).trans (setAuto _)

theorem successIrq (b : Bool) (w : Word) : Walked k s (Machine.successIrq b w s) := by
  unfold Machine.successIrq
  split
  · exact raiseIrq (.inl rfl)
  · exact refl k s

theorem resultSuccess {q q' : Queue} {p : Packet} {n : Nat} (h : Machine.resultSuccess q p n s = .ok (q', t)) :
    Walked k s t := by
  simp only [Machine.resultSuccess] at h
  split at h
  · split at h
    · cases h
    · cases h; exact (setMem _).trans (successIrq _ _)
  · cases h; exact successIrq _ _

theorem processResult {q q' : Queue} {p : Packet} {r : ResultTag} (h : Machine.processResult q p r s = .ok (q', t)) :
    Walked k s t := by
  cases r <;> simp only [Machine.processResult] at h
  · simp only [resultCounted] at h
    split at h
    · exact resultSuccess h
    · cases h; exact raiseIrq (.inr rfl)
  · cases h
  · cases h; exact raiseIrq (.inr rfl)
  · cases h; exact raiseIrq (.inr rfl)
  · cases h; exact raiseIrq (.inr rfl)
  · cases h; exact raiseIrq (.inr rfl)
  · cases h

/-! ### Steps -/

theorem linkStep {lp : Word} (h : Machine.linkStep k lp s = .ok t) : Walked k s t := by
  simp only [Machine.linkStep, linkItdStep, linkSitdStep, linkFstnStep] at h
  split_ifs at h
  · cases h; exact setAuto _
  · cases h; exact setAuto _
  · cases k <;> cases h; exact setAuto _
  · cases k <;> cases h; exact setAuto _

theorem boundExceeded : Walked k s (Machine.boundExceeded k s) := diag.trans (setAuto _)

theorem fetchEntry (h : Machine.fetchEntry k s = .ok t) : Walked k s t := by
  cases k <;> simp only [Machine.fetchEntry] at h
  · exact linkStep h
  · split at h
    · cases h; exact (setVisits _).trans boundExceeded
    · exact (setVisits _).trans (linkStep h)

theorem dispatchQh (q : Queue) : Walked k s (Machine.dispatchQh k q s) := by
  simp only [Machine.dispatchQh, haltedStep]
  split_ifs <;> exact (putQueue _).trans (setAuto _)

theorem checkQh {q : Queue} {b : Bool} {f : Qh} (h : Machine.checkQh k q b f s = .ok t) : Walked k s t := by
  simp only [Machine.checkQh] at h
  split at h
  · cases h
  · rename_i q1 s1 h1
    cases h
    split at h1
    · exact (resetQueue h1).trans (dispatchQh _)
    · cases h1; exact dispatchQh _

theorem visitQh (h : Machine.visitQh k s = .ok t) : Walked k s t := by
  simp only [Machine.visitQh] at h
  split at h
  · split at h
    · exact (((putQueue _).trans (setCur _)).trans (setRecl _)).trans (checkQh h)
    · cases h; exact ((putQueue _).trans (setCur _)).trans (setAuto _)
  · exact ((putQueue _).trans (setCur _)).trans (checkQh h)

theorem fetchQh (h : Machine.fetchQh k s = .ok t) : Walked k s t := by
  cases k <;> simp only [Machine.fetchQh] at h
  · split at h
    · cases h; exact (setVisits _).trans boundExceeded
    · exact (setVisits _).trans (visitQh h)
  · exact visitQh h

theorem fetchStub : Walked k s (Machine.fetchStub k s) := (setFetch _).trans (setAuto _)

theorem withCurrent {f : Queue → Except Stop State} (h : Machine.withCurrent k s f = .ok t)
    (hf : ∀ q, f q = .ok t → Walked k s t) : Walked k s t := by
  simp only [Machine.withCurrent] at h
  split at h
  · cases h
  · exact hf _ h

theorem withPacket {g : PacketTag} {f : Queue → Packet → Except Stop State}
    (h : Machine.withPacket k g s f = .ok t) (hf : ∀ q p, f q p = .ok t → Walked k s t) : Walked k s t := by
  refine withCurrent h fun q hq => ?_
  split at hq
  · cases hq
  · split at hq
    · exact hf _ _ hq
    · cases hq

theorem advanceQueue (h : Machine.advanceQueue k s = .ok t) : Walked k s t := by
  refine withCurrent h fun q hq => ?_
  split_ifs at hq <;> cases hq
  · exact (putQueue _).trans (setAuto _)
  · exact (putQueue _).trans (setAuto _)
  · exact setAuto _

theorem dispatchNew (q : Queue) (d : Qtd) : Walked k s (Machine.dispatchNew k q d s) := by
  simp only [Machine.dispatchNew, inactiveStep]
  split_ifs <;> exact (putQueue _).trans (setAuto _)

theorem dispatchQtd {q : Queue} {d : Qtd} (h : Machine.dispatchQtd k q d s = .ok t) : Walked k s t := by
  simp only [Machine.dispatchQtd] at h
  split at h
  · split at h
    · split at h
      · cases h
      · cases h; exact (resetQueue ‹_›).trans (dispatchNew _ _)
    · split at h <;> cases h
      · exact setAuto _
      · exact setAuto _
      · exact dispatchNew _ _
  · split at h
    · split at h
      · cases h
      · cases h; exact (resetQueue ‹_›).trans (dispatchNew _ _)
    · cases h; exact dispatchNew _ _

theorem fetchQtd (h : Machine.fetchQtd k s = .ok t) : Walked k s t := withCurrent h fun _ hq => dispatchQtd hq

theorem executePacket {q : Queue} {p : Packet} (h : Machine.executePacket k q p s = .ok t) : Walked k s t := by
  simp only [Machine.executePacket] at h
  split at h
  · cases h
  · split at h
    · cases h
    · split at h
      · cases h
      · cases h
        exact (((setMem _).trans (putQueue _)).trans (answerFor ‹_›)).trans (afterAnswer _ _ _)

theorem execute (h : Machine.execute k s = .ok t) : Walked k s t := withPacket h fun _ _ hq => executePacket hq

theorem toWriteback {x : Except Stop (Queue × State)} (h : Machine.toWriteback k x = .ok t)
    (hx : ∀ q u, x = .ok (q, u) → Walked k s u) : Walked k s t := by
  simp only [Machine.toWriteback] at h
  split at h
  · cases h
  · cases h; exact ((hx _ _ rfl).trans (putQueue _)).trans (setAuto _)

theorem interpret {q : Queue} {p : Packet} (h : Machine.interpret k q p s = .ok t) : Walked k s t := by
  simp only [Machine.interpret] at h
  split at h
  · cases h
  · cases h; exact (putQueue _).trans (setAuto _)
  · exact toWriteback h fun q' u hu => (reclIfAsync k).trans (processResult hu)

theorem executing (h : Machine.executing k s = .ok t) : Walked k s t := withPacket h fun _ _ hq => interpret hq

theorem writebackPacket {q : Queue} {p : Packet} (h : Machine.writebackPacket k q p s = .ok t) : Walked k s t := by
  simp only [Machine.writebackPacket] at h
  split at h
  · cases h
  · rename_i q3 s3 h3
    cases h
    simp only [haltPropagation] at h3
    split at h3
    · exact ((((setMem _).trans (setMem _)).trans (cancelPackets h3)).trans (putQueue _)).trans (setAuto _)
    · cases h3; exact (((setMem _).trans (setMem _)).trans (putQueue _)).trans (setAuto _)

theorem writeback (h : Machine.writeback k s = .ok t) : Walked k s t := withPacket h fun _ _ hq => writebackPacket hq

theorem horizontalQh (h : Machine.horizontalQh k s = .ok t) : Walked k s t := by
  refine withCurrent h fun q hq => ?_
  cases hq
  exact ((setFetch _).trans (setCur _)).trans (setAuto _)

theorem waitListHead : Walked .async s (Machine.waitListHead s) := by
  simp only [Machine.waitListHead]
  split
  · exact ((setRecl _).trans (setFetch _)).trans (setAuto _)
  · exact (setRecl _).trans (setAuto _)

/-- A step of the walk. -/
theorem walkStep (h : Machine.walkStep k s = .ok t) : Walked k s t := by
  simp only [Machine.walkStep] at h
  split at h
  · cases h; exact refl k _
  · cases h; exact refl k _
  · cases k <;> cases h; exact waitListHead
  · exact fetchEntry h
  · exact fetchQh h
  · cases k <;> cases h; exact fetchStub
  · cases k <;> cases h; exact fetchStub
  · exact advanceQueue h
  · exact fetchQtd h
  · exact execute h
  · exact executing h
  · exact writeback h
  · exact horizontalQh h

/-- A whole pass. -/
theorem run {n : Nat} (h : Machine.run k n s = .ok t) : Walked k s t := by
  induction n generalizing s with
  | zero =>
    simp only [Machine.run] at h
    split_ifs at h
    cases h; exact refl k _
  | succ n ih =>
    simp only [Machine.run] at h
    split_ifs at h
    · cases h; exact refl k _
    · split at h
      · cases h
      · exact (walkStep ‹_›).trans (ih h)

end Walked

/-- A pass that ends normally ends with its automaton at rest (R340). -/
theorem run_idle {k : Sched} {n : Nat} {s t : State} (h : run k n s = .ok t) : autoIdle (t.sched k).auto = true := by
  induction n generalizing s with
  | zero =>
    simp only [run] at h
    split_ifs at h with h1
    cases h; exact h1
  | succ n ih =>
    simp only [run] at h
    split_ifs at h with h1
    · cases h; exact h1
    · split at h
      · cases h
      · exact ih h

end Sys2Proof.Machine
end

