-- ==== Sys2Proof/Laws/Inv.lean ====
section
/-! SUPPORT. The invariant of the block through the updates and operations that steps are made of. -/

namespace Sys2Proof.Machine

/-! ### Updates -/

theorem inv_of {s t : State} (h : Inv s = true) (hm : Memory.wf t.mem = true)
    (hp : t.periodicListBase = s.periodicListBase) (ha : t.asyncListAddr = s.asyncListAddr)
    (hs : ∀ k, schedOk t.uframeCtr k (t.sched k) = true) : Inv t = true := by
  obtain ⟨-, h2, -, -⟩ := Inv_iff.1 h
  refine Inv_iff.2 ⟨hm, ?_, hs .async, hs .periodic⟩
  rw [regsOk] at h2 ⊢
  rw [hp, ha]; exact h2

theorem inv_mem {s : State} (h : Inv s = true) : Memory.wf s.mem = true := (Inv_iff.1 h).1

/-- An update of nothing the invariant speaks of. -/
theorem inv_congr {s t : State} (h : Inv s = true) (hm : t.mem = s.mem)
    (hp : t.periodicListBase = s.periodicListBase) (ha : t.asyncListAddr = s.asyncListAddr)
    (hc : t.uframeCtr = s.uframeCtr) (hs : ∀ k, t.sched k = s.sched k) : Inv t = true :=
  inv_of h (by rw [hm]; exact inv_mem h) hp ha fun k => by rw [hc, hs]; exact inv_sched h k

theorem inv_setSched {s : State} {k : Sched} {r : SchedRegs} (h : Inv s = true)
    (hr : schedOk s.uframeCtr k r = true) : Inv (s.setSched k r) = true := by
  refine inv_of h (by rw [State.setSched_mem]; exact inv_mem h) (State.setSched_periodicListBase s k r)
    (State.setSched_asyncListAddr s k r) fun k' => ?_
  rw [State.setSched_uframeCtr]
  by_cases hk : k' = k
  · subst hk; rw [State.setSched_sched]; exact hr
  · rw [State.setSched_sched_ne _ _ hk]; exact inv_sched h k'

theorem inv_setAuto {s : State} (k : Sched) (x : AutoState) (h : Inv s = true) : Inv (s.setAuto k x) = true :=
  inv_setSched h (schedOk_congr (inv_sched h k) rfl rfl)

theorem inv_setFetch {s : State} (k : Sched) (x : Word) (h : Inv s = true) : Inv (s.setFetch k x) = true :=
  inv_setSched h (schedOk_congr (inv_sched h k) rfl rfl)

theorem inv_setVisits {s : State} (k : Sched) (x : Nat) (h : Inv s = true) : Inv (s.setVisits k x) = true :=
  inv_setSched h (schedOk_congr (inv_sched h k) rfl rfl)

theorem inv_setCur {s : State} {k : Sched} {u : Option Word} (h : Inv s = true)
    (hu : ∀ a, u = some a → ∃ q, s.queue? k a = some q) : Inv (s.setCur k u) = true :=
  inv_setSched h (schedOk_cur (inv_sched h k) hu)

theorem inv_setCur_none {s : State} {k : Sched} (h : Inv s = true) : Inv (s.setCur k none) = true :=
  inv_setCur h fun _ ha => by cases ha

theorem inv_putQueue {s : State} {q : Queue} (h : Inv s = true) (hq : queueOk s.uframeCtr q.kind q = true) :
    Inv (s.putQueue q) = true := inv_setSched h (schedOk_put (inv_sched h q.kind) hq)

theorem inv_setMem {s : State} {m : Memory} (h : Inv s = true) (hm : Memory.wf m = true) :
    Inv (s.setMem m) = true :=
  inv_of h hm rfl rfl fun k => by rw [State.setMem_uframeCtr, State.setMem_sched]; exact inv_sched h k

theorem inv_emit {s : State} (o : Output) (h : Inv s = true) : Inv (s.emit o) = true := h
theorem inv_outbox {s : State} (o : List Output) (h : Inv s = true) : Inv { s with outbox := o } = true := h
theorem inv_setRecl {s : State} (b : Bool) (h : Inv s = true) : Inv (s.setRecl b) = true := h
theorem inv_reclIfAsync {s : State} (k : Sched) (h : Inv s = true) : Inv (s.reclIfAsync k) = true := by
  cases k <;> exact h
theorem inv_raiseIrq {s : State} (b : IrqBit) (h : Inv s = true) : Inv (s.raiseIrq b) = true := by
  cases b <;> exact h
theorem inv_diag {s : State} (h : Inv s = true) : Inv { s with diagEmitted := true } = true := h

theorem inv_reaped {s t : State} (h : Inv s = true) (hr : Reaped s t)
    (hs : ∀ k, schedOk s.uframeCtr k (t.sched k) = true) : Inv t = true := by
  unfold Reaped at hr
  have e1 : t.mem = s.mem := by rw [hr]
  have e2 : t.periodicListBase = s.periodicListBase := by rw [hr]
  have e3 : t.asyncListAddr = s.asyncListAddr := by rw [hr]
  have e4 : t.uframeCtr = s.uframeCtr := by rw [hr]
  exact inv_of h (by rw [e1]; exact inv_mem h) e2 e3 fun k => by rw [e4]; exact hs k

/-! ### Queues -/

theorem ptrAddr_idem (w : Word) : ptrAddr (ptrAddr w) = ptrAddr w := by
  unfold ptrAddr
  rw [BitVec.and_assoc, BitVec.and_self]

/-- A Queue found in a good state. -/
theorem queue?_ok {s : State} {k : Sched} {a : Word} {q : Queue} (h : Inv s = true) (hq : s.queue? k a = some q) :
    queueOk s.uframeCtr k q = true ∧ q.kind = k ∧ q.qhaddr = a ∧ q ∈ (s.sched k).cache := by
  obtain ⟨h1, h2⟩ := cacheFind_some hq
  have h3 := (schedOk_iff.1 (inv_sched h k)).2.1 q h1
  exact ⟨h3, (queueOk_iff.1 h3).1, h2, h1⟩

/-- The current Queue of a good state. -/
theorem current_ok {s : State} {k : Sched} {q : Queue} (h : Inv s = true) (hq : s.current k = some q) :
    queueOk s.uframeCtr k q = true ∧ q.kind = k ∧ (s.sched k).curQueue = some q.qhaddr ∧
      s.queue? k q.qhaddr = some q ∧ q ∈ (s.sched k).cache := by
  unfold State.current at hq
  split at hq
  · cases hq
  · rename_i a ha
    obtain ⟨h1, h2, rfl, h3⟩ := queue?_ok h hq
    exact ⟨h1, h2, ha, hq, h3⟩

theorem queueOk_kind {ctr : Nat} {k : Sched} {q : Queue} (h : queueOk ctr k q = true) : queueOk ctr q.kind q = true := by
  rw [(queueOk_iff.1 h).1]; exact h

/-- The invariant of a Queue speaks of its kind, key, device, Packets and age only. -/
theorem queueOk_congr {ctr : Nat} {k : Sched} {q q' : Queue} (h : queueOk ctr k q = true) (h1 : q'.kind = q.kind)
    (h2 : q'.qhaddr = q.qhaddr) (h3 : q'.packets = q.packets) (h4 : q'.dev = q.dev) (h5 : q'.lastSeen = q.lastSeen) :
    queueOk ctr k q' = true := by
  rw [queueOk_iff] at h ⊢
  rw [h1, h2, h3, h4, h5]; exact h

theorem packetOk_dev {p : Packet} {d : Option DevRef} (h : packetOk none p = true) : packetOk d p = true := by
  unfold packetOk at h ⊢
  split at h <;> simp_all

theorem queueOk_resolve {ctr : Nat} {k : Sched} {q : Queue} (s : State) (h : queueOk ctr k q = true) :
    queueOk ctr k (resolveDevice s q) = true := by
  unfold resolveDevice
  split
  · rename_i hd
    rw [queueOk_iff] at h ⊢
    exact ⟨h.1, h.2.1, h.2.2.1, h.2.2.2.1, fun p hp => packetOk_dev (hd ▸ h.2.2.2.2 p hp)⟩
  · exact h

theorem queueOk_putPacket {ctr : Nat} {k : Sched} {q : Queue} {p : Packet} (h : queueOk ctr k q = true)
    (hp : packetOk q.dev p = true) : queueOk ctr k (q.putPacket p) = true := by
  rw [queueOk_iff] at h ⊢
  refine ⟨h.1, h.2.1, ?_, h.2.2.2.1, fun r hr => ?_⟩
  · simp only [Queue.putPacket, replacePacket_length]; exact h.2.2.1
  · rcases mem_replacePacket hr with rfl | hr
    · exact hp
    · exact h.2.2.2.2 r hr

theorem queueOk_packets {ctr : Nat} {k : Sched} {q : Queue} {l : List Packet} (h : queueOk ctr k q = true)
    (hl : l.length ≤ q.packets.length) (hm : ∀ p ∈ l, p ∈ q.packets) :
    queueOk ctr k { q with packets := l } = true := by
  rw [queueOk_iff] at h ⊢
  exact ⟨h.1, h.2.1, hl.trans h.2.2.1, h.2.2.2.1, fun p hp => h.2.2.2.2 p (hm p hp)⟩

theorem queueOk_freePacket {ctr : Nat} {k : Sched} {q : Queue} (p : Packet) (h : queueOk ctr k q = true) :
    queueOk ctr k (q.freePacket p) = true :=
  queueOk_packets h (dropPacket_length _) fun _ hr => mem_dropPacket hr

/-- A reset Queue holds no Packet and no device, so it is good. -/
theorem queueOk_reset {ctr : Nat} {k : Sched} {q : Queue} (h : queueOk ctr k q = true) :
    queueOk ctr k { q with packets := [], dev := none } = true := by
  rw [queueOk_iff] at h ⊢
  exact ⟨h.1, h.2.1, by simp, h.2.2.2.1, by simp⟩

theorem queueOk_allocate {ctr : Nat} {k : Sched} {q : Queue} (a : Word) (d : Qtd) (h : queueOk ctr k q = true)
    (hl : q.packets = []) : queueOk ctr k (q.allocate a d) = true := by
  rw [queueOk_iff] at h ⊢
  refine ⟨h.1, h.2.1, by simp [Queue.allocate, hl], h.2.2.2.1, fun p hp => ?_⟩
  simp only [Queue.allocate, hl, List.nil_append, List.mem_singleton] at hp
  subst hp; rfl

theorem packetOk_settle {d : Option DevRef} {p : Packet} {r : DevAnswer} (h : r ≠ .pending) :
    packetOk d (p.settle r) = true := by
  cases r <;> first | exact absurd rfl h | rfl

theorem settle_tag (p : Packet) (r : DevAnswer) : (p.settle r).tag = .finished := by cases r <;> rfl

theorem settle_qtdaddr (p : Packet) (r : DevAnswer) : (p.settle r).qtdaddr = p.qtdaddr := by cases r <;> rfl

theorem findOrCreate_ok {s : State} {k : Sched} {w : Word} (h : Inv s = true) :
    queueOk s.uframeCtr k (s.findOrCreate k (ptrAddr w)).1 = true ∧
      (s.findOrCreate k (ptrAddr w)).1.qhaddr = ptrAddr w := by
  unfold State.findOrCreate
  split
  · exact ⟨(queue?_ok h ‹_›).1, (queue?_ok h ‹_›).2.2.1⟩
  · refine ⟨?_, rfl⟩
    rw [queueOk_iff]
    exact ⟨rfl, ptrAddr_idem w, by simp [newQueue], le_refl _, by simp [newQueue]⟩

theorem queueOk_markSeen {ctr : Nat} {k : Sched} {q : Queue} (h : queueOk ctr k q = true) :
    queueOk ctr k (q.markSeen ctr) = true := by
  rw [queueOk_iff] at h ⊢
  exact ⟨h.1, h.2.1, h.2.2.1, le_refl _, h.2.2.2.2⟩

/-- Finding a Queue after one is stored. -/
theorem queue?_putQueue (s : State) (q : Queue) (k : Sched) (a : Word) :
    (s.putQueue q).queue? k a = if k = q.kind ∧ a = q.qhaddr then some q else s.queue? k a := by
  unfold State.queue?
  by_cases hk : k = q.kind
  · subst hk
    rw [State.putQueue_sched, cacheFind_cachePut]
    by_cases ha : a = q.qhaddr
    · rw [if_pos ha, if_pos ⟨rfl, ha⟩]
    · rw [if_neg ha, if_neg fun h => ha h.2]
  · rw [State.putQueue_sched_ne _ _ hk, if_neg fun h => hk h.1]

theorem curQueue_putQueue (s : State) (q : Queue) (k : Sched) :
    ((s.putQueue q).sched k).curQueue = (s.sched k).curQueue := by
  by_cases hk : k = q.kind
  · subst hk; rw [State.putQueue_sched]
  · rw [State.putQueue_sched_ne _ _ hk]

theorem auto_putQueue (s : State) (q : Queue) (k : Sched) :
    ((s.putQueue q).sched k).auto = (s.sched k).auto := by
  by_cases hk : k = q.kind
  · subst hk; rw [State.putQueue_sched]
  · rw [State.putQueue_sched_ne _ _ hk]

/-- Storing the current Queue of schedule k: it is what is current afterwards. -/
theorem current_putQueue {s : State} {k : Sched} {q : Queue} (hk : q.kind = k)
    (hc : (s.sched k).curQueue = some q.qhaddr) : (s.putQueue q).current k = some q := by
  unfold State.current
  rw [curQueue_putQueue, hc]
  show (s.putQueue q).queue? k q.qhaddr = some q
  rw [queue?_putQueue, if_pos ⟨hk.symm, rfl⟩]

/-- What is current depends on the registers of the schedule alone. -/
theorem current_congr {s t : State} {k : Sched} (h : (t.sched k).curQueue = (s.sched k).curQueue)
    (hc : (t.sched k).cache = (s.sched k).cache) : t.current k = s.current k := by
  unfold State.current State.queue?
  rw [h, hc]

/-! ### Completions and answers (R310, R311, R287) -/

theorem inv_deliver {c : Completion} {s t : State} (h : Inv s = true) (hd : deliver c s = .ok t) : Inv t = true := by
  simp only [deliver] at hd
  split at hd
  · cases hd
  · rename_i q hq
    split at hd
    · cases hd
    · split_ifs at hd with h1 h2
      cases hd
      exact inv_putQueue h (queueOk_kind (queueOk_putPacket (queue?_ok h hq).1 (packetOk_settle h2)))

theorem inv_deliverAll {q : Queue} {p : Packet} {cs : List Completion} {r r' : Option DevAnswer} {s t : State}
    (h : Inv s = true) (hd : deliverAll q p cs r s = .ok (r', t)) : Inv t = true := by
  induction cs generalizing r s with
  | nil => cases hd; exact h
  | cons c cs ih =>
    simp only [deliverAll] at hd
    split at hd
    · split at hd
      · cases hd
      · exact ih h hd
    · split at hd
      · cases hd
      · exact ih (inv_deliver h ‹_›) hd

theorem inv_nextAnswer {s : State} (h : Inv s = true) : Inv s.nextAnswer.2 = true := by
  unfold State.nextAnswer
  split <;> exact h

theorem inv_answerFor {q : Queue} {p : Packet} {r : DevAnswer} {s t : State} (h : Inv s = true)
    (ha : answerFor q p s = .ok (r, t)) : Inv t = true := by
  simp only [answerFor] at ha
  split at ha
  · cases ha; exact h
  · simp only [submit] at ha
    split at ha
    · cases ha
    · cases ha
      exact inv_deliverAll (inv_nextAnswer (inv_emit _ h)) ‹_›

/-- A Queue without a device gets no answer PENDING (R289). -/
theorem answerFor_dev {q : Queue} {p : Packet} {s t : State} (ha : answerFor q p s = .ok (.pending, t)) :
    q.dev.isSome = true := by
  simp only [answerFor] at ha
  split at ha
  · cases ha
  · simp_all

theorem inv_flushOverlay {s : State} (q : Queue) (h : Inv s = true) : Inv (flushOverlay q s) = true :=
  inv_setMem h (flushQh_wf (inv_mem h) _ _)

theorem inv_afterAnswer {k : Sched} {q : Queue} {p : Packet} {r : DevAnswer} {s : State} (h : Inv s = true)
    (hq : queueOk s.uframeCtr k q = true) (hd : r = .pending → q.dev.isSome = true) :
    Inv (afterAnswer k q p r s) = true := by
  unfold afterAnswer
  split
  · refine inv_setAuto _ _ (inv_reclIfAsync k (inv_flushOverlay _ (inv_putQueue h (queueOk_kind (k := k) ?_))))
    exact queueOk_putPacket hq (by simpa [packetOk] using hd rfl)
  · rename_i hr
    exact inv_setAuto _ _ (inv_putQueue h (queueOk_kind (queueOk_putPacket hq (packetOk_settle hr))))

/-! ### Results (R300 to R307) -/

theorem inv_successIrq {s : State} (b : Bool) (w : Word) (h : Inv s = true) : Inv (successIrq b w s) = true := by
  unfold successIrq
  split
  · exact inv_raiseIrq _ h
  · exact h

/-- A result changes the Queue's QH only, and keeps the invariant. -/
theorem inv_resultSuccess {q q' : Queue} {p : Packet} {n : Nat} {s t : State} (h : Inv s = true)
    (hr : resultSuccess q p n s = .ok (q', t)) : Inv t = true ∧ ∃ h', q' = { q with qh := h' } := by
  simp only [resultSuccess] at hr
  split at hr
  · split at hr
    · cases hr
    · cases hr
      exact ⟨inv_successIrq _ _ (inv_setMem h (scatterBytes_wf (inv_mem h) _ _)), _, rfl⟩
  · cases hr; exact ⟨inv_successIrq _ _ h, _, rfl⟩

theorem inv_processResult {q q' : Queue} {p : Packet} {r : ResultTag} {s t : State} (h : Inv s = true)
    (hr : processResult q p r s = .ok (q', t)) : Inv t = true ∧ ∃ h', q' = { q with qh := h' } := by
  cases r <;> simp only [processResult] at hr
  · simp only [resultCounted] at hr
    split at hr
    · exact inv_resultSuccess h hr
    · cases hr; exact ⟨inv_raiseIrq _ h, _, rfl⟩
  · cases hr
  · cases hr; exact ⟨inv_raiseIrq _ h, _, rfl⟩
  · cases hr; exact ⟨inv_raiseIrq _ h, _, rfl⟩
  · cases hr; exact ⟨inv_raiseIrq _ h, _, rfl⟩
  · cases hr; exact ⟨inv_raiseIrq _ h, _, rfl⟩
  · cases hr

theorem inv_toWriteback {k : Sched} {x : Except Stop (Queue × State)} {t : State}
    (hx : ∀ q u, x = .ok (q, u) → Inv u = true ∧ queueOk u.uframeCtr k q = true)
    (h : toWriteback k x = .ok t) : Inv t = true := by
  simp only [toWriteback] at h
  split at h
  · cases h
  · cases h
    obtain ⟨h1, h2⟩ := hx _ _ rfl
    exact inv_setAuto _ _ (inv_putQueue h1 (queueOk_kind h2))

theorem resultSuccess_ctr {q q' : Queue} {p : Packet} {n : Nat} {s t : State}
    (h : resultSuccess q p n s = .ok (q', t)) : t.uframeCtr = s.uframeCtr :=
  (Walked.resultSuccess (k := .async) h).uframeCtr

theorem inv_interpret {k : Sched} {q : Queue} {p : Packet} {s t : State} (h : Inv s = true)
    (hq : queueOk s.uframeCtr k q = true) (hi : interpret k q p s = .ok t) : Inv t = true := by
  simp only [interpret] at hi
  split at hi
  · cases hi
  · cases hi
    exact inv_setAuto _ _ (inv_putQueue h (queueOk_kind (queueOk_freePacket p hq)))
  · refine inv_toWriteback (fun q' u hu => ?_) hi
    obtain ⟨h1, h', rfl⟩ := inv_processResult (inv_reclIfAsync k h) hu
    refine ⟨h1, ?_⟩
    rw [(Walked.processResult (k := k) hu).uframeCtr, State.reclIfAsync_uframeCtr]
    exact queueOk_congr hq rfl rfl rfl rfl rfl

end Sys2Proof.Machine
end

