-- ==== Sys2Proof/Laws/Completions.lean ====
section
/-! SUPPORT. What the completions that a device delivers inside a submit call do (R311): one lemma for `deliverAll`. -/

namespace Sys2Proof.Machine

/-- Two states that differ in the Queues of their caches at most. -/
structure SameRegs (s t : State) : Prop where
  regs : ∀ j, (t.sched j).auto = (s.sched j).auto ∧ (t.sched j).fetchAddr = (s.sched j).fetchAddr ∧
    (t.sched j).curQueue = (s.sched j).curQueue ∧ (t.sched j).visits = (s.sched j).visits
  rest : { t with async := s.async, periodic := s.periodic } = s

theorem SameRegs.refl (s : State) : SameRegs s s := ⟨fun _ => ⟨rfl, rfl, rfl, rfl⟩, rfl⟩

theorem SameRegs.trans {s t u : State} (h1 : SameRegs s t) (h2 : SameRegs t u) : SameRegs s u := by
  refine ⟨fun j => ?_, ?_⟩
  · obtain ⟨a, b, c, d⟩ := h1.regs j
    obtain ⟨a', b', c', d'⟩ := h2.regs j
    exact ⟨a'.trans a, b'.trans b, c'.trans c, d'.trans d⟩
  · have := h2.rest
    have h := h1.rest
    rw [← this] at h
    exact h

theorem SameRegs.put (s : State) (q : Queue) : SameRegs s (s.putQueue q) := by
  refine ⟨fun j => ?_, ?_⟩
  · by_cases h : j = q.kind
    · subst h; rw [State.putQueue_sched]; exact ⟨rfl, rfl, rfl, rfl⟩
    · rw [State.putQueue_sched_ne _ _ h]; exact ⟨rfl, rfl, rfl, rfl⟩
  · simp only [State.putQueue, State.setCache]
    cases q.kind <;> rfl

/-- The completions of a submit call that stop nothing (R311): pairwise different, each for the Packet submitted or for one
in flight, with a final result. The one for the Packet submitted becomes the answer; every other one settles its Packet,
and no other Queue and nothing beside the Queues changes. -/
theorem deliverAll_good (q : Queue) (p : Packet) (cs : List Completion) : ∀ (o : Option DevAnswer) (s : State),
    Inv s = true → (o.isSome = true → ∀ c ∈ cs, c.names q p = false) →
    (∀ c ∈ cs, c.answer ≠ .pending ∧ (c.names q p = true ∨ c.names q p = false ∧ ∃ y z,
      s.queue? c.kind c.qhaddr = some y ∧ findPacket y.packets c.qtdaddr = some z ∧ z.tag = .inflight)) →
    (cs.map fun c => (c.kind, c.qhaddr, c.qtdaddr)).Nodup →
    ∃ o' t, deliverAll q p cs o s = .ok (o', t) ∧ SameRegs s t ∧ Inv t = true ∧
      ((∀ c ∈ cs, c.names q p = false) → o' = o) ∧ (o = none → ∀ c ∈ cs, c.names q p = true → o' = some c.answer) ∧
      (∀ c ∈ cs, c.names q p = false → ∀ y z, s.queue? c.kind c.qhaddr = some y →
        findPacket y.packets c.qtdaddr = some z → t.queue? c.kind c.qhaddr = some { y with packets := [z.settle c.answer] }) ∧
      (∀ j b, (¬ ∃ c ∈ cs, c.names q p = false ∧ c.kind = j ∧ c.qhaddr = b) → t.queue? j b = s.queue? j b) := by
  induction cs with
  | nil =>
    intro o s hi _ _ _
    exact ⟨o, s, rfl, SameRegs.refl s, hi, fun _ => rfl, fun _ c hc => by simp at hc, fun c hc => by simp at hc,
      fun _ _ _ => rfl⟩
  | cons c cs ih =>
    intro o s hi ho hc hn
    simp only [List.map_cons, List.nodup_cons, List.mem_map, not_exists, not_and] at hn
    obtain ⟨hn1, hn2⟩ := hn
    obtain ⟨ha, hor⟩ := hc c (by simp)
    simp only [deliverAll]
    rcases hor with hown | ⟨hno, y, z, hy, hz, ht⟩
    · have hon : o = none := by
        cases o with
        | none => rfl
        | some x => have := ho rfl c (by simp); rw [hown] at this; cases this
      subst hon
      simp only [hown, Option.isNone_none, Bool.and_self, if_true, if_neg ha]
      have hothers : ∀ c' ∈ cs, c'.names q p = false := by
        intro c' hc'
        cases h : c'.names q p
        · rfl
        · exfalso
          simp only [Completion.names, Bool.and_eq_true, beq_iff_eq] at h hown
          exact hn1 c' hc' (by rw [h.1.1, h.1.2, h.2, hown.1.1, hown.1.2, hown.2])
      obtain ⟨o', t, e, r, hit, h1, h2, h3, h4⟩ :=
        ih (some c.answer) s hi (fun _ => hothers) (fun c' hc' => hc c' (by simp [hc'])) hn2
      refine ⟨o', t, e, r, hit, ?_, ?_, ?_, ?_⟩
      · intro hall; have := hall c (by simp); rw [hown] at this; cases this
      · intro _ c' hc' hn'
        rcases List.mem_cons.1 hc' with rfl | hc'
        · exact h1 hothers
        · rw [hothers c' hc'] at hn'; cases hn'
      · intro c' hc' hn'
        rcases List.mem_cons.1 hc' with rfl | hc'
        · rw [hown] at hn'; cases hn'
        · exact h3 c' hc' hn'
      · intro j b hb
        refine h4 j b ?_
        rintro ⟨c', hc', h⟩
        exact hb ⟨c', by simp [hc'], h⟩
    · have hd : deliver c s = .ok (s.putQueue (y.putPacket (z.settle c.answer))) := by
        simp [deliver, hy, hz, ht, ha]
      simp only [hno, Bool.and_false, Bool.false_eq_true, if_false, hd]
      have hyok := queue?_ok hi hy
      have hlen := (queueOk_iff.1 hyok.1).2.2.1
      obtain ⟨hz1, hz2⟩ := findPacket_some hz
      have hys : y.packets = [z] := by
        match hq : y.packets with
        | [] => rw [hq] at hz1; cases hz1
        | [x] => rw [hq] at hz1; rw [List.mem_singleton.1 hz1]
        | a :: b :: l => rw [hq] at hlen; simp at hlen
      have hput : y.putPacket (z.settle c.answer) = { y with packets := [z.settle c.answer] } := by
        simp [Queue.putPacket, hys, replacePacket, settle_qtdaddr]
      have hyk : y.kind = c.kind ∧ y.qhaddr = c.qhaddr := ⟨(queueOk_iff.1 hyok.1).1, (cacheFind_some hy).2⟩
      set s1 := s.putQueue (y.putPacket (z.settle c.answer)) with hs1
      have hi1 : Inv s1 = true := inv_deliver hi hd
      have hq1 : ∀ j b, s1.queue? j b =
          if j = c.kind ∧ b = c.qhaddr then some { y with packets := [z.settle c.answer] } else s.queue? j b := by
        intro j b
        rw [hs1, queue?_putQueue, hput]
        simp only [hyk]
      have hne : ∀ c' ∈ cs, c'.names q p = false → ∀ y' z', s.queue? c'.kind c'.qhaddr = some y' →
          findPacket y'.packets c'.qtdaddr = some z' → ¬ (c'.kind = c.kind ∧ c'.qhaddr = c.qhaddr) := by
        rintro c' hc' hn' y' z' hy' hz' ⟨hk, hq⟩
        rw [hk, hq, hy] at hy'
        cases hy'
        obtain ⟨a1, a2⟩ := findPacket_some hz'
        rw [hys, List.mem_singleton] at a1
        subst a1
        exact hn1 c' hc' (by rw [hk, hq, ← a2, hz2])
      obtain ⟨o', t, e, r, hit, h1, h2, h3, h4⟩ := ih o s1 hi1 (fun h c' hc' => ho h c' (by simp [hc']))
        (fun c' hc' => by
          obtain ⟨b1, b2⟩ := hc c' (by simp [hc'])
          refine ⟨b1, ?_⟩
          rcases b2 with b2 | ⟨b2, y', z', b3, b4, b5⟩
          · exact .inl b2
          · exact .inr ⟨b2, y', z', by rw [hq1, if_neg (hne c' hc' b2 y' z' b3 b4), b3], b4, b5⟩) hn2
      refine ⟨o', t, e, (SameRegs.put s _).trans r, hit, ?_, ?_, ?_, ?_⟩
      · intro h; exact h1 fun c' hc' => h c' (by simp [hc'])
      · intro h c' hc' hn'
        rcases List.mem_cons.1 hc' with rfl | hc'
        · rw [hno] at hn'; cases hn'
        · exact h2 h c' hc' hn'
      · intro c' hc' hn' y' z' hy' hz'
        rcases List.mem_cons.1 hc' with rfl | hc'
        · have hx : t.queue? c'.kind c'.qhaddr = s1.queue? c'.kind c'.qhaddr := by
            refine h4 _ _ ?_
            rintro ⟨c2, hc2, hn2', hk2, hq2⟩
            obtain ⟨-, b2⟩ := hc c2 (by simp [hc2])
            rcases b2 with b2 | ⟨b2, y2, z2, b3, b4, b5⟩
            · rw [hn2'] at b2; cases b2
            · exact hne c2 hc2 hn2' y2 z2 b3 b4 ⟨hk2, hq2⟩
          rw [hx, hq1, if_pos ⟨rfl, rfl⟩]
          rw [hy] at hy'; cases hy'; rw [hz] at hz'; cases hz'; rfl
        · refine h3 c' hc' hn' y' z' ?_ hz'
          rw [hq1, if_neg (hne c' hc' hn' y' z' hy' hz'), hy']
      · intro j b hb
        rw [h4 j b (fun ⟨c', hc', h⟩ => hb ⟨c', by simp [hc'], h⟩), hq1, if_neg]
        rintro ⟨h1, h2⟩
        exact hb ⟨c, by simp, hno, h1.symm, h2.symm⟩

end Sys2Proof.Machine
end

