-- ==== Sys2Proof/Laws/Steps.lean ====
section
/-! SUPPORT. The steps of a walk (R340 to R385): each keeps the invariant, and from a state that its own automaton leads to
none of them faults. -/

namespace Sys2Proof.Machine

/-! ### The invariant through a step -/

/-- A step ends in a good state, be it at a Fatal (R530). -/
def Keeps (x : Except Stop State) : Prop :=
  match x with
  | .ok t => Inv t = true
  | .error (.fatal _ u) => Inv u = true
  | .error (.fault _) => True

theorem keeps_withCurrent {k : Sched} {s : State} {f : Queue → Except Stop State}
    (hf : ∀ q, s.current k = some q → Keeps (f q)) : Keeps (withCurrent k s f) := by
  unfold withCurrent
  split
  · trivial
  · exact hf _ ‹_›

theorem keeps_withPacket {k : Sched} {g : PacketTag} {s : State} {f : Queue → Packet → Except Stop State}
    (hf : ∀ q p, HasPacket s k q p → p.tag = g → Keeps (f q p)) : Keeps (withPacket k g s f) := by
  refine keeps_withCurrent fun q hq => ?_
  split
  · trivial
  · split
    · exact hf _ _ ⟨hq, ‹_›⟩ ‹_›
    · trivial

theorem linkStep_keeps {k : Sched} {lp : Word} {s : State} (h : Inv s = true) : Keeps (linkStep k lp s) := by
  unfold linkStep linkItdStep linkSitdStep linkFstnStep linkEndStep linkQhStep
  split_ifs
  · exact inv_setAuto _ _ h
  · exact inv_setAuto _ _ h
  · cases k
    · exact h
    · exact inv_setAuto _ _ h
  · cases k
    · exact h
    · exact inv_setAuto _ _ h
  · exact h

theorem fetchEntry_keeps {k : Sched} {s : State} (h : Inv s = true) : Keeps (fetchEntry k s) := by
  cases k <;> simp only [fetchEntry]
  · exact linkStep_keeps h
  · split
    · exact inv_setAuto _ _ (inv_diag (inv_setVisits _ _ h))
    · exact linkStep_keeps (inv_setVisits _ _ h)

theorem inv_dispatchQh {k : Sched} {q : Queue} {s : State} (h : Inv s = true) (hq : queueOk s.uframeCtr k q = true) :
    Inv (dispatchQh k q s) = true := by
  unfold dispatchQh haltedStep
  split_ifs
  · exact inv_setAuto _ _ (inv_putQueue h (queueOk_kind hq))
  · exact inv_setAuto _ _ (inv_putQueue h (queueOk_kind (k := k) (queueOk_congr hq rfl rfl rfl rfl rfl)))
  · exact inv_setAuto _ _ (inv_putQueue h (queueOk_kind hq))

theorem checkQh_keeps {k : Sched} {q : Queue} {b : Bool} {f : Qh} {s : State} (h : Inv s = true)
    (hq : queueOk s.uframeCtr k q = true) : Keeps (checkQh k q b f s) := by
  have key : ∀ (q1 : Queue) (s1 : State), Inv s1 = true → queueOk s1.uframeCtr k q1 = true →
      Inv (dispatchQh k (resolveDevice s1 { q1 with qh := f }) s1) = true := fun q1 s1 h1 h2 =>
    inv_dispatchQh h1 (queueOk_resolve s1 (queueOk_congr h2 rfl rfl rfl rfl rfl))
  simp only [checkQh]
  split
  · trivial
  · rename_i q1 s1 h1
    split at h1
    · obtain ⟨⟨l, rfl, hl, hm⟩, cs, rfl⟩ := resetQueue_frame h1
      obtain ⟨-, -, hl3, -, hp⟩ := queueOk_iff.1 hq
      obtain ⟨cs', hr, -⟩ := resetQueue_good s hl3 hp
      rw [h1] at hr
      have e : ({ q with packets := l, dev := none } : Queue) = { q with packets := [], dev := none } := by
        have := congrArg (fun x => match x with | .ok (y : Queue × State) => y.1 | .error _ => q) hr
        exact this
      rw [e]
      exact key _ _ (inv_outbox _ h) (queueOk_reset hq)
    · cases h1
      exact key _ _ h hq

theorem visitQh_keeps {k : Sched} {s : State} (h : Inv s = true) : Keeps (visitQh k s) := by
  obtain ⟨h1, h2⟩ := findOrCreate_ok (k := k) (w := (s.sched k).fetchAddr) h
  have h3 := queueOk_markSeen h1
  simp only [visitQh]
  generalize hq : (s.findOrCreate k (ptrAddr (s.sched k).fetchAddr)).1.markSeen s.uframeCtr = q at h3 ⊢
  have hk := (queueOk_iff.1 h3).1
  have ha : q.qhaddr = ptrAddr (s.sched k).fetchAddr := by rw [← hq]; exact h2
  have hput := inv_putQueue h (queueOk_kind h3)
  have hcur : Inv ((s.putQueue q).setCur k (some (ptrAddr (s.sched k).fetchAddr))) = true :=
    inv_setCur hput fun a ha' => ⟨q, by cases ha'; rw [queue?_putQueue, if_pos ⟨hk.symm, ha.symm⟩]⟩
  have hok : queueOk ((s.putQueue q).setCur k (some (ptrAddr (s.sched k).fetchAddr))).uframeCtr k q = true := by
    rw [State.setCur_uframeCtr, State.putQueue_uframeCtr]; exact h3
  split
  · split
    · exact checkQh_keeps (inv_setRecl _ hcur) hok
    · exact inv_setAuto _ _ hcur
  · exact checkQh_keeps hcur hok

theorem fetchQh_keeps {k : Sched} {s : State} (h : Inv s = true) : Keeps (fetchQh k s) := by
  cases k <;> simp only [fetchQh]
  · split
    · exact inv_setAuto _ _ (inv_diag (inv_setVisits _ _ h))
    · exact visitQh_keeps (inv_setVisits _ _ h)
  · exact visitQh_keeps h

theorem inv_fetchStub {k : Sched} {s : State} (h : Inv s = true) : Inv (fetchStub k s) = true :=
  inv_setAuto _ _ (inv_setFetch _ _ h)

theorem advanceQueue_keeps {k : Sched} {s : State} (h : Inv s = true) : Keeps (advanceQueue k s) := by
  refine keeps_withCurrent fun q hq => ?_
  have hok := (current_ok h hq).1
  split_ifs
  · exact inv_setAuto _ _ (inv_putQueue h (queueOk_kind (k := k) (queueOk_congr hok rfl rfl rfl rfl rfl)))
  · exact inv_setAuto _ _ (inv_putQueue h (queueOk_kind (k := k) (queueOk_congr hok rfl rfl rfl rfl rfl)))
  · exact inv_setAuto _ _ h

theorem inv_dispatchNew {k : Sched} {q : Queue} {d : Qtd} {s : State} (h : Inv s = true)
    (hq : queueOk s.uframeCtr k q = true) : Inv (dispatchNew k q d s) = true := by
  unfold dispatchNew inactiveStep
  split_ifs with h1 h2 h3
  · exact inv_setAuto _ _ (inv_putQueue h (queueOk_kind hq))
  · exact inv_setAuto _ _ (inv_putQueue h (queueOk_kind hq))
  · exact inv_setAuto _ _ (inv_putQueue h (queueOk_kind hq))
  · have : q.packets = [] := by
      have : q.packets.length < 1 := Nat.lt_of_not_le h3
      exact List.eq_nil_of_length_eq_zero (by omega)
    exact inv_setAuto _ _ (inv_putQueue h (queueOk_kind (k := k) (queueOk_allocate _ _ hq this)))

/-- A reset of a good Queue, whatever it answers: no Packet and no device are left, only the outbox changes. -/
theorem resetQueue_result {ctr : Nat} {k : Sched} {q q' : Queue} {s t : State} (hq : queueOk ctr k q = true)
    (h : resetQueue q s = .ok (q', t)) :
    q' = { q with packets := [], dev := none } ∧ ∃ cs, t = { s with outbox := cs ++ s.outbox } := by
  obtain ⟨-, -, hl, -, hp⟩ := queueOk_iff.1 hq
  obtain ⟨cs, e, -⟩ := resetQueue_good s hl hp
  rw [h] at e
  cases e
  exact ⟨rfl, cs, rfl⟩

theorem dispatchQtd_keeps {k : Sched} {q : Queue} {d : Qtd} {s : State} (h : Inv s = true)
    (hq : queueOk s.uframeCtr k q = true) : Keeps (dispatchQtd k q d s) := by
  have key : ∀ q1 s1, resetQueue q s = .ok (q1, s1) → Inv (dispatchNew k q1 d s1) = true := fun q1 s1 e => by
    obtain ⟨rfl, cs, rfl⟩ := resetQueue_result hq e
    exact inv_dispatchNew (inv_outbox _ h) (queueOk_reset hq)
  simp only [dispatchQtd]
  split
  · split
    · split
      · trivial
      · exact key _ _ ‹_›
    · split
      · exact inv_setAuto _ _ h
      · exact inv_setAuto _ _ h
      · exact inv_dispatchNew h hq
  · split
    · split
      · trivial
      · exact key _ _ ‹_›
    · exact inv_dispatchNew h hq

theorem fetchQtd_keeps {k : Sched} {s : State} (h : Inv s = true) : Keeps (fetchQtd k s) :=
  keeps_withCurrent fun _ hq => dispatchQtd_keeps h (current_ok h hq).1

theorem executePacket_keeps {k : Sched} {q : Queue} {p : Packet} {s : State} (h : Inv s = true)
    (hq : queueOk s.uframeCtr k q = true) : Keeps (executePacket k q p s) := by
  have hq1 : queueOk s.uframeCtr k (q.loadOverlay p) = true := queueOk_congr hq rfl rfl rfl rfl rfl
  simp only [executePacket]
  split
  · exact h
  · split
    · exact h
    · split
      · trivial
      · rename_i r s2 h2
        have hput : Inv ((flushOverlay (q.loadOverlay p) s).putQueue (q.loadOverlay p)) = true :=
          inv_putQueue (inv_flushOverlay _ h) (by rw [flushOverlay, State.setMem_uframeCtr]; exact queueOk_kind hq1)
        refine inv_afterAnswer (inv_answerFor hput h2) ?_ fun hr => ?_
        · rw [(Walked.answerFor (k := k) h2).uframeCtr, State.putQueue_uframeCtr, flushOverlay, State.setMem_uframeCtr]
          exact hq1
        · subst hr; exact answerFor_dev h2

theorem execute_keeps {k : Sched} {s : State} (h : Inv s = true) : Keeps (execute k s) :=
  keeps_withPacket fun _ _ hp _ => executePacket_keeps h (current_ok h hp.1).1

/-- Interpreting a result: a Fatal leaves the state it was met in. -/
theorem processResult_fatal {q : Queue} {p : Packet} {r : ResultTag} {s u : State} {f : FatalReason}
    (h : processResult q p r s = .error (.fatal f u)) : u = s := by
  cases r <;> simp only [processResult] at h
  · simp only [resultCounted, resultSuccess] at h
    split at h
    · split at h
      · split at h
        · cases h; rfl
        · cases h
      · cases h
    · cases h
  all_goals cases h

theorem interpret_keeps {k : Sched} {q : Queue} {p : Packet} {s : State} (h : Inv s = true)
    (hq : queueOk s.uframeCtr k q = true) : Keeps (interpret k q p s) := by
  cases hi : interpret k q p s with
  | ok t => exact inv_interpret h hq hi
  | error e =>
    cases e with
    | fault f => trivial
    | fatal r u =>
      simp only [interpret] at hi
      split at hi
      · cases hi
      · cases hi
      · simp only [toWriteback] at hi
        split at hi
        · cases hi
          rename_i hx
          rw [processResult_fatal hx]
          exact inv_reclIfAsync k h
        · cases hi

theorem executing_keeps {k : Sched} {s : State} (h : Inv s = true) : Keeps (executing k s) :=
  keeps_withPacket fun _ _ hp _ => interpret_keeps h (current_ok h hp.1).1

theorem writebackPacket_keeps {k : Sched} {q : Queue} {p : Packet} {s : State} (h : Inv s = true)
    (hq : queueOk s.uframeCtr k q = true) : Keeps (writebackPacket k q p s) := by
  simp only [writebackPacket]
  have h2 : Inv (flushOverlay q (s.setMem (writebackQtd s.mem p q.qh.ov.token))) = true :=
    inv_flushOverlay _ (inv_setMem h (writebackQtd_wf (inv_mem h) _ _))
  have hc : (flushOverlay q (s.setMem (writebackQtd s.mem p q.qh.ov.token))).uframeCtr = s.uframeCtr := by
    rw [flushOverlay, State.setMem_uframeCtr, State.setMem_uframeCtr]
  have hf := queueOk_freePacket p hq
  rw [← hc] at hf
  generalize flushOverlay q (s.setMem (writebackQtd s.mem p q.qh.ov.token)) = s2 at h2 hf ⊢
  split
  · trivial
  · rename_i q3 s3 h3
    simp only [haltPropagation] at h3
    split at h3
    · obtain ⟨⟨l, rfl, hl, hm⟩, cs, rfl⟩ := cancelPackets_frame h3
      exact inv_setAuto _ _ (inv_putQueue (inv_outbox _ h2) (queueOk_kind (k := k) (queueOk_packets hf hl hm)))
    · cases h3
      exact inv_setAuto _ _ (inv_putQueue h2 (queueOk_kind (k := k) hf))

theorem writeback_keeps {k : Sched} {s : State} (h : Inv s = true) : Keeps (writeback k s) :=
  keeps_withPacket fun _ _ hp _ => writebackPacket_keeps h (current_ok h hp.1).1

theorem horizontalQh_keeps {k : Sched} {s : State} (h : Inv s = true) : Keeps (horizontalQh k s) :=
  keeps_withCurrent fun _ _ => inv_setAuto _ _ (inv_setCur_none (inv_setFetch _ _ h))

theorem inv_waitListHead {s : State} (h : Inv s = true) : Inv (waitListHead s) = true := by
  simp only [waitListHead]
  split
  · exact inv_setAuto _ _ (inv_setFetch _ _ (inv_setRecl _ h))
  · exact inv_setAuto _ _ (inv_setRecl _ h)

/-- A step of the walk keeps the invariant. -/
theorem walkStep_keeps {k : Sched} {s : State} (h : Inv s = true) : Keeps (walkStep k s) := by
  simp only [walkStep]
  split
  · exact h
  · exact h
  · cases k
    · exact inv_waitListHead h
    · trivial
  · exact fetchEntry_keeps h
  · exact fetchQh_keeps h
  · cases k
    · trivial
    · exact inv_fetchStub h
  · cases k
    · trivial
    · exact inv_fetchStub h
  · exact advanceQueue_keeps h
  · exact fetchQtd_keeps h
  · exact execute_keeps h
  · exact executing_keeps h
  · exact writeback_keeps h
  · exact horizontalQh_keeps h

/-- A pass keeps the invariant. -/
theorem run_keeps {k : Sched} {n : Nat} {s : State} (h : Inv s = true) : Keeps (run k n s) := by
  induction n generalizing s with
  | zero => simp only [run]; split_ifs; exacts [h, trivial]
  | succ n ih =>
    simp only [run]
    split_ifs
    · exact h
    · have := walkStep_keeps (k := k) h
      cases hw : walkStep k s with
      | error e => rw [hw] at this; exact this
      | ok t => rw [hw] at this; exact ih this

end Sys2Proof.Machine
end

