-- ==== Sys2Proof/Laws/Progress.lean ====
section
/-! SUPPORT. A walk does not fault: each step leads to a state that its successor can work on, as long as the devices
complete no other Packet inside a submit call (R311). -/

namespace Sys2Proof.Machine

/-- What each step of schedule k's walk works on is there (R37, R370, R375, R380). -/
def AtStep (k : Sched) (s : State) : Prop :=
  match (s.sched k).auto with
  | .waitListHead => k = .async
  | .fetchItd => k = .periodic
  | .fetchSitd => k = .periodic
  | .advanceQueue => ∃ q, s.current k = some q
  | .fetchQtd => ∃ q, s.current k = some q
  | .execute => ∃ q p, HasPacket s k q p ∧ p.tag = .uninit
  | .executing => ∃ q p, HasPacket s k q p ∧ p.tag = .finished
  | .writeback => ∃ q p, HasPacket s k q p ∧ p.tag = .finished
  | .horizontalQh => ∃ q, s.current k = some q
  | .inactive => True
  | .active => True
  | .fetchEntry => True
  | .fetchQh => True

/-- A step ends without a fault, at its successor, with the answers lined up still plain. -/
def Fine (k : Sched) (x : Except Stop State) : Prop :=
  match x with
  | .ok t => AtStep k t ∧ plainAnswers t = true
  | .error (.fatal _ u) => plainAnswers u = true
  | .error (.fault _) => False

theorem current_setAuto (s : State) (k : Sched) (x : AutoState) : (s.setAuto k x).current k = s.current k :=
  current_congr (by rw [State.setAuto_sched]) (by rw [State.setAuto_sched])

theorem plain_of {s t : State} (h : plainAnswers s = true) (e : t.answers = s.answers) : plainAnswers t = true := by
  unfold plainAnswers at h ⊢; rw [e]; exact h

/-! ### States set -/

theorem fine_rest {k : Sched} {s : State} {x : AutoState} (hp : plainAnswers s = true)
    (hx : x = .active ∨ x = .fetchEntry ∨ x = .fetchQh) : Fine k (.ok (s.setAuto k x)) := by
  refine ⟨?_, plain_of hp (by simp)⟩
  unfold AtStep
  rw [State.setAuto_sched]
  rcases hx with rfl | rfl | rfl <;> trivial

theorem fine_current {k : Sched} {s : State} {x : AutoState} {q : Queue} (hp : plainAnswers s = true)
    (hx : x = .advanceQueue ∨ x = .fetchQtd ∨ x = .horizontalQh) (hq : s.current k = some q) :
    Fine k (.ok (s.setAuto k x)) := by
  refine ⟨?_, plain_of hp (by simp)⟩
  unfold AtStep
  rw [State.setAuto_sched]
  rcases hx with rfl | rfl | rfl <;> exact ⟨q, by rw [current_setAuto, hq]⟩

theorem fine_packet {k : Sched} {s : State} {x : AutoState} {q : Queue} {p : Packet} (hp : plainAnswers s = true)
    (hx : (x = .execute ∧ p.tag = .uninit) ∨ ((x = .executing ∨ x = .writeback) ∧ p.tag = .finished))
    (hq : HasPacket s k q p) : Fine k (.ok (s.setAuto k x)) := by
  refine ⟨?_, plain_of hp (by simp)⟩
  unfold AtStep
  rw [State.setAuto_sched]
  have hq' : HasPacket (s.setAuto k x) k q p := ⟨by rw [current_setAuto]; exact hq.1, hq.2⟩
  rcases hx with ⟨rfl, ht⟩ | ⟨rfl | rfl, ht⟩ <;> exact ⟨q, p, hq', ht⟩

/-! ### Steps -/

theorem linkStep_fine {k : Sched} {lp : Word} {s : State} (hp : plainAnswers s = true) : Fine k (linkStep k lp s) := by
  unfold linkStep linkItdStep linkSitdStep linkFstnStep linkEndStep linkQhStep
  split_ifs
  · exact fine_rest hp (.inl rfl)
  · exact fine_rest hp (.inr (.inr rfl))
  · cases k
    · exact hp
    · exact ⟨rfl, plain_of hp (by simp)⟩
  · cases k
    · exact hp
    · exact ⟨rfl, plain_of hp (by simp)⟩
  · exact hp

theorem fetchEntry_fine {k : Sched} {s : State} (hp : plainAnswers s = true) : Fine k (fetchEntry k s) := by
  cases k <;> simp only [fetchEntry]
  · exact linkStep_fine hp
  · split
    · exact fine_rest (s := { s.setVisits .periodic _ with diagEmitted := true }) (plain_of hp (by simp)) (.inl rfl)
    · exact linkStep_fine (plain_of hp (by simp))

theorem dispatchQh_fine {k : Sched} {q : Queue} {s : State} (hp : plainAnswers s = true) (hk : q.kind = k)
    (hc : (s.sched k).curQueue = some q.qhaddr) : Fine k (.ok (dispatchQh k q s)) := by
  unfold dispatchQh haltedStep
  split_ifs
  · exact fine_current (plain_of hp (by simp)) (.inr (.inr rfl)) (current_putQueue hk hc)
  · exact fine_current (plain_of hp (by simp)) (.inr (.inl rfl))
      (current_putQueue (q := { q with qtdaddr := ptrAddr q.qh.current }) hk hc)
  · exact fine_current (plain_of hp (by simp)) (.inl rfl) (current_putQueue hk hc)

theorem resolveDevice_kind (s : State) (q : Queue) : (resolveDevice s q).kind = q.kind := by
  unfold resolveDevice; split <;> rfl

theorem resolveDevice_qhaddr (s : State) (q : Queue) : (resolveDevice s q).qhaddr = q.qhaddr := by
  unfold resolveDevice; split <;> rfl

theorem checkQh_fine {k : Sched} {q : Queue} {b : Bool} {f : Qh} {s : State} {ctr : Nat} (hp : plainAnswers s = true)
    (hq : queueOk ctr k q = true) (hc : (s.sched k).curQueue = some q.qhaddr) : Fine k (checkQh k q b f s) := by
  obtain ⟨hk, -, hl, -, hpk⟩ := queueOk_iff.1 hq
  simp only [checkQh]
  split
  · rename_i h1
    split at h1
    · obtain ⟨cs, e, -⟩ := resetQueue_good s hl hpk
      rw [e] at h1; cases h1
    · cases h1
  · rename_i q1 s1 h1
    split at h1
    · obtain ⟨rfl, cs, rfl⟩ := resetQueue_result hq h1
      refine dispatchQh_fine (plain_of hp rfl) (by rw [resolveDevice_kind]; exact hk) ?_
      rw [resolveDevice_qhaddr, ← hc]
      cases k <;> rfl
    · cases h1
      exact dispatchQh_fine hp (by rw [resolveDevice_kind]; exact hk) (by rw [resolveDevice_qhaddr]; exact hc)

theorem visitQh_fine {k : Sched} {s : State} (h : Inv s = true) (hp : plainAnswers s = true) : Fine k (visitQh k s) := by
  obtain ⟨h1, h2⟩ := findOrCreate_ok (k := k) (w := (s.sched k).fetchAddr) h
  have h3 := queueOk_markSeen h1
  simp only [visitQh]
  generalize hq : (s.findOrCreate k (ptrAddr (s.sched k).fetchAddr)).1.markSeen s.uframeCtr = q at h3 ⊢
  have ha : q.qhaddr = ptrAddr (s.sched k).fetchAddr := by rw [← hq]; exact h2
  have hplain : plainAnswers ((s.putQueue q).setCur k (some (ptrAddr (s.sched k).fetchAddr))) = true :=
    plain_of hp (by simp)
  have hc : (((s.putQueue q).setCur k (some (ptrAddr (s.sched k).fetchAddr))).sched k).curQueue = some q.qhaddr := by
    rw [State.setCur_sched, ha]
  split
  · split
    · exact checkQh_fine (plain_of hplain (by simp)) h3 (by rw [State.setRecl_sched]; exact hc)
    · exact fine_rest hplain (.inl rfl)
  · exact checkQh_fine hplain h3 hc

theorem fetchQh_fine {k : Sched} {s : State} (h : Inv s = true) (hp : plainAnswers s = true) : Fine k (fetchQh k s) := by
  cases k <;> simp only [fetchQh]
  · split
    · exact fine_rest (s := { s.setVisits .async _ with diagEmitted := true }) (plain_of hp (by simp)) (.inl rfl)
    · exact visitQh_fine (inv_setVisits _ _ h) (plain_of hp (by simp))
  · exact visitQh_fine h hp

theorem fetchStub_fine {k : Sched} {s : State} (hp : plainAnswers s = true) : Fine k (.ok (fetchStub k s)) :=
  fine_rest (plain_of hp (by simp)) (.inr (.inl rfl))

theorem advanceQueue_fine {k : Sched} {s : State} {q : Queue} (h : Inv s = true) (hp : plainAnswers s = true)
    (hq : s.current k = some q) : Fine k (advanceQueue k s) := by
  obtain ⟨-, hk, hc, -⟩ := current_ok h hq
  simp only [advanceQueue, withCurrent, hq]
  split_ifs
  · exact fine_current (plain_of hp (by simp)) (.inr (.inl rfl))
      (current_putQueue (q := { q with qtdaddr := ptrAddr q.qh.ov.alt }) hk hc)
  · exact fine_current (plain_of hp (by simp)) (.inr (.inl rfl))
      (current_putQueue (q := { q with qtdaddr := ptrAddr q.qh.ov.next }) hk hc)
  · exact fine_current hp (.inr (.inr rfl)) hq

theorem dispatchNew_fine {k : Sched} {q : Queue} {d : Qtd} {s : State} (hp : plainAnswers s = true) (hk : q.kind = k)
    (hc : (s.sched k).curQueue = some q.qhaddr) : Fine k (.ok (dispatchNew k q d s)) := by
  unfold dispatchNew inactiveStep
  split_ifs with h1 h2 h3
  · exact fine_current (plain_of hp (by simp)) (.inr (.inr rfl)) (current_putQueue hk hc)
  · exact fine_current (plain_of hp (by simp)) (.inr (.inr rfl)) (current_putQueue hk hc)
  · exact fine_current (plain_of hp (by simp)) (.inr (.inr rfl)) (current_putQueue hk hc)
  · have hnil : q.packets = [] := by
      have : q.packets.length < 1 := Nat.lt_of_not_le h3
      exact List.eq_nil_of_length_eq_zero (by omega)
    refine fine_packet (q := q.allocate q.qtdaddr d) (p := newPacket q.qtdaddr d) (plain_of hp (by simp))
      (.inl ⟨rfl, rfl⟩) ⟨current_putQueue (q := q.allocate q.qtdaddr d) hk hc, ?_⟩
    simp [Queue.allocate, hnil, findPacket, newPacket]

theorem dispatchQtd_fine {k : Sched} {q : Queue} {d : Qtd} {s : State} (h : Inv s = true) (hp : plainAnswers s = true)
    (hq : s.current k = some q) : Fine k (dispatchQtd k q d s) := by
  obtain ⟨hok, hk, hc, -⟩ := current_ok h hq
  obtain ⟨-, -, hl, -, hpk⟩ := queueOk_iff.1 hok
  obtain ⟨cs, e, -⟩ := resetQueue_good s hl hpk
  have key : Fine k (.ok (dispatchNew k { q with packets := [], dev := none } d
      { s with outbox := cs ++ s.outbox })) :=
    dispatchNew_fine (plain_of hp rfl) hk (by rw [← hc]; cases k <;> rfl)
  simp only [dispatchQtd, e]
  split
  · rename_i p hpf
    split
    · exact key
    · split
      · exact fine_current hp (.inr (.inr rfl)) hq
      · exact fine_packet hp (.inr ⟨.inl rfl, ‹_›⟩) ⟨hq, hpf⟩
      · exact dispatchNew_fine hp hk hc
  · split
    · exact key
    · exact dispatchNew_fine hp hk hc

theorem fetchQtd_fine {k : Sched} {s : State} {q : Queue} (h : Inv s = true) (hp : plainAnswers s = true)
    (hq : s.current k = some q) : Fine k (fetchQtd k s) := by
  simp only [fetchQtd, withCurrent, hq]
  exact dispatchQtd_fine h hp hq

/-- A submit call in which the device completes nothing (R287): the answer is the one there is now, and only what is given
out and the environment's answers change. -/
theorem answerFor_front (q : Queue) (p : Packet) {s : State} (h : ∀ a ∈ s.answers.head?, a.completions = []) :
    answerFor q p s = .ok (answerNow q s, match q.dev with
      | none => s
      | some d => (s.emit (.submit d (requestOf q p))).nextAnswer.2) := by
  unfold answerFor answerNow
  cases q.dev with
  | none => rfl
  | some d =>
    simp only [submit, State.nextAnswer, State.emit_answers]
    cases ha : s.answers with
    | nil => rfl
    | cons a rest =>
      simp only [h a (by simp [ha]), deliverAll]
      rfl

/-- A submit call in which the device completes nothing else (R287): it changes no register and no Queue. -/
theorem answerFor_plain (q : Queue) (p : Packet) {s : State} (hp : plainAnswers s = true) :
    ∃ r t, answerFor q p s = .ok (r, t) ∧ plainAnswers t = true ∧ (∀ k, t.sched k = s.sched k) ∧
      t.mem = s.mem ∧ t.recl = s.recl := by
  unfold answerFor
  split
  · exact ⟨_, _, rfl, hp, fun _ => rfl, rfl, rfl⟩
  · simp only [submit, State.nextAnswer, State.emit_answers]
    cases ha : s.answers with
    | nil => exact ⟨_, _, rfl, plain_of hp (by simp [ha]), fun k => by cases k <;> rfl, rfl, rfl⟩
    | cons a rest =>
      unfold plainAnswers at hp
      rw [ha, List.all_cons, Bool.and_eq_true] at hp
      have hc : a.completions = [] := by simpa using hp.1
      simp only [hc, deliverAll]
      exact ⟨_, _, rfl, hp.2, fun k => by cases k <;> rfl, rfl, rfl⟩

theorem afterAnswer_fine {k : Sched} {q : Queue} {p : Packet} {r : DevAnswer} {s : State} (hp : plainAnswers s = true)
    (hk : q.kind = k) (hc : (s.sched k).curQueue = some q.qhaddr)
    (hf : (findPacket q.packets q.qtdaddr).isSome = true) (hq : p.qtdaddr = q.qtdaddr) :
    Fine k (.ok (afterAnswer k q p r s)) := by
  obtain ⟨p0, hp0⟩ := Option.isSome_iff_exists.1 hf
  unfold afterAnswer
  split
  · refine fine_current (plain_of hp (by simp [flushOverlay])) (.inr (.inr rfl))
      (q := q.putPacket { p with tag := .inflight }) ?_
    rw [current_congr (s := s.putQueue (q.putPacket { p with tag := .inflight })) (by simp [flushOverlay])
      (by simp [flushOverlay])]
    exact current_putQueue hk hc
  · refine fine_packet (q := q.putPacket (p.settle r)) (p := p.settle r) (plain_of hp (by simp))
      (.inr ⟨.inl rfl, settle_tag _ _⟩) ⟨current_putQueue hk hc, ?_⟩
    have : (p.settle r).qtdaddr = q.qtdaddr := by rw [settle_qtdaddr, hq]
    show findPacket (replacePacket q.packets (p.settle r)) q.qtdaddr = _
    rw [← this]
    exact findPacket_replacePacket (by rw [this]; exact hp0)

theorem executePacket_fine {k : Sched} {q : Queue} {p : Packet} {s : State} (h : Inv s = true)
    (hp : plainAnswers s = true) (hq : HasPacket s k q p) (p' : Packet) (hp' : p'.qtdaddr = p.qtdaddr) :
    Fine k (executePacket k q p' s) := by
  obtain ⟨hok, hk, hc, -⟩ := current_ok h hq.1
  have hpa := (findPacket_some hq.2).2
  simp only [executePacket]
  split
  · exact hp
  · split
    · exact hp
    · have hplain : plainAnswers ((flushOverlay (q.loadOverlay p') s).putQueue (q.loadOverlay p')) = true :=
        plain_of hp (by simp [flushOverlay])
      split
      · rename_i h1
        obtain ⟨r, t, e, -⟩ := answerFor_plain (q.loadOverlay p') _ hplain
        rw [h1] at e; cases e
      · rename_i h1
        obtain ⟨r, t, e, e1, e2, -⟩ := answerFor_plain (q.loadOverlay p') _ hplain
        rw [h1] at e; cases e
        refine afterAnswer_fine e1 hk ?_ ?_ ?_
        · rw [e2, curQueue_putQueue, flushOverlay, State.setMem_sched]; exact hc
        · show (findPacket q.packets q.qtdaddr).isSome = true
          rw [hq.2]; rfl
        · show (if _ then p' else _).qtdaddr = q.qtdaddr
          split
          · rw [hp', hpa]
          · show p'.qtdaddr = _
            rw [hp', hpa]

theorem execute_fine {k : Sched} {s : State} {q : Queue} {p : Packet} (h : Inv s = true) (hp : plainAnswers s = true)
    (hq : HasPacket s k q p) (ht : p.tag = .uninit) : Fine k (execute k s) := by
  simp only [execute, withPacket, withCurrent, hq.1, hq.2, if_pos ht]
  exact executePacket_fine h hp hq p rfl

/-- Interpreting a result other than NAK and PENDING: no fault; only the QH of the Queue, the memory and the pending
interrupts change. -/
theorem processResult_plain (q : Queue) (p : Packet) {r : ResultTag} (s : State) (h1 : r ≠ .nak) (h2 : r ≠ .pending) :
    (∃ h' t, processResult q p r s = .ok ({ q with qh := h' }, t) ∧ (∀ k, t.sched k = s.sched k) ∧
      t.answers = s.answers) ∨
    processResult q p r s = .error (.fatal .pageIndex s) := by
  have hirq : ∀ b w (s : State), (∀ k, (successIrq b w s).sched k = s.sched k) ∧
      (successIrq b w s).answers = s.answers := by
    intro b w s
    unfold successIrq
    split <;> exact ⟨fun k => by simp, by simp⟩
  cases r <;> simp only [processResult]
  · simp only [resultCounted]
    split
    · simp only [resultSuccess]
      split
      · split
        · exact .inr rfl
        · refine .inl ⟨_, _, rfl, fun k => ?_, ?_⟩
          · rw [(hirq _ _ _).1, State.setMem_sched]
          · rw [(hirq _ _ _).2, State.setMem_answers]
      · exact .inl ⟨_, _, rfl, (hirq _ _ _).1, (hirq _ _ _).2⟩
    · exact .inl ⟨_, _, rfl, fun k => by simp, by simp⟩
  · exact absurd rfl h1
  · exact .inl ⟨_, _, rfl, fun k => by simp, by simp⟩
  · exact .inl ⟨_, _, rfl, fun k => by simp, by simp⟩
  · exact .inl ⟨_, _, rfl, fun k => by simp, by simp⟩
  · exact .inl ⟨_, _, rfl, fun k => by simp, by simp⟩
  · exact absurd rfl h2

theorem executing_fine {k : Sched} {s : State} {q : Queue} {p : Packet} (h : Inv s = true) (hp : plainAnswers s = true)
    (hq : HasPacket s k q p) (ht : p.tag = .finished) : Fine k (executing k s) := by
  obtain ⟨hok, hk, hc, -⟩ := current_ok h hq.1
  have hpk := (queueOk_iff.1 hok).2.2.2.2 p (findPacket_some hq.2).1
  simp only [executing, withPacket, withCurrent, hq.1, hq.2, if_pos ht, interpret]
  simp only [packetOk, ht] at hpk
  cases hr : p.result with
  | none => simp [hr] at hpk
  | some r =>
    have key : r ≠ .nak → r ≠ .pending → Fine k (toWriteback k (processResult q p r (s.reclIfAsync k))) := by
      intro h1 h2
      rcases processResult_plain q p (s.reclIfAsync k) h1 h2 with ⟨h', t, e, e1, e2⟩ | e
      · rw [e]
        refine fine_packet (q := { q with qh := h' }) (p := p) (plain_of hp ?_) (.inr ⟨.inr rfl, ht⟩)
          ⟨current_putQueue (q := { q with qh := h' }) hk ?_, hq.2⟩
        · rw [State.putQueue_answers, e2, State.reclIfAsync_answers]
        · rw [e1, State.reclIfAsync_sched]; exact hc
      · rw [e]; exact plain_of hp (State.reclIfAsync_answers s k)
    cases r with
    | nak => exact fine_current (plain_of hp (by simp)) (.inr (.inr rfl)) (current_putQueue (q := q.freePacket p) hk hc)
    | pending => simp [hr] at hpk
    | count => exact key (by simp) (by simp)
    | stall => exact key (by simp) (by simp)
    | ioerror => exact key (by simp) (by simp)
    | nodev => exact key (by simp) (by simp)
    | babble => exact key (by simp) (by simp)

theorem writeback_fine {k : Sched} {s : State} {q : Queue} {p : Packet} (h : Inv s = true) (hp : plainAnswers s = true)
    (hq : HasPacket s k q p) (ht : p.tag = .finished) : Fine k (writeback k s) := by
  obtain ⟨hok, hk, hc, -⟩ := current_ok h hq.1
  have hf := queueOk_freePacket p hok
  obtain ⟨-, -, hl, -, hpk⟩ := queueOk_iff.1 hf
  simp only [writeback, withPacket, withCurrent, hq.1, hq.2, if_pos ht, writebackPacket]
  have hc2 : ((flushOverlay q (s.setMem (writebackQtd s.mem p q.qh.ov.token))).sched k).curQueue = some q.qhaddr := by
    rw [flushOverlay, State.setMem_sched, State.setMem_sched]; exact hc
  have hp2 : plainAnswers (flushOverlay q (s.setMem (writebackQtd s.mem p q.qh.ov.token))) = true :=
    plain_of hp (by rw [flushOverlay, State.setMem_answers, State.setMem_answers])
  generalize flushOverlay q (s.setMem (writebackQtd s.mem p q.qh.ov.token)) = s2 at hc2 hp2 ⊢
  obtain ⟨cs, e, -⟩ := cancelPackets_good s2 hl hpk
  split
  · rename_i h1
    simp only [haltPropagation] at h1
    split at h1
    · rw [e] at h1; cases h1
    · cases h1
  · rename_i q3 s3 h1
    simp only [haltPropagation] at h1
    split at h1
    · rw [e] at h1; cases h1
      refine fine_current (plain_of hp2 (by simp)) (.inr (.inr rfl))
        (current_putQueue (q := { q.freePacket p with packets := [] }) hk ?_)
      rw [show (q.freePacket p).qhaddr = q.qhaddr from rfl, ← hc2]
      cases k <;> rfl
    · cases h1
      exact fine_current (plain_of hp2 (by simp)) (.inr (.inr rfl)) (current_putQueue (q := q.freePacket p) hk hc2)

theorem horizontalQh_fine {k : Sched} {s : State} {q : Queue} (hp : plainAnswers s = true)
    (hq : s.current k = some q) : Fine k (horizontalQh k s) := by
  simp only [horizontalQh, withCurrent, hq]
  exact fine_rest (plain_of hp (by simp)) (.inr (.inl rfl))

theorem waitListHead_fine {s : State} (hp : plainAnswers s = true) : Fine .async (.ok (waitListHead s)) := by
  simp only [waitListHead]
  split
  · exact fine_rest (plain_of hp (by simp)) (.inr (.inl rfl))
  · exact fine_rest (plain_of hp (by simp)) (.inl rfl)

/-- A step of the walk does not fault. -/
theorem walkStep_fine {k : Sched} {s : State} (h : Inv s = true) (ha : AtStep k s) (hp : plainAnswers s = true) :
    Fine k (walkStep k s) := by
  have ha0 := ha
  unfold AtStep at ha
  unfold walkStep
  cases hx : (s.sched k).auto <;> simp only [hx] at ha ⊢
  · exact ⟨ha0, hp⟩
  · exact ⟨ha0, hp⟩
  · subst ha; exact waitListHead_fine hp
  · exact fetchEntry_fine hp
  · exact fetchQh_fine h hp
  · subst ha; exact fetchStub_fine hp
  · subst ha; exact fetchStub_fine hp
  · obtain ⟨q, hq⟩ := ha; exact advanceQueue_fine h hp hq
  · obtain ⟨q, hq⟩ := ha; exact fetchQtd_fine h hp hq
  · obtain ⟨q, p, hq, ht⟩ := ha; exact execute_fine h hp hq ht
  · obtain ⟨q, p, hq, ht⟩ := ha; exact executing_fine h hp hq ht
  · obtain ⟨q, p, hq, ht⟩ := ha; exact writeback_fine h hp hq ht
  · obtain ⟨q, hq⟩ := ha; exact horizontalQh_fine hp hq

/-- A pass does not fault, unless its budget of steps is too small. -/
theorem run_fine {k : Sched} {n : Nat} {s : State} (h : Inv s = true) (ha : AtStep k s) (hp : plainAnswers s = true)
    (hb : run k n s ≠ .error (.fault .passTooLong)) : Fine k (run k n s) := by
  induction n generalizing s with
  | zero =>
    simp only [run] at hb ⊢
    split_ifs at hb ⊢
    · exact ⟨ha, hp⟩
    · exact absurd rfl hb
  | succ n ih =>
    simp only [run] at hb ⊢
    split_ifs at hb ⊢
    · exact ⟨ha, hp⟩
    · have h1 := walkStep_fine h ha hp
      have h2 := walkStep_keeps (k := k) h
      cases hw : walkStep k s with
      | error e => rw [hw] at h1; exact h1
      | ok t =>
        rw [hw] at h1 h2
        simp only [hw] at hb
        exact ih h2 h1.1 h1.2 hb

end Sys2Proof.Machine
end

