-- ==== Sys2Proof/Laws/Termination.lean ====
section
/-! SUPPORT. Every pass ends (R346): each step of a walk comes nearer to its end, which the visit bounds set. -/

namespace Sys2Proof.Machine

/-! ### No operation of a step runs out of a budget -/

/-- An operation that does not answer with the fault of the step budget. -/
def NotLong {α : Type} (x : Except Fault α) : Prop := x ≠ .error .passTooLong

theorem cancelPacket_notLong (q : Queue) (p : Packet) (s : State) : NotLong (cancelPacket q p s) := by
  unfold NotLong cancelPacket
  split
  · split <;> simp
  · simp

theorem cancelPackets_notLong (l : List Packet) (q : Queue) (s : State) : NotLong (cancelPackets l q s) := by
  induction l generalizing q s with
  | nil => simp [NotLong, cancelPackets]
  | cons p l ih =>
    have h := cancelPacket_notLong q p s
    unfold NotLong at h ⊢
    simp only [cancelPackets]
    split
    · rename_i f hf
      intro e; cases e; exact h hf
    · exact ih _ _

theorem resetQueue_notLong (q : Queue) (s : State) : NotLong (resetQueue q s) := by
  have h := cancelPackets_notLong q.packets.reverse q s
  unfold NotLong at h ⊢
  simp only [resetQueue]
  split
  · rename_i f hf
    intro e; cases e; exact h hf
  · simp

theorem deliver_notLong (c : Completion) (s : State) : NotLong (deliver c s) := by
  unfold NotLong
  simp only [deliver]
  split
  · simp
  · split
    · simp
    · split_ifs <;> simp

theorem deliverAll_notLong (q : Queue) (p : Packet) (l : List Completion) (r : Option DevAnswer) (s : State) :
    NotLong (deliverAll q p l r s) := by
  induction l generalizing r s with
  | nil => simp [NotLong, deliverAll]
  | cons c l ih =>
    have h := deliver_notLong c s
    unfold NotLong at h ⊢
    simp only [deliverAll]
    split
    · split
      · simp
      · exact ih _ _
    · split
      · rename_i f hf
        intro e; cases e; exact h hf
      · exact ih _ _

theorem answerFor_notLong (q : Queue) (p : Packet) (s : State) : NotLong (answerFor q p s) := by
  unfold NotLong
  simp only [answerFor]
  split
  · simp
  · rename_i d _
    simp only [submit]
    split
    · rename_i f hf
      intro e; cases e
      exact deliverAll_notLong _ _ _ _ _ hf
    · simp

/-! ### The measure -/

/-- How far the state of a walk is from the next visit. -/
def autoRank (k : Sched) : AutoState → Nat
  | .inactive => 0
  | .active => 0
  | .waitListHead => 3
  | .fetchEntry => match k with
    | .async => 2
    | .periodic => 1
  | .fetchQh => match k with
    | .async => 1
    | .periodic => 8
  | .fetchItd => 2
  | .fetchSitd => 2
  | .advanceQueue => match k with
    | .async => 8
    | .periodic => 7
  | .fetchQtd => match k with
    | .async => 7
    | .periodic => 6
  | .execute => match k with
    | .async => 6
    | .periodic => 5
  | .executing => match k with
    | .async => 5
    | .periodic => 4
  | .writeback => match k with
    | .async => 4
    | .periodic => 3
  | .horizontalQh => match k with
    | .async => 3
    | .periodic => 2

/-- The visit bound of a schedule (R341, R352). -/
def visitBound (k : Sched) (p : Params) : Nat :=
  match k with
  | .async => p.maxQhVisits
  | .periodic => p.maxPeriodicVisits

/-- The steps a walk has left, at most. -/
def stepsLeft (k : Sched) (s : State) : Nat :=
  8 * (visitBound k s.params - (s.sched k).visits) + autoRank k (s.sched k).auto

/-- What a step that visits nothing new leads to: the same count of visits and one of the states listed. -/
def Leads (k : Sched) (s t : State) (l : List AutoState) : Prop :=
  (t.sched k).visits = (s.sched k).visits ∧ (t.sched k).auto ∈ l

theorem visits_putQueue (s : State) (q : Queue) (k : Sched) :
    ((s.putQueue q).sched k).visits = (s.sched k).visits := by
  by_cases hk : k = q.kind
  · subst hk; rw [State.putQueue_sched]
  · rw [State.putQueue_sched_ne _ _ hk]

theorem visits_deliver {c : Completion} {s t : State} (h : deliver c s = .ok t) (k : Sched) :
    (t.sched k).visits = (s.sched k).visits := by
  simp only [deliver] at h
  split at h
  · cases h
  · split at h
    · cases h
    · split_ifs at h
      cases h; exact visits_putQueue _ _ _

theorem visits_deliverAll {q : Queue} {p : Packet} {l : List Completion} {r r' : Option DevAnswer} {s t : State}
    (h : deliverAll q p l r s = .ok (r', t)) (k : Sched) : (t.sched k).visits = (s.sched k).visits := by
  induction l generalizing r s with
  | nil => cases h; rfl
  | cons c l ih =>
    simp only [deliverAll] at h
    split at h
    · split at h
      · cases h
      · exact ih h
    · split at h
      · cases h
      · rename_i h1
        rw [ih h, visits_deliver h1]

theorem visits_answerFor {q : Queue} {p : Packet} {r : DevAnswer} {s t : State} (h : answerFor q p s = .ok (r, t))
    (k : Sched) : (t.sched k).visits = (s.sched k).visits := by
  simp only [answerFor] at h
  split at h
  · cases h; rfl
  · simp only [submit] at h
    split at h
    · cases h
    · rename_i h1
      cases h
      rw [visits_deliverAll h1]
      unfold State.nextAnswer
      split <;> cases k <;> rfl

theorem visits_outbox (s : State) (o : List Output) (k : Sched) :
    (({ s with outbox := o } : State).sched k).visits = (s.sched k).visits := by cases k <;> rfl

theorem leads_setAuto {k : Sched} {s t : State} {x : AutoState} {l : List AutoState}
    (h : (t.sched k).visits = (s.sched k).visits) (hx : x ∈ l) : Leads k s (t.setAuto k x) l := by
  refine ⟨?_, ?_⟩
  · rw [State.setAuto_sched]; exact h
  · rw [State.setAuto_sched]; exact hx

theorem linkStep_leads {k : Sched} {lp : Word} {s t : State} (h : linkStep k lp s = .ok t) :
    Leads k s t (match k with | .async => [.active, .fetchQh] | .periodic => [.active, .fetchQh, .fetchItd, .fetchSitd]) := by
  simp only [linkStep, linkItdStep, linkSitdStep, linkFstnStep, linkEndStep, linkQhStep] at h
  split_ifs at h
  · cases h; exact leads_setAuto rfl (by cases k <;> simp)
  · cases h; exact leads_setAuto rfl (by cases k <;> simp)
  · cases k <;> cases h; exact leads_setAuto rfl (by simp)
  · cases k <;> cases h; exact leads_setAuto rfl (by simp)

theorem dispatchQh_leads {k : Sched} (q : Queue) (s : State) :
    Leads k s (dispatchQh k q s) [.horizontalQh, .fetchQtd, .advanceQueue] := by
  unfold dispatchQh haltedStep
  split_ifs
  · exact leads_setAuto (visits_putQueue _ _ _) (by simp)
  · exact leads_setAuto (visits_putQueue _ _ _) (by simp)
  · exact leads_setAuto (visits_putQueue _ _ _) (by simp)

theorem checkQh_leads {k : Sched} {q : Queue} {b : Bool} {f : Qh} {s t : State} (h : checkQh k q b f s = .ok t) :
    Leads k s t [.horizontalQh, .fetchQtd, .advanceQueue] := by
  simp only [checkQh] at h
  split at h
  · cases h
  · rename_i q1 s1 h1
    cases h
    have hd := dispatchQh_leads (k := k) (resolveDevice s1 { q1 with qh := f }) s1
    split at h1
    · obtain ⟨-, cs, rfl⟩ := resetQueue_frame h1
      exact ⟨hd.1.trans (visits_outbox _ _ _), hd.2⟩
    · cases h1; exact hd

theorem visitQh_leads {k : Sched} {s t : State} (h : visitQh k s = .ok t) :
    Leads k s t [.active, .horizontalQh, .fetchQtd, .advanceQueue] := by
  have hv : ∀ q u, (((s.putQueue q).setCur k u).sched k).visits = (s.sched k).visits := fun q u => by
    rw [State.setCur_sched]; exact visits_putQueue _ _ _
  simp only [visitQh] at h
  split at h
  · split at h
    · have hc := checkQh_leads h
      refine ⟨hc.1.trans (by rw [State.setRecl_sched]; exact hv _ _), ?_⟩
      have := hc.2; simp only [List.mem_cons] at this ⊢; exact .inr this
    · cases h; exact leads_setAuto (hv _ _) (by simp)
  · have hc := checkQh_leads h
    refine ⟨hc.1.trans (hv _ _), ?_⟩
    have := hc.2; simp only [List.mem_cons] at this ⊢; exact .inr this

theorem dispatchNew_leads {k : Sched} (q : Queue) (d : Qtd) (s : State) :
    Leads k s (dispatchNew k q d s) [.horizontalQh, .execute, .executing] := by
  unfold dispatchNew inactiveStep
  split_ifs <;> exact leads_setAuto (visits_putQueue _ _ _) (by simp)

theorem dispatchQtd_leads {k : Sched} {q : Queue} {d : Qtd} {s t : State} (h : dispatchQtd k q d s = .ok t) :
    Leads k s t [.horizontalQh, .execute, .executing] := by
  have key : ∀ q1 s1, resetQueue q s = .ok (q1, s1) → Leads k s (dispatchNew k q1 d s1) [.horizontalQh, .execute, .executing] :=
    fun q1 s1 e => by
      obtain ⟨-, cs, rfl⟩ := resetQueue_frame e
      have := dispatchNew_leads (k := k) q1 d { s with outbox := cs ++ s.outbox }
      exact ⟨this.1.trans (visits_outbox _ _ _), this.2⟩
  simp only [dispatchQtd] at h
  split at h
  · split at h
    · split at h
      · cases h
      · cases h; exact key _ _ ‹_›
    · split at h <;> cases h
      · exact leads_setAuto rfl (by simp)
      · exact leads_setAuto rfl (by simp)
      · exact dispatchNew_leads _ _ _
  · split at h
    · split at h
      · cases h
      · cases h; exact key _ _ ‹_›
    · cases h; exact dispatchNew_leads _ _ _

theorem executePacket_leads {k : Sched} {q : Queue} {p : Packet} {s t : State} (h : executePacket k q p s = .ok t) :
    Leads k s t [.horizontalQh, .executing] := by
  simp only [executePacket] at h
  split at h
  · cases h
  · split at h
    · cases h
    · split at h
      · cases h
      · rename_i h1
        cases h
        have hv := visits_answerFor h1 k
        rw [visits_putQueue, flushOverlay, State.setMem_sched] at hv
        unfold afterAnswer
        split
        · refine leads_setAuto ?_ (by simp)
          rw [State.reclIfAsync_sched, flushOverlay, State.setMem_sched, visits_putQueue, hv]
        · refine leads_setAuto ?_ (by simp)
          rw [visits_putQueue, hv]

theorem processResult_sched {q q' : Queue} {p : Packet} {r : ResultTag} {s t : State}
    (h : processResult q p r s = .ok (q', t)) (k : Sched) : t.sched k = s.sched k := by
  have hirq : ∀ b w (s : State), (successIrq b w s).sched k = s.sched k := by
    intro b w s
    unfold successIrq
    split
    · simp
    · rfl
  cases r <;> simp only [processResult] at h
  · simp only [resultCounted] at h
    split at h
    · simp only [resultSuccess] at h
      split at h
      · split at h
        · cases h
        · cases h; rw [hirq, State.setMem_sched]
      · cases h; exact hirq _ _ _
    · cases h; simp
  · cases h
  · cases h; simp
  · cases h; simp
  · cases h; simp
  · cases h; simp
  · cases h

theorem interpret_leads {k : Sched} {q : Queue} {p : Packet} {s t : State} (h : interpret k q p s = .ok t) :
    Leads k s t [.horizontalQh, .writeback] := by
  simp only [interpret] at h
  split at h
  · cases h
  · cases h; exact leads_setAuto (visits_putQueue _ _ _) (by simp)
  · simp only [toWriteback] at h
    split at h
    · cases h
    · rename_i h1
      cases h
      refine leads_setAuto ?_ (by simp)
      rw [visits_putQueue, processResult_sched h1, State.reclIfAsync_sched]

theorem writebackPacket_leads {k : Sched} {q : Queue} {p : Packet} {s t : State}
    (h : writebackPacket k q p s = .ok t) : Leads k s t [.horizontalQh] := by
  simp only [writebackPacket] at h
  split at h
  · cases h
  · rename_i q3 s3 h3
    cases h
    refine leads_setAuto ?_ (by simp)
    rw [visits_putQueue]
    simp only [haltPropagation] at h3
    split at h3
    · obtain ⟨-, cs, rfl⟩ := cancelPackets_frame h3
      rw [visits_outbox, flushOverlay, State.setMem_sched, State.setMem_sched]
    · cases h3
      rw [flushOverlay, State.setMem_sched, State.setMem_sched]

theorem withCurrent_ok {k : Sched} {s t : State} {f : Queue → Except Stop State} (h : withCurrent k s f = .ok t) :
    ∃ q, s.current k = some q ∧ f q = .ok t := by
  simp only [withCurrent] at h
  split at h
  · cases h
  · exact ⟨_, ‹_›, h⟩

theorem withPacket_ok {k : Sched} {g : PacketTag} {s t : State} {f : Queue → Packet → Except Stop State}
    (h : withPacket k g s f = .ok t) : ∃ q p, HasPacket s k q p ∧ p.tag = g ∧ f q p = .ok t := by
  obtain ⟨q, hq, h⟩ := withCurrent_ok h
  split at h
  · cases h
  · split at h
    · exact ⟨q, _, ⟨hq, ‹_›⟩, ‹_›, h⟩
    · cases h

/-- A step of a walk leads to rest or comes nearer to its end. -/
theorem walkStep_nearer {k : Sched} {s t : State} (h : walkStep k s = .ok t)
    (hi : autoIdle (s.sched k).auto = false) :
    autoIdle (t.sched k).auto = true ∨ stepsLeft k t < stepsLeft k s := by
  have hpar := (Walked.walkStep h).params
  have close : ∀ l, Leads k s t l → (∀ x ∈ l, autoIdle x = true ∨ autoRank k x < autoRank k (s.sched k).auto) →
      autoIdle (t.sched k).auto = true ∨ stepsLeft k t < stepsLeft k s := by
    intro l hl hr
    rcases hr _ hl.2 with h1 | h1
    · exact .inl h1
    · refine .inr ?_
      unfold stepsLeft
      rw [hpar, hl.1]; omega
  have visit : ∀ l, (visitBound k s.params < (s.sched k).visits + 1 → autoIdle (t.sched k).auto = true) →
      (¬ visitBound k s.params < (s.sched k).visits + 1 → Leads k (s.setVisits k ((s.sched k).visits + 1)) t l) →
      (∀ x ∈ l, autoIdle x = true ∨ autoRank k x < 8 + autoRank k (s.sched k).auto) →
      autoIdle (t.sched k).auto = true ∨ stepsLeft k t < stepsLeft k s := by
    intro l h0 h1 hr
    by_cases hb : visitBound k s.params < (s.sched k).visits + 1
    · exact .inl (h0 hb)
    · obtain ⟨hv, ha⟩ := h1 hb
      rw [State.setVisits_sched] at hv
      rcases hr _ ha with h2 | h2
      · exact .inl h2
      · refine .inr ?_
        unfold stepsLeft
        rw [hpar, hv]
        simp only
        omega
  unfold walkStep at h
  cases hx : (s.sched k).auto <;> simp only [hx] at h hi close visit
  · cases hi
  · cases hi
  · cases k
    · cases h
      refine close [.fetchEntry, .active] ?_ (by decide)
      simp only [waitListHead]
      split
      · exact leads_setAuto (by simp) (by simp)
      · exact leads_setAuto (by simp) (by simp)
    · cases h
  · cases k <;> simp only [fetchEntry] at h
    · exact close [.active, .fetchQh] (linkStep_leads h) (by decide)
    · refine visit [.active, .fetchQh, .fetchItd, .fetchSitd] (fun hb => ?_) (fun hb => ?_) (by decide)
      · rw [if_pos (by rw [State.setVisits_sched]; exact hb)] at h
        cases h
        rfl
      · rw [if_neg (by rw [State.setVisits_sched]; exact hb)] at h
        exact linkStep_leads h
  · cases k <;> simp only [fetchQh] at h
    · refine visit [.active, .horizontalQh, .fetchQtd, .advanceQueue] (fun hb => ?_) (fun hb => ?_) (by decide)
      · rw [if_pos (by rw [State.setVisits_sched]; exact hb)] at h
        cases h
        rfl
      · rw [if_neg (by rw [State.setVisits_sched]; exact hb)] at h
        exact visitQh_leads h
    · exact close _ (visitQh_leads h) (by decide)
  · cases k <;> cases h
    exact close [.fetchEntry] (leads_setAuto (by simp) (by simp)) (by decide)
  · cases k <;> cases h
    exact close [.fetchEntry] (leads_setAuto (by simp) (by simp)) (by decide)
  · obtain ⟨q, -, h⟩ := withCurrent_ok h
    refine close [.fetchQtd, .horizontalQh] ?_ (by cases k <;> decide)
    split_ifs at h <;> cases h
    · exact leads_setAuto (visits_putQueue _ _ _) (by simp)
    · exact leads_setAuto (visits_putQueue _ _ _) (by simp)
    · exact leads_setAuto rfl (by simp)
  · obtain ⟨q, -, h⟩ := withCurrent_ok h
    exact close _ (dispatchQtd_leads h) (by cases k <;> decide)
  · obtain ⟨q, p, -, -, h⟩ := withPacket_ok h
    exact close _ (executePacket_leads h) (by cases k <;> decide)
  · obtain ⟨q, p, -, -, h⟩ := withPacket_ok h
    exact close _ (interpret_leads h) (by cases k <;> decide)
  · obtain ⟨q, p, -, -, h⟩ := withPacket_ok h
    exact close _ (writebackPacket_leads h) (by cases k <;> decide)
  · obtain ⟨q, -, h⟩ := withCurrent_ok h
    cases h
    exact close [.fetchEntry] (leads_setAuto (by simp) (by simp)) (by cases k <;> decide)

/-- A step of a walk does not answer with the fault of the step budget. -/
theorem walkStep_notLong (k : Sched) (s : State) : walkStep k s ≠ .error (.fault .passTooLong) := by
  intro h
  have hcur : ∀ f : Queue → Except Stop State, (∀ q, f q ≠ .error (.fault .passTooLong)) →
      withCurrent k s f ≠ .error (.fault .passTooLong) := by
    intro f hf
    unfold withCurrent
    split
    · simp
    · exact hf _
  have hpkt : ∀ (g : PacketTag) (f : Queue → Packet → Except Stop State), (∀ q p, f q p ≠ .error (.fault .passTooLong)) →
      withPacket k g s f ≠ .error (.fault .passTooLong) := by
    intro g f hf
    refine hcur _ fun q => ?_
    split
    · simp
    · split
      · exact hf _ _
      · simp
  have hlink : ∀ lp s', linkStep k lp s' ≠ .error (.fault .passTooLong) := by
    intro lp s'
    unfold linkStep linkItdStep linkSitdStep linkFstnStep
    split_ifs
    · simp
    · simp
    · cases k <;> simp
    · cases k <;> simp
    · simp
  have hcheck : ∀ q b f s', checkQh k q b f s' ≠ .error (.fault .passTooLong) := by
    intro q b f s'
    simp only [checkQh]
    split
    · rename_i h1
      intro e; cases e
      split at h1
      · exact resetQueue_notLong _ _ h1
      · cases h1
    · simp
  have hvisit : ∀ s', visitQh k s' ≠ .error (.fault .passTooLong) := by
    intro s'
    simp only [visitQh]
    split_ifs
    · exact hcheck _ _ _ _
    · simp
    · exact hcheck _ _ _ _
  unfold walkStep at h
  cases hx : (s.sched k).auto <;> simp only [hx] at h
  · cases h
  · cases h
  · cases k <;> cases h
  · cases k <;> simp only [fetchEntry] at h
    · exact hlink _ _ h
    · split at h
      · cases h
      · exact hlink _ _ h
  · cases k <;> simp only [fetchQh] at h
    · split at h
      · cases h
      · exact hvisit _ h
    · exact hvisit _ h
  · cases k <;> cases h
  · cases k <;> cases h
  · refine hcur _ (fun q => ?_) h
    split_ifs <;> simp
  · refine hcur _ (fun q => ?_) h
    simp only [dispatchQtd]
    split
    · split
      · split
        · rename_i h1
          intro e; cases e; exact resetQueue_notLong _ _ h1
        · simp
      · split <;> simp
    · split
      · split
        · rename_i h1
          intro e; cases e; exact resetQueue_notLong _ _ h1
        · simp
      · simp
  · refine hpkt _ _ (fun q p => ?_) h
    simp only [executePacket]
    split
    · simp
    · split
      · simp
      · split
        · rename_i h1
          intro e; cases e; exact answerFor_notLong _ _ _ h1
        · simp
  · refine hpkt _ _ (fun q p => ?_) h
    simp only [interpret]
    split
    · simp
    · simp
    · simp only [toWriteback]
      split
      · rename_i r _ _ _ e h1
        intro e'; cases e'
        cases r <;> simp only [processResult] at h1
        · simp only [resultCounted] at h1
          split at h1
          · simp only [resultSuccess] at h1
            split at h1
            · split at h1 <;> cases h1
            · cases h1
          · cases h1
        all_goals cases h1
      · simp
  · refine hpkt _ _ (fun q p => ?_) h
    simp only [writebackPacket]
    split
    · rename_i h1
      intro e; cases e
      simp only [haltPropagation] at h1
      split at h1
      · exact cancelPackets_notLong _ _ _ h1
      · cases h1
    · simp
  · exact hcur _ (fun q => by simp) h

/-- A walk with enough steps to its end ends. -/
theorem run_notLong {k : Sched} {n : Nat} {s : State} (h : stepsLeft k s ≤ n) :
    run k n s ≠ .error (.fault .passTooLong) := by
  induction n generalizing s with
  | zero =>
    simp only [run]
    split_ifs with h1
    · simp
    · exfalso
      unfold stepsLeft at h
      have : autoRank k (s.sched k).auto = 0 := by omega
      revert this h1
      cases k <;> cases (s.sched _).auto <;> decide
  | succ n ih =>
    simp only [run]
    split_ifs with h1
    · simp
    · split
      · rename_i e he
        intro h2; cases h2
        exact walkStep_notLong _ _ he
      · rename_i t ht
        rcases walkStep_nearer ht (by simpa using h1) with h2 | h2
        · have : run k n t = .ok t := by cases n <;> simp [run, h2]
          rw [this]; simp
        · exact ih (by omega)

end Sys2Proof.Machine
end

