-- ==== Sys2Proof/Laws/Entry.lean ====
section
/-! SUPPORT. The steps of an entry (R310, R404, R440, R472): what they leave alone in any state, and that from a good state
at rest, with plain answers lined up, they end without a fault in such a state. -/

namespace Sys2Proof.Machine

/-! ### What the schedules leave alone -/

/-- The interrupt bits no schedule makes pending: PCD, FLR, HSE (R534). -/
def immediateBits : BitVec 6 := 0b011100#6

/-- What a periodic or async step leaves alone: all the guest's registers but the doorbell bit, and the timer. -/
structure Stepped (s t : State) : Prop where
  params : t.params = s.params
  usbcmd : { t.usbcmd with iaad := s.usbcmd.iaad } = s.usbcmd
  usbsts : t.usbsts = s.usbsts
  usbintr : t.usbintr = s.usbintr
  frindex : t.frindex = s.frindex
  periodicListBase : t.periodicListBase = s.periodicListBase
  asyncListAddr : t.asyncListAddr = s.asyncListAddr
  nextCommit : t.nextCommit = s.nextCommit
  uframeCtr : t.uframeCtr = s.uframeCtr
  lastRunUs : t.lastRunUs = s.lastRunUs
  lastTickUs : t.lastTickUs = s.lastTickUs
  inEntry : t.inEntry = s.inEntry
  devices : t.devices = s.devices
  inbox : t.inbox = s.inbox
  pending : t.usbstsPending &&& immediateBits = s.usbstsPending &&& immediateBits

namespace Stepped

variable {s t u : State}

theorem refl (s : State) : Stepped s s := ⟨rfl, rfl, rfl, rfl, rfl, rfl, rfl, rfl, rfl, rfl, rfl, rfl, rfl, rfl, rfl⟩

theorem trans (h1 : Stepped s t) (h2 : Stepped t u) : Stepped s u := by
  refine ⟨h2.params.trans h1.params, ?_, h2.usbsts.trans h1.usbsts, h2.usbintr.trans h1.usbintr,
    h2.frindex.trans h1.frindex, h2.periodicListBase.trans h1.periodicListBase,
    h2.asyncListAddr.trans h1.asyncListAddr, h2.nextCommit.trans h1.nextCommit, h2.uframeCtr.trans h1.uframeCtr,
    h2.lastRunUs.trans h1.lastRunUs, h2.lastTickUs.trans h1.lastTickUs,
    h2.inEntry.trans h1.inEntry, h2.devices.trans h1.devices,
    h2.inbox.trans h1.inbox, h2.pending.trans h1.pending⟩
  rw [← h1.usbcmd, ← h2.usbcmd]

theorem ofWalked {k : Sched} (h : Walked k s t) : Stepped s t := by
  refine ⟨h.params, by rw [h.usbcmd], h.usbsts, h.usbintr, h.frindex, h.periodicListBase, h.asyncListAddr,
    h.nextCommit, h.uframeCtr, h.lastRunUs, h.lastTickUs, h.inEntry, h.devices, h.inbox, ?_⟩
  have e : immediateBits = walkQuietBits &&& immediateBits := by decide
  rw [e, ← BitVec.and_assoc, ← BitVec.and_assoc, h.pending]

theorem ofReaped (h : Reaped s t) : Stepped s t := by
  unfold Reaped at h
  constructor <;> rw [h]

theorem setAuto (k : Sched) (x : AutoState) : Stepped s (s.setAuto k x) := ofWalked (Walked.setAuto x)

theorem asyncEnable (h : Machine.asyncEnable s = .ok t) : Stepped s t := by
  simp only [Machine.asyncEnable] at h
  split_ifs at h
  · cases h; exact setAuto _ _
  · split at h
    · cases h
    · cases h; exact (ofReaped (reapAll_frame ‹_›)).trans (setAuto _ _)
  · cases h; exact refl _

theorem doorbell (h : Machine.doorbell s = .ok t) : Stepped s t := by
  simp only [Machine.doorbell] at h
  split_ifs at h
  · split at h
    · cases h
    · rename_i s1 h1
      cases h
      refine (ofReaped (reapUnseen_frame h1)).trans ?_
      refine ⟨rfl, rfl, rfl, rfl, rfl, rfl, rfl, rfl, rfl, rfl, rfl, rfl, rfl, rfl, ?_⟩
      show (s1.usbstsPending ||| _) &&& immediateBits = _
      generalize s1.usbstsPending = x
      revert x; decide
  · cases h; exact refl _

theorem asyncBegin : Stepped s (Machine.asyncBegin s) :=
  ofWalked (((Walked.setVisits 0).trans (Walked.setCur none)).trans (Walked.setAuto .waitListHead))

theorem asyncStep (h : Machine.asyncStep s = .ok t) : Stepped s t := by
  simp only [Machine.asyncStep] at h
  split at h
  · cases h
  · rename_i s1 h1
    refine (asyncEnable h1).trans ?_
    split at h
    · split at h
      · cases h
      · rename_i s2 h2
        refine (asyncBegin.trans (ofWalked (Walked.run h2))).trans ?_
        simp only [orFault, asyncAfterPass] at h
        split at h
        · cases h
        · rename_i hx
          cases h
          split at hx
          · cases hx
          · exact (doorbell ‹_›).trans (ofReaped (reapUnused_frame hx))
    · simp only [orFault] at h
      split at h
      · cases h
      · cases h; exact doorbell ‹_›

theorem periodicEnable (h : Machine.periodicEnable s = .ok t) : Stepped s t := by
  simp only [Machine.periodicEnable] at h
  split_ifs at h
  · cases h; exact refl _
  · cases h; exact setAuto _ _
  · split at h
    · cases h
    · cases h; exact (ofReaped (reapAll_frame ‹_›)).trans (setAuto _ _)
  · cases h; exact refl _

theorem periodicBegin : Stepped s (Machine.periodicBegin s) :=
  ofWalked ((((Walked.setFetch _).trans (Walked.setVisits 0)).trans (Walked.setCur none)).trans
    (Walked.setAuto .fetchEntry))

theorem periodicStep (h : Machine.periodicStep s = .ok t) : Stepped s t := by
  simp only [Machine.periodicStep] at h
  split at h
  · cases h
  · rename_i s1 h1
    refine (periodicEnable h1).trans ?_
    split at h
    · split at h
      · cases h
      · rename_i s2 h2
        refine (periodicBegin.trans (ofWalked (Walked.run h2))).trans ?_
        simp only [orFault] at h
        split at h
        · cases h
        · cases h; exact ofReaped (reapUnused_frame ‹_›)
    · cases h; exact refl _

end Stepped

/-! ### Rest -/

theorem idle_iff {s : State} : Idle s = true ↔ ∀ k, autoIdle (s.sched k).auto = true := by
  simp only [Idle, Bool.and_eq_true]
  constructor
  · rintro ⟨h1, h2⟩ k
    cases k
    · exact h1
    · exact h2
  · exact fun h => ⟨h .async, h .periodic⟩

theorem idle_congr {s t : State} (h : Idle s = true) (e : ∀ k, t.sched k = s.sched k) : Idle t = true := by
  rw [idle_iff] at h ⊢
  exact fun k => by rw [e]; exact h k

theorem reaped_auto {s t : State} (h : Reaped s t) (k : Sched) : (t.sched k).auto = (s.sched k).auto := by
  unfold Reaped at h
  rw [h]; cases k <;> rfl

theorem idle_reaped {s t : State} (hr : Reaped s t) (h : Idle s = true) : Idle t = true := by
  rw [idle_iff] at h ⊢
  exact fun k => by rw [reaped_auto hr]; exact h k

theorem idle_setAuto {s : State} {k : Sched} {x : AutoState} (h : Idle s = true) (hx : autoIdle x = true) :
    Idle (s.setAuto k x) = true := by
  rw [idle_iff] at h ⊢
  intro k'
  by_cases hk : k' = k
  · subst hk; rw [State.setAuto_sched]; exact hx
  · rw [State.setAuto_sched_ne _ _ hk]; exact h k'

/-- A pass of one schedule started from rest ends with both automata at rest (R340). -/
theorem idle_run {k : Sched} {n : Nat} {s b t : State} (h : Idle s = true) (hb : Walked k s b)
    (hr : run k n b = .ok t) : Idle t = true := by
  rw [idle_iff] at h ⊢
  intro k'
  by_cases hk : k' = k
  · subst hk; exact run_idle hr
  · rw [(hb.trans (Walked.run hr)).otherAuto k' hk]; exact h k'

theorem idle_asyncEnable {s t : State} (h : Idle s = true) (he : asyncEnable s = .ok t) : Idle t = true := by
  simp only [asyncEnable] at he
  split_ifs at he
  · cases he; exact idle_setAuto h rfl
  · split at he
    · cases he
    · cases he; exact idle_setAuto (idle_reaped (reapAll_frame ‹_›) h) rfl
  · cases he; exact h

theorem idle_doorbell {s t : State} (h : Idle s = true) (hd : doorbell s = .ok t) : Idle t = true := by
  simp only [doorbell] at hd
  split_ifs at hd
  · split at hd
    · cases hd
    · rename_i s1 h1
      cases hd
      exact idle_congr (idle_reaped (reapUnseen_frame h1) h) fun k => by cases k <;> rfl
  · cases hd; exact h

theorem asyncBegin_walked (s : State) : Walked .async s (asyncBegin s) :=
  ((Walked.setVisits 0).trans (Walked.setCur none)).trans (Walked.setAuto .waitListHead)

theorem periodicBegin_walked (s : State) : Walked .periodic s (periodicBegin s) :=
  (((Walked.setFetch _).trans (Walked.setVisits 0)).trans (Walked.setCur none)).trans (Walked.setAuto .fetchEntry)

theorem idle_asyncStep {s t : State} (h : Idle s = true) (hs : asyncStep s = .ok t) : Idle t = true := by
  simp only [asyncStep] at hs
  split at hs
  · cases hs
  · rename_i s1 h1
    have hi := idle_asyncEnable h h1
    split at hs
    · split at hs
      · cases hs
      · rename_i s2 h2
        have hi2 := idle_run hi (asyncBegin_walked s1) h2
        simp only [orFault, asyncAfterPass] at hs
        split at hs
        · cases hs
        · rename_i hx
          cases hs
          split at hx
          · cases hx
          · exact idle_reaped (reapUnused_frame hx) (idle_doorbell hi2 ‹_›)
    · simp only [orFault] at hs
      split at hs
      · cases hs
      · cases hs; exact idle_doorbell hi ‹_›

theorem idle_periodicEnable {s t : State} (h : Idle s = true) (he : periodicEnable s = .ok t) : Idle t = true := by
  simp only [periodicEnable] at he
  split_ifs at he
  · cases he; exact h
  · cases he; exact idle_setAuto h rfl
  · split at he
    · cases he
    · cases he; exact idle_setAuto (idle_reaped (reapAll_frame ‹_›) h) rfl
  · cases he; exact h

theorem idle_periodicStep {s t : State} (h : Idle s = true) (hs : periodicStep s = .ok t) : Idle t = true := by
  simp only [periodicStep] at hs
  split at hs
  · cases hs
  · rename_i s1 h1
    have hi := idle_periodicEnable h h1
    split at hs
    · split at hs
      · cases hs
      · rename_i s2 h2
        have hi2 := idle_run hi (periodicBegin_walked s1) h2
        simp only [orFault] at hs
        split at hs
        · cases hs
        · cases hs; exact idle_reaped (reapUnused_frame ‹_›) hi2
    · cases hs; exact hi

theorem thresholdCommit_sched (s : State) (k : Sched) : s.thresholdCommit.sched k = s.sched k := by simp

theorem advanceFrindex_sched (s : State) (k : Sched) : (advanceFrindex s).sched k = s.sched k := by
  simp only [advanceFrindex]
  split <;> cases k <;> rfl

theorem accountMicroframe_sched (s : State) (k : Sched) : (accountMicroframe s).sched k = s.sched k := by
  have : ({ (if s.hch then s else advanceFrindex s) with
      uframeCtr := (if s.hch then s else advanceFrindex s).uframeCtr + 1 } : State).sched k =
      (if s.hch then s else advanceFrindex s).sched k := by cases k <;> rfl
  simp only [accountMicroframe]
  rw [this]
  split
  · rfl
  · exact advanceFrindex_sched s k

theorem skipMicroframes_sched (n : Nat) (s : State) (k : Sched) : (skipMicroframes n s).sched k = s.sched k := by
  induction n generalizing s with
  | zero => rfl
  | succ n ih => rw [skipMicroframes, ih, accountMicroframe_sched]

theorem idle_processMicroframes {left i : Nat} {s t : State} {j : Nat} (h : Idle s = true)
    (hp : processMicroframes left i s = .ok (j, t)) : Idle t = true := by
  induction left generalizing i s with
  | zero => cases hp; exact h
  | succ n ih =>
    simp only [processMicroframes] at hp
    have h1 : Idle s.thresholdCommit = true := idle_congr h (thresholdCommit_sched s)
    split at hp
    · cases hp; exact h1
    · split at hp
      · cases hp
      · exact ih (idle_periodicStep (idle_congr h1 (accountMicroframe_sched _)) ‹_›) hp

/-- A tick that does not end in a Fatal ends at rest (R31). -/
theorem idle_tickEntry {now : Nat} {s t : State} (h : Idle s = true) (ht : tickEntry now s = .ok t) : Idle t = true := by
  simp only [tickEntry] at ht
  split at ht
  · cases ht
  · rename_i j s3 h3
    have i3 := idle_processMicroframes (idle_congr h fun k => by rw [skipMicroframes_sched]; cases k <;> rfl) h3
    simp only [asyncAndCommit] at ht
    split at ht
    · cases ht
    · rename_i s4 h4
      cases ht
      have i4 := idle_asyncStep (idle_congr i3 fun k => by cases k <;> rfl) h4
      refine idle_congr i4 fun k => ?_
      have : s4.commitAll.sched k = s4.sched k := by simp
      rw [← this]; cases k <;> rfl

/-! ### Ending well -/

/-- An entry from a good state ends well: in a good state, or at a Fatal in one. -/
def EndsWell (x : Except Stop State) : Prop :=
  match x with
  | .ok t => Inv t = true ∧ Idle t = true ∧ plainAnswers t = true
  | .error (.fatal _ u) => Inv u = true ∧ plainAnswers u = true
  | .error (.fault _) => False

theorem plain_reaped {s t : State} (h : plainAnswers s = true) (hr : Reaped s t) : plainAnswers t = true :=
  plain_of h (by unfold Reaped at hr; rw [hr])

/-- Freeing the selected Queues of one schedule of a good state. -/
theorem inv_reapSel {s : State} {k : Sched} (sel : Queue → Bool) (h : Inv s = true) :
    ∃ t, freeQueues sel (s.sched k).cache s = .ok t ∧ Inv t = true := by
  obtain ⟨cs, c, u, e, g, -⟩ := reapSel_good sel (inv_sched h k)
  exact ⟨_, e, inv_setSched (inv_outbox _ h) g⟩

theorem inv_reapUnused {s : State} {k : Sched} (h : Inv s = true) : ∃ t, reapUnused k s = .ok t ∧ Inv t = true := by
  obtain ⟨cs, c, u, e, g, -⟩ := reapUnused_good (inv_sched h k)
  exact ⟨_, e, inv_setSched (inv_outbox _ h) g⟩

theorem inv_asyncEnable {s : State} (h : Inv s = true) : ∃ t, asyncEnable s = .ok t ∧ Inv t = true := by
  simp only [asyncEnable]
  split_ifs
  · exact ⟨_, rfl, inv_setAuto _ _ h⟩
  · obtain ⟨t, e, ht⟩ := inv_reapSel (k := .async) (fun _ => true) h
    simp only [reapAll, e]
    exact ⟨_, rfl, inv_setAuto _ _ ht⟩
  · exact ⟨_, rfl, h⟩

theorem inv_periodicEnable {s : State} (h : Inv s = true) : ∃ t, periodicEnable s = .ok t ∧ Inv t = true := by
  simp only [periodicEnable]
  split_ifs
  · exact ⟨_, rfl, h⟩
  · exact ⟨_, rfl, inv_setAuto _ _ h⟩
  · obtain ⟨t, e, ht⟩ := inv_reapSel (k := .periodic) (fun _ => true) h
    simp only [reapAll, e]
    exact ⟨_, rfl, inv_setAuto _ _ ht⟩
  · exact ⟨_, rfl, h⟩

theorem inv_doorbell {s : State} (h : Inv s = true) : ∃ t, doorbell s = .ok t ∧ Inv t = true := by
  simp only [doorbell]
  split_ifs
  · obtain ⟨t, e, ht⟩ := inv_reapSel (k := .async) (fun q => !q.seen) h
    simp only [reapUnseen, e]
    exact ⟨_, rfl, inv_raiseIrq _ (s := { t with usbcmd := { t.usbcmd with iaad := false } }) ht⟩
  · exact ⟨_, rfl, h⟩

theorem plain_doorbell {s t : State} (h : plainAnswers s = true) (hd : doorbell s = .ok t) : plainAnswers t = true := by
  simp only [doorbell] at hd
  split_ifs at hd
  · split at hd
    · cases hd
    · rename_i s1 h1
      cases hd
      exact plain_of (plain_reaped h (reapUnseen_frame h1)) rfl
  · cases hd; exact h

theorem plain_asyncEnable {s t : State} (h : plainAnswers s = true) (he : asyncEnable s = .ok t) :
    plainAnswers t = true := by
  simp only [asyncEnable] at he
  split_ifs at he
  · cases he; exact plain_of h (by simp)
  · split at he
    · cases he
    · cases he; exact plain_of (plain_reaped h (reapAll_frame ‹_›)) (by simp)
  · cases he; exact h

theorem plain_periodicEnable {s t : State} (h : plainAnswers s = true) (he : periodicEnable s = .ok t) :
    plainAnswers t = true := by
  simp only [periodicEnable] at he
  split_ifs at he
  · cases he; exact h
  · cases he; exact plain_of h (by simp)
  · split at he
    · cases he
    · cases he; exact plain_of (plain_reaped h (reapAll_frame ‹_›)) (by simp)
  · cases he; exact h

theorem inv_asyncBegin {s : State} (h : Inv s = true) : Inv (asyncBegin s) = true :=
  inv_setAuto _ _ (inv_setCur_none (inv_setVisits _ _ h))

theorem inv_periodicBegin {s : State} (h : Inv s = true) : Inv (periodicBegin s) = true :=
  inv_setAuto _ _ (inv_setCur_none (inv_setVisits _ _ (inv_setFetch _ _ h)))

/-- A pass has the steps it needs (R346): `stepsLeft` at its start is within `passBudget`. -/
theorem asyncBegin_budget (s : State) : stepsLeft .async (asyncBegin s) ≤ passBudget .async s.params := by
  have : stepsLeft .async (asyncBegin s) = 8 * (s.params.maxQhVisits - 0) + 3 := rfl
  rw [this]
  show _ ≤ 8 * (s.params.maxQhVisits + 1) + 3
  omega

theorem periodicBegin_budget (s : State) : stepsLeft .periodic (periodicBegin s) ≤ passBudget .periodic s.params := by
  have : stepsLeft .periodic (periodicBegin s) = 8 * (s.params.maxPeriodicVisits - 0) + 1 := rfl
  rw [this]
  show _ ≤ 8 * (s.params.maxPeriodicVisits + 1) + 3
  omega

theorem asyncStep_endsWell {s : State} (h : Inv s = true) (hi : Idle s = true) (hp : plainAnswers s = true) :
    EndsWell (asyncStep s) := by
  have hidle : ∀ t, asyncStep s = .ok t → Idle t = true := fun t => idle_asyncStep hi
  obtain ⟨s1, e1, h1⟩ := inv_asyncEnable h
  have p1 := plain_asyncEnable hp e1
  have end1 : ∀ t u, doorbell t = .ok u → plainAnswers t = true → plainAnswers u = true := fun _ _ hd ht =>
    plain_doorbell ht hd
  simp only [asyncStep, e1] at hidle ⊢
  split at hidle
  · rename_i hc
    rw [if_pos hc]
    have hf := run_fine (n := passBudget .async s1.params) (inv_asyncBegin h1) (k := .async)
      (show AtStep .async (asyncBegin s1) from rfl) (plain_of p1 (by simp [asyncBegin]))
      (run_notLong (asyncBegin_budget s1))
    have hk := run_keeps (k := .async) (n := passBudget .async s1.params) (inv_asyncBegin h1)
    cases hr : run .async (passBudget .async s1.params) (asyncBegin s1) with
    | error e =>
      rw [hr] at hf hk
      cases e with
      | fault f => exact hf
      | fatal r u => exact ⟨hk, hf⟩
    | ok s2 =>
      rw [hr] at hf hk
      simp only [hr] at hidle ⊢
      obtain ⟨s3, e3, h3⟩ := inv_doorbell (s := s2) hk
      obtain ⟨s4, e4, h4⟩ := inv_reapUnused (k := .async) h3
      simp only [asyncAfterPass, e3, e4, orFault] at hidle ⊢
      exact ⟨h4, hidle _ rfl, plain_reaped (end1 _ _ e3 hf.2) (reapUnused_frame e4)⟩
  · rename_i hc
    rw [if_neg hc]
    obtain ⟨s3, e3, h3⟩ := inv_doorbell h1
    simp only [e3, orFault] at hidle ⊢
    exact ⟨h3, hidle _ rfl, end1 _ _ e3 p1⟩

theorem periodicStep_endsWell {s : State} (h : Inv s = true) (hi : Idle s = true) (hp : plainAnswers s = true) :
    EndsWell (periodicStep s) := by
  have hidle : ∀ t, periodicStep s = .ok t → Idle t = true := fun t => idle_periodicStep hi
  obtain ⟨s1, e1, h1⟩ := inv_periodicEnable h
  have p1 := plain_periodicEnable hp e1
  simp only [periodicStep, e1] at hidle ⊢
  split at hidle
  · rename_i hc
    rw [if_pos hc]
    have hf := run_fine (n := passBudget .periodic s1.params) (inv_periodicBegin h1) (k := .periodic)
      (show AtStep .periodic (periodicBegin s1) from trivial) (plain_of p1 (by simp [periodicBegin]))
      (run_notLong (periodicBegin_budget s1))
    have hk := run_keeps (k := .periodic) (n := passBudget .periodic s1.params) (inv_periodicBegin h1)
    cases hr : run .periodic (passBudget .periodic s1.params) (periodicBegin s1) with
    | error e =>
      rw [hr] at hf hk
      cases e with
      | fault f => exact hf
      | fatal r u => exact ⟨hk, hf⟩
    | ok s2 =>
      rw [hr] at hf hk
      simp only [hr] at hidle ⊢
      obtain ⟨s4, e4, h4⟩ := inv_reapUnused (k := .periodic) (s := s2) hk
      simp only [e4, orFault] at hidle ⊢
      exact ⟨h4, hidle _ rfl, plain_reaped hf.2 (reapUnused_frame e4)⟩
  · rename_i hc
    rw [if_neg hc]
    exact ⟨h1, hidle _ rfl, p1⟩

/-! ### The timer -/

theorem inv_thresholdCommit {s : State} (h : Inv s = true) : Inv s.thresholdCommit = true := by
  unfold State.thresholdCommit
  split <;> exact h

theorem inv_commitAll {s : State} (h : Inv s = true) : Inv s.commitAll = true := by
  unfold State.commitAll
  split <;> exact h

theorem inv_advanceFrindex {s : State} (h : Inv s = true) : Inv (advanceFrindex s) = true := by
  simp only [advanceFrindex]
  split <;> exact h

theorem inv_accountMicroframe {s : State} (h : Inv s = true) : Inv (accountMicroframe s) = true := by
  have h1 : Inv (if s.hch then s else advanceFrindex s) = true := by
    split
    · exact h
    · exact inv_advanceFrindex h
  simp only [accountMicroframe]
  generalize (if s.hch then s else advanceFrindex s) = s1 at h1
  refine inv_of h1 (show Memory.wf s1.mem = true from inv_mem h1) rfl rfl fun k => ?_
  have : ({ s1 with uframeCtr := s1.uframeCtr + 1 } : State).sched k = s1.sched k := by cases k <;> rfl
  rw [this]
  exact schedOk_mono (inv_sched h1 k) (Nat.le_succ _)

theorem inv_skipMicroframes {s : State} (n : Nat) (h : Inv s = true) : Inv (skipMicroframes n s) = true := by
  induction n generalizing s with
  | zero => exact h
  | succ n ih => exact ih (inv_accountMicroframe h)

theorem thresholdCommit_answers (s : State) : s.thresholdCommit.answers = s.answers := by simp

theorem accountMicroframe_answers (s : State) : (accountMicroframe s).answers = s.answers := by
  simp only [accountMicroframe, advanceFrindex]
  split
  · rfl
  · split <;> rfl

theorem skipMicroframes_answers (n : Nat) (s : State) : (skipMicroframes n s).answers = s.answers := by
  induction n generalizing s with
  | zero => rfl
  | succ n ih => rw [skipMicroframes, ih, accountMicroframe_answers]

/-- The processed microframes of a tick end well. -/
theorem processMicroframes_endsWell {left i : Nat} {s : State} (h : Inv s = true) (hi : Idle s = true)
    (hp : plainAnswers s = true) :
    match processMicroframes left i s with
    | .ok (_, t) => Inv t = true ∧ Idle t = true ∧ plainAnswers t = true
    | .error (.fatal _ u) => Inv u = true ∧ plainAnswers u = true
    | .error (.fault _) => False := by
  induction left generalizing i s with
  | zero => exact ⟨h, hi, hp⟩
  | succ n ih =>
    have h1 := inv_thresholdCommit h
    have i1 : Idle s.thresholdCommit = true := idle_congr hi (thresholdCommit_sched s)
    have p1 : plainAnswers s.thresholdCommit = true := plain_of hp (thresholdCommit_answers s)
    simp only [processMicroframes]
    generalize s.thresholdCommit = s1 at h1 i1 p1 ⊢
    by_cases hc : s1.params.minUfrPerTick ≤ i ∧ s1.irq = true
    · rw [if_pos hc]; exact ⟨h1, i1, p1⟩
    · rw [if_neg hc]
      have hs := periodicStep_endsWell (inv_accountMicroframe h1) (idle_congr i1 (accountMicroframe_sched _))
        (plain_of p1 (accountMicroframe_answers _))
      cases hr : periodicStep (accountMicroframe s1) with
      | error e =>
        rw [hr] at hs
        cases e with
        | fault f => exact hs
        | fatal r u => exact hs
      | ok s2 =>
        rw [hr] at hs
        exact ih hs.1 hs.2.1 hs.2.2

theorem asyncAndCommit_endsWell {s : State} (h : Inv s = true) (hi : Idle s = true) (hp : plainAnswers s = true) :
    EndsWell (asyncAndCommit s) := by
  have hs := asyncStep_endsWell h hi hp
  simp only [asyncAndCommit]
  cases hr : asyncStep s with
  | error e => rw [hr] at hs; exact hs
  | ok s1 =>
    rw [hr] at hs
    have hc := inv_commitAll hs.1
    have e1 : ∀ k, s1.commitAll.sched k = s1.sched k := fun k => by simp
    refine ⟨hc, idle_congr hs.2.1 fun k => ?_, plain_of hs.2.2 ?_⟩
    · rw [← e1]; cases k <;> rfl
    · show s1.commitAll.answers = _
      simp

/-- A tick from a good state at rest, with plain answers lined up, ends well: no fault stops it. -/
theorem tickEntry_endsWell {now : Nat} {s : State} (h : Inv s = true) (hi : Idle s = true) (hp : plainAnswers s = true) :
    EndsWell (tickEntry now s) := by
  simp only [tickEntry]
  have h2 : Inv (skipMicroframes (tickElapsed now s - s.params.maxUfrPerTick) (tickStart now s)) = true :=
    inv_skipMicroframes _ (inv_congr h rfl rfl rfl rfl fun k => by cases k <;> rfl)
  have i2 := idle_congr hi (t := skipMicroframes (tickElapsed now s - s.params.maxUfrPerTick) (tickStart now s))
      fun k => by rw [skipMicroframes_sched]; cases k <;> rfl
  have p2 := plain_of hp (t := skipMicroframes (tickElapsed now s - s.params.maxUfrPerTick) (tickStart now s))
      (skipMicroframes_answers _ _)
  generalize skipMicroframes (tickElapsed now s - s.params.maxUfrPerTick) (tickStart now s) = s2 at h2 i2 p2 ⊢
  have hs := processMicroframes_endsWell (left := min (tickElapsed now s) s.params.maxUfrPerTick) (i := 0) h2 i2 p2
  cases hr : processMicroframes (min (tickElapsed now s) s.params.maxUfrPerTick) 0 s2 with
  | error e =>
    rw [hr] at hs
    cases e with
    | fault f => exact hs
    | fatal r u => exact hs
  | ok x =>
    obtain ⟨j, s3⟩ := x
    rw [hr] at hs
    exact asyncAndCommit_endsWell (inv_congr hs.1 rfl rfl rfl rfl fun k => by cases k <;> rfl)
      (idle_congr hs.2.1 fun k => by cases k <;> rfl) hs.2.2

end Sys2Proof.Machine
end

