-- ==== Sys2Proof/Laws/Fields.lean ====
section
/-! SUPPORT. The bits of descriptor words with a field replaced, and the tokens of results as masks. -/

namespace Sys2Proof.Machine

/-! ### One field replaced -/

theorem getLsbD_setBit (w : Word) (i : Nat) (b : Bool) (j : Nat) (hi : i < 32) :
    (setBit w i b).getLsbD j = if j = i then b else w.getLsbD j := by
  have e : ∀ j, (1#32 <<< i).getLsbD j = decide (j = i) := by
    intro j
    simp only [BitVec.getLsbD_shiftLeft, BitVec.getLsbD_one]
    by_cases h : j = i
    · subst h; simp [hi]
    · simp [h]; omega
  unfold setBit
  cases b
  · simp only [Bool.false_eq_true, if_false, BitVec.getLsbD_and, BitVec.getLsbD_not, e]
    by_cases h : j = i
    · simp [h]
    · simp only [h, decide_false, Bool.not_false, Bool.and_true, if_false]
      by_cases hj : j < 32
      · simp [hj]
      · simp [hj]; exact BitVec.getLsbD_of_ge w j (by omega)
  · simp only [if_true, BitVec.getLsbD_or, e]
    by_cases h : j = i <;> simp [h]

theorem getLsbD_tokSetTotal (t : Word) (n : BitVec 15) (j : Nat) (hj : j < 32) :
    (tokSetTotal t n).getLsbD j = if 16 ≤ j ∧ j < 31 then n.getLsbD (j - 16) else t.getLsbD j := by
  have : ∀ j : Fin 32, (0x8000FFFF#32).getLsbD j.val = !decide (16 ≤ j.val ∧ j.val < 31) := by decide
  have h := this ⟨j, hj⟩
  simp only at h
  simp only [tokSetTotal, BitVec.getLsbD_or, BitVec.getLsbD_and, h, BitVec.getLsbD_shiftLeft, BitVec.getLsbD_setWidth, hj, decide_true, Bool.true_and]
  by_cases h1 : 16 ≤ j ∧ j < 31
  · rw [if_pos h1]; simp [h1, show ¬ j < 16 by omega, show j - 16 < 32 by omega]
  · rw [if_neg h1]; simp only [h1, decide_false, Bool.not_false, Bool.and_true]
    by_cases h2 : j < 16
    · simp [h2]
    · have : n.getLsbD (j-16) = false := BitVec.getLsbD_of_ge _ _ (by omega)
      simp [this]

theorem getLsbD_tokSetCPage (t : Word) (n : BitVec 3) (j : Nat) (hj : j < 32) :
    (tokSetCPage t n).getLsbD j = if 12 ≤ j ∧ j < 15 then n.getLsbD (j - 12) else t.getLsbD j := by
  have : ∀ j : Fin 32, (0xFFFF8FFF#32).getLsbD j.val = !decide (12 ≤ j.val ∧ j.val < 15) := by decide
  have h := this ⟨j, hj⟩
  simp only at h
  simp only [tokSetCPage, BitVec.getLsbD_or, BitVec.getLsbD_and, h, BitVec.getLsbD_shiftLeft, BitVec.getLsbD_setWidth, hj, decide_true, Bool.true_and]
  by_cases h1 : 12 ≤ j ∧ j < 15
  · rw [if_pos h1]; simp [h1, show ¬ j < 12 by omega, show j - 12 < 32 by omega]
  · rw [if_neg h1]; simp only [h1, decide_false, Bool.not_false, Bool.and_true]
    by_cases h2 : j < 12
    · simp [h2]
    · have : n.getLsbD (j-12) = false := BitVec.getLsbD_of_ge _ _ (by omega)
      simp [this]

theorem getLsbD_bufSetOffset (b : Word) (n : BitVec 12) (j : Nat) (hj : j < 32) :
    (bufSetOffset b n).getLsbD j = if j < 12 then n.getLsbD j else b.getLsbD j := by
  have : ∀ j : Fin 32, (0xFFFFF000#32).getLsbD j.val = !decide (j.val < 12) := by decide
  have h := this ⟨j, hj⟩
  simp only at h
  simp only [bufSetOffset, BitVec.getLsbD_or, BitVec.getLsbD_and, h, BitVec.getLsbD_setWidth, hj, decide_true, Bool.true_and]
  by_cases h1 : j < 12
  · simp [h1]
  · rw [if_neg h1]
    have : n.getLsbD j = false := BitVec.getLsbD_of_ge _ _ (by omega)
    simp [h1, this]

theorem tokTotal_tokSetTotal (t : Word) (n : BitVec 15) : tokTotal (tokSetTotal t n) = n := by
  apply BitVec.eq_of_getLsbD_eq; intro i hi
  simp only [tokTotal, BitVec.getLsbD_extractLsb', hi, decide_true, Bool.true_and]
  rw [getLsbD_tokSetTotal _ _ _ (by omega), if_pos (by omega)]; congr 1; omega

theorem field_congr {a b : Word} {w : Nat} (st : Nat) (h : ∀ j, st ≤ j → j < st + w → a.getLsbD j = b.getLsbD j) :
    a.extractLsb' st w = b.extractLsb' st w := by
  apply BitVec.eq_of_getLsbD_eq; intro i hi
  simp only [BitVec.getLsbD_extractLsb', hi, decide_true, Bool.true_and]
  exact h _ (by omega) (by omega)

/-! ### Tokens of results (R300 to R306) -/

theorem tokStall_eq (T : Word) : tokStall T = (T ||| 0x40#32) &&& ~~~0x80#32 := by simp [tokStall, setBit]
theorem tokIoerror_eq (T : Word) : tokIoerror T = (T ||| 0x48#32) &&& ~~~0xC80#32 := by
  simp only [tokIoerror, setBit]
  apply BitVec.eq_of_getLsbD_eq
  intro i hi
  simp
  have : ∀ j : Fin 32, ∀ b : Bool, ((((b || (64#32).getLsbD j.val) || (8#32).getLsbD j.val) && (4294964223#32).getLsbD j.val) && (4294967167#32).getLsbD j.val) = ((b || (72#32).getLsbD j.val) && (4294964095#32).getLsbD j.val) := by decide
  simpa using this ⟨i, hi⟩ (T.getLsbD i)
theorem tokBabble_eq (T : Word) : tokBabble T = (T ||| 0x50#32) &&& ~~~0x80#32 := by
  simp only [tokBabble, setBit]; simp [BitVec.or_assoc]

theorem getLsbD_tokCount (T : Word) (mp off n j : Nat) (hj : j < 32) (h : j < 12 ∨ j = 15) (h7 : j ≠ 7) :
    (tokCount T mp off n).getLsbD j = T.getLsbD j := by
  simp only [tokCount]
  rw [getLsbD_setBit _ _ _ _ (by omega), if_neg h7, getLsbD_setBit _ _ _ _ (by omega), if_neg (by omega), getLsbD_tokSetTotal _ _ _ hj, if_neg (by omega),
    getLsbD_tokSetCPage _ _ _ hj, if_neg (by omega)]

end Sys2Proof.Machine
end

