-- ==== Sys2Proof/Laws/Keep.lean ====
section
/-! SUPPORT. The invariant of the block through the entries and through the meaning of each row. -/

namespace Sys2Proof.Machine

/-! ### Entries -/

theorem asyncAfterPass_inv {s : State} (h : Inv s = true) : ∃ t, asyncAfterPass s = .ok t ∧ Inv t = true := by
  obtain ⟨s1, e1, h1⟩ := inv_doorbell h
  obtain ⟨s2, e2, h2⟩ := inv_reapUnused (k := .async) h1
  exact ⟨s2, by simp only [asyncAfterPass, e1, e2], h2⟩

theorem asyncStep_keeps {s : State} (h : Inv s = true) : Keeps (asyncStep s) := by
  obtain ⟨s1, e1, h1⟩ := inv_asyncEnable h
  simp only [asyncStep, e1]
  split
  · have hk := run_keeps (k := .async) (n := passBudget .async s1.params) (inv_asyncBegin h1)
    split
    · rename_i e he
      rw [he] at hk; exact hk
    · rename_i s2 h2
      rw [h2] at hk
      obtain ⟨s3, e3, h3⟩ := asyncAfterPass_inv (s := s2) hk
      rw [e3]; exact h3
  · obtain ⟨s3, e3, h3⟩ := inv_doorbell h1
    rw [e3]; exact h3

theorem periodicStep_keeps {s : State} (h : Inv s = true) : Keeps (periodicStep s) := by
  obtain ⟨s1, e1, h1⟩ := inv_periodicEnable h
  simp only [periodicStep, e1]
  split
  · have hk := run_keeps (k := .periodic) (n := passBudget .periodic s1.params) (inv_periodicBegin h1)
    split
    · rename_i e he
      rw [he] at hk; exact hk
    · rename_i s2 h2
      rw [h2] at hk
      obtain ⟨s3, e3, h3⟩ := inv_reapUnused (k := .periodic) (s := s2) hk
      rw [e3]; exact h3
  · exact h1

theorem processMicroframes_keeps {left i : Nat} {s : State} (h : Inv s = true) :
    match processMicroframes left i s with
    | .ok (_, t) => Inv t = true
    | .error (.fatal _ u) => Inv u = true
    | .error (.fault _) => True := by
  induction left generalizing i s with
  | zero => exact h
  | succ n ih =>
    have h1 := inv_thresholdCommit h
    simp only [processMicroframes]
    generalize s.thresholdCommit = s1 at h1 ⊢
    by_cases hc : s1.params.minUfrPerTick ≤ i ∧ s1.irq = true
    · rw [if_pos hc]; exact h1
    · rw [if_neg hc]
      have hs := periodicStep_keeps (inv_accountMicroframe h1)
      cases hr : periodicStep (accountMicroframe s1) with
      | error e => rw [hr] at hs; cases e <;> exact hs
      | ok s2 => rw [hr] at hs; exact ih hs

theorem asyncAndCommit_keeps {s : State} (h : Inv s = true) : Keeps (asyncAndCommit s) := by
  have hs := asyncStep_keeps h
  simp only [asyncAndCommit]
  cases hr : asyncStep s with
  | error e => rw [hr] at hs; exact hs
  | ok s1 => rw [hr] at hs; exact inv_commitAll (s := s1) hs

theorem tickEntry_keeps {now : Nat} {s : State} (h : Inv s = true) : Keeps (tickEntry now s) := by
  simp only [tickEntry]
  have h2 : Inv (skipMicroframes (tickElapsed now s - s.params.maxUfrPerTick) (tickStart now s)) = true :=
    inv_skipMicroframes _ (inv_congr h rfl rfl rfl rfl fun k => by cases k <;> rfl)
  generalize skipMicroframes (tickElapsed now s - s.params.maxUfrPerTick) (tickStart now s) = s2 at h2 ⊢
  have hs := processMicroframes_keeps (left := min (tickElapsed now s) s.params.maxUfrPerTick) (i := 0) h2
  cases hr : processMicroframes (min (tickElapsed now s) s.params.maxUfrPerTick) 0 s2 with
  | error e => rw [hr] at hs; cases e <;> exact hs
  | ok x =>
    obtain ⟨j, s3⟩ := x
    rw [hr] at hs
    exact asyncAndCommit_keeps (inv_congr hs rfl rfl rfl rfl fun k => by cases k <;> rfl)

theorem completeEntry_keeps {c : Completion} {s : State} (h : Inv s = true) : Keeps (completeEntry c s) := by
  simp only [completeEntry]
  split
  · trivial
  · rename_i s1 h1
    have i1 := inv_deliver h h1
    split
    · exact asyncAndCommit_keeps (inv_congr i1 rfl rfl rfl rfl fun k => by cases k <;> rfl)
    · exact i1

/-! ### Outcomes -/

/-- An outcome leaves a good state where it leaves one. -/
def GoodOutcome (x : Host.Outcome State Fault Refusal) : Prop := ∀ t, x = .next t → Inv t = true

theorem good_next {s : State} (h : Inv s = true) : GoodOutcome (.next s) := fun _ e => by cases e; exact h

theorem good_fatal {r : FatalReason} {s : State} (h : Inv s = true) : GoodOutcome (outcome (takeFatal r s)) := by
  obtain ⟨t, e, ht⟩ := takeFatal_good r h
  rw [e]; exact good_next (ht.inv h)

theorem good_finish {x : Except Stop State} (h : Keeps x) : GoodOutcome (finish x) := by
  cases x with
  | ok s => exact good_next h
  | error e =>
    cases e with
    | fault f => exact fun _ e => by cases e
    | fatal r u => exact good_fatal h

theorem good_outcome {x : Except Fault State} (h : ∀ t, x = .ok t → Inv t = true) : GoodOutcome (outcome x) := by
  cases x with
  | ok s => exact good_next (h _ rfl)
  | error f => exact fun _ e => by cases e

theorem controllerReset_inv {s t : State} (h : Inv s = true) (e : controllerReset s = .ok t) : Inv t = true := by
  obtain ⟨u, e', hu⟩ := controllerReset_good h
  rw [e] at e'; cases e'
  exact hu.inv h

/-! ### Rows that work on the current Queue -/

theorem answered_keeps {k : Sched} {r : DevAnswer} {s : State}
    {f : Queue → Packet → State → Except Stop (Queue × State)} (h : Inv s = true) (hr : r ≠ .pending)
    (hf : ∀ q p s1, Inv s1 = true → match f q p s1 with
      | .ok (q', u) => Inv u = true ∧ u.uframeCtr = s1.uframeCtr ∧ ∃ h', q' = { q with qh := h' }
      | .error (.fatal _ u) => Inv u = true
      | .error (.fault _) => True) : Keeps (answered k r s f) := by
  refine keeps_withCurrent fun q hq => ?_
  have hok := (current_ok h hq).1
  split
  · trivial
  · rename_i p hp
    split
    · trivial
    · have hs := hf (q.putPacket (p.settle r)) (p.settle r) (s.reclIfAsync k) (inv_reclIfAsync k h)
      cases hx : f (q.putPacket (p.settle r)) (p.settle r) (s.reclIfAsync k) with
      | error e => rw [hx] at hs; cases e <;> exact hs
      | ok x =>
        obtain ⟨q', u⟩ := x
        rw [hx] at hs
        obtain ⟨h1, h2, h3, rfl⟩ := hs
        refine inv_setAuto _ _ (inv_putQueue h1 (queueOk_kind (k := k) ?_))
        rw [h2, State.reclIfAsync_uframeCtr]
        exact queueOk_congr (queueOk_putPacket hok (packetOk_settle hr)) rfl rfl rfl rfl rfl

theorem resultSuccess_kept (q : Queue) (p : Packet) (n : Nat) (s : State) (h : Inv s = true) :
    match resultSuccess q p n s with
    | .ok (q', u) => Inv u = true ∧ u.uframeCtr = s.uframeCtr ∧ ∃ h', q' = { q with qh := h' }
    | .error (.fatal _ u) => Inv u = true
    | .error (.fault _) => True := by
  split
  · rename_i q' u hu
    obtain ⟨h1, h2, h3⟩ := inv_resultSuccess h hu
    exact ⟨h1, resultSuccess_ctr hu, h2, h3⟩
  · rename_i r u hu
    simp only [resultSuccess] at hu
    split at hu
    · split at hu
      · cases hu; exact h
      · cases hu
    · cases hu
  · trivial

/-! ### Register writes and other rows -/

theorem executeToken_keeps {k : Sched} {w : Word} {s : State} (h : Inv s = true) : Keeps (executeToken k w s) :=
  keeps_withPacket fun _ _ hp _ => executePacket_keeps h (current_ok h hp.1).1

theorem periodicBase_low (v : Word) : (v &&& 0xFFFFF000#32) &&& 0xFFF#32 = 0#32 := by
  rw [BitVec.and_assoc]; simp

theorem asyncBase_low (v : Word) : (v &&& 0xFFFFFFE0#32) &&& 0x1F#32 = 0#32 := by
  rw [BitVec.and_assoc]; simp

theorem inv_regs {s t : State} (h : Inv s = true) (hm : t.mem = s.mem) (hr : regsOk t = true)
    (hc : t.uframeCtr = s.uframeCtr) (hs : ∀ k, t.sched k = s.sched k) : Inv t = true := by
  rw [Inv_iff]
  exact ⟨by rw [hm]; exact inv_mem h, hr, by rw [hc, show t.async = s.async from hs .async]; exact inv_sched h .async,
    by rw [hc, show t.periodic = s.periodic from hs .periodic]; exact inv_sched h .periodic⟩

theorem writePeriodiclistbase_inv {s : State} (v : Word) (h : Inv s = true) : Inv (writePeriodiclistbase v s) = true := by
  refine inv_regs h rfl ?_ rfl fun k => by cases k <;> rfl
  obtain ⟨-, h2, -⟩ := Inv_iff.1 h
  simp only [regsOk, Bool.and_eq_true, beq_iff_eq] at h2 ⊢
  exact ⟨periodicBase_low v, h2.2⟩

theorem writeAsynclistaddr_inv {s : State} (v : Word) (h : Inv s = true) : Inv (writeAsynclistaddr v s) = true := by
  refine inv_regs h rfl ?_ rfl fun k => by cases k <;> rfl
  obtain ⟨-, h2, -⟩ := Inv_iff.1 h
  simp only [regsOk, Bool.and_eq_true, beq_iff_eq] at h2 ⊢
  exact ⟨h2.1, asyncBase_low v⟩

theorem inv_free {s t : State} (h : Inv s = true) (hm : t.mem = s.mem) (h1 : t.periodicListBase = s.periodicListBase)
    (h2 : t.asyncListAddr = s.asyncListAddr) (hc : t.uframeCtr = s.uframeCtr) (ha : t.async = s.async)
    (hp : t.periodic = s.periodic) : Inv t = true :=
  inv_congr h hm h1 h2 hc fun k => by cases k <;> assumption

theorem writeUsbcmd_inv {v : Word} {s t : State} (h : Inv s = true) (e : writeUsbcmd v s = .ok t) : Inv t = true := by
  simp only [writeUsbcmd] at e
  split at e
  · exact controllerReset_inv h e
  · cases e; exact inv_free h rfl rfl rfl rfl rfl rfl

theorem writeFrindex_inv {v : Word} {s : State} (h : Inv s = true) : Inv (writeFrindex v s) = true := by
  simp only [writeFrindex]; split
  · exact inv_free h rfl rfl rfl rfl rfl rfl
  · exact h

theorem writePortsc_inv {i : Nat} {v : Word} {s : State} (h : Inv s = true) : Inv (writePortsc i v s) = true := by
  simp only [writePortsc]; split
  · exact inv_emit _ h
  · exact h

theorem writeOp_inv {o v : Word} {s t : State} (h : Inv s = true) (e : writeOp o v s = .ok t) : Inv t = true := by
  simp only [writeOp] at e
  split_ifs at e
  · exact writeUsbcmd_inv h e
  all_goals cases e
  · exact inv_free h rfl rfl rfl rfl rfl rfl
  · exact inv_free h rfl rfl rfl rfl rfl rfl
  · exact writeFrindex_inv h
  · exact h
  · exact writePeriodiclistbase_inv v h
  · exact writeAsynclistaddr_inv v h
  · exact inv_emit _ h
  · exact writePortsc_inv h
  · exact h

theorem readOpEntry_inv {o : Word} {s : State} (h : Inv s = true) : Inv (readOpEntry o s) = true := by
  refine inv_emit _ ?_
  simp only [readOpValue]
  split_ifs
  all_goals exact h

theorem schedEnable_inv {k : Sched} {s t : State} (h : Inv s = true) (e : schedEnable k s = .ok t) : Inv t = true := by
  cases k
  · obtain ⟨u, e', hu⟩ := inv_asyncEnable h; simp only [schedEnable] at e; rw [e] at e'; cases e'; exact hu
  · obtain ⟨u, e', hu⟩ := inv_periodicEnable h; simp only [schedEnable] at e; rw [e] at e'; cases e'; exact hu

theorem linkItd_keeps {k : Sched} {s : State} (h : Inv s = true) : Keeps (linkItdStep k s) := by
  cases k
  · exact h
  · exact inv_setAuto _ _ h

theorem linkSitd_keeps {k : Sched} {s : State} (h : Inv s = true) : Keeps (linkSitdStep k s) := by
  cases k
  · exact h
  · exact inv_setAuto _ _ h

end Sys2Proof.Machine
end

