-- ==== Sys2Proof/Laws/PageWalk.lean ====
section
/-! SUPPORT. The page walk (R284) as a list of byte addresses, and what gathering and scattering along it do (R285,
R286). -/

namespace Sys2Proof.Machine

/-- The address of byte `i` counted from offset `off` of page `cp`. -/
def walkAddr (d : Qtd) (cp off i : Nat) : Word :=
  d.page (cp + (off + i) / 4096) + BitVec.ofNat 32 ((off + i) % 4096)

theorem page_low (d : Qtd) (i : Nat) : (d.page i).toNat % 4096 = 0 := by
  have h : (d.page i).extractLsb' 0 12 = 0#12 := by
    apply BitVec.eq_of_getLsbD_eq
    intro j hj
    simp only [Qtd.page, BitVec.getLsbD_extractLsb', BitVec.getLsbD_and, hj, decide_true, Bool.true_and, Nat.zero_add,
      BitVec.getLsbD_zero, Bool.and_eq_false_iff]
    right
    have : ∀ j : Fin 12, (0xFFFFF000#32).getLsbD j = false := by decide
    exact this ⟨j, hj⟩
  have := congrArg BitVec.toNat h
  simpa [BitVec.extractLsb'_toNat] using this

theorem page_add_toNat (d : Qtd) (i : Nat) {off : Nat} (h : off < 4096) :
    (d.page i + BitVec.ofNat 32 off).toNat = (d.page i).toNat + off := by
  have h1 := page_low d i
  have h2 := (d.page i).isLt
  rw [BitVec.toNat_add, BitVec.toNat_ofNat]
  omega

theorem walkAddr_chunk (d : Qtd) {cp off i : Nat} (h : off + i < 4096) :
    walkAddr d cp off i = d.page cp + BitVec.ofNat 32 off + BitVec.ofNat 32 i := by
  simp only [walkAddr, Nat.div_eq_of_lt h, Nat.mod_eq_of_lt h, Nat.add_zero, BitVec.ofNat_add, BitVec.add_assoc]

theorem walkAddr_next (d : Qtd) {cp off c i : Nat} (h : off + c = 4096) :
    walkAddr d cp off (c + i) = walkAddr d (cp + 1) 0 i := by
  have e : off + (c + i) = 4096 + i := by omega
  simp only [walkAddr, e, Nat.zero_add]
  congr 2 <;> omega

theorem segmentsFrom_none (d : Qtd) (fuel cp off left : Nat) (ho : off < 4096) (hf : 5 ≤ fuel + cp) :
    segmentsFrom d fuel cp off left = none ↔ 0 < left ∧ (5 - cp) * 4096 < off + left := by
  induction fuel generalizing cp off left with
  | zero =>
    simp only [segmentsFrom]
    have : 5 - cp = 0 := by omega
    split <;> simp <;> omega
  | succ n ih =>
    simp only [segmentsFrom]
    split
    · simp; omega
    · split
      · have : 5 - cp = 0 := by omega
        simp; omega
      · have := ih (cp + 1) 0 (left - min left (4096 - off)) (by omega) (by omega)
        split
        · rename_i hn
          simp only [hn, true_iff] at this
          simp; omega
        · rename_i r hr
          simp only [hr, reduceCtorEq, false_iff] at this
          simp only [reduceCtorEq, false_iff]
          omega

theorem segmentsFrom_some {d : Qtd} {fuel cp off left : Nat} {gs : List Segment} (ho : off < 4096)
    (h : segmentsFrom d fuel cp off left = some gs) :
    (gs.map Segment.size).sum = left ∧ (∀ g ∈ gs, 0 < g.size ∧ g.addr.toNat % 4096 + g.size ≤ 4096) ∧
    (gs.flatMap fun g => (List.range g.size).map fun i => g.addr + BitVec.ofNat 32 i) =
      (List.range left).map (walkAddr d cp off) := by
  induction fuel generalizing cp off left gs with
  | zero =>
    simp only [segmentsFrom] at h
    split at h
    · cases h; subst left; simp
    · cases h
  | succ n ih =>
    simp only [segmentsFrom] at h
    split at h
    · cases h; subst left; simp
    · split at h
      · cases h
      · split at h
        · cases h
        · rename_i rest hr
          cases h
          obtain ⟨h1, h2, h3⟩ := ih (by omega) hr
          set c := min left (4096 - off) with hc
          refine ⟨?_, ?_, ?_⟩
          · simp [h1]; omega
          · rintro g (_ | ⟨_, hg⟩)
            · have := page_low d cp
              simp only [page_add_toNat d cp ho]
              omega
            · exact h2 g hg
          · simp only [List.flatMap_cons, h3]
            have e : left = c + (left - c) := by omega
            conv_rhs => rw [e, List.range_add, List.map_append, List.map_map]
            congr 1
            · refine List.map_congr_left fun i hi => ?_
              rw [List.mem_range] at hi
              exact (walkAddr_chunk d (by omega)).symm
            · by_cases hz : left - c = 0
              · rw [hz]; rfl
              · refine List.map_congr_left fun i hi => ?_
                exact (walkAddr_next d (by omega)).symm

theorem walkAddr_eq (d : Qtd) (j : Nat) : walkAddr d (tokCPage d.token).toNat d.offset0.toNat j = bufByteAddr d j := rfl

theorem readBytes_map (m : Memory) (a : Word) (n : Nat) :
    readBytes m a n = (List.range n).map fun i => readByte m (a + BitVec.ofNat 32 i) := by
  induction n generalizing a with
  | zero => rfl
  | succ n ih =>
    rw [readBytes, ih, List.range_succ_eq_map, List.map_cons, List.map_map]
    congr 1
    · simp
    · refine List.map_congr_left fun i _ => ?_
      simp only [Function.comp, Nat.succ_eq_add_one, BitVec.ofNat_add]
      congr 1
      rw [BitVec.add_assoc]; congr 1; rw [BitVec.add_comm]; rfl

theorem gatherBytes_map (m : Memory) (gs : List Segment) :
    gatherBytes m gs = (gs.flatMap fun g => (List.range g.size).map fun i => g.addr + BitVec.ofNat 32 i).map (readByte m) := by
  induction gs with
  | nil => rfl
  | cons g r ih => simp [gatherBytes, ih, readBytes_map, Function.comp_def]

theorem segments_none {d : Qtd} {n : Nat} : segments d n = none ↔ ¬ WalkFits d n := by
  rw [segments, segmentsFrom_none _ _ _ _ _ d.offset0.isLt (by omega), WalkFits]
  omega

theorem segments_some {d : Qtd} {n : Nat} {gs : List Segment} (h : segments d n = some gs) :
    (gs.map Segment.size).sum = n ∧ (∀ g ∈ gs, 0 < g.size ∧ g.addr.toNat % 4096 + g.size ≤ 4096) ∧
    (gs.flatMap fun g => (List.range g.size).map fun i => g.addr + BitVec.ofNat 32 i) =
      (List.range n).map (bufByteAddr d) := segmentsFrom_some d.offset0.isLt h

theorem segments_fits {d : Qtd} {n : Nat} (h : WalkFits d n) : ∃ gs, segments d n = some gs := by
  cases e : segments d n with
  | none => exact absurd h (segments_none.1 e)
  | some gs => exact ⟨gs, rfl⟩

/-! ### Scatter -/

/-- One byte after the other, each at its own address. -/
def writeEach : Memory → List Word → List Byte → Memory
  | m, a :: as, b :: bs => writeEach (m.setByte a b) as bs
  | m, _, _ => m

theorem writeEach_nil (m : Memory) (as : List Word) : writeEach m as [] = m := by cases as <;> rfl

theorem writeEach_append (m : Memory) (as bs : List Word) (xs : List Byte) :
    writeEach m (as ++ bs) xs = writeEach (writeEach m as (xs.take as.length)) bs (xs.drop as.length) := by
  induction as generalizing m xs with
  | nil => cases bs <;> cases xs <;> simp [writeEach]
  | cons a as ih =>
    cases xs with
    | nil => simp [writeEach_nil]
    | cons x xs => simpa [writeEach] using ih _ xs

theorem writeBytes_each (m : Memory) (a : Word) (bs : List Byte) :
    writeBytes m a bs = writeEach m ((List.range bs.length).map fun i => a + BitVec.ofNat 32 i) bs := by
  induction bs generalizing m a with
  | nil => rfl
  | cons b bs ih =>
    rw [writeBytes, ih, List.length_cons, List.range_succ_eq_map, List.map_cons, List.map_map, writeEach]
    simp only [BitVec.ofNat_eq_ofNat, BitVec.add_zero]
    congr 1
    refine List.map_congr_left fun i _ => ?_
    simp only [Function.comp, Nat.succ_eq_add_one, BitVec.ofNat_add]
    rw [BitVec.add_assoc]; congr 1; rw [BitVec.add_comm]

theorem writeEach_short (m : Memory) (as bs : List Word) (xs : List Byte) (h : xs.length ≤ as.length) :
    writeEach m (as ++ bs) xs = writeEach m as xs := by
  rw [writeEach_append, List.take_of_length_le h, List.drop_eq_nil_of_le h, writeEach_nil]

theorem scatterBytes_each (m : Memory) (gs : List Segment) (bs : List Byte)
    (h : bs.length = (gs.map Segment.size).sum) :
    scatterBytes m gs bs =
      writeEach m (gs.flatMap fun g => (List.range g.size).map fun i => g.addr + BitVec.ofNat 32 i) bs := by
  induction gs generalizing m bs with
  | nil => simp at h; subst h; rfl
  | cons g r ih =>
    simp only [List.map_cons, List.sum_cons] at h
    rw [scatterBytes, ih, List.flatMap_cons, writeEach_append, writeBytes_each]
    · simp only [List.length_map, List.length_range, List.length_take]
      rw [Nat.min_eq_left (by omega)]
    · simp; omega

theorem writeEach_holes (m : Memory) (as : List Word) (bs : List Byte) : (writeEach m as bs).holes = m.holes := by
  induction as generalizing m bs with
  | nil => rfl
  | cons a as ih =>
    cases bs with
    | nil => rfl
    | cons b bs => rw [writeEach, ih, Memory.setByte_holes]

theorem readByte_writeEach {m : Memory} (hm : Memory.wf m = true) (as : List Word) (bs : List Byte) {x : Word}
    (hr : m.hasRam x = true) :
    (x ∉ as → readByte (writeEach m as bs) x = readByte m x) ∧
    (as.length = bs.length → ∀ j, as[j]? = some x → (∀ i, j < i → as[i]? ≠ some x) →
      readByte (writeEach m as bs) x = bs.getD j 0) := by
  induction as generalizing m bs with
  | nil => simp [writeEach]
  | cons a as ih =>
    cases bs with
    | nil => simp [writeEach]
    | cons b bs =>
      have hw : (m.setByte a b).hasRam x = true := by rw [Memory.hasRam_congr (Memory.setByte_holes m a b)]; exact hr
      obtain ⟨h1, h2⟩ := ih (setByte_wf hm a b) bs hw
      simp only [writeEach]
      refine ⟨fun hx => ?_, fun hl j hj hlast => ?_⟩
      · simp only [List.mem_cons, not_or] at hx
        rw [h1 hx.2, readByte_setByte hm a b hr, if_neg hx.1]
      · cases j with
        | zero =>
          simp only [List.getElem?_cons_zero, Option.some.injEq] at hj
          subst hj
          have hn : a ∉ as := by
            intro hm
            obtain ⟨i, hi, e⟩ := List.getElem_of_mem hm
            exact hlast (i + 1) (by omega) (by simp [hi, e])
          rw [h1 hn]
          rw [readByte_setByte hm a b hr, if_pos rfl]; rfl
        | succ j =>
          simp only [List.getElem?_cons_succ] at hj
          rw [h2 (by simpa using hl) j hj (fun i hi => by simpa using hlast (i + 1) (by omega))]
          simp

end Sys2Proof.Machine
end

