-- ==== Sys2Proof/Laws/PerInstr.lean ====
section
/-! SUPPORT. Statements made for each instruction: the round trip of the encoding, one lemma for each constructor. -/

namespace Sys2Proof.Laws.RoundTrip

open Sys2Proof

/-- What the decoder reads from the encoding of a well-formed instruction is that instruction. -/
def Statement (i : Instr) : Prop := i.wf = true → decode (encode i) = .ok i

/-! ### Link pointers, tokens -/

theorem linkEnd (k : Sched) (rest : BitVec 31) : Statement (.linkEnd k rest) := fun _ => by
  simp only [encode, decode, wordMsg, withWord_word, decodeLink, linkEndWord_t, linkEndWord_rest, if_true]

theorem linkItd (k : Sched) (a : BitVec 27) (r : BitVec 2) : Statement (.linkItd k a r) := fun _ => by
  simp only [encode, decode, wordMsg, withWord_word, decodeLink, linkWord_t, linkWord_typ, linkWord_addr, linkWord_rsvd]
  rfl

theorem linkQh (k : Sched) (a : BitVec 27) (r : BitVec 2) : Statement (.linkQh k a r) := fun _ => by
  simp only [encode, decode, wordMsg, withWord_word, decodeLink, linkWord_t, linkWord_typ, linkWord_addr, linkWord_rsvd]
  rfl

theorem linkSitd (k : Sched) (a : BitVec 27) (r : BitVec 2) : Statement (.linkSitd k a r) := fun _ => by
  simp only [encode, decode, wordMsg, withWord_word, decodeLink, linkWord_t, linkWord_typ, linkWord_addr, linkWord_rsvd]
  rfl

theorem linkFstn (k : Sched) (a : BitVec 27) (r : BitVec 2) : Statement (.linkFstn k a r) := fun _ => by
  simp only [encode, decode, wordMsg, withWord_word, decodeLink, linkWord_t, linkWord_typ, linkWord_addr, linkWord_rsvd]
  rfl

theorem qtdInactive (k : Sched) (pid : BitVec 2) (t : TokenOps) : Statement (.qtdInactive k pid t) := fun _ => by
  simp only [encode, decode, wordMsg, withWord_word, decodeToken, token_active, token_pid, tokenOps_word]
  rfl

theorem pidOut (k : Sched) (t : TokenOps) : Statement (.pidOut k t) := fun _ => by
  simp only [encode, decode, wordMsg, withWord_word, decodeToken, token_active, token_pid, tokenOps_word]
  rfl

theorem pidIn (k : Sched) (t : TokenOps) : Statement (.pidIn k t) := fun _ => by
  simp only [encode, decode, wordMsg, withWord_word, decodeToken, token_active, token_pid, tokenOps_word]
  rfl

theorem pidSetup (k : Sched) (t : TokenOps) : Statement (.pidSetup k t) := fun _ => by
  simp only [encode, decode, wordMsg, withWord_word, decodeToken, token_active, token_pid, tokenOps_word]
  rfl

theorem pidReserved (k : Sched) (t : TokenOps) : Statement (.pidReserved k t) := fun _ => by
  simp only [encode, decode, wordMsg, withWord_word, decodeToken, token_active, token_pid, tokenOps_word]
  rfl

theorem qhHalted (k : Sched) (hi : BitVec 25) (lo : BitVec 6) : Statement (.qhHalted k hi lo) := fun _ => by
  simp only [encode, decode, wordMsg, withWord_word, decodeQhToken, qhHaltedWord_halted, qhHaltedWord_hi,
    qhHaltedWord_lo, if_true]

/-! ### Device results -/

/-- What the decoder reads from the bytes of a device answer behind `pre` bytes. -/
theorem decodeAnswer_answerBytes (pre : List Byte) (r : DevAnswer) (h : r.wf = true) :
    decodeAnswer (pre ++ answerBytes r) pre.length = .ok r := by
  have hb : byteAt (pre ++ answerBytes r) pre.length = answerTag r := by
    simp [byteAt, answerBytes]
  have hlen : (pre ++ answerBytes r).length = pre.length + 5 + (answerData r).length := by
    simp [answerBytes, wordBytes]; omega
  have hw : wordAt (pre ++ answerBytes r) (pre.length + 1) = BitVec.ofNat 32 (answerData r).length := by
    have hx : ∀ j, byteAt (pre ++ answerBytes r) (pre.length + 1 + j) =
        byteAt (wordBytes (BitVec.ofNat 32 (answerData r).length) ++ answerData r) j := by
      intro j
      have : pre.length + 1 + j - pre.length = j + 1 := by omega
      simp only [byteAt, answerBytes]
      rw [List.getD_append_right _ _ _ _ (by omega), this, List.getD_cons_succ]
    have h0 := wordAt_front (BitVec.ofNat 32 (answerData r).length) (answerData r)
    simp only [wordAt] at h0 ⊢
    rw [← h0]
    have e0 := hx 0; have e1 := hx 1; have e2 := hx 2; have e3 := hx 3
    simp only [Nat.add_zero, Nat.add_assoc, Nat.reduceAdd, Nat.zero_add] at e0 e1 e2 e3 ⊢
    rw [e0, e1, e2, e3]
  have hd : (pre ++ answerBytes r).drop (pre.length + 5) = answerData r := by
    rw [List.drop_append]
    simp [answerBytes, wordBytes]
  simp only [decodeAnswer, hb, hw, hd, hlen]
  rw [if_neg (by omega)]
  cases r with
  | count data =>
    have hl : data.length < 2 ^ 32 := by simpa [DevAnswer.wf] using h
    have : (BitVec.ofNat 32 data.length).toNat = data.length := by
      rw [BitVec.toNat_ofNat, Nat.mod_eq_of_lt hl]
    simp [answerTag, answerData, this]
  | nak => rfl
  | stall => rfl
  | ioerror => rfl
  | nodev => rfl
  | babble => rfl
  | pending => rfl

theorem decodeAnswer_result (r : DevAnswer) (h : r.wf = true) : decodeAnswer (answerBytes r) 0 = .ok r :=
  decodeAnswer_answerBytes [] r h

theorem resultCount (k : Sched) (data : List Byte) : Statement (.resultCount k data) := fun h => by
  have hl : data.length < 2 ^ 15 := by simpa [Instr.wf] using h
  have hw : (DevAnswer.count data).wf = true := by simp [DevAnswer.wf]; omega
  simp only [encode, resultMsg, decode, decodeResult, decodeAnswer_result _ hw]
  rw [if_pos]
  show data.length ≤ 32767
  omega

theorem resultCountOverlong (k : Sched) (data : List Byte) : Statement (.resultCountOverlong k data) := fun h => by
  have hl : 0 < data.length ∧ data.length < 2 ^ 32 := by simpa [Instr.wf] using h
  have hw : (DevAnswer.count data).wf = true := by simp [DevAnswer.wf]; omega
  simp only [encode, resultMsg, decode, decodeResult, decodeAnswer_result _ hw]
  rw [if_neg]
  show ¬ data.length ≤ 0
  omega

theorem resultNak (k : Sched) : Statement (.resultNak k) := fun _ => rfl
theorem resultStall (k : Sched) : Statement (.resultStall k) := fun _ => rfl
theorem resultIoerror (k : Sched) : Statement (.resultIoerror k) := fun _ => rfl
theorem resultNodev (k : Sched) : Statement (.resultNodev k) := fun _ => rfl
theorem resultBabble (k : Sched) : Statement (.resultBabble k) := fun _ => rfl
theorem resultPending (k : Sched) : Statement (.resultPending k) := fun _ => rfl

/-! ### Stimuli -/

theorem mmioRead (off : Word) (w : Width) : Statement (.mmioRead off w) := fun _ => by
  have h : wordAt (0#8 :: widthByte w :: wordBytes off) 2 = off := wordAt_word off
  have hb : byteAt (0#8 :: widthByte w :: wordBytes off) 1 = widthByte w := rfl
  have hw : decodeWidth (widthByte w) = .ok w := by cases w <;> rfl
  show decodeMmioRead (0#8 :: widthByte w :: wordBytes off) = _
  rw [decodeMmioRead, hb, hw, h]
  rfl

theorem mmioWrite (off : Word) (w : Width) (v : Word) : Statement (.mmioWrite off w v) := fun _ => by
  have h : wordAt (1#8 :: widthByte w :: (wordBytes off ++ wordBytes v)) 2 = off := wordAt_front off (wordBytes v)
  have hv : wordAt (1#8 :: widthByte w :: (wordBytes off ++ wordBytes v)) 6 = v := wordAt_word v
  have hb : byteAt (1#8 :: widthByte w :: (wordBytes off ++ wordBytes v)) 1 = widthByte w := rfl
  have hw : decodeWidth (widthByte w) = .ok w := by cases w <;> rfl
  show decodeMmioWrite (1#8 :: widthByte w :: (wordBytes off ++ wordBytes v)) = _
  rw [decodeMmioWrite, hb, hw, h, hv]
  rfl

theorem tick (now : Nat) : Statement (.tick now) := fun h => by
  have hn : now < 2 ^ 64 := by simpa [Instr.wf] using h
  have h1 : wordAt (2#8 :: (wordBytes (BitVec.ofNat 32 now) ++ wordBytes (BitVec.ofNat 32 (now / 2 ^ 32)))) 1 =
    BitVec.ofNat 32 now := wordAt_front _ (wordBytes (BitVec.ofNat 32 (now / 2 ^ 32)))
  have h5 : wordAt (2#8 :: (wordBytes (BitVec.ofNat 32 now) ++ wordBytes (BitVec.ofNat 32 (now / 2 ^ 32)))) 5 =
    BitVec.ofNat 32 (now / 2 ^ 32) := wordAt_word _
  show decodeTick (2#8 :: (wordBytes (BitVec.ofNat 32 now) ++ wordBytes (BitVec.ofNat 32 (now / 2 ^ 32)))) = _
  rw [decodeTick, h1, h5, if_neg (by simp [wordBytes])]
  simp only [BitVec.toNat_ofNat]
  congr 2
  omega

theorem complete (k : Sched) (qh qtd : Word) (r : DevAnswer) : Statement (.complete k qh qtd r) := fun h => by
  have hw : r.wf = true := h
  have hp : 3#8 :: schedByte k :: (wordBytes qh ++ wordBytes qtd ++ answerBytes r) =
      (3#8 :: schedByte k :: (wordBytes qh ++ wordBytes qtd)) ++ answerBytes r := by simp
  have ha := decodeAnswer_answerBytes (3#8 :: schedByte k :: (wordBytes qh ++ wordBytes qtd)) r hw
  rw [← hp] at ha
  have h2 : wordAt (3#8 :: schedByte k :: (wordBytes qh ++ wordBytes qtd ++ answerBytes r)) 2 = qh := by
    rw [List.append_assoc]; exact wordAt_front qh (wordBytes qtd ++ answerBytes r)
  have h6 : wordAt (3#8 :: schedByte k :: (wordBytes qh ++ wordBytes qtd ++ answerBytes r)) 6 = qtd := by
    rw [List.append_assoc]; exact wordAt_front qtd (answerBytes r)
  have hb : byteAt (3#8 :: schedByte k :: (wordBytes qh ++ wordBytes qtd ++ answerBytes r)) 1 = schedByte k := rfl
  have hk : decodeKind (schedByte k) = .ok k := by cases k <;> rfl
  show decodeComplete (3#8 :: schedByte k :: (wordBytes qh ++ wordBytes qtd ++ answerBytes r)) = _
  have hl : ¬ (3#8 :: schedByte k :: (wordBytes qh ++ wordBytes qtd ++ answerBytes r)).length < 15 := by
    simp [wordBytes, answerBytes]
  rw [decodeComplete, if_neg hl, hb, hk, h2, h6]
  have ha' : decodeAnswer (3#8 :: schedByte k :: (wordBytes qh ++ wordBytes qtd ++ answerBytes r)) 10 = .ok r := ha
  rw [ha']

theorem deviceRemove (dev : DevRef) : Statement (.deviceRemove dev) := fun h => by
  have hd : dev < 2 ^ 32 := by simpa [Instr.wf] using h
  have h1 : wordAt (4#8 :: wordBytes (BitVec.ofNat 32 dev)) 1 = BitVec.ofNat 32 dev := wordAt_word _
  show decodeDeviceRemove (4#8 :: wordBytes (BitVec.ofNat 32 dev)) = _
  rw [decodeDeviceRemove, h1, BitVec.toNat_ofNat, Nat.mod_eq_of_lt hd]
  rfl

theorem portChange : Statement .portChange := fun _ => rfl
theorem powerOn : Statement .powerOn := fun _ => rfl

/-! ### Automaton states -/

theorem stateInactive (k : Sched) : Statement (.stateInactive k) := fun _ => by cases k <;> rfl
theorem stateActive (k : Sched) : Statement (.stateActive k) := fun _ => by cases k <;> rfl
theorem stateWaitListHead : Statement .stateWaitListHead := fun _ => rfl
theorem stateFetchEntry (k : Sched) : Statement (.stateFetchEntry k) := fun _ => by cases k <;> rfl
theorem stateFetchQh (k : Sched) : Statement (.stateFetchQh k) := fun _ => by cases k <;> rfl
theorem stateFetchItd : Statement .stateFetchItd := fun _ => rfl
theorem stateFetchSitd : Statement .stateFetchSitd := fun _ => rfl
theorem stateAdvanceQueue (k : Sched) : Statement (.stateAdvanceQueue k) := fun _ => by cases k <;> rfl
theorem stateFetchQtd (k : Sched) : Statement (.stateFetchQtd k) := fun _ => by cases k <;> rfl
theorem stateExecute (k : Sched) : Statement (.stateExecute k) := fun _ => by cases k <;> rfl
theorem stateExecuting (k : Sched) : Statement (.stateExecuting k) := fun _ => by cases k <;> rfl
theorem stateWriteback (k : Sched) : Statement (.stateWriteback k) := fun _ => by cases k <;> rfl
theorem stateHorizontalQh (k : Sched) : Statement (.stateHorizontalQh k) := fun _ => by cases k <;> rfl

/-! ### Register writes and the read -/

theorem usbcmdHcreset (hi : BitVec 30) (rs : BitVec 1) : Statement (.usbcmdHcreset hi rs) := fun _ => by
  have h1 : (hcresetValue hi rs).getLsbD 1 = true := by simp only [hcresetValue, BitVec.getLsbD_append]; rfl
  have hh : (hcresetValue hi rs).extractLsb' 2 30 = hi := by
    refine field_of_bits fun i hi => ?_
    simp only [hcresetValue, BitVec.getLsbD_append]
    split_ifs <;> first | omega | (congr 1; omega)
  have hl : (hcresetValue hi rs).extractLsb' 0 1 = rs := by
    refine field_of_bits fun i hi => ?_
    simp only [hcresetValue, BitVec.getLsbD_append]
    split_ifs <;> first | omega | (congr 1; omega)
  simp only [encode, decode, wordMsg, withWord_word, decodeUsbcmd, h1, hh, hl, if_true]

theorem usbcmdRun (hi : BitVec 30) : Statement (.usbcmdRun hi) := fun _ => by
  have h1 : (runValue hi).getLsbD 1 = false := by simp only [runValue, BitVec.getLsbD_append]; rfl
  have h0 : (runValue hi).getLsbD 0 = true := by simp only [runValue, BitVec.getLsbD_append]; rfl
  have hh : (runValue hi).extractLsb' 2 30 = hi := by
    refine field_of_bits fun i hi => ?_
    simp only [runValue, BitVec.getLsbD_append]
    split_ifs <;> first | omega | (congr 1; omega)
  simp only [encode, decode, wordMsg, withWord_word, decodeUsbcmd, h0, h1, hh, if_true]
  rfl

theorem usbcmdPse (hi : BitVec 27) (fls : BitVec 2) : Statement (.usbcmdPse hi fls) := fun _ => by
  have h1 : (pseValue hi fls).getLsbD 1 = false := by simp only [pseValue, BitVec.getLsbD_append]; rfl
  have h0 : (pseValue hi fls).getLsbD 0 = false := by simp only [pseValue, BitVec.getLsbD_append]; rfl
  have h4 : (pseValue hi fls).getLsbD 4 = true := by simp only [pseValue, BitVec.getLsbD_append]; rfl
  have hh : (pseValue hi fls).extractLsb' 5 27 = hi := by
    refine field_of_bits fun i hi => ?_
    simp only [pseValue, BitVec.getLsbD_append]
    split_ifs <;> first | omega | (congr 1; omega)
  have hf : (pseValue hi fls).extractLsb' 2 2 = fls := by
    refine field_of_bits fun i hi => ?_
    simp only [pseValue, BitVec.getLsbD_append]
    split_ifs <;> first | omega | (congr 1; omega)
  simp only [encode, decode, wordMsg, withWord_word, decodeUsbcmd, h0, h1, h4, hh, hf, if_true]
  rfl

theorem usbcmdAse (hi : BitVec 26) (fls : BitVec 2) : Statement (.usbcmdAse hi fls) := fun _ => by
  have h1 : (aseValue hi fls).getLsbD 1 = false := by simp only [aseValue, BitVec.getLsbD_append]; rfl
  have h0 : (aseValue hi fls).getLsbD 0 = false := by simp only [aseValue, BitVec.getLsbD_append]; rfl
  have h4 : (aseValue hi fls).getLsbD 4 = false := by simp only [aseValue, BitVec.getLsbD_append]; rfl
  have h5 : (aseValue hi fls).getLsbD 5 = true := by simp only [aseValue, BitVec.getLsbD_append]; rfl
  have hh : (aseValue hi fls).extractLsb' 6 26 = hi := by
    refine field_of_bits fun i hi => ?_
    simp only [aseValue, BitVec.getLsbD_append]
    split_ifs <;> first | omega | (congr 1; omega)
  have hf : (aseValue hi fls).extractLsb' 2 2 = fls := by
    refine field_of_bits fun i hi => ?_
    simp only [aseValue, BitVec.getLsbD_append]
    split_ifs <;> first | omega | (congr 1; omega)
  simp only [encode, decode, wordMsg, withWord_word, decodeUsbcmd, h0, h1, h4, h5, hh, hf, if_true]
  rfl

theorem usbcmdIaad (hi : BitVec 25) (fls : BitVec 2) : Statement (.usbcmdIaad hi fls) := fun _ => by
  have h1 : (iaadValue hi fls).getLsbD 1 = false := by simp only [iaadValue, BitVec.getLsbD_append]; rfl
  have h0 : (iaadValue hi fls).getLsbD 0 = false := by simp only [iaadValue, BitVec.getLsbD_append]; rfl
  have h4 : (iaadValue hi fls).getLsbD 4 = false := by simp only [iaadValue, BitVec.getLsbD_append]; rfl
  have h5 : (iaadValue hi fls).getLsbD 5 = false := by simp only [iaadValue, BitVec.getLsbD_append]; rfl
  have h6 : (iaadValue hi fls).getLsbD 6 = true := by simp only [iaadValue, BitVec.getLsbD_append]; rfl
  have hh : (iaadValue hi fls).extractLsb' 7 25 = hi := by
    refine field_of_bits fun i hi => ?_
    simp only [iaadValue, BitVec.getLsbD_append]
    split_ifs <;> first | omega | (congr 1; omega)
  have hf : (iaadValue hi fls).extractLsb' 2 2 = fls := by
    refine field_of_bits fun i hi => ?_
    simp only [iaadValue, BitVec.getLsbD_append]
    split_ifs <;> first | omega | (congr 1; omega)
  simp only [encode, decode, wordMsg, withWord_word, decodeUsbcmd, h0, h1, h4, h5, h6, hh, hf, if_true]
  rfl

theorem usbcmdItc (hi : BitVec 25) (fls : BitVec 2) : Statement (.usbcmdItc hi fls) := fun _ => by
  have h1 : (itcValue hi fls).getLsbD 1 = false := by simp only [itcValue, BitVec.getLsbD_append]; rfl
  have h0 : (itcValue hi fls).getLsbD 0 = false := by simp only [itcValue, BitVec.getLsbD_append]; rfl
  have h4 : (itcValue hi fls).getLsbD 4 = false := by simp only [itcValue, BitVec.getLsbD_append]; rfl
  have h5 : (itcValue hi fls).getLsbD 5 = false := by simp only [itcValue, BitVec.getLsbD_append]; rfl
  have h6 : (itcValue hi fls).getLsbD 6 = false := by simp only [itcValue, BitVec.getLsbD_append]; rfl
  have hh : (itcValue hi fls).extractLsb' 7 25 = hi := by
    refine field_of_bits fun i hi => ?_
    simp only [itcValue, BitVec.getLsbD_append]
    split_ifs <;> first | omega | (congr 1; omega)
  have hf : (itcValue hi fls).extractLsb' 2 2 = fls := by
    refine field_of_bits fun i hi => ?_
    simp only [itcValue, BitVec.getLsbD_append]
    split_ifs <;> first | omega | (congr 1; omega)
  simp only [encode, decode, wordMsg, withWord_word, decodeUsbcmd, h0, h1, h4, h5, h6, hh, hf]
  rfl

/-- A write at an operational offset, taken apart. -/
theorem opWrite_parts (off : Byte) (v : Word) :
    byteAt (off :: wordBytes v) 0 = off ∧ wordAt (off :: wordBytes v) 1 = v ∧ (off :: wordBytes v).length = 5 :=
  ⟨rfl, wordAt_word v, rfl⟩

theorem writeUsbsts (v : Word) : Statement (.writeUsbsts v) := fun _ => by
  obtain ⟨h0, h1, h2⟩ := opWrite_parts 0x04#8 v
  show decodeOpWrite (0x04#8 :: wordBytes v) = _
  simp only [decodeOpWrite, h0, h1, h2]; rfl

theorem writeUsbintr (v : Word) : Statement (.writeUsbintr v) := fun _ => by
  obtain ⟨h0, h1, h2⟩ := opWrite_parts 0x08#8 v
  show decodeOpWrite (0x08#8 :: wordBytes v) = _
  simp only [decodeOpWrite, h0, h1, h2]; rfl

theorem writeFrindex (v : Word) : Statement (.writeFrindex v) := fun _ => by
  obtain ⟨h0, h1, h2⟩ := opWrite_parts 0x0C#8 v
  show decodeOpWrite (0x0C#8 :: wordBytes v) = _
  simp only [decodeOpWrite, h0, h1, h2]; rfl

theorem writeCtrldssegment (v : Word) : Statement (.writeCtrldssegment v) := fun _ => by
  obtain ⟨h0, h1, h2⟩ := opWrite_parts 0x10#8 v
  show decodeOpWrite (0x10#8 :: wordBytes v) = _
  simp only [decodeOpWrite, h0, h1, h2]; rfl

theorem writePeriodiclistbase (v : Word) : Statement (.writePeriodiclistbase v) := fun _ => by
  obtain ⟨h0, h1, h2⟩ := opWrite_parts 0x14#8 v
  show decodeOpWrite (0x14#8 :: wordBytes v) = _
  simp only [decodeOpWrite, h0, h1, h2]; rfl

theorem writeAsynclistaddr (v : Word) : Statement (.writeAsynclistaddr v) := fun _ => by
  obtain ⟨h0, h1, h2⟩ := opWrite_parts 0x18#8 v
  show decodeOpWrite (0x18#8 :: wordBytes v) = _
  simp only [decodeOpWrite, h0, h1, h2]; rfl

theorem writeConfigflag (v : Word) : Statement (.writeConfigflag v) := fun _ => by
  obtain ⟨h0, h1, h2⟩ := opWrite_parts 0x40#8 v
  show decodeOpWrite (0x40#8 :: wordBytes v) = _
  simp only [decodeOpWrite, h0, h1, h2]; rfl

theorem portscOffset_facts (i : BitVec 4) :
    portscOffset i ≠ 0x04#8 ∧ portscOffset i ≠ 0x08#8 ∧ portscOffset i ≠ 0x0C#8 ∧ portscOffset i ≠ 0x10#8 ∧
    portscOffset i ≠ 0x14#8 ∧ portscOffset i ≠ 0x18#8 ∧ portscOffset i ≠ 0x40#8 ∧
    (portscOffset i - 0x44#8).extractLsb' 2 4 = i := by
  revert i; decide

theorem writePortsc (i : BitVec 4) (v : Word) : Statement (.writePortsc i v) := fun _ => by
  obtain ⟨h0, h1, h2⟩ := opWrite_parts (portscOffset i) v
  obtain ⟨n1, n2, n3, n4, n5, n6, n7, hp⟩ := portscOffset_facts i
  show decodeOpWrite (portscOffset i :: wordBytes v) = _
  simp only [decodeOpWrite, h0, h1, h2, if_neg n1, if_neg n2, if_neg n3, if_neg n4, if_neg n5, if_neg n6, if_neg n7, hp,
    if_true]
  rfl

theorem readOp (off : Word) : Statement (.readOp off) := fun _ => by
  simp only [encode, decode, wordMsg, withWord_word]

theorem fatalAsyncType : Statement .fatalAsyncType := fun _ => rfl
theorem fatalFstn : Statement .fatalFstn := fun _ => rfl
theorem fatalReservedPid : Statement .fatalReservedPid := fun _ => rfl
theorem fatalPageIndex : Statement .fatalPageIndex := fun _ => rfl

end Sys2Proof.Laws.RoundTrip
end

