-- ==== Sys2Proof/Laws/Rows.lean ====
section
/-! SUPPORT. What a step that stores the current Queue and moves the automaton does, field by field, and the Queue of
a good state that a row works on. -/

namespace Sys2Proof.Machine

/-- Storing a Queue of schedule k and moving its automaton, in a state whose schedules are those of `s`. -/
theorem put_auto {s u : State} {k : Sched} {q : Queue} (x : AutoState) (hk : q.kind = k)
    (hs : ∀ j, u.sched j = s.sched j) :
    ((u.putQueue q).setAuto k x).queue? k q.qhaddr = some q ∧
    (((u.putQueue q).setAuto k x).sched k).auto = x ∧
    (((u.putQueue q).setAuto k x).sched k).curQueue = (s.sched k).curQueue ∧
    (((u.putQueue q).setAuto k x).sched k).visits = (s.sched k).visits ∧
    OnlyQueue s ((u.putQueue q).setAuto k x) k q.qhaddr := by
  have hq : ∀ j a, ((u.putQueue q).setAuto k x).queue? j a = (u.putQueue q).queue? j a := fun j a => by
    unfold State.queue?
    by_cases h : j = k
    · subst h; rw [State.setAuto_sched]
    · rw [State.setAuto_sched_ne _ _ h]
  have hu : ∀ j a, u.queue? j a = s.queue? j a := fun j a => by unfold State.queue?; rw [hs]
  subst hk
  refine ⟨?_, ?_, ?_, ?_, ?_, ?_, ?_⟩
  · rw [hq, queue?_putQueue, if_pos ⟨rfl, rfl⟩]
  · rw [State.setAuto_sched]
  · rw [State.setAuto_sched, State.putQueue_sched, hs]
  · rw [State.setAuto_sched, State.putQueue_sched, hs]
  · intro j a hja
    rw [hq, queue?_putQueue, if_neg hja, hu]
  · rw [State.setAuto_sched, State.putQueue_sched, hs]
  · intro j hj
    rw [State.setAuto_sched_ne _ _ hj, State.putQueue_sched_ne _ _ hj, hs]

theorem setSched_rest (u : State) (k : Sched) (r a b : SchedRegs) :
    { u.setSched k r with async := a, periodic := b } = { u with async := a, periodic := b } := by cases k <;> rfl

/-- Beside the schedules, storing a Queue and moving an automaton change nothing. -/
theorem put_auto_rest (u : State) (k : Sched) (q : Queue) (x : AutoState) (a b : SchedRegs) :
    { (u.putQueue q).setAuto k x with async := a, periodic := b } = { u with async := a, periodic := b } := by
  simp only [State.setAuto, State.putQueue, State.setCache]
  have h1 := setSched_rest (u.setSched q.kind { u.sched q.kind with cache := cachePut (u.sched q.kind).cache q }) k
    { (u.setSched q.kind { u.sched q.kind with cache := cachePut (u.sched q.kind).cache q }).sched k with auto := x } a b
  exact h1.trans (setSched_rest u _ _ a b)

theorem setMem_putQueue (s : State) (q : Queue) (m : Memory) : (s.putQueue q).setMem m = (s.setMem m).putQueue q := by
  simp only [State.putQueue, State.setCache]
  cases q.kind <;> rfl

theorem setRecl_putQueue (s : State) (q : Queue) (b : Bool) : (s.putQueue q).setRecl b = (s.setRecl b).putQueue q := by
  simp only [State.putQueue, State.setCache]
  cases q.kind <;> rfl

theorem reclIfAsync_putQueue (s : State) (q : Queue) (k : Sched) :
    (s.putQueue q).reclIfAsync k = (s.reclIfAsync k).putQueue q := by
  cases k
  · exact setRecl_putQueue s q true
  · rfl

theorem reclIfAsync_sched (s : State) (k j : Sched) : (s.reclIfAsync k).sched j = s.sched j := by
  cases k <;> cases j <;> rfl

/-- A flush of a stored Queue is a flush of the Queue, then the store. -/
theorem flushOverlay_putQueue (s : State) (q r : Queue) :
    flushOverlay q (s.putQueue r) = (flushOverlay q s).putQueue r := by
  rw [flushOverlay, State.putQueue_mem, setMem_putQueue]; rfl

theorem flushOverlay_sched (q : Queue) (s : State) (j : Sched) : (flushOverlay q s).sched j = s.sched j :=
  State.setMem_sched s _ j

theorem flushOverlay_mem (q : Queue) (s : State) : (flushOverlay q s).mem = flushQh s.mem q.qhaddr q.qh := by
  rw [flushOverlay, State.setMem_mem]

theorem flushOverlay_recl (q : Queue) (s : State) : (flushOverlay q s).recl = s.recl := by
  rw [flushOverlay, State.setMem_recl]

theorem setMem_rest (s : State) (m n : Memory) : { s.setMem m with mem := n } = { s with mem := n } := rfl

/-- Beside memory, a flush changes nothing. -/
theorem flushOverlay_rest (q : Queue) (s : State) (m : Memory) :
    { flushOverlay q s with mem := m } = { s with mem := m } := by
  rw [flushOverlay]; exact setMem_rest _ _ _

theorem reclIfAsync_recl (s : State) (k : Sched) : (s.reclIfAsync k).recl = if k = .async then true else s.recl := by
  cases k <;> rfl

/-- Beside RECL, setting it changes nothing. -/
theorem reclIfAsync_rest (s : State) (k : Sched) (b : Bool) :
    { s.reclIfAsync k with recl := b } = { s with recl := b } := by cases k <;> rfl

theorem toNat_sub_add {x a : Word} {c : Nat} (hc : c < 2 ^ 32) : (x - (a + BitVec.ofNat 32 c)).toNat =
    if c ≤ (x - a).toNat then (x - a).toNat - c else (x - a).toNat + 2 ^ 32 - c := by
  have hx := x.isLt
  have ha := a.isLt
  simp only [BitVec.toNat_sub, BitVec.toNat_add, BitVec.toNat_ofNat, Nat.mod_eq_of_lt hc]
  split <;> omega

/-- A byte with memory behind it after a qTD is written back (R380): words 0 to 2 of it. -/
theorem readByte_writebackQtd {m : Memory} (hm : Memory.wf m = true) (p : Packet) (T : Word) {x : Word}
    (hx : m.hasRam x = true) :
    readByte (writebackQtd m p T) x = if (x - p.qtdaddr).toNat < 12 then
      (wordsBytes [p.qtd.next, p.qtd.alt, T]).getD (x - p.qtdaddr).toNat 0 else readByte m x := by
  have h1 := write32_wf hm p.qtdaddr p.qtd.next
  have h2 := write32_wf h1 (p.qtdaddr + 4) p.qtd.alt
  simp only [writebackQtd]
  have x1 : (write32 m p.qtdaddr p.qtd.next).hasRam x = true := by
    rw [Memory.hasRam_congr (write32_holes _ _ _)]; exact hx
  have x2 : (write32 (write32 m p.qtdaddr p.qtd.next) (p.qtdaddr + 4) p.qtd.alt).hasRam x = true := by
    rw [Memory.hasRam_congr (write32_holes _ _ _)]; exact x1
  rw [readByte_write32 h2 _ _ x2, readByte_write32 h1 _ _ x1, readByte_write32 hm _ _ hx]
  have e4 := toNat_sub_add (x := x) (a := p.qtdaddr) (c := 4) (by omega)
  have e8 := toNat_sub_add (x := x) (a := p.qtdaddr) (c := 8) (by omega)
  have := (x - p.qtdaddr).isLt
  rw [show p.qtdaddr + 4 = p.qtdaddr + BitVec.ofNat 32 4 from rfl, show p.qtdaddr + 8 = p.qtdaddr + BitVec.ofNat 32 8 from rfl, e4, e8]
  generalize (x - p.qtdaddr).toNat = n at *
  by_cases h12 : n < 12
  · rw [if_pos h12]
    have : n = 0 ∨ n = 1 ∨ n = 2 ∨ n = 3 ∨ n = 4 ∨ n = 5 ∨ n = 6 ∨ n = 7 ∨ n = 8 ∨ n = 9 ∨ n = 10 ∨ n = 11 := by omega
    rcases this with h|h|h|h|h|h|h|h|h|h|h|h <;> subst h <;> rfl
  · rw [if_neg h12]
    have a1 : ¬ (if 8 ≤ n then n - 8 else n + 2 ^ 32 - 8) < 4 := by split <;> omega
    have a2 : ¬ (if 4 ≤ n then n - 4 else n + 2 ^ 32 - 4) < 4 := by split <;> omega
    rw [if_neg a1, if_neg a2, if_neg (by omega)]

/-- The one Packet of a Queue that has one (R292). -/
theorem only_packet {s : State} {k : Sched} {q : Queue} {p : Packet} (h : Inv s = true) (hp : HasPacket s k q p) :
    q.packets = [p] ∧ p.qtdaddr = q.qtdaddr ∧ q.kind = k ∧ s.queue? k q.qhaddr = some q ∧
    (s.sched k).curQueue = some q.qhaddr := by
  obtain ⟨hok, hc⟩ := current_ok h hp.1
  have hl := (queueOk_iff.1 hok).2.2.1
  have ha := (findPacket_some hp.2).2
  have hm := (findPacket_some hp.2).1
  refine ⟨?_, ha, hc.1, hc.2.2.1, hc.2.1⟩
  match hq : q.packets with
  | [] => rw [hq] at hm; cases hm
  | [r] => rw [hq] at hm; rw [List.mem_singleton.1 hm]
  | a :: b :: l => rw [hq] at hl; simp at hl

end Sys2Proof.Machine
end

