-- ==== Sys2Proof/Tests/Slice0.lean ====
section
/-! SUPPORT. The model's own tests: ill-formed terms that are refused, the decoding of words written out from the spec's
encodings, one step of each instruction on a small state, and a state that meets the hypotheses of each statement. -/

namespace Sys2Proof.Tests

open Sys2Proof Sys2Proof.Machine

set_option Elab.async false

/-! ### Well-formedness: each check refuses an ill-formed term -/

theorem test_wf_resultCount (data : List Byte) (h : data.length = 2 ^ 15) :
    (Instr.resultCount .async data).wf = false := by simp [Instr.wf, h]

theorem test_wf_overlong_empty : (Instr.resultCountOverlong .async []).wf = false := by decide

theorem test_wf_tick : (Instr.tick (2 ^ 64)).wf = false := by decide

theorem test_wf_deviceRemove : (Instr.deviceRemove (2 ^ 32)).wf = false := by decide

theorem test_wf_overlong_long (data : List Byte) (h : data.length = 2 ^ 32) :
    (Instr.resultCountOverlong .async data).wf = false := by simp [Instr.wf, h]

theorem test_wf_complete (data : List Byte) (h : data.length = 2 ^ 32) :
    (Instr.complete .async 0 0 (.count data)).wf = false := by simp [Instr.wf, DevAnswer.wf, h]

/-! ### Decoding: each word is written out from its encoding, bytes lowest first (R102) -/

/-- Bits 31:5 address 0x123, bits 4:3 reserved 10, bits 2:1 type, bit 0 T (R150, R151). -/
theorem test_decode_links :
    decode ⟨.link, .async, [0x01, 0x00, 0x00, 0x80]⟩ = .ok (.linkEnd .async 0x40000000) ∧
    decode ⟨.link, .periodic, [0x70, 0x24, 0x00, 0x00]⟩ = .ok (.linkItd .periodic 0x123 0b10) ∧
    decode ⟨.link, .async, [0x72, 0x24, 0x00, 0x00]⟩ = .ok (.linkQh .async 0x123 0b10) ∧
    decode ⟨.link, .periodic, [0x74, 0x24, 0x00, 0x00]⟩ = .ok (.linkSitd .periodic 0x123 0b10) ∧
    decode ⟨.link, .async, [0x76, 0x24, 0x00, 0x00]⟩ = .ok (.linkFstn .async 0x123 0b10) := by decide

/-- dt 1, TotalBytes 0x1234, IOC 0, C_Page 5, CERR 2, PID, Active, status 0x2A: bits 31, 30:16, 15, 14:12, 11:10, 9:8, 7,
6:0 (R160, R165). -/
theorem test_decode_tokens :
    let t : TokenOps := ⟨1, 0x1234, 0, 5, 2, 0x2A⟩
    decode ⟨.qtdToken, .async, [0x2A, 0x5B, 0x34, 0x92]⟩ = .ok (.qtdInactive .async 0b11 t) ∧
    decode ⟨.qtdToken, .async, [0xAA, 0x58, 0x34, 0x92]⟩ = .ok (.pidOut .async t) ∧
    decode ⟨.qtdToken, .async, [0xAA, 0x59, 0x34, 0x92]⟩ = .ok (.pidIn .async t) ∧
    decode ⟨.qtdToken, .periodic, [0xAA, 0x5A, 0x34, 0x92]⟩ = .ok (.pidSetup .periodic t) ∧
    decode ⟨.qtdToken, .async, [0xAA, 0x5B, 0x34, 0x92]⟩ = .ok (.pidReserved .async t) := by decide

/-- Bit 6 of an overlay token is Halted (R160, R357); without it the word is no row. -/
theorem test_decode_qhHalted :
    decode ⟨.qhToken, .async, [0x40, 0x8D, 0x40, 0x00]⟩ = .ok (.qhHalted .async 0x811A 0) ∧
    decode ⟨.qhToken, .async, [0x80, 0x8D, 0x40, 0x00]⟩ = .error .noRow := by decide

/-- The tags of R174, a count of two bytes at and above TotalBytes (R307), and tag 7, which is none. -/
theorem test_decode_results :
    decode ⟨.devResult 2, .async, [0, 2, 0, 0, 0, 0xDE, 0xAD]⟩ = .ok (.resultCount .async [0xDE, 0xAD]) ∧
    decode ⟨.devResult 1, .async, [0, 2, 0, 0, 0, 0xDE, 0xAD]⟩ = .ok (.resultCountOverlong .async [0xDE, 0xAD]) ∧
    decode ⟨.devResult 2, .async, [1, 0, 0, 0, 0]⟩ = .ok (.resultNak .async) ∧
    decode ⟨.devResult 2, .async, [2, 0, 0, 0, 0]⟩ = .ok (.resultStall .async) ∧
    decode ⟨.devResult 2, .async, [3, 0, 0, 0, 0]⟩ = .ok (.resultIoerror .async) ∧
    decode ⟨.devResult 2, .async, [4, 0, 0, 0, 0]⟩ = .ok (.resultNodev .async) ∧
    decode ⟨.devResult 2, .periodic, [5, 0, 0, 0, 0]⟩ = .ok (.resultBabble .periodic) ∧
    decode ⟨.devResult 2, .async, [6, 0, 0, 0, 0]⟩ = .ok (.resultPending .async) ∧
    decode ⟨.devResult 2, .async, [7, 0, 0, 0, 0]⟩ = .error .badTag := by decide

/-- The stimuli 0 to 6 of R175, with the operands of log 16. -/
theorem test_decode_stimuli :
    decode ⟨.stimulus, .async, [0, 2, 0x24, 0, 0, 0]⟩ = .ok (.mmioRead 0x24 .w4) ∧
    decode ⟨.stimulus, .async, [1, 2, 0x38, 0, 0, 0, 0x00, 0x10, 0, 0]⟩ = .ok (.mmioWrite 0x38 .w4 0x1000) ∧
    decode ⟨.stimulus, .async, [2, 0xE8, 3, 0, 0, 1, 0, 0, 0]⟩ = .ok (.tick (1000 + 2 ^ 32)) ∧
    decode ⟨.stimulus, .async, [3, 1, 0x00, 0x40, 0, 0, 0x00, 0x50, 0, 0, 0, 1, 0, 0, 0, 0xAA]⟩ =
      .ok (.complete .periodic 0x4000 0x5000 (.count [0xAA])) ∧
    decode ⟨.stimulus, .async, [4, 5, 0, 0, 0]⟩ = .ok (.deviceRemove 5) ∧
    decode ⟨.stimulus, .async, [5]⟩ = .ok .portChange ∧ decode ⟨.stimulus, .async, [6]⟩ = .ok .powerOn ∧
    decode ⟨.stimulus, .async, [0, 3, 0x24, 0, 0, 0]⟩ = .error .badWidth ∧
    decode ⟨.stimulus, .async, [2, 0xE8, 3]⟩ = .error .short := by decide

/-- The automaton states 0 to 12 of R176. WAIT-LIST-HEAD is asynchronous, FETCH-ITD and FETCH-SITD periodic (R31). -/
theorem test_decode_states :
    decode ⟨.autoState, .async, [0]⟩ = .ok (.stateInactive .async) ∧
    decode ⟨.autoState, .async, [1]⟩ = .ok (.stateActive .async) ∧
    decode ⟨.autoState, .async, [2]⟩ = .ok .stateWaitListHead ∧
    decode ⟨.autoState, .periodic, [3]⟩ = .ok (.stateFetchEntry .periodic) ∧
    decode ⟨.autoState, .async, [4]⟩ = .ok (.stateFetchQh .async) ∧
    decode ⟨.autoState, .periodic, [5]⟩ = .ok .stateFetchItd ∧
    decode ⟨.autoState, .periodic, [6]⟩ = .ok .stateFetchSitd ∧
    decode ⟨.autoState, .async, [7]⟩ = .ok (.stateAdvanceQueue .async) ∧
    decode ⟨.autoState, .async, [8]⟩ = .ok (.stateFetchQtd .async) ∧
    decode ⟨.autoState, .async, [9]⟩ = .ok (.stateExecute .async) ∧
    decode ⟨.autoState, .async, [10]⟩ = .ok (.stateExecuting .async) ∧
    decode ⟨.autoState, .async, [11]⟩ = .ok (.stateWriteback .async) ∧
    decode ⟨.autoState, .async, [12]⟩ = .ok (.stateHorizontalQh .async) ∧
    decode ⟨.autoState, .periodic, [2]⟩ = .error .wrongSchedule := by decide

/-- RS bit 0, HCRESET bit 1, PSE bit 4, ASE bit 5, IAAD bit 6, ITC bits 23:16 (R40, R502). -/
theorem test_decode_usbcmd :
    decode ⟨.usbcmdWrite, .async, [0x03, 0x00, 0x08, 0x00]⟩ = .ok (.usbcmdHcreset 0x20000 1) ∧
    decode ⟨.usbcmdWrite, .async, [0x21, 0x00, 0x08, 0x00]⟩ = .ok (.usbcmdRun 0x20008) ∧
    decode ⟨.usbcmdWrite, .async, [0x18, 0x00, 0x08, 0x00]⟩ = .ok (.usbcmdPse 0x4000 2) ∧
    decode ⟨.usbcmdWrite, .async, [0x24, 0x00, 0x08, 0x00]⟩ = .ok (.usbcmdAse 0x2000 1) ∧
    decode ⟨.usbcmdWrite, .async, [0x40, 0x00, 0x08, 0x00]⟩ = .ok (.usbcmdIaad 0x1000 0) ∧
    decode ⟨.usbcmdWrite, .async, [0x80, 0x00, 0x08, 0x00]⟩ = .ok (.usbcmdItc 0x1001 0) := by decide

/-- The offsets of R39, a byte, then the value. -/
theorem test_decode_registers :
    decode ⟨.opWrite, .async, [0x04, 1, 2, 3, 4]⟩ = .ok (.writeUsbsts 0x04030201) ∧
    decode ⟨.opWrite, .async, [0x08, 1, 2, 3, 4]⟩ = .ok (.writeUsbintr 0x04030201) ∧
    decode ⟨.opWrite, .async, [0x0C, 1, 2, 3, 4]⟩ = .ok (.writeFrindex 0x04030201) ∧
    decode ⟨.opWrite, .async, [0x10, 1, 2, 3, 4]⟩ = .ok (.writeCtrldssegment 0x04030201) ∧
    decode ⟨.opWrite, .async, [0x14, 1, 2, 3, 4]⟩ = .ok (.writePeriodiclistbase 0x04030201) ∧
    decode ⟨.opWrite, .async, [0x18, 1, 2, 3, 4]⟩ = .ok (.writeAsynclistaddr 0x04030201) ∧
    decode ⟨.opWrite, .async, [0x40, 1, 2, 3, 4]⟩ = .ok (.writeConfigflag 0x04030201) ∧
    decode ⟨.opWrite, .async, [0x4C, 1, 2, 3, 4]⟩ = .ok (.writePortsc 2 0x04030201) ∧
    decode ⟨.opWrite, .async, [0x1C, 1, 2, 3, 4]⟩ = .error .noRow ∧
    decode ⟨.opRead, .async, [0x1C, 0, 0, 0]⟩ = .ok (.readOp 0x1C) := by decide

/-- The codes 0 to 3 of R531. -/
theorem test_decode_fatals :
    decode ⟨.fatalReason, .async, [0]⟩ = .ok .fatalAsyncType ∧ decode ⟨.fatalReason, .async, [1]⟩ = .ok .fatalFstn ∧
    decode ⟨.fatalReason, .async, [2]⟩ = .ok .fatalReservedPid ∧
    decode ⟨.fatalReason, .async, [3]⟩ = .ok .fatalPageIndex ∧
    decode ⟨.fatalReason, .async, [4]⟩ = .error .badTag := by decide

/-! ### Small states: the image and the values of `95_test_vectors.md` -/

/-- A field of the next state. -/
def get {α : Type} (o : Host.Outcome State Fault Refusal) (f : State → α) : Option α :=
  match o with
  | .next t => some (f t)
  | _ => none

/-- The refusal an instruction ends in, if it does. -/
def refusal (o : Host.Outcome State Fault Refusal) : Option Refusal :=
  match o with
  | .refused r => some r
  | _ => none

/-- The fault an instruction ends in, if it does. -/
def faulted (o : Host.Outcome State Fault Refusal) : Option Fault :=
  match o with
  | .fault f => some f
  | _ => none

/-- Whether a step ends in a Fatal. -/
def isFatal (x : Except Stop State) : Bool :=
  match x with
  | .error (.fatal _ _) => true
  | _ => false

theorem isFatal_some {x : Except Stop State} (h : isFatal x = true) : ∃ r u, x = .error (.fatal r u) := by
  unfold isFatal at h
  split at h
  · exact ⟨_, _, rfl⟩
  · cases h

/-- A qTD with a token and a first buffer pointer, both links ended. -/
def qtd (t b : Word) : Qtd := ⟨1, 1, t, b, 0, 0, 0, 0⟩

/-- The common queue head with an overlay. -/
def qh (ov : Qtd) : Qh := ⟨0x1002, 0x0200E105, 0x40000000, 0x2000, ov⟩

/-- A Packet at 0x2000. -/
def pkt (d : Qtd) (tag : PacketTag) (r : Option ResultTag) : Packet := { newPacket 0x2000 d with tag := tag, result := r }

/-- A Queue at 0x1000 whose current qTD is at 0x2000. -/
def queue (k : Sched) (dev : Option DevRef) (h : Qh) (ps : List Packet) : Queue := ⟨k, 0x1000, h, false, 0, dev, ps, 0x2000⟩

/-- The state after reset with one Queue, which is current. -/
def working (q : Queue) : State := (State.reset.putQueue q).setCur q.kind (some 0x1000)

/-- The Queue's overlay token after an instruction. -/
def token (o : Host.Outcome State Fault Refusal) : Option Word :=
  (get o fun t => (t.queue? .async 0x1000).map fun q => q.qh.ov.token).join

/-- The start of V-X1 to V-X9: an IN of 64 bytes with interrupt, answered now. -/
def inStart : State :=
  working (queue .async (some 5) (qh (qtd 0x00408D80 0x3000)) [pkt (qtd 0x00408D80 0x3000) .uninit none])

/-- The same with the Packet finished or in flight. -/
def inWith (tag : PacketTag) (r : Option ResultTag) : State :=
  working (queue .async (some 5) (qh (qtd 0x00408D80 0x3000)) [pkt (qtd 0x00408D80 0x3000) tag r])

/-- Guest memory with words at an address. -/
def poke (s : State) (a : Word) (ws : List Word) : State := s.setMem (writeBytes s.mem a (wordsBytes ws))

/-- The common image: one queue head at 0x1000, one qTD at 0x2000, both list and schedule set up. -/
def image (link h : Word) (ov : Qtd) : State :=
  poke (poke { State.reset with
    usbcmd := ⟨true, false, true, false, 8⟩, usbintr := 0x3F, asyncListAddr := 0x1000, devices := [(5, 5)] }
    0x1000 [link, h, 0x40000000, 0, ov.next, ov.alt, ov.token]) 0x2000 [1, 1, 0x00408D80, 0x3000]

/-- The common image as P1 to P6 have it, with the device's answer. -/
def common (r : DevAnswer) : State := { image 0x1002 0x0200E105 ⟨0x2000, 1, 0, 0, 0, 0, 0, 0⟩ with answers := [⟨[], r⟩] }

/-- The bytes B0 to B63. -/
def sixtyFour : List Byte := (List.range 64).map (BitVec.ofNat 8)

/-! ### One step of each instruction -/

/-- V-E1, V-E2, V-E3, V-E4, V-E5: the step a link selects; both Fatals clear ASYNCLISTADDR (R583). -/
theorem test_links :
    let s := { State.reset with asyncListAddr := 0x1000 }
    get (exec (.linkQh .async 0x80 0) s) (fun t => (t.async.auto, t.async.fetchAddr)) = some (.fetchQh, 0x1002) ∧
    get (exec (.linkEnd .async 0x801) s) (fun t => (t.async.auto, t.async.fetchAddr)) = some (.active, 0x1003) ∧
    get (exec (.linkSitd .periodic 0x80 0) s) (fun t => t.periodic.auto) = some .fetchSitd ∧
    get (exec (.linkItd .periodic 0x80 0) s) (fun t => t.periodic.auto) = some .fetchItd ∧
    get (exec (.linkItd .async 0x80 0) s) (fun t => (t.async.auto, t.asyncListAddr)) = some (.inactive, 0) ∧
    get (exec (.linkSitd .async 0x80 0) s) (fun t => (t.async.auto, t.asyncListAddr)) = some (.inactive, 0) ∧
    get (exec (.linkFstn .periodic 0x80 0) s) (fun t => (t.periodic.auto, t.asyncListAddr)) = some (.inactive, 0) := by
  decide

/-- V-C3 and P1: EXECUTE of an IN loads and flushes the overlay and submits (IN, 5, 1, high, 0, [], 64). -/
theorem test_execute_in :
    let s := { working (queue .async (some 5) (qh (qtd 0 0)) [pkt (qtd 0x00408D80 0x3000) .uninit none]) with
      answers := [⟨[], .pending⟩] }
    let req : Request := ⟨0b01, 5, 1, 0b10, false, [], 64⟩
    get (exec (.stateExecute .async) s) (fun t => (readQtd t.mem 0x1010, t.outbox)) =
      some (qtd 0x00408D80 0x3000, [.submit 5 req]) ∧
    get (exec (.pidIn .async ⟨0, 0x40, 1, 0, 3, 0⟩) s) (fun t => (read32 t.mem 0x100C, t.outbox, t.async.auto, t.recl)) =
      some (0x2000, [.submit 5 req], .horizontalQh, true) := by decide +kernel

/-- V-C4, V-C5: NakCnt from RL; the toggle kept from the QH where DTC = 0. -/
theorem test_loadOverlay :
    let h : Qh := qh (qtd 0x80000000 0)
    let p := pkt (qtd 0x00408D80 0x3000) .uninit none
    ((queue .async none { h with epchar := 0x5200E105 } []).loadOverlay p).qh.ov.alt = 0x0000000B ∧
    ((queue .async none { h with epchar := 0x0200A105 } []).loadOverlay p).qh.ov.token = 0x80408D80 := by decide

/-- V-X14: an OUT of 4 bytes at 0x5000 and a SETUP of the same; V-E11: the reserved code is fatal. -/
theorem test_execute_out :
    let s := { poke (working (queue .async (some 5) (qh (qtd 0 0)) [pkt (qtd 0x00040C80 0x5000) .uninit none]))
      0x5000 [0xEFBEADDE] with answers := [⟨[], .pending⟩] }
    get (exec (.pidOut .async ⟨0, 4, 0, 0, 3, 0⟩) s) (fun t => t.outbox) =
      some [.submit 5 ⟨0b00, 5, 1, 0b10, false, [0xDE, 0xAD, 0xBE, 0xEF], 4⟩] ∧
    get (exec (.pidSetup .async ⟨0, 4, 0, 0, 3, 0⟩) s) (fun t => t.outbox) =
      some [.submit 5 ⟨0b10, 5, 1, 0b10, false, [0xDE, 0xAD, 0xBE, 0xEF], 4⟩] ∧
    get (exec (.pidReserved .async ⟨0, 4, 0, 0, 3, 0⟩) s) (fun t => (t.async.cache, t.mem)) = some ([], s.mem) := by
  decide +kernel

/-- R311: a completion of the Packet submitted inside its submit call is the answer, not the PENDING returned; one of
another Packet in flight finishes that Packet. -/
theorem test_execute_completions :
    let y := queue .periodic (some 6) (qh (qtd 0x00408D80 0x3000)) [pkt (qtd 0x00408D80 0x3000) .inflight none]
    let s : State := { inStart.putQueue y with
      answers := [⟨[⟨.async, 0x1000, 0x2000, .stall⟩, ⟨.periodic, 0x1000, 0x2000, .nak⟩], .pending⟩] }
    let results (t : State) (k : Sched) : List (Option ResultTag) :=
      (t.sched k).cache.flatMap fun q => q.packets.map fun p => p.result
    get (exec (.stateExecute .async) s) (fun t => t.async.auto) = some .executing ∧
    get (exec (.stateExecute .async) s) (fun t => results t .async) = some [some .stall] ∧
    get (exec (.stateExecute .async) s) (fun t => results t .periodic) = some [some .nak] := by decide +kernel

/-- R101: a write across the start of a range without memory completes, and stores the byte before it alone. -/
theorem test_hole :
    let m := writeBytes ⟨[], [⟨0x10, 0x10⟩], [], 0⟩ 0x0F [1, 2]
    (m.cells, m.lost, m.hasRam 0x0F, m.hasRam 0x1F, m.hasRam 0x20, readByte m 0x0F) =
      ([(0x0F, 1)], [(0x10, 2)], true, false, true, 1) := by decide +kernel

/-- V-X11, V-X12, V-X13: the page walk. -/
theorem test_segments :
    segments { qtd 0x03000D80 0x3F00 with buf1 := 0x8000 } 0x300 = some [⟨0x3F00, 0x100⟩, ⟨0x8000, 0x200⟩] ∧
    segments { qtd 0x02004D80 0x3F00 with buf4 := 0x8000 } 0x200 = none ∧ segments (qtd 0x00005D80 0x3F00) 0 = some [] := by
  decide +kernel

/-- V-X1, V-X2, V-X3, V-X4, V-X5, V-X6, V-X7, V-X8, V-X9: the token after each result. -/
theorem test_result_tokens :
    token (exec (.resultCount .async sixtyFour) inStart) = some 0x80008D00 ∧
    token (exec (.resultCount .async (sixtyFour.take 10)) inStart) = some 0x80368D00 ∧
    token (exec (.resultCount .async []) inStart) = some 0x80408D00 ∧
    token (exec (.resultCountOverlong .async (0 :: sixtyFour)) inStart) = some 0x00408D50 ∧
    token (exec (.resultNak .async) inStart) = some 0x00408D80 ∧
    token (exec (.resultStall .async) inStart) = some 0x00408D40 ∧
    token (exec (.resultIoerror .async) inStart) = some 0x00408148 ∧
    token (exec (.resultNodev .async) inStart) = some 0x00408148 ∧
    token (exec (.resultBabble .async) inStart) = some 0x00408D50 := by decide +kernel

/-- V-X1, V-X4, V-X5: what else the results do. -/
theorem test_result_effects :
    get (exec (.resultCount .async sixtyFour) inStart)
      (fun t => ([readByte t.mem 0x303F, readByte t.mem 0x3040], t.usbstsPending, t.recl)) = some ([63, 0], 1, true) ∧
    get (exec (.resultCountOverlong .async (0 :: sixtyFour)) inStart) (fun t => (t.mem.cells, t.usbstsPending)) = some ([], 2) ∧
    get (exec (.resultNak .async) inStart) (fun t => (t.async.auto, t.recl, t.usbstsPending)) =
      some (.horizontalQh, false, 0) ∧
    get (exec (.resultPending .async) inStart) (fun t => (t.async.auto, t.recl, read32 t.mem 0x1018)) =
      some (.horizontalQh, true, 0x00408D80) := by decide +kernel

/-- V-X10: an OUT of 200 bytes in 4 packets of 64 keeps the toggle and moves the offset to 0xC8. -/
theorem test_result_out :
    let d := qtd 0x00C80C80 0x5000
    let s := working (queue .async (some 5) { qh d with epchar := 0x0040E105 } [pkt d .uninit none])
    (get (exec (.resultCount .async (List.replicate 200 0)) s) fun t =>
      ((t.queue? .async 0x1000).map fun q => (q.qh.ov.token, q.qh.ov.buf0), t.usbstsPending)) =
      some (some (0x00000C00, 0x50C8), 0) := by decide +kernel

/-- V-W6, V-W7, V-W8: FETCH-QTD. -/
theorem test_fetchQtd :
    let d := qtd 0x00408D80 0x3000
    let live := working (queue .async (some 5) (qh d) [pkt d .inflight none])
    get (exec (.stateFetchQtd .async) (working (queue .async none (qh d) []))) (fun t => t.async.auto) =
      some .horizontalQh ∧
    get (exec (.stateFetchQtd .async) (poke live 0x2000 [1, 1, 0x00408D80, 0x3000])) (fun t => (t.async.auto, t.outbox)) =
      some (.horizontalQh, []) ∧
    get (exec (.stateFetchQtd .async) (poke live 0x2000 [1, 1, 0x00408D80, 0x4000])) (fun t => (t.async.auto, t.outbox)) =
      some (.execute, [.cancel 5 .async 0x1000 0x2000]) ∧
    get (exec (.qtdInactive .async 0b01 ⟨0, 0x40, 1, 0, 3, 0⟩) live) (fun t => (t.async.auto, t.outbox)) =
      some (.horizontalQh, [.cancel 5 .async 0x1000 0x2000]) := by decide +kernel

/-- V-P4: the S-mask gate at FRINDEX[2:0] = 3. -/
theorem test_smask :
    let d := qtd 0x00408D80 0x3000
    let s := poke { working (queue .periodic none { qh d with epcap := 0x40000001 } []) with frindex := 3 } 0x2000
      [1, 1, 0x00408D80, 0x3000]
    get (exec (.stateFetchQtd .periodic) s) (fun t => t.periodic.auto) = some .horizontalQh ∧
    get (exec (.stateFetchQtd .periodic) { s with frindex := 8 }) (fun t => t.periodic.auto) = some .execute := by
  decide +kernel

/-- V-W1, V-W4: ADVANCE-QUEUE takes next, or alternate next where bytes are left. -/
theorem test_advanceQueue :
    let adv (ov : Qtd) := get (exec (.stateAdvanceQueue .async) (working (queue .async none (qh ov) [])))
      fun t => (t.async.auto, (t.queue? .async 0x1000).map (fun q => q.qtdaddr))
    adv ⟨0x2000, 1, 0, 0, 0, 0, 0, 0⟩ = some (.fetchQtd, some 0x2000) ∧
    adv ⟨0x2020, 0x2040, 0x00360000, 0, 0, 0, 0, 0⟩ = some (.fetchQtd, some 0x2040) ∧
    adv ⟨1, 0x2040, 0, 0, 0, 0, 0, 0⟩ = some (.horizontalQh, some 0x2000) := by decide +kernel

/-- V-C1, V-W1, V-W2, V-W3: FETCH-QH. -/
theorem test_fetchQh :
    let run (t w : Word) := get (exec (.stateFetchQh .async) (poke { State.reset with
        async := ⟨.fetchQh, 0x1002, none, 0, []⟩, recl := true, uframeCtr := 7, devices := [(5, 5)] }
      0x1000 [0x1002, 0x0200E105, 0x40000000, w, 0x2000, 1, t]))
      fun t => (t.async.auto, (t.queue? .async 0x1000).map fun q => q.seen && !t.recl && q.lastSeen == 7 && q.dev == some 5)
    run 0 0 = some (.advanceQueue, some true) ∧ run 0x40 0x2000 = some (.horizontalQh, some true) ∧
    run 0x80 0x2000 = some (.fetchQtd, some true) := by decide +kernel

/-- V-C6: a rewritten overlay token is a mismatch; a Packet in flight is cancelled. -/
theorem test_fetchQh_mismatch :
    let s := poke { inWith .inflight none with recl := true, devices := [(5, 6)] } 0x1000
      [0x1002, 0x0200E105, 0x40000000, 0x2000, 1, 1, 0x00408D00, 0x3000]
    get (exec (.stateFetchQh .async) (s.setFetch .async 0x1002))
      (fun t => ((t.queue? .async 0x1000).map fun q => (q.dev, q.packets), t.outbox)) =
      some (some (some 6, []), [.cancel 5 .async 0x1000 0x2000]) := by decide +kernel

/-- V-W9: WRITEBACK stores words 0 to 2 of the qTD, and the overlay. -/
theorem test_writeback :
    let s := working (queue .async (some 5) (qh (qtd 0x80008D00 0x3040))
      [pkt (qtd 0x00408D80 0x3000) .finished (some .count)])
    get (exec (.stateWriteback .async) s) (fun t => (readQtd t.mem 0x2000, read32 t.mem 0x101C, t.async.auto)) =
      some (⟨1, 1, 0x80008D00, 0, 0, 0, 0, 0⟩, 0x3040, .horizontalQh) := by decide +kernel

/-- R385: HORIZONTAL-QH; R375: EXECUTING interprets a stall; R357: a halted QH is skipped. -/
theorem test_walk_ends :
    get (exec (.stateHorizontalQh .async) inStart) (fun t => (t.async.auto, t.async.fetchAddr, t.async.curQueue)) =
      some (.fetchEntry, 0x1002, none) ∧
    token (exec (.stateExecuting .async) (inWith .finished (some .stall))) = some 0x00408D40 ∧
    get (exec (.qhHalted .async 0x811A 0) inStart) (fun t => t.async.auto) = some .horizontalQh := by decide +kernel

/-- V-A1, V-A2: the head search. -/
theorem test_waitListHead :
    let s (h : Word) := poke (poke { State.reset with asyncListAddr := 0x1000 } 0x1000 [0x1102, 0]) 0x1100 [0x1002, h]
    get (exec .stateWaitListHead (s 0x8000)) (fun t => (t.async.auto, t.async.fetchAddr, t.recl)) =
      some (.fetchEntry, 0x1102, true) ∧
    get (exec .stateWaitListHead (s 0)) (fun t => (t.async.auto, t.async.cache, t.recl)) = some (.active, [], true) := by
  decide +kernel

/-- V-E3 to V-E5 at FETCH-ENTRY, and V-P5: an iTD and an siTD are followed by their word 0. -/
theorem test_fetchEntry :
    let s := poke { State.reset with periodic := ⟨.fetchEntry, 0x7004, none, 0, []⟩ } 0x7000 [0x4002]
    get (exec (.stateFetchEntry .periodic) s) (fun t => (t.periodic.auto, t.periodic.visits)) = some (.fetchSitd, 1) ∧
    get (exec .stateFetchItd s) (fun t => (t.periodic.auto, t.periodic.fetchAddr, t.mem)) =
      some (.fetchEntry, 0x4002, s.mem) ∧
    get (exec .stateFetchSitd s) (fun t => (t.periodic.auto, t.periodic.fetchAddr, t.mem)) =
      some (.fetchEntry, 0x4002, s.mem) := by decide +kernel

/-- V-A4, V-A5, V-A6, V-P2: the schedules at rest. -/
theorem test_schedules :
    let on := { State.reset with usbcmd := ⟨true, true, true, false, 8⟩, asyncListAddr := 0x1000 }
    get (exec (.stateInactive .async) on) (fun t => t.async.auto) = some .active ∧
    get (exec (.stateInactive .periodic) { on with frindex := 5 }) (fun t => t.periodic.auto) = some .inactive ∧
    get (exec (.stateActive .async) on) (fun t => t.async.auto) = some .waitListHead ∧
    get (exec (.stateActive .async) { on with usbsts := 0x20 }) (fun t => t.async.auto) = some .active ∧
    get (exec (.stateActive .async) { inStart with usbcmd := ⟨true, true, false, false, 8⟩ })
      (fun t => (t.async.auto, t.async.cache)) = some (.inactive, []) ∧
    get (exec (.stateActive .periodic) (poke { on with periodicListBase := 0x10000, frindex := 0x000F } 0x10004 [0x4002]))
      (fun t => (t.periodic.auto, t.periodic.fetchAddr)) = some (.fetchEntry, 0x4002) := by decide +kernel

/-- V-T1, V-T2, V-T3, V-T10: the time accounted, and a time going back; D56: TICK(124) and then TICK(50), last_run_us 0. -/
theorem test_tick_time :
    let running (t : Nat) (f : BitVec 14) : State :=
      { State.reset with usbcmd := ⟨true, false, false, false, 8⟩, lastRunUs := some t, frindex := f }
    let at_ (t : State) := (t.lastRunUs, t.frindex, t.uframeCtr)
    get (exec (.tick 700) State.reset) at_ = some (some 700, 0, 0) ∧
    get (exec (.tick 300) (running 0 0)) at_ = some (some 250, 2, 2) ∧
    get (exec (.tick 375) (running 250 2)) at_ = some (some 375, 3, 1) ∧
    get (exec (.tick 1250) (running 0 0)) at_ = some (some 1250, 10, 10) ∧
    get (exec (.tick 500) { State.reset with lastRunUs := some 0, frindex := 0x10 }) at_ = some (some 500, 0x10, 4) ∧
    refusal (exec (.tick 900) (running 1000 0)) = some .tickBackwards ∧
    (get (exec (.tick 124) (running 0 0)) fun t => (t.lastRunUs, refusal (exec (.tick 50) t))) =
      some (some 0, some .tickBackwards) := by decide +kernel

/-- V-T5, V-T6, V-T7, V-T8: the break, and FLR where bits 12:0 wrap. -/
theorem test_tick_rollover :
    let running (f : BitVec 14) : State :=
      { State.reset with usbcmd := ⟨true, false, false, false, 8⟩, lastRunUs := some 0, frindex := f }
    get (exec (.tick 500) { running 0 with usbsts := 1, usbintr := 1 }) (fun t => (t.lastRunUs, t.frindex)) =
      some (some 125, 1) ∧
    get (exec (.tick 125) (running 0x1FFF)) (fun t => (t.frindex, t.usbsts)) = some (0x2000, 0b001000) ∧
    get (exec (.tick 125) (running 0x3FFF)) (fun t => (t.frindex, t.usbsts)) = some (0, 0b001000) ∧
    get (exec (.tick 125) (running 0x0FFF)) (fun t => (t.frindex, t.usbsts)) = some (0x1000, 0) := by decide +kernel

/-- P1, S6: an IN that succeeds, in one tick. -/
theorem test_tick_p1 :
    get (exec (.tick 0) (common (.count sixtyFour)))
      (fun t => ([read32 t.mem 0x2008, read32 t.mem 0x200C, read32 t.mem 0x1018, read32 t.mem 0x101C, usbstsValue t],
        t.nextCommit, t.irq)) = some ([0x80008D00, 0x3000, 0x80008D00, 0x3040, 0x00008001], 8, true) := by decide +kernel

/-- P6: a pending answer completed later, outside an entry, is written back by the re-run. -/
theorem test_complete_p6 :
    let s := common .pending
    (get (exec (.tick 0) s) fun t => get (exec (.complete .async 0x1000 0x2000 (.count sixtyFour)) t)
      (fun u => [read32 t.mem 0x2008, read32 u.mem 0x2008, read32 u.mem 0x101C, usbstsValue u])).join =
      some [0x00408D80, 0x80008D00, 0x3040, 0x00008001] ∧
    faulted (exec (.complete .async 0x1000 0x2000 .nak) s) = some .completionNotInflight := by decide +kernel

/-- P7, V-I6: an iTD in the asynchronous list resets the controller; guest memory is unchanged. -/
theorem test_tick_p7 :
    let s := { image 0x1100 0x0200E105 ⟨0x2000, 1, 0, 0, 0, 0, 0, 0⟩ with usbstsPending := 1 }
    let s' := poke s 0x2000 [0, 0, 0, 0]
    get (exec (.tick 0) s') (fun t => ([usbcmdValue t.usbcmd, usbstsValue t, t.asyncListAddr], t.usbstsPending,
      t.lastRunUs, t.mem == s'.mem)) = some ([0x00080000, 0x00001000, 0], 0, none, true) := by decide +kernel

/-- V-C7: ages 32 and 33. -/
theorem test_reapUnused :
    let s (n : Nat) : State := { State.reset with
      uframeCtr := n, async := ⟨.active, 0, none, 0, [{ queue .async none (qh (qtd 0 0)) [] with lastSeen := 100 }]⟩ }
    (match reapUnused .async (s 132) with | .ok t => t.async.cache.length | .error _ => 9) = 1 ∧
    (match reapUnused .async (s 133) with | .ok t => t.async.cache.length | .error _ => 9) = 0 := by decide +kernel

/-- V-C9, V-I5, V-Z2: the other stimuli. -/
theorem test_stimuli :
    get (exec (.deviceRemove 5) (inWith .inflight none)) (fun t => (t.async.cache, t.outbox)) =
      some ([], [.cancel 5 .async 0x1000 0x2000]) ∧
    get (exec .portChange State.reset) (fun t => usbstsValue t) = some 0x00001004 ∧
    get (exec .powerOn inStart) (fun t => (t.async.cache, usbcmdValue t.usbcmd, usbstsValue t)) =
      some ([], 0x00080000, 0x00001000) := by decide +kernel

/-- V-R1, V-R2, V-R9, V-R10, V-R11: reads and writes through the window. -/
theorem test_window :
    let read (off : Word) (w : Width) (s : State) := get (exec (.mmioRead off w) s) (fun t => t.outbox)
    let s := State.reset
    read 0x20 .w4 s = some [.readValue .w4 0x00080000] ∧ read 0x24 .w4 s = some [.readValue .w4 0x00001000] ∧
    (get (exec (.mmioWrite 0x20 .w4 0x000800F5) s) (read 0x20 .w4)).join = some [.readValue .w4 0x00080071] ∧
    refusal (exec (.mmioRead 0x24 .w2) s) = some .narrowAccess ∧ read 0x3C .w4 s = some [.readValue .w4 0] ∧
    read 0x00 .w1 s = some [.readValue .w1 0x20] ∧ read 0x02 .w2 s = some [.readValue .w2 0x0100] ∧
    get (exec (.mmioWrite 0x10 .w4 7) s) (fun t => decide (t = s)) = some true ∧
    get (exec (.mmioWrite 0x38 .w4 0x00001002) s) (fun t => t.asyncListAddr) = some 0x1000 := by decide +kernel

/-- V-R3, V-R4, V-R5, V-R6, V-R7, V-R8, V-R12: the registers' rows. -/
theorem test_registers :
    let s := { State.reset with usbsts := 0b001001 }
    get (exec (.usbcmdHcreset 0 0) { s with usbcmd := ⟨true, true, true, true, 1⟩ }) (fun t => usbcmdValue t.usbcmd) =
      some 0x00080000 ∧
    get (exec (.writeUsbsts 1) s) (fun t => t.usbsts) = some 0b001000 ∧
    get (exec (.writePeriodiclistbase 0x00010ABC) s) (fun t => t.periodicListBase) = some 0x00010000 ∧
    get (exec (.writeAsynclistaddr 0x00001002) s) (fun t => t.asyncListAddr) = some 0x1000 ∧
    get (exec (.writeFrindex 0x100) { s with usbcmd := ⟨true, false, false, false, 8⟩ }) (fun t => t.frindex) = some 0 ∧
    get (exec (.writeFrindex 0x1FFF) s) (fun t => t.frindex) = some 0x1FFF ∧
    get (exec (.writeUsbintr 0x3F) s) (fun t => t.irq) = some true ∧
    get (exec (.writeConfigflag 1) s) (fun t => t.outbox) = some [.portWrite 0x40 1] ∧
    get (exec (.writePortsc 0 2) s) (fun t => t.outbox) = some [.portWrite 0x44 2] ∧
    get (exec (.writePortsc 1 2) s) (fun t => t.outbox) = some [] ∧
    get (exec (.readOp 0x04) s) (fun t => t.outbox) = some [.readValue .w4 0x00001009] := by decide +kernel

/-- The rows of a USBCMD write store all its fields (R502). -/
theorem test_usbcmd_rows :
    let cmd (i : Instr) := get (exec i State.reset) (fun t => usbcmdValue t.usbcmd)
    cmd (.usbcmdRun 0x20008) = some 0x00080021 ∧ cmd (.usbcmdPse 0x4000 2) = some 0x00080010 ∧
    cmd (.usbcmdAse 0x2000 1) = some 0x00080020 ∧ cmd (.usbcmdIaad 0x1000 0) = some 0x00080040 ∧
    cmd (.usbcmdItc 0x1001 0) = some 0x00080000 := by decide +kernel

/-- R531: each Fatal code resets the controller. -/
theorem test_fatals :
    let after (i : Instr) := get (exec i inStart) (fun t => (t.async.cache, t.async.curQueue, usbstsValue t))
    after .fatalAsyncType = some ([], none, 0x00001000) ∧ after .fatalFstn = some ([], none, 0x00001000) ∧
    after .fatalReservedPid = some ([], none, 0x00001000) ∧ after .fatalPageIndex = some ([], none, 0x00001000) := by
  decide +kernel

/-! ### For each statement with hypotheses, values that meet them: every clause, at a boundary where there is one -/

theorem witness_MemoryWordsAreLittleEndian :
    let m : Memory := ⟨[(5, 1)], [⟨2, 1⟩], [], 0⟩
    Memory.wf m = true ∧ m.hasRam 1 = true ∧ m.hasRam 2 = false ∧
    (∀ i < 4, m.hasRam (0xFFFFFFFE#32 + BitVec.ofNat 32 i) = true) ∧ ¬ InRange 2 0xFFFFFFFE 4 ∧ ¬ InRange 3 0xFFFFFFFE 4 ∧
    [1, 2, 3].length ≤ 2 ^ 32 ∧ ¬ InRange 1 0xFFFFFFFE 3 ∧ 2 < ([1, 2, 3] : List Byte).length := by
  unfold InRange
  decide

theorem witness_DecodeEncodeRoundTrip :
    (Instr.tick (2 ^ 64 - 1)).wf = true ∧ (Instr.deviceRemove (2 ^ 32 - 1)).wf = true ∧
    (Instr.resultCountOverlong .async [0]).wf = true ∧ (Instr.resultCount .async []).wf = true ∧
    (Instr.complete .async 0 0 (.count [0])).wf = true ∧ (Instr.linkQh .async 0x80 3).wf = true := by decide

theorem witness_DecodedWordsLoseNoBit :
    (∃ i, decode (wordMsg .link .periodic 0xFFFFFFFF) = .ok i) ∧ (∃ i, decode (wordMsg .qtdToken .async 0x7FFFFF7F) = .ok i) ∧
    (∃ i, decode (wordMsg .qhToken .async 0x40) = .ok i) ∧ (∃ i, decode (wordMsg .usbcmdWrite .async 0xFFFFFFFF) = .ok i) ∧
    ∃ i, decode (wordMsg .opRead .async 0xFFFFFFFF) = .ok i := ⟨⟨_, rfl⟩, ⟨_, rfl⟩, ⟨_, rfl⟩, ⟨_, rfl⟩, ⟨_, rfl⟩⟩

/-- Each of the seven places where a step's instruction comes from. -/
theorem witness_StepRunsDecodedInstruction :
    (let s : State := { State.reset with inbox := [.msg ⟨.stimulus, .async, [5]⟩] };
      Idle s = true ∧ s.inbox = .msg ⟨.stimulus, .async, [5]⟩ :: [] ∧ decode ⟨.stimulus, .async, [5]⟩ = .ok .portChange) ∧
    (let s : State := { State.reset with inbox := [.msg ⟨.stimulus, .async, [7]⟩] };
      Idle s = true ∧ s.inbox = .msg ⟨.stimulus, .async, [7]⟩ :: [] ∧ decode ⟨.stimulus, .async, [7]⟩ = .error .badTag) ∧
    (let s : State := { State.reset with inbox := [.guestWrite 0 [1]] };
      Idle s = true ∧ s.inbox = .guestWrite 0 [1] :: []) ∧
    (let s : State := { State.reset with inbox := [.setDevice 5 (some 5)] };
      Idle s = true ∧ s.inbox = .setDevice 5 (some 5) :: []) ∧
    (Idle State.reset = true ∧ State.reset.inbox = []) ∧
    (let s := State.reset.setAuto .periodic .fetchItd;
      autoIdle s.periodic.auto = false ∧ decode (stateMsg .periodic s.periodic.auto) = .ok .stateFetchItd) ∧
    let s := State.reset.setAuto .async .waitListHead
    autoIdle s.periodic.auto = true ∧ autoIdle s.async.auto = false ∧
      decode (stateMsg .async s.async.auto) = .ok .stateWaitListHead :=
  ⟨by decide, by decide, ⟨by decide, rfl⟩, ⟨by decide, rfl⟩, by decide, by decide, by decide⟩

theorem witness_RunPerformsTheStateRows :
    (let s := State.reset.setAuto .periodic .fetchItd;
      autoIdle (s.sched .periodic).auto = false ∧ decode (stateMsg .periodic (s.sched .periodic).auto) = .ok .stateFetchItd ∧
      ∃ u, walkStep .periodic s = .ok u) ∧
    let s := (State.reset.setFetch .async 0x6).setAuto .async .fetchEntry
    autoIdle (s.sched .async).auto = false ∧ decode (stateMsg .async (s.sched .async).auto) = .ok (.stateFetchEntry .async) ∧
      ∃ e, walkStep .async s = .error e := ⟨⟨by decide, by decide, _, rfl⟩, by decide, by decide, _, rfl⟩

theorem witness_UsbcmdWriteStoresItsFields : Inv inStart = true ∧ (0xFFFFFFFD#32).getLsbD 1 = false := by decide +kernel

theorem witness_ControllerResetLeavesResetValues :
    Inv (inWith .inflight none) = true ∧ ∃ hi rs, Instr.usbcmdHcreset 0 1 = .usbcmdHcreset hi rs :=
  ⟨by decide +kernel, _, _, rfl⟩

/-- The Packet of `inStart`'s Queue. -/
theorem inStart_packet : HasPacket inStart .async
    (queue .async (some 5) (qh (qtd 0x00408D80 0x3000)) [pkt (qtd 0x00408D80 0x3000) .uninit none])
    (pkt (qtd 0x00408D80 0x3000) .uninit none) := ⟨by decide +kernel, by decide +kernel⟩

/-- One Packet has the reserved code, another a page above 4; the last is a state that a controller reset left. -/
theorem witness_FatalConditionsResetTheController :
    (let p := pkt (qtd 0x00400F80 0x3000) .uninit none;
      let q := queue .async (some 5) (qh (qtd 0 0)) [p];
      Inv (working q) = true ∧ HasPacket (working q) .async q p ∧ p.tag = .uninit ∧ tokPid p.qtd.token = 0b11#2) ∧
    (let p := pkt (qtd 0x01014D80 0x3F00) .uninit none;
      let q := queue .async (some 5) (qh (qtd 0 0)) [p];
      Inv (working q) = true ∧ HasPacket (working q) .async q p ∧ p.tag = .uninit ∧
        ExecutesAs .async p (.stateExecute .async) p ∧ ¬ WalkFits p.qtd p.len.toNat) ∧
    ResetTo State.reset (State.reset.emit .portReset) := by
  refine ⟨⟨by decide +kernel, ⟨by decide +kernel, by decide +kernel⟩, rfl, by decide⟩,
    ⟨by decide +kernel, ⟨by decide +kernel, by decide +kernel⟩, rfl, .inl ⟨rfl, rfl⟩, ?_⟩, rfl, [], rfl, fun o => ?_⟩
  · unfold WalkFits
    decide +kernel
  · refine ⟨fun h => absurd h (List.not_mem_nil), ?_⟩
    rintro ⟨k, q, p, d, hq, -⟩
    cases k <;> cases hq

theorem witness_StatusRegisterWrites :
    (let s := State.reset;
      s.usbcmd.rs = false ∧ s.async.auto = .inactive ∧ s.periodic.auto = .inactive) ∧
    let s := State.reset.setAuto .periodic .active
    ¬ (s.usbcmd.rs = false ∧ s.async.auto = .inactive ∧ s.periodic.auto = .inactive) := by decide

theorem witness_PortWritesGoToThePortModel :
    (0#4).toNat < State.reset.params.numPorts ∧ State.reset.params.numPorts ≤ (1#4).toNat := by decide

theorem witness_ReadsReturnTheRegisterTable :
    (∃ i < State.reset.params.numPorts, (0x44#32).toNat = 0x44 + 4 * i) ∧
    (0x48#32 : Word) ∉ [0x00#32, 0x04, 0x08, 0x0C, 0x10, 0x14, 0x18, 0x40] ∧
    ¬ ∃ i < State.reset.params.numPorts, (0x48#32).toNat = 0x44 + 4 * i :=
  ⟨⟨0, by decide, by decide⟩, by decide, by rintro ⟨i, h, h'⟩; simp [State.reset, Params.vectors] at h h'; omega⟩

/-- The last 4-byte read and the last 2-byte read of the capability block, an access across its end, and the first
operational offset. -/
theorem witness_MmioReadDispatch :
    let b := State.reset.params.opregBase.toNat
    ((0x1C#32).toNat < b ∧ (0x1C#32).toNat % 4 = 0 ∧ (0x1C#32).toNat + 4 ≤ b) ∧
    ((0x1F#32).toNat < b ∧ ¬ ((0x1F#32).toNat % 2 = 0 ∧ (0x1F#32).toNat + 2 ≤ b)) ∧
    (b ≤ (0x20#32).toNat ∧ (0x20#32).toNat % 4 = 0) ∧ (b ≤ (0x21#32).toNat ∧ ¬ (4 = 4 ∧ (0x21#32).toNat % 4 = 0)) ∧
    b ≤ (0x20#32).toNat ∧ ¬ (2 = 4 ∧ (0x20#32).toNat % 4 = 0) := by decide

theorem witness_CapabilityRegistersReadTheParameters :
    12 ≤ State.reset.params.opregBase.toNat ∧ (0x1F#32).toNat < State.reset.params.opregBase.toNat := by decide

/-- The offset of every register, the offset after the only port, and the accesses that are ignored or refused. -/
theorem witness_MmioWriteDispatch :
    let p := State.reset.params
    let op (off : Word) : Word := off - p.opregBase.setWidth 32
    p.wf = true ∧ Inv State.reset = true ∧ (0x1F#32).toNat < p.opregBase.toNat ∧
    (p.opregBase.toNat ≤ (0x20#32).toNat ∧ ¬ (Width.w2 = .w4 ∧ (0x20#32).toNat % 4 = 0)) ∧
    (p.opregBase.toNat ≤ (0x22#32).toNat ∧ ¬ (Width.w4 = .w4 ∧ (0x22#32).toNat % 4 = 0)) ∧
    [0x20#32, 0x24, 0x28, 0x2C, 0x30, 0x34, 0x38, 0x60, 0x64, 0x68].all
      (fun x => decide (p.opregBase.toNat ≤ x.toNat ∧ x.toNat % 4 = 0)) = true ∧
    op 0x20 = 0x00 ∧ op 0x24 = 0x04 ∧ op 0x28 = 0x08 ∧ op 0x2C = 0x0C ∧ op 0x30 = 0x10 ∧ op 0x34 = 0x14 ∧
    op 0x38 = 0x18 ∧ op 0x60 = 0x40 ∧ ((0#4).toNat < p.numPorts ∧ op 0x64 = 0x44#32 + 4#32 * (0#4).setWidth 32) ∧
    op 0x68 ∉ [0x00#32, 0x04, 0x08, 0x0C, 0x10, 0x14, 0x18, 0x40] ∧
    (∀ i : BitVec 4, i.toNat < p.numPorts → op 0x68 ≠ 0x44#32 + 4#32 * i.setWidth 32) ∧
    decode (wordMsg .usbcmdWrite .async 0x00080021) = .ok (.usbcmdRun 0x20008) := by
  refine ⟨?_, ?_, ?_, ?_, ?_, ?_, ?_, ?_, ?_, ?_, ?_, ?_, ?_, ?_, ?_, ?_, ?_, ?_⟩ <;> decide +kernel

theorem witness_CommitsMoveThePendingBits :
    (let s : State := { State.reset with usbstsPending := 1, nextCommit := 100, uframeCtr := 100 };
      s.usbstsPending ≠ 0 ∧ s.nextCommit ≤ s.uframeCtr) ∧
    (let s : State := { State.reset with usbstsPending := 1, nextCommit := 100, uframeCtr := 99 };
      s.usbstsPending ≠ 0 ∧ s.uframeCtr < s.nextCommit) ∧ State.reset.usbstsPending = 0 := by decide

theorem witness_DeviceRemoveFreesItsQueues : Inv (inWith .inflight none) = true := by decide +kernel

theorem witness_LinkRowsSelectTheStep : Inv inStart = true := by decide +kernel

/-- The last visit within the bound and the first above it, and each kind of link. -/
theorem witness_FetchEntryDecodesTheLink :
    (let s := State.reset.setVisits .periodic 16;
      Inv s = true ∧ Sched.periodic = .periodic ∧ s.params.maxPeriodicVisits < s.periodic.visits + 1) ∧
    (let s := State.reset.setVisits .periodic 15;
      Inv s = true ∧ ¬ (Sched.periodic = .periodic ∧ s.params.maxPeriodicVisits < s.periodic.visits + 1)) ∧
    (0xFFFFFFFF#32).getLsbD 0 = true ∧
    [0x1002#32, 0x1000, 0x1004, 0x1006].all (fun w => !w.getLsbD 0) = true ∧ (0x1002#32).extractLsb' 1 2 = 0b01#2 ∧
    (0x1000#32).extractLsb' 1 2 = 0b00#2 ∧ (0x1004#32).extractLsb' 1 2 = 0b10#2 ∧
    (0x1006#32).extractLsb' 1 2 = 0b11#2 :=
  ⟨⟨by decide, rfl, by decide⟩, ⟨by decide, by decide⟩, by decide, by decide, by decide, by decide, by decide, by decide⟩

theorem witness_StubStepsFollowWordZero : ∃ i j, (i = .stateFetchItd ∨ i = .stateFetchSitd) ∧
    (j = Instr.stateFetchItd ∨ j = .stateFetchSitd) ∧ i ≠ j := ⟨_, _, .inl rfl, .inr rfl, by decide⟩

/-- Two queue heads, the second the head of the list, found at the last place the limit allows; and a T bit before it. -/
theorem witness_WaitListHeadFindsTheHead :
    let two (w : Word) : State := poke (poke { State.reset with
      asyncListAddr := 0x1000, params := { Params.vectors with listHeadSearchLimit := 2 } } 0x1000 [w, 0]) 0x1100 [0x1002, 0x8000]
    let start (s : State) : Word := s.asyncListAddr &&& 0xFFFFFFE0#32
    let isHead (s : State) (i : Nat) : Prop := (read32 s.mem (ringAt s.mem (start s) i + 4)).getLsbD 15 = true
    (1 < (two 0x1102).params.listHeadSearchLimit ∧ isHead (two 0x1102) 1 ∧
      ∀ j < 1, ¬ isHead (two 0x1102) j ∧ ¬ RingEnds (two 0x1102).mem (start (two 0x1102)) (ringAt (two 0x1102).mem (start (two 0x1102)) j)) ∧
    ∀ i < (two 0x1103).params.listHeadSearchLimit, isHead (two 0x1103) i →
      ∃ j < i, RingEnds (two 0x1103).mem (start (two 0x1103)) (ringAt (two 0x1103).mem (start (two 0x1103)) j) := by
  unfold RingEnds
  decide +kernel

theorem witness_CacheIsAFiniteMapPerSchedule :
    (inStart.queue? .async 0x1000).isSome = true ∧ inStart.queue? .periodic 0x1000 = none := by decide +kernel

theorem witness_VisitBoundEndsTheAsyncPass :
    (State.reset.setVisits .async 16).params.maxQhVisits < (State.reset.setVisits .async 16).async.visits + 1 := by decide

/-- The head of the list at its first and its second visit, at the last visit within the bound. -/
theorem witness_ReclamationCheckClosesTheLoop :
    let s (r : Bool) : State := ((poke { inStart with recl := r } 0x1000 [0x1002, 0x0200E105]).setFetch .async 0x1002).setVisits
      .async 15
    (∀ r, Inv (s r) = true ∧ 0x1000#32 = (s r).async.fetchAddr &&& 0xFFFFFFE0#32 ∧
      (s r).async.visits + 1 ≤ (s r).params.maxQhVisits ∧ epHead (readQh (s r).mem 0x1000).epchar = true) ∧
    (s true).recl = true ∧ (s false).recl = false ∧ ((s false).queue? .async 0x1000).isSome = true ∧
    ({ s false with async := SchedRegs.reset }).queue? .async 0x1000 = none := by decide +kernel

/-- A new Queue, one the guest left as it was, one it edited; a halted overlay, an active one, an inactive one (where the
dispatch is not to FETCH-QTD). -/
theorem witness_FetchQhVisitsTheQueueHead :
    let s (ov : Qtd) (t : Word) : State := ((poke { working (queue .async (some 5) (qh ov) []) with
      recl := true, devices := [(5, 5)] } 0x1000 [0x1002, 0x0200E105, 0x40000000, 0x2000, 1, 1, t, 0x3000]).setFetch .async
      0x1002).setVisits .async 15
    let d := qtd 0x80 0x3000
    let fresh (s : State) := readQh s.mem 0x1000
    (∀ x ∈ [s d 0x80, s d 0x40, s d 0], Inv x = true ∧ 0x1000#32 = (x.sched .async).fetchAddr &&& 0xFFFFFFE0#32 ∧
      (x.async.visits + 1 ≤ x.params.maxQhVisits ∧ (epHead (fresh x).epchar = true → x.recl = true))) ∧
    ({ s d 0x80 with async := SchedRegs.reset }).queue? .async 0x1000 = none ∧
    (∃ r, (s d 0x80).queue? .async 0x1000 = some r ∧ ¬ GuestEdited (s d 0x80) r (fresh (s d 0x80))) ∧
    (∃ r, (s d 0x40).queue? .async 0x1000 = some r ∧ GuestEdited (s d 0x40) r (fresh (s d 0x40))) ∧
    tokHalted (fresh (s d 0x40)).ov.token = true ∧
    (tokHalted (fresh (s d 0x80)).ov.token = false ∧ tokActive (fresh (s d 0x80)).ov.token = true ∧
      (fresh (s d 0x80)).current.getLsbD 0 = false ∧ (fresh (s d 0x80)).current &&& 0xFFFFFFE0#32 ≠ 0) ∧
    tokHalted (fresh (s d 0)).ov.token = false ∧ tokActive (fresh (s d 0)).ov.token = false ∧
    get (exec (.stateFetchQh .async) (s d 0)) (fun t => t.async.auto) = some .advanceQueue := by
  refine ⟨by decide +kernel, by decide +kernel,
    ⟨queue .async (some 5) (qh (qtd 0x80 0x3000)) [], by decide +kernel, ?_⟩,
    ⟨queue .async (some 5) (qh (qtd 0x80 0x3000)) [], by decide +kernel, ?_⟩,
    by decide +kernel, by decide +kernel, by decide +kernel, by decide +kernel, by decide +kernel⟩
  · unfold GuestEdited
    decide +kernel
  · unfold GuestEdited
    decide +kernel

/-- Both pointers live, bytes left or not, and next ended. -/
theorem witness_AdvanceQueuePicksTheNextQtd :
    let q (ov : Qtd) := queue .async none (qh ov) []
    let takeAlt (q : Queue) : Prop := q.qh.ov.token.extractLsb' 16 15 ≠ 0 ∧ q.qh.ov.alt.getLsbD 0 = false
    let a := q ⟨0x2020, 0x2040, 0x00010000, 0, 0, 0, 0, 0⟩
    let b := q ⟨0x2020, 0x2040, 0, 0, 0, 0, 0, 0⟩
    let c := q ⟨1, 1, 0x00010000, 0, 0, 0, 0, 0⟩
    ((working a).current .async = some a ∧ takeAlt a) ∧
    ((working b).current .async = some b ∧ ¬ takeAlt b ∧ b.qh.ov.next.getLsbD 0 = false) ∧
    (working c).current .async = some c ∧ ¬ takeAlt c ∧ c.qh.ov.next.getLsbD 0 = true := by decide +kernel

/-- A live Packet, finished or in flight, of an unchanged qTD; one of a qTD that changed, with work or without; no Packet,
with work or without. -/
theorem witness_FetchQtdDispatches :
    let d := qtd 0x00408D80 0x3000
    let s (ps : List Packet) (t : Word) : State := poke (working (queue .async (some 5) (qh d) ps)) 0x2000 [1, 1, t, 0x3000]
    let skip (x : State) : Prop := (readQtd x.mem 0x2000).token.getLsbD 7 = false
    let fin := [pkt d .finished (some .nak)]
    let fly := [pkt d .inflight none]
    (∀ ps ∈ [fin, fly, []], [0x00408D80#32, 0x00408D81, 0x00408D00].all (fun t => Inv (s ps t) &&
      decide ((s ps t).current .async = some (queue .async (some 5) (qh d) ps))) = true) ∧
    (∀ ps ∈ [fin, fly], ∃ p ∈ ps, ps = [p] ∧ p.qtdaddr = 0x2000#32 ∧ p.qtd = readQtd (s ps 0x00408D80).mem 0x2000 ∧
      p.qtd ≠ readQtd (s ps 0x00408D81).mem 0x2000 ∧ p.qtd ≠ readQtd (s ps 0x00408D00).mem 0x2000) ∧
    skip (s fly 0x00408D00) ∧ ¬ skip (s fly 0x00408D81) ∧ skip (s [] 0x00408D00) ∧ ¬ skip (s [] 0x00408D80) := by
  decide +kernel

/-- No Packet, a Packet of another qTD content, and a Packet whose content is the token presented. -/
theorem witness_InactiveQtdIsSkipped :
    let t : TokenOps := ⟨0, 0x40, 1, 0, 3, 0⟩
    let d := qtd (t.word 0b01#2 0#1) 0x3000
    let s (ps : List Packet) : State := poke (working (queue .async (some 5) (qh d) ps)) 0x2000 [1, 1, 0x00408D80, 0x3000]
    let same := [pkt d .inflight none]
    let other := [pkt (qtd 0x00408D80 0x3000) .inflight none]
    (∀ ps ∈ [[], same, other], Inv (s ps) = true ∧ (s ps).current .async = some (queue .async (some 5) (qh d) ps) ∧
      ps.length ≤ 1) ∧
    (∃ p ∈ same, p.qtdaddr = 0x2000#32 ∧ p.qtd = { readQtd (s same).mem 0x2000 with token := t.word 0b01#2 0#1 }) ∧
    ∃ p ∈ other, ¬ (p.qtdaddr = 0x2000#32 ∧ p.qtd = { readQtd (s other).mem 0x2000 with token := t.word 0b01#2 0#1 }) := by
  decide +kernel

theorem witness_HorizontalQhFollowsTheLink : (inStart.current .async).isSome = true := by decide +kernel

/-- A walk that ends at the last byte of the last page, and one byte more. -/
theorem witness_PageWalkSplitsAtPages :
    (let d := qtd 0x00004D80 0x3F00;
      WalkFits d 0x100 ∧ (∃ gs, segments d 0x100 = some gs ∧ ∃ g, g ∈ gs) ∧ ¬ WalkFits d 0x101) ∧
    let d := qtd 0x00005D80 0x3F00
    WalkFits d 0 ∧ segments d 0 = some [] ∧ ¬ WalkFits d 1 := by
  refine ⟨⟨?_, ⟨[⟨0xF00, 0x100⟩], by decide +kernel, _, List.mem_singleton.2 rfl⟩, ?_⟩, ?_, by decide +kernel, ?_⟩
  all_goals
    unfold WalkFits
    decide +kernel

theorem witness_OverlayLoadAndFlush :
    Memory.wf inStart.mem = true ∧ ¬ InRange 0x1030 (0x1000#32 + 12) 36 ∧ ¬ InRange 0x100B (0x1000#32 + 12) 36 ∧
    (∀ i < 4, inStart.mem.hasRam (0x1000#32 + BitVec.ofNat 32 44 + BitVec.ofNat 32 i) = true) := by
  unfold InRange
  decide +kernel

theorem witness_PacketTakesItsAnswer :
    (∃ r data, r ≠ .pending ∧ r = DevAnswer.count data ∧ data.length = 64) ∧ DevAnswer.nak ≠ .pending :=
  ⟨⟨_, sixtyFour, by decide, rfl, by decide⟩, by decide⟩

/-- With a device that completes later, and without a device; IN by the state row, OUT by the PID row. -/
theorem witness_ExecuteSubmitsThePacket :
    let d := qtd 0x00408D80 0x3000
    let p := pkt d .uninit none
    let q (dev : Option DevRef) := queue .async dev (qh (qtd 0 0)) [p]
    let s (dev : Option DevRef) : State := { working (q dev) with answers := [⟨[], .pending⟩] }
    let t : TokenOps := ⟨0, 0x1000, 0, 4, 3, 0⟩
    (∀ dev ∈ [none, some 5], Inv (s dev) = true ∧ (∀ a ∈ (s dev).answers.head?, a.completions = []) ∧
      (s dev).mem.hasRam 0x102F = true) ∧
    (∀ dev, HasPacket (s dev) .async (q dev) p) ∧ p.tag = .uninit ∧
    (ExecutesAs .async p (.stateExecute .async) p ∧ tokPid p.qtd.token = 0b01#2 ∧ WalkFits p.qtd p.len.toNat) ∧
    (let e := p.withToken (t.word 0b00#2 1#1);
      ExecutesAs .async p (.pidOut .async t) e ∧ tokPid e.qtd.token = 0b00#2 ∧ WalkFits e.qtd e.len.toNat) ∧
    answerNow (q (some 5)) (s (some 5)) = .pending ∧ answerNow (q none) (s none) ≠ .pending := by
  refine ⟨by decide +kernel, fun dev => ⟨by cases dev <;> rfl, by cases dev <;> rfl⟩, rfl, ⟨.inl ⟨rfl, rfl⟩, by decide, ?_⟩,
    ⟨.inr ⟨_, .inl ⟨rfl, rfl⟩⟩, by decide, ?_⟩, rfl, by decide⟩
  all_goals
    unfold WalkFits
    decide +kernel

/-- An IN of all 64 bytes left, an OUT of none. -/
theorem witness_CountIsASuccess :
    (Inv inStart = true ∧ (pkt (qtd 0x00408D80 0x3000) .uninit none).tag ≠ .inflight ∧
      sixtyFour.length ≤ ((0x00408D80#32).extractLsb' 16 15).toNat ∧ WalkFits (qtd 0x00408D80 0x3000) sixtyFour.length ∧
      inStart.mem.hasRam (bufByteAddr (qtd 0x00408D80 0x3000) 63) = true ∧
      ∀ i < 64, 63 < i → bufByteAddr (qtd 0x00408D80 0x3000) i ≠ bufByteAddr (qtd 0x00408D80 0x3000) 63) ∧
    let p := pkt (qtd 0x00000C80 0x5000) .finished (some .count)
    let q := queue .async none (qh (qtd 0x00000C80 0x5000)) [p]
    Inv (working q) = true ∧ HasPacket (working q) .async q p ∧ p.tag ≠ .inflight ∧
      ([] : List Byte).length ≤ (q.qh.ov.token.extractLsb' 16 15).toNat ∧ tokPid p.qtd.token ≠ 0b01#2 := by
  refine ⟨⟨by decide +kernel, by decide, by decide, ?_, by decide +kernel, fun i h h' => by omega⟩,
    by decide +kernel, ⟨by decide +kernel, by decide +kernel⟩, by decide, by decide, by decide⟩
  unfold WalkFits
  decide +kernel

/-- One byte more than the 64 left (with the Packet of `inStart_packet`). -/
theorem witness_ErrorResultsHaltTheQueue :
    (pkt (qtd 0x00408D80 0x3000) .uninit none).tag ≠ .inflight ∧
    ((0x00408D80#32).extractLsb' 16 15).toNat < (0 :: sixtyFour).length := by decide

/-- With the Packet of `inStart_packet`. -/
theorem witness_NakLeavesTheTransferAsItIs :
    Inv inStart = true ∧ (pkt (qtd 0x00408D80 0x3000) .uninit none).tag ≠ .inflight := by decide +kernel

/-- With the Packet of `inStart_packet`, whose Queue has device 5; the last byte flushed. -/
theorem witness_PendingFlushesAndMovesOn :
    Inv inStart = true ∧ (pkt (qtd 0x00408D80 0x3000) .uninit none).tag = .uninit ∧
    (inStart.current .async).map (fun q => q.dev) = some (some 5) ∧ InRange 0x102F (0x1000#32 + 12) 36 ∧
    inStart.mem.hasRam 0x102F = true := by
  unfold InRange
  decide +kernel

/-- A finished Packet with each result. -/
theorem witness_ExecutingInterpretsTheResult :
    ∀ r ∈ [ResultTag.nak, .stall, .ioerror, .nodev, .babble, .count],
      let p := { pkt (qtd 0x00408D80 0x3000) .finished (some r) with count := 64, buf := sixtyFour }
      let q := queue .async (some 5) (qh (qtd 0x00408D80 0x3000)) [p]
      Inv (working q) = true ∧ (working q).current .async = some q ∧ findPacket q.packets q.qtdaddr = some p ∧
        p.tag = .finished ∧ p.result = some r ∧ sixtyFour.length = p.count ∧ p.buf = sixtyFour := by decide +kernel

/-- The last byte of the status words, outside the overlay, and the first of the overlay. -/
theorem witness_WritebackStoresTheStatus :
    let p := pkt (qtd 0x00408D80 0x3000) .finished (some .stall)
    let q := queue .async (some 5) (qh (qtd 0x00408D40 0x3000)) [p]
    Inv (working q) = true ∧ (working q).current .async = some q ∧ findPacket q.packets q.qtdaddr = some p ∧
      p.tag = .finished ∧ InRange 0x200B p.qtdaddr 12 ∧ ¬ InRange 0x200B (q.qhaddr + 12) 36 ∧
      InRange 0x100C (q.qhaddr + 12) 36 ∧ (working q).mem.hasRam 0x200B = true ∧ (working q).mem.hasRam 0x100C = true := by
  unfold InRange
  decide +kernel

/-- Enabled or not, at a frame boundary or not, with a list or without, IAA set or clear. -/
theorem witness_ActiveScheduleStopsOrStarts :
    let off := inStart
    let on : State := { inStart with usbcmd := ⟨true, true, true, false, 8⟩ }
    let list : State := { on with asyncListAddr := 0x20, periodicListBase := 0x1000, frindex := 8 }
    Inv off = true ∧ Inv on = true ∧ Inv list = true ∧ ¬ (off.usbcmd.rs = true ∧ off.usbcmd.ase = true) ∧
    (list.usbcmd.rs = true ∧ list.usbcmd.ase = true ∧ list.usbsts.getLsbD 5 = false ∧ list.asyncListAddr ≠ 0) ∧
    (on.usbcmd.rs = true ∧ on.usbcmd.ase = true ∧ on.asyncListAddr = 0) ∧
    (off.frindex.toNat % 8 = 0 ∧ ¬ (off.usbcmd.rs = true ∧ off.usbcmd.pse = true)) ∧
    (¬ (list.frindex.toNat % 8 = 0 ∧ ¬ (list.usbcmd.rs = true ∧ list.usbcmd.pse = true)) ∧
      list.periodicListBase &&& 0xFFFFF000#32 ≠ 0) ∧
    (¬ (on.frindex.toNat % 8 = 0 ∧ ¬ (on.usbcmd.rs = true ∧ on.usbcmd.pse = true)) ∧
      on.periodicListBase &&& 0xFFFFF000#32 = 0) := by decide +kernel

/-- A Queue seen, one of the greatest age that is kept, one older, and none. -/
theorem witness_ReapUnusedAgesTheCache :
    let q (seen : Bool) (n : Nat) : Queue := { queue .async none (qh (qtd 0 0)) [] with seen := seen, lastSeen := n }
    let s (x : Queue) : State := { State.reset with uframeCtr := 132, async := ⟨.active, 0, none, 0, [x]⟩ }
    (∀ x ∈ [q true 132, q false 100, q false 99], Inv (s x) = true ∧ (s x).queue? .async 0x1000 = some x) ∧
    (q true 132).seen = true ∧ ((q false 100).seen = false ∧ 132 - (q false 100).lastSeen ≤ (s (q false 100)).params.queueMaxAge) ∧
    (s (q false 99)).params.queueMaxAge < 132 - (q false 99).lastSeen ∧ (s (q true 0)).queue? .async 0x1020 = none := by
  decide +kernel

/-- No list, and IAA set, at the last microsecond before a microframe, and the first tick after a reset (V-T1); a list with a
pass that ends well and one that ends in a Fatal; an asynchronous schedule that is ACTIVE and disabled (V-A6), and one that
is INACTIVE and disabled (P5); a periodic schedule that is disabled, enabled with a frame list and without one; a microframe that is
processed and one left owed; a tick that skips. -/
theorem witness_TickRunsThePasses :
    let s : State := { State.reset with
      usbcmd := ⟨true, false, true, false, 8⟩, lastRunUs := some 1000, lastTickUs := some 1124 }
    let s' : State := { s with asyncListAddr := 0x1000, usbsts := 0x20 }
    s.usbcmd.rs = true ∧ s.usbcmd.ase = true ∧ s.async.auto = .inactive ∧ s.lastRunUs = some 1000 ∧ 1000 ≤ 1124 ∧
    (s.lastTickUs.getD 1124 ≤ 1124 ∧ 1124 < 1000 + 125) ∧ (s.asyncListAddr = 0 ∧ s.usbcmd.iaad = false) ∧ s'.usbsts.getLsbD 5 = true ∧
    (s'.setAuto .async .active).async.auto = .active ∧
    (let f : State := { State.reset with usbcmd := ⟨true, false, true, false, 8⟩ };
      Inv f = true ∧ f.async.auto = .inactive ∧ (f.lastRunUs.getD 700 ≤ 700 ∧ f.lastTickUs.getD 700 ≤ 700 ∧
      700 < f.lastRunUs.getD 700 + 125) ∧ f.asyncListAddr = 0 ∧ f.usbcmd.iaad = false ∧
      ({ f with asyncListAddr := 0x1000 } : State).asyncListAddr ≠ 0 ∧ f.usbsts.getLsbD 5 = false) ∧
    (let d : State := { State.reset with usbcmd := ⟨true, false, false, true, 8⟩ };
      (Inv d = true ∧ d.async.auto = .inactive ∧ ¬ (d.usbcmd.rs = true ∧ d.usbcmd.ase = true)) ∧
      Inv (d.setAuto .async .active) = true ∧ (d.setAuto .async .active).async.auto = .active ∧
      ((d.setAuto .async .active).lastRunUs.getD 0 ≤ 0 ∧ (d.setAuto .async .active).lastTickUs.getD 0 ≤ 0)) ∧
    (let a : State := { s with asyncListAddr := 0x1000 };
      let f := poke a 0x1000 [0x6, 0xE105];
      let pass (x : State) := run .async 139 { x with inEntry := true, lastRunUs := some 1000, lastTickUs := some 1124, async := ⟨.waitListHead, 0, none, 0, []⟩ };
      Inv a = true ∧ Inv f = true ∧ a.usbsts.getLsbD 5 = false ∧ a.asyncListAddr ≠ 0 ∧ (∃ u, pass a = .ok u) ∧
      ∃ x u, pass f = .error (.fatal x u)) ∧
    (let off := State.reset.setAuto .periodic .active;
      let on : State := { off with usbcmd := ⟨true, true, false, false, 8⟩ };
      let list : State := { on with periodicListBase := 0x1000 };
      (Inv off = true ∧ off.frindex.toNat % 8 = 0 ∧ off.periodic.auto = .active ∧ off.usbcmd.rs = false) ∧
      (Inv on = true ∧ on.usbcmd.rs = true ∧ on.usbcmd.pse = true ∧ on.periodicListBase &&& 0xFFFFF000#32 = 0) ∧
      (Inv list = true ∧ list.periodic.auto = .active ∧ list.periodicListBase &&& 0xFFFFF000#32 ≠ 0)) ∧
    (let r : State := { State.reset with usbsts := 1, usbintr := 1 };
      (r.params.minUfrPerTick ≤ 1 ∧ r.thresholdCommit.irq = true) ∧ ¬ r.params.minUfrPerTick ≤ 0 ∧
      (∃ u, periodicStep { advanceFrindex r with uframeCtr := 1 } = .ok u) ∧
      ∃ i u, processMicroframes 8 0 (skipMicroframes 1 { r with inEntry := true, lastRunUs := some 1125, lastTickUs := some 1200 }) = .ok (i, u)) := by
  refine ⟨by decide, by decide, by decide, by decide, by decide, by decide, by decide, by decide, by decide, by decide +kernel,
    by decide +kernel, ?_, ?_, ?_⟩
  · exact ⟨by decide +kernel, by decide +kernel, by decide, by decide, ⟨_, rfl⟩, isFatal_some (by decide +kernel)⟩
  · decide +kernel
  · exact ⟨by decide, by decide, ⟨_, rfl⟩, _, _, rfl⟩

/-- V-C8: one Queue not reached, IAAD = 1. -/
theorem witness_TickAnswersTheDoorbell :
    let q : Queue := { queue .async (some 5) (qh (qtd 0 0)) [] with qhaddr := 0x1100 }
    let s : State := { common .nak with usbcmd := ⟨true, false, true, true, 8⟩, async := ⟨.active, 0, none, 0, [q]⟩ }
    Inv s = true ∧ Rested s ∧ s.usbcmd.iaad = true ∧ s.usbsts.getLsbD 5 = false ∧ s.usbstsPending.getLsbD 5 = false ∧
    get (exec (.tick 0) s) (fun t => t.lastRunUs) = some (some 0) := by
  refine ⟨by decide +kernel, ⟨by decide +kernel, fun k => ?_⟩, by decide +kernel, by decide +kernel, by decide +kernel,
    by decide +kernel⟩
  cases k <;> decide +kernel

theorem witness_FirstAndBackwardTicks :
    (let s : State := { State.reset with lastRunUs := some 1000, lastTickUs := some 1100 };
      (s.lastRunUs = some 1000 ∧ 999 < 1000) ∧ s.lastTickUs = some 1100 ∧ 1099 < 1100) ∧
    (get (exec (.tick 700) State.reset) (fun t => t.lastTickUs)).isSome ∧
    State.reset.lastRunUs = none ∧ get (exec (.tick 700) State.reset) (fun t => t.lastRunUs) = some (some 700) := by
  decide +kernel

theorem witness_HaltedTickRunsNoSchedule :
    let s : State := { State.reset with lastRunUs := some 1000 }
    let d : State := { s with usbcmd := ⟨false, false, false, true, 8⟩ }
    (Inv d = true ∧ d.usbcmd.iaad = true ∧ d.usbsts.getLsbD 5 = false ∧ d.usbstsPending.getLsbD 5 = false) ∧
    s.usbcmd.iaad = false ∧
    Inv s = true ∧ s.usbcmd.rs = false ∧ s.async.auto = .inactive ∧ s.periodic.auto = .inactive ∧
    s.lastRunUs.getD 1000 ≤ 1000 ∧ s.lastTickUs.getD 1000 ≤ 1000 ∧ State.reset.lastRunUs.getD 0 ≤ 0 := by decide

/-- V-T5, where microframes stay owed, and V-T7, where the frame index wraps. -/
theorem witness_RunningTickAdvancesTheFrameIndex :
    let s : State := { State.reset with usbcmd := ⟨true, false, false, false, 8⟩, lastRunUs := some 0 }
    s.usbcmd.rs = true ∧ s.usbstsPending.getLsbD 3 = false ∧
    get (exec (.tick 500) { s with usbsts := 1, usbintr := 1 }) (fun t => t.lastRunUs) = some (some 125) ∧
    get (exec (.tick 125) { s with frindex := 0x3FFF }) (fun t => t.lastRunUs) = some (some 125) := by decide +kernel

theorem witness_EntriesCommitAllPendingBits :
    (get (exec (.tick 0) (common .stall)) (fun t => t.usbsts)) = some 0b000010 ∧
    let s := inWith .inflight none
    s.inEntry = false ∧ (get (exec (.complete .async 0x1000 0x2000 .stall) { s with usbstsPending := 1 })
      (fun t => t.usbsts)) = some 0b000001 := by decide +kernel

theorem witness_TicksComplete :
    let s := common (.count sixtyFour)
    Inv s = true ∧ Idle s = true ∧ plainAnswers s = true ∧ s.lastRunUs.getD 0 ≤ 0 ∧ s.lastTickUs.getD 0 ≤ 0 := by decide +kernel

/-- A Packet that is finished, and one in flight: inside an entry and outside one, the re-run ending well and in a
Fatal. -/
theorem witness_CompletionFinishesThePacket :
    (∀ q p, (inWith .finished (some .stall)).queue? .async 0x1000 = some q → findPacket q.packets 0x2000 = some p →
      p.tag ≠ .inflight) ∧
    let s := inWith .inflight none
    let q := queue .async (some 5) (qh (qtd 0x00408D80 0x3000)) [pkt (qtd 0x00408D80 0x3000) .inflight none]
    let p := pkt (qtd 0x00408D80 0x3000) .inflight none
    let done (x : State) := x.putQueue { q with packets := replacePacket q.packets (p.settle .stall) }
    let fatal : State := { image 0x1100 0x0200E105 ⟨1, 1, 0, 0, 0, 0, 0, 0⟩ with async := s.async }
    s.queue? .async 0x1000 = some q ∧ findPacket q.packets 0x2000 = some p ∧ p.tag = .inflight ∧
    ({ s with inEntry := true }).inEntry = true ∧ s.inEntry = false ∧
    (∃ u, asyncStep { done s with inEntry := true } = .ok u) ∧
    fatal.queue? .async 0x1000 = some q ∧ (∃ x u, asyncStep { done fatal with inEntry := true } = .error (.fatal x u)) ∧
    Inv s = true ∧ Idle s = true ∧ plainAnswers s = true := by
  refine ⟨fun q p h h' => ?_, by decide +kernel, by decide +kernel, rfl, rfl, rfl, ⟨_, rfl⟩, by decide +kernel,
    isFatal_some (by decide +kernel),
    by decide +kernel, by decide +kernel, by decide +kernel⟩
  have e : (inWith .finished (some .stall)).queue? .async 0x1000 =
      some (queue .async (some 5) (qh (qtd 0x00408D80 0x3000)) [pkt (qtd 0x00408D80 0x3000) .finished (some .stall)]) := by
    decide +kernel
  rw [e] at h
  cases h
  cases h'
  decide

theorem witness_EveryPassEnds : ∃ t, run .async 0 State.reset = .ok t := ⟨_, rfl⟩

theorem witness_StepsKeepTheInvariant :
    let s : State := { inStart with inbox := [.msg ⟨.stimulus, .async, [5]⟩] }
    Machine.Inv s = true ∧ get (step s) (fun t => t.usbsts) = some 0b000100 := by decide +kernel

theorem witness_StimuliEndAtRest :
    let s := common (.count sixtyFour)
    isStimulus (.tick 0) = true ∧ Inv s = true ∧ Rested s ∧
    get (exec (.tick 0) s) (fun t => t.async.cache.length) = some 1 := by
  refine ⟨rfl, by decide +kernel, ⟨by decide +kernel, fun k => ?_⟩, by decide +kernel⟩
  cases k <;> decide +kernel

/-- A tick that stays and a tick that a Fatal ends. -/
theorem witness_EngineKeepsTheGuestsRegisters :
    writesRegisters (.tick 0) = false ∧
    get (exec (.tick 0) (common .stall)) (fun t => t.asyncListAddr) = some 0x1000 ∧
    get (exec (.tick 0) { common .stall with asyncListAddr := 0x20 }) (fun t => t.async.auto) = some .active ∧
    mayTakeFatal (.tick 0) = true ∧
    get (exec (.tick 0) (poke (common .stall) 0x1000 [0x6])) (fun t => t.asyncListAddr) = some 0 ∧
    mayTakeFatal .portChange = false ∧ writesRegisters .portChange = false := by
  decide +kernel

theorem witness_StepsKeepTheInterruptAndTimerState :
    let s : State := { State.reset with inbox := [.msg ⟨.stimulus, .async, [5]⟩], nextCommit := 255
                                        lastRunUs := some 250, lastTickUs := some 250 }
    get (step s) (fun t => t.usbsts) = some 0b000100 ∧ s.usbstsPending &&& 0b011100#6 = 0 ∧ s.usbsts.getLsbD 4 = false ∧
    s.nextCommit ≤ s.uframeCtr + 255 ∧ (s.lastRunUs = some 250 ∧ s.lastTickUs = some 250 ∧ 250 ≤ 250) := by decide +kernel

/-- A device that completes the Packet submitted and one of the other schedule inside the submit call, and one that
names no Packet in flight. -/
theorem witness_SubmitDeliversCompletions :
    let p := pkt (qtd 0x00408D80 0x3000) .uninit none
    let q := queue .async (some 5) (qh (qtd 0x00408D80 0x3000)) [p]
    let y := queue .periodic (some 6) (qh (qtd 0x00408D80 0x3000)) [pkt (qtd 0x00408D80 0x3000) .inflight none]
    let s (cs : List Completion) : State := { inStart.putQueue y with answers := [⟨cs, .pending⟩] }
    let c : Completion := ⟨.async, 0x1000, 0x2000, .stall⟩
    let c' : Completion := ⟨.periodic, 0x1000, 0x2000, .nak⟩
    let bad : Completion := ⟨.periodic, 0x1000, 0x2020, .nak⟩
    (∀ cs ∈ [[c, c'], [bad], [{ c' with answer := .pending }]], Inv (s cs) = true ∧ (s cs).current .async = some q ∧
      (s cs).queue? .periodic 0x1000 = some y) ∧
    findPacket q.packets q.qtdaddr = some p ∧ p.tag = .uninit ∧ ExecutesAs .async p (.stateExecute .async) p ∧
    tokPid p.qtd.token ≠ 0b11#2 ∧ WalkFits p.qtd p.len.toNat ∧ q.dev = some 5 ∧
    findPacket y.packets 0x2000 = some (pkt (qtd 0x00408D80 0x3000) .inflight none) ∧ findPacket y.packets 0x2020 = none ∧
    ([c, c'].map fun x => (x.kind, x.qhaddr, x.qtdaddr)).Nodup := by
  refine ⟨by decide +kernel, by decide +kernel, rfl, .inl ⟨rfl, rfl⟩, by decide, ?_, rfl, by decide +kernel, by decide +kernel,
    by decide⟩
  unfold WalkFits
  decide +kernel

end Sys2Proof.Tests
end

/-! PROOFS. The fetch and the step, one equation for each case (O5). -/

namespace Sys2Proof.Machine

/-! ### The fetch, case by case (log 4, log 33) -/

theorem State.fetch_idle {s : State} (h : Idle s = true) : s.fetch = fetchInbox s := by
  simp only [Idle, Bool.and_eq_true] at h
  simp [State.fetch, State.walking, h]

theorem State.fetch_periodic {s : State} (h : autoIdle s.periodic.auto = false) :
    s.fetch = .message (stateMsg .periodic s.periodic.auto) s := by
  simp [State.fetch, State.walking, h]

theorem State.fetch_async {s : State} (hp : autoIdle s.periodic.auto = true) (h : autoIdle s.async.auto = false) :
    s.fetch = .message (stateMsg .async s.async.auto) s := by
  simp [State.fetch, State.walking, hp, h]

theorem fetchInbox_msg {s : State} {m : Message} {rest : List Event} (h : s.inbox = .msg m :: rest) :
    fetchInbox s = .message m { s with inbox := rest } := by simp [fetchInbox, h]

theorem fetchInbox_guestWrite {s : State} {a : Word} {bs : List Byte} {rest : List Event}
    (h : s.inbox = .guestWrite a bs :: rest) :
    fetchInbox s = .quiet ({ s with inbox := rest }.guestWrite a bs) := by simp [fetchInbox, h]

theorem fetchInbox_setDevice {s : State} {a : BitVec 7} {d : Option DevRef} {rest : List Event}
    (h : s.inbox = .setDevice a d :: rest) :
    fetchInbox s = .quiet ({ s with inbox := rest }.setDevice a d) := by simp [fetchInbox, h]

theorem fetchInbox_nil {s : State} (h : s.inbox = []) : fetchInbox s = .quiet s := by simp [fetchInbox, h]

theorem writeBytes_epoch (m : Memory) (a : Word) (bs : List Byte) : (writeBytes m a bs).epoch = m.epoch := by
  induction bs generalizing m a with
  | nil => rfl
  | cons b bs ih => rw [writeBytes, ih, Memory.setByte_epoch]

/-- A guest write stores its bytes and counts as one act of the guest (log 35). -/
theorem State.guestWrite_eq (s : State) (a : Word) (bs : List Byte) :
    s.guestWrite a bs = { s with mem := { writeBytes s.mem a bs with epoch := s.mem.epoch + 1 } } := by
  rw [← writeBytes_epoch s.mem a bs]; rfl

/-! ### The step by what the fetch finds -/

theorem step_quiet {s t : State} (h : s.fetch = .quiet t) : step s = .next t := by simp only [step, h]

theorem step_decoded {s t : State} {m : Message} {i : Instr} (h : s.fetch = .message m t) (hd : decode m = .ok i) :
    step s = exec i t := by simp only [step, h, hd]

theorem step_undecodable {s t : State} {m : Message} {e : Reject} (h : s.fetch = .message m t)
    (hd : decode m = .error e) : step s = .refused .undecodable := by simp only [step, h, hd]

end Sys2Proof.Machine

section
open Sys2Proof Sys2Proof.Machine

/-- Settles O5: the fetch is one equation for each case, and the step is read off it. -/
theorem stepRunsDecodedInstruction : Obligations.StepRunsDecodedInstruction := by
  unfold Obligations.StepRunsDecodedInstruction
  refine ⟨?message, ?refused, ?guestWrite, ?setDevice, ?empty, ?periodicWalks, ?asyncWalks⟩
  case message =>
    intro s m rest i hidle hbox hdec
    exact step_decoded ((State.fetch_idle hidle).trans (fetchInbox_msg hbox)) hdec
  case refused =>
    intro s m rest e hidle hbox hdec
    exact step_undecodable ((State.fetch_idle hidle).trans (fetchInbox_msg hbox)) hdec
  case guestWrite =>
    intro s a bs rest hidle hbox
    rw [step_quiet ((State.fetch_idle hidle).trans (fetchInbox_guestWrite hbox)), State.guestWrite_eq]
  case setDevice =>
    intro s a d rest hidle hbox
    exact step_quiet ((State.fetch_idle hidle).trans (fetchInbox_setDevice hbox))
  case empty =>
    intro s hidle hbox
    exact step_quiet ((State.fetch_idle hidle).trans (fetchInbox_nil hbox))
  case periodicWalks =>
    intro s i hwalk hdec
    exact step_decoded (State.fetch_periodic hwalk) hdec
  case asyncWalks =>
    intro s i hrest hwalk hdec
    exact step_decoded (State.fetch_async hrest hwalk) hdec

end

/-! PROOFS. What a walk of one schedule keeps, also where it ends at a Fatal: one lemma for each step, used for both the
marks of the other schedule (O57) and the addresses with memory (O59). -/

namespace Sys2Proof.Machine

/-! ### What a walk keeps, be it at a Fatal -/

/-- Each Queue lies in the cache of its own kind (R34). -/
def KindsMatch (s : State) : Prop := ∀ j, ∀ q ∈ (s.sched j).cache, q.kind = j

/-- No Queue of schedule j is marked seen (R246). -/
def Unseen (s : State) (j : Sched) : Prop := ∀ q ∈ (s.sched j).cache, q.seen = false

theorem kindsMatch_of_inv {s : State} (h : Inv s = true) : KindsMatch s := fun j q hq =>
  (queueOk_iff.1 ((schedOk_iff.1 (inv_sched h j)).2.1 q hq)).1

/-- What lies between the start `s` of a step of schedule k's walk and a state `t` inside it, the one a Fatal is met in
included: what `Walked` says, the addresses with memory, and no mark set in the other schedule. -/
structure Confined (k : Sched) (s t : State) : Prop where
  walked : Walked k s t
  holes : t.mem.holes = s.mem.holes
  kinds : KindsMatch s → KindsMatch t
  unseen : KindsMatch s → ∀ j, j ≠ k → Unseen s j → Unseen t j

namespace Confined

variable {k : Sched} {s t u : State}

theorem refl (k : Sched) (s : State) : Confined k s s := ⟨Walked.refl k s, rfl, id, fun _ _ _ => id⟩

theorem trans (h1 : Confined k s t) (h2 : Confined k t u) : Confined k s u :=
  ⟨h1.walked.trans h2.walked, h2.holes.trans h1.holes, fun hs => h2.kinds (h1.kinds hs),
    fun hs j hj hu => h2.unseen (h1.kinds hs) j hj (h1.unseen hs j hj hu)⟩

/-! The updates a step is made of. -/

/-- An update that leaves the caches alone. -/
theorem sameCaches (hw : Walked k s t) (hm : t.mem.holes = s.mem.holes)
    (hc : ∀ j, (t.sched j).cache = (s.sched j).cache) : Confined k s t :=
  ⟨hw, hm, fun h j q hq => h j q (by rwa [hc] at hq), fun _ j _ h q hq => h q (by rwa [hc] at hq)⟩

theorem setSched {r : SchedRegs} (hr : r.cache = (s.sched k).cache) : Confined k s (s.setSched k r) := by
  refine sameCaches (Walked.setSched r) (by simp) fun j => ?_
  by_cases hj : j = k
  · subst hj; rw [State.setSched_sched, hr]
  · rw [State.setSched_sched_ne _ _ hj]

theorem setAuto (x : AutoState) : Confined k s (s.setAuto k x) := setSched rfl
theorem setFetch (x : Word) : Confined k s (s.setFetch k x) := setSched rfl
theorem setCur (x : Option Word) : Confined k s (s.setCur k x) := setSched rfl
theorem setVisits (x : Nat) : Confined k s (s.setVisits k x) := setSched rfl

theorem outbox (o : List Output) : Confined k s { s with outbox := o } :=
  sameCaches (Walked.outbox o) rfl fun j => by cases j <;> rfl
theorem emit (o : Output) : Confined k s (s.emit o) := outbox _
theorem setMem {m : Memory} (hm : m.holes = s.mem.holes) : Confined k s (s.setMem m) :=
  sameCaches (Walked.setMem m) hm fun j => by simp
theorem setRecl (b : Bool) : Confined k s (s.setRecl b) := sameCaches (Walked.setRecl b) (by simp) fun j => by simp
theorem reclIfAsync (i : Sched) : Confined k s (s.reclIfAsync i) :=
  sameCaches (Walked.reclIfAsync i) (by simp) fun j => by simp
theorem diag : Confined k s { s with diagEmitted := true } := sameCaches Walked.diag rfl fun j => by cases j <;> rfl
theorem raiseIrq {b : IrqBit} (h : b = .usbint ∨ b = .usberrint) : Confined k s (s.raiseIrq b) :=
  sameCaches (Walked.raiseIrq h) (by simp) fun j => by simp

/-- A Queue stored: one of schedule k, or one with the mark of a Queue that its cache holds. -/
theorem putQueue {q : Queue} (hq : KindsMatch s → q.kind = k ∨ ∃ r ∈ (s.sched q.kind).cache, q.seen = r.seen) :
    Confined k s (s.putQueue q) := by
  have mem : ∀ {j r}, r ∈ ((s.putQueue q).sched j).cache → (r = q ∧ q.kind = j) ∨ r ∈ (s.sched j).cache := by
    intro j r hr
    by_cases hj : j = q.kind
    · subst hj
      rw [State.putQueue_sched] at hr
      exact (mem_cachePut hr).imp_left fun e => ⟨e, rfl⟩
    · rw [State.putQueue_sched_ne _ _ hj] at hr
      exact .inr hr
  refine ⟨Walked.putQueue q, by simp, fun hs j r hr => ?_, fun hs j hj hu r hr => ?_⟩
  · rcases mem hr with ⟨rfl, hk⟩ | hr
    · exact hk
    · exact hs j r hr
  · rcases mem hr with ⟨rfl, hk⟩ | hr
    · rcases hq hs with hown | ⟨r', hr', hseen⟩
      · exact absurd (hk.symm.trans hown) hj
      · rw [hseen]; exact hu r' (hk ▸ hr')
    · exact hu r hr

/-! The operations inside a step. Where a step stores a Queue, `q.kind = k` holds if the kinds matched at its start. -/

/-- The Queue a step works on, stored after whatever the step has done so far. -/
theorem putOwn {q : Queue} (h : Confined k s t) (hq : KindsMatch s → q.kind = k) : Confined k s (t.putQueue q) :=
  ⟨h.walked.trans (Walked.putQueue q), by rw [State.putQueue_mem]; exact h.holes,
    fun hs => (putQueue fun _ => .inl (hq hs)).kinds (h.kinds hs),
    fun hs j hj hu => (putQueue fun _ => .inl (hq hs)).unseen (h.kinds hs) j hj (h.unseen hs j hj hu)⟩

theorem resetQueue {q q' : Queue} (h : Machine.resetQueue q s = .ok (q', t)) :
    Confined k s t ∧ q'.kind = q.kind := by
  obtain ⟨⟨l, rfl, -⟩, cs, rfl⟩ := resetQueue_frame h
  exact ⟨outbox _, rfl⟩

theorem flushOverlay (q : Queue) : Confined k s (Machine.flushOverlay q s) := setMem (flushQh_holes _ _ _)

/-- A completion finishes a Packet of a cached Queue, whose mark stays (R310). -/
theorem deliver {c : Completion} (h : Machine.deliver c s = .ok t) : Confined k s t := by
  simp only [Machine.deliver] at h
  split at h
  · cases h
  · rename_i q hq
    have hmem := (cacheFind_some hq).1
    split at h
    · cases h
    · split_ifs at h
      cases h
      exact putQueue fun hs => .inr ⟨q, by rw [show (q.putPacket _).kind = c.kind from hs _ q hmem]; exact hmem, rfl⟩

theorem deliverAll {q : Queue} {p : Packet} {cs : List Completion} {r r' : Option DevAnswer}
    (h : Machine.deliverAll q p cs r s = .ok (r', t)) : Confined k s t := by
  induction cs generalizing r s with
  | nil => cases h; exact refl k _
  | cons c cs ih =>
    simp only [Machine.deliverAll] at h
    split at h
    · split at h
      · cases h
      · exact ih h
    · split at h
      · cases h
      · exact (deliver ‹_›).trans (ih h)

theorem nextAnswer : Confined k s s.nextAnswer.2 := by
  refine sameCaches Walked.nextAnswer ?_ fun j => ?_ <;> unfold State.nextAnswer <;> split
  · rfl
  · rfl
  · cases j <;> rfl
  · cases j <;> rfl

theorem answerFor {q : Queue} {p : Packet} {r : DevAnswer} (h : Machine.answerFor q p s = .ok (r, t)) :
    Confined k s t := by
  simp only [Machine.answerFor] at h
  split at h
  · cases h; exact refl k _
  · simp only [submit] at h
    split at h
    · cases h
    · cases h
      exact ((emit _).trans nextAnswer).trans (deliverAll ‹_›)

theorem afterAnswer {q : Queue} (p : Packet) (r : DevAnswer) (h : Confined k s t) (hq : KindsMatch s → q.kind = k) :
    Confined k s (Machine.afterAnswer k q p r t) := by
  unfold Machine.afterAnswer
  split
  · exact (((h.putOwn (q := q.putPacket _) hq).trans (flushOverlay _)).trans (reclIfAsync k)).trans (setAuto _)
  · exact (h.putOwn (q := q.putPacket _) hq).trans (setAuto _)

theorem nakStep {q : Queue} (p : Packet) (hq : KindsMatch s → q.kind = k) : Confined k s (Machine.nakStep k q p s) :=
  ((refl k s).putOwn (q := q.freePacket p) hq).trans (setAuto _)

theorem dispatchQh {q : Queue} (h : Confined k s t) (hq : KindsMatch s → q.kind = k) :
    Confined k s (Machine.dispatchQh k q t) := by
  simp only [Machine.dispatchQh, haltedStep]
  split_ifs
  · exact (h.putOwn hq).trans (setAuto _)
  · exact (h.putOwn (q := { q with qtdaddr := ptrAddr q.qh.current }) hq).trans (setAuto _)
  · exact (h.putOwn hq).trans (setAuto _)

theorem dispatchNew {q : Queue} (d : Qtd) (h : Confined k s t) (hq : KindsMatch s → q.kind = k) :
    Confined k s (Machine.dispatchNew k q d t) := by
  simp only [Machine.dispatchNew, inactiveStep]
  split_ifs
  · exact (h.putOwn hq).trans (setAuto _)
  · exact (h.putOwn hq).trans (setAuto _)
  · exact (h.putOwn hq).trans (setAuto _)
  · exact (h.putOwn (q := q.allocate _ _) hq).trans (setAuto _)

theorem boundExceeded : Confined k s (Machine.boundExceeded k s) := diag.trans (setAuto _)

theorem fetchStub : Confined k s (Machine.fetchStub k s) := (setFetch _).trans (setAuto _)

theorem waitListHead : Confined .async s (Machine.waitListHead s) := by
  simp only [Machine.waitListHead]
  split
  · exact ((setRecl _).trans (setFetch _)).trans (setAuto _)
  · exact (setRecl _).trans (setAuto _)

theorem asyncBegin : Confined .async s (Machine.asyncBegin s) := ((setVisits 0).trans (setCur none)).trans (setAuto _)

theorem periodicBegin : Confined .periodic s (Machine.periodicBegin s) :=
  (((setFetch _).trans (setVisits 0)).trans (setCur none)).trans (setAuto _)

end Confined

/-! ### The steps of a walk -/

/-- A step ends, normally or at a Fatal, in a state confined to schedule k; a fault leaves no state. -/
def Confines (k : Sched) (s : State) (x : Except Stop State) : Prop :=
  match x with
  | .ok t => Confined k s t
  | .error (.fatal _ u) => Confined k s u
  | .error (.fault _) => True

theorem Confines.of_confined {k : Sched} {s t : State} {x : Except Stop State} (h : Confined k s t)
    (hx : Confines k t x) : Confines k s x :=
  match x, hx with
  | .ok _, hx => h.trans hx
  | .error (.fatal _ _), hx => h.trans hx
  | .error (.fault _), _ => trivial

/-- A result is interpreted, or a Fatal met, in a state confined to schedule k; the Queue keeps its kind. -/
def ConfinesResult (k : Sched) (s : State) (q : Queue) (x : Except Stop (Queue × State)) : Prop :=
  match x with
  | .ok (q', t) => Confined k s t ∧ q'.kind = q.kind
  | .error (.fatal _ u) => Confined k s u
  | .error (.fault _) => True

section Steps

variable {k : Sched} {s t : State}

theorem current_kind {q : Queue} (hq : s.current k = some q) (hs : KindsMatch s) : q.kind = k := by
  unfold State.current at hq
  split at hq
  · cases hq
  · exact hs k q (cacheFind_some hq).1

theorem findOrCreate_kind (a : Word) (hs : KindsMatch s) : (s.findOrCreate k a).1.kind = k := by
  unfold State.findOrCreate
  split
  · exact hs k _ (cacheFind_some ‹_›).1
  · rfl

theorem confines_withCurrent {f : Queue → Except Stop State}
    (hf : ∀ q, (KindsMatch s → q.kind = k) → Confines k s (f q)) : Confines k s (withCurrent k s f) := by
  unfold withCurrent
  split
  · trivial
  · exact hf _ (current_kind ‹_›)

theorem confines_withPacket {g : PacketTag} {f : Queue → Packet → Except Stop State}
    (hf : ∀ q p, (KindsMatch s → q.kind = k) → Confines k s (f q p)) : Confines k s (withPacket k g s f) := by
  refine confines_withCurrent fun q hq => ?_
  split
  · trivial
  · split
    · exact hf _ _ hq
    · trivial

theorem linkItdStep_confines : Confines k s (linkItdStep k s) := by
  cases k
  · exact Confined.refl _ s
  · exact Confined.setAuto _

theorem linkSitdStep_confines : Confines k s (linkSitdStep k s) := by
  cases k
  · exact Confined.refl _ s
  · exact Confined.setAuto _

theorem linkStep_confines (lp : Word) : Confines k s (linkStep k lp s) := by
  unfold linkStep
  split_ifs
  · exact Confined.setAuto _
  · exact Confined.setAuto _
  · exact linkItdStep_confines
  · exact linkSitdStep_confines
  · exact Confined.refl k s

theorem fetchEntry_confines : Confines k s (fetchEntry k s) := by
  cases k <;> simp only [fetchEntry]
  case async => exact linkStep_confines _
  case periodic =>
    split
    · exact (Confined.setVisits _).trans Confined.boundExceeded
    · exact .of_confined (Confined.setVisits _) (linkStep_confines _)

theorem checkQh_confines {q : Queue} {b : Bool} {f : Qh} (h : Confined k s t) (hq : KindsMatch s → q.kind = k) :
    Confines k s (checkQh k q b f t) := by
  simp only [checkQh]
  split
  · trivial
  · rename_i q1 s1 h1
    have hs1 : Confined k t s1 ∧ q1.kind = q.kind := by
      split at h1
      · exact Confined.resetQueue h1
      · cases h1; exact ⟨Confined.refl k t, rfl⟩
    refine (h.trans hs1.1).dispatchQh fun hs => ?_
    rw [resolveDevice_kind]
    exact hs1.2.trans (hq hs)

theorem visitQh_confines : Confines k s (visitQh k s) := by
  simp only [visitQh]
  have hkind : KindsMatch s →
      ((s.findOrCreate k (ptrAddr (s.sched k).fetchAddr)).1.markSeen s.uframeCtr).kind = k := findOrCreate_kind _
  have hput := ((Confined.refl k s).putOwn hkind).trans
    (Confined.setCur (some (ptrAddr (s.sched k).fetchAddr)))
  split
  · split
    · exact checkQh_confines (hput.trans (Confined.setRecl _)) hkind
    · exact hput.trans (Confined.setAuto _)
  · exact checkQh_confines hput hkind

theorem fetchQh_confines : Confines k s (fetchQh k s) := by
  cases k <;> simp only [fetchQh]
  case async =>
    split
    · exact (Confined.setVisits _).trans Confined.boundExceeded
    · exact .of_confined (Confined.setVisits _) visitQh_confines
  case periodic => exact visitQh_confines

theorem advanceQueue_confines : Confines k s (advanceQueue k s) := by
  refine confines_withCurrent fun q hq => ?_
  split_ifs
  · exact ((Confined.refl k s).putOwn (q := { q with qtdaddr := ptrAddr q.qh.ov.alt }) hq).trans (Confined.setAuto _)
  · exact ((Confined.refl k s).putOwn (q := { q with qtdaddr := ptrAddr q.qh.ov.next }) hq).trans (Confined.setAuto _)
  · exact Confined.setAuto _

theorem dispatchQtd_confines {q : Queue} {d : Qtd} (hq : KindsMatch s → q.kind = k) :
    Confines k s (dispatchQtd k q d s) := by
  have reset : ∀ {q1 s1}, resetQueue q s = .ok (q1, s1) → Confined k s (dispatchNew k q1 d s1) := fun h =>
    (Confined.resetQueue h).1.dispatchNew d fun hs => (Confined.resetQueue (k := k) h).2.trans (hq hs)
  simp only [dispatchQtd]
  split
  · split
    · split
      · trivial
      · exact reset ‹_›
    · split
      · exact Confined.setAuto _
      · exact Confined.setAuto _
      · exact (Confined.refl k s).dispatchNew d hq
  · split
    · split
      · trivial
      · exact reset ‹_›
    · exact (Confined.refl k s).dispatchNew d hq

theorem executePacket_confines {q : Queue} {p : Packet} (hq : KindsMatch s → q.kind = k) :
    Confines k s (executePacket k q p s) := by
  simp only [executePacket]
  split
  · exact Confined.refl k s
  · split
    · exact Confined.refl k s
    · split
      · trivial
      · have hput := (Confined.flushOverlay (k := k) (s := s) (q.loadOverlay p)).putOwn (q := q.loadOverlay p) hq
        exact (hput.trans (Confined.answerFor ‹_›)).afterAnswer _ _ hq

theorem successIrq_confined (b : Bool) (w : Word) : Confined k s (successIrq b w s) := by
  unfold successIrq
  split
  · exact Confined.raiseIrq (.inl rfl)
  · exact Confined.refl k s

theorem resultSuccess_confines (q : Queue) (p : Packet) (n : Nat) : ConfinesResult k s q (resultSuccess q p n s) := by
  simp only [resultSuccess]
  split
  · split
    · exact Confined.refl k s
    · exact ⟨(Confined.setMem (scatterBytes_holes _ _ _)).trans (successIrq_confined _ _), rfl⟩
  · exact ⟨successIrq_confined _ _, rfl⟩

theorem usberrint_confined : Confined k s (s.raiseIrq .usberrint) := Confined.raiseIrq (.inr rfl)

theorem resultCounted_confines (q : Queue) (p : Packet) (n : Nat) : ConfinesResult k s q (resultCounted q p n s) := by
  unfold resultCounted
  split
  · exact resultSuccess_confines q p n
  · exact ⟨usberrint_confined, rfl⟩

theorem processResult_confines (q : Queue) (p : Packet) (r : ResultTag) :
    ConfinesResult k s q (processResult q p r s) := by
  cases r with
  | count => exact resultCounted_confines q p _
  | nak => trivial
  | pending => trivial
  | stall => exact ⟨usberrint_confined, rfl⟩
  | ioerror => exact ⟨usberrint_confined, rfl⟩
  | nodev => exact ⟨usberrint_confined, rfl⟩
  | babble => exact ⟨usberrint_confined, rfl⟩

theorem toWriteback_confines {q : Queue} {x : Except Stop (Queue × State)} (h : Confined k s t)
    (hq : KindsMatch s → q.kind = k) (hx : ConfinesResult k t q x) : Confines k s (toWriteback k x) :=
  match x, hx with
  | .ok _, ⟨hu, hkind⟩ => ((h.trans hu).putOwn fun hs => hkind.trans (hq hs)).trans (Confined.setAuto _)
  | .error (.fatal _ _), hu => h.trans hu
  | .error (.fault _), _ => trivial

theorem interpret_confines {q : Queue} {p : Packet} (hq : KindsMatch s → q.kind = k) :
    Confines k s (interpret k q p s) := by
  simp only [interpret]
  split
  · trivial
  · exact Confined.nakStep p hq
  · exact toWriteback_confines (Confined.reclIfAsync k) hq (processResult_confines q p _)

theorem writebackPacket_confines {q : Queue} {p : Packet} (hq : KindsMatch s → q.kind = k) :
    Confines k s (writebackPacket k q p s) := by
  have hflush := (Confined.setMem (k := k) (writebackQtd_holes s.mem p q.qh.ov.token)).trans (Confined.flushOverlay q)
  simp only [writebackPacket]
  split
  · trivial
  · rename_i q3 s3 h3
    simp only [haltPropagation] at h3
    split at h3
    · obtain ⟨⟨l, rfl, -⟩, cs, rfl⟩ := cancelPackets_frame h3
      exact ((hflush.trans (Confined.outbox _)).putOwn (q := { q.freePacket p with packets := l }) hq).trans
        (Confined.setAuto _)
    · cases h3
      exact (hflush.putOwn (q := q.freePacket p) hq).trans (Confined.setAuto _)

theorem horizontalQh_confines : Confines k s (horizontalQh k s) :=
  confines_withCurrent fun _ _ => ((Confined.setFetch _).trans (Confined.setCur _)).trans (Confined.setAuto _)

theorem fetchQtd_confines : Confines k s (fetchQtd k s) := confines_withCurrent fun _ hq => dispatchQtd_confines hq

theorem execute_confines : Confines k s (execute k s) := confines_withPacket fun _ _ hq => executePacket_confines hq

theorem executing_confines : Confines k s (executing k s) := confines_withPacket fun _ _ hq => interpret_confines hq

theorem writeback_confines : Confines k s (writeback k s) := confines_withPacket fun _ _ hq => writebackPacket_confines hq

theorem walkStep_confines : Confines k s (walkStep k s) := by
  simp only [walkStep]
  split
  · exact Confined.refl k s
  · exact Confined.refl k s
  · cases k
    · exact Confined.waitListHead
    · trivial
  · exact fetchEntry_confines
  · exact fetchQh_confines
  · cases k
    · trivial
    · exact Confined.fetchStub
  · cases k
    · trivial
    · exact Confined.fetchStub
  · exact advanceQueue_confines
  · exact fetchQtd_confines
  · exact execute_confines
  · exact executing_confines
  · exact writeback_confines
  · exact horizontalQh_confines

/-- A whole pass. -/
theorem run_confines (n : Nat) : Confines k s (run k n s) := by
  induction n generalizing s with
  | zero =>
    simp only [run]
    split_ifs
    · exact Confined.refl k s
    · trivial
  | succ n ih =>
    simp only [run]
    split_ifs
    · exact Confined.refl k s
    · have hstep := walkStep_confines (k := k) (s := s)
      cases hw : walkStep k s with
      | error e => rw [hw] at hstep; exact hstep
      | ok t => rw [hw] at hstep; exact .of_confined hstep ih

end Steps

end Sys2Proof.Machine

/-! PROOFS. What the entries are made of, and that each stimulus handled at rest ends at rest, no Queue marked (O57). -/

namespace Sys2Proof.Machine

/-! ### What the steps of an entry are made of -/

section Inversion

variable {s t u : State} {r : FatalReason}

/-- The enable and disable of a schedule (R404, R440). -/
theorem schedEnable_cases {k : Sched} (h : schedEnable k s = .ok t) :
    t = s ∨ t = s.setAuto k .active ∨ ∃ s1, reapAll k s = .ok s1 ∧ t = s1.setAuto k .inactive := by
  cases k
  case async =>
    simp only [schedEnable, asyncEnable] at h
    split_ifs at h
    · cases h; exact .inr (.inl rfl)
    · split at h
      · cases h
      · cases h; exact .inr (.inr ⟨_, ‹_›, rfl⟩)
    · cases h; exact .inl rfl
  case periodic =>
    simp only [schedEnable, periodicEnable] at h
    split_ifs at h
    · cases h; exact .inl rfl
    · cases h; exact .inr (.inl rfl)
    · split at h
      · cases h
      · cases h; exact .inr (.inr ⟨_, ‹_›, rfl⟩)
    · cases h; exact .inl rfl

/-- The doorbell step (R406). -/
theorem doorbell_cases (h : doorbell s = .ok t) :
    t = s ∨ ∃ s1, reapUnseen s = .ok s1 ∧ t = { s1 with usbcmd := { s1.usbcmd with iaad := false } }.raiseIrq .iaa := by
  simp only [doorbell] at h
  split_ifs at h
  · split at h
    · cases h
    · cases h; exact .inr ⟨_, ‹_›, rfl⟩
  · cases h; exact .inl rfl

theorem orFault_ok {x : Except Fault State} (h : orFault x = .ok t) : x = .ok t := by
  cases x <;> cases h
  rfl

theorem orFault_ne_fatal {x : Except Fault State} : orFault x ≠ .error (.fatal r u) := by
  cases x <;> exact nofun

/-- An async step that ends normally (R404): a pass with the doorbell and the reaping after it, or the doorbell alone. -/
theorem asyncStep_ok (h : asyncStep s = .ok t) : ∃ s1, schedEnable .async s = .ok s1 ∧
    ((∃ n s2 s3, run .async n (asyncBegin s1) = .ok s2 ∧ doorbell s2 = .ok s3 ∧ reapUnused .async s3 = .ok t) ∨
      doorbell s1 = .ok t) := by
  simp only [asyncStep] at h
  split at h
  · cases h
  · rename_i s1 h1
    refine ⟨s1, h1, ?_⟩
    split at h
    · split at h
      · cases h
      · rename_i s2 h2
        have h3 := orFault_ok h
        simp only [asyncAfterPass] at h3
        split at h3
        · cases h3
        · exact .inl ⟨_, s2, _, h2, ‹_›, h3⟩
    · exact .inr (orFault_ok h)

/-- An async step that ends at a Fatal meets it in its pass. -/
theorem asyncStep_fatal (h : asyncStep s = .error (.fatal r u)) :
    ∃ s1 n, schedEnable .async s = .ok s1 ∧ run .async n (asyncBegin s1) = .error (.fatal r u) := by
  simp only [asyncStep] at h
  split at h
  · cases h
  · rename_i s1 h1
    split at h
    · split at h
      · cases h; exact ⟨s1, _, h1, ‹_›⟩
      · exact absurd h orFault_ne_fatal
    · exact absurd h orFault_ne_fatal

/-- A periodic step that ends normally (R440, R441): a pass with the reaping after it, or none. -/
theorem periodicStep_ok (h : periodicStep s = .ok t) : ∃ s1, schedEnable .periodic s = .ok s1 ∧
    ((∃ n s2, run .periodic n (periodicBegin s1) = .ok s2 ∧ reapUnused .periodic s2 = .ok t) ∨ t = s1) := by
  simp only [periodicStep] at h
  split at h
  · cases h
  · rename_i s1 h1
    refine ⟨s1, h1, ?_⟩
    split at h
    · split at h
      · cases h
      · exact .inl ⟨_, _, ‹_›, orFault_ok h⟩
    · cases h; exact .inr rfl

/-- A periodic step that ends at a Fatal meets it in its pass. -/
theorem periodicStep_fatal (h : periodicStep s = .error (.fatal r u)) :
    ∃ s1 n, schedEnable .periodic s = .ok s1 ∧ run .periodic n (periodicBegin s1) = .error (.fatal r u) := by
  simp only [periodicStep] at h
  split at h
  · cases h
  · rename_i s1 h1
    split at h
    · split at h
      · cases h; exact ⟨s1, _, h1, ‹_›⟩
      · exact absurd h orFault_ne_fatal
    · cases h

theorem asyncAndCommit_ok (h : asyncAndCommit s = .ok t) :
    ∃ s1, asyncStep s = .ok s1 ∧ t = { s1.commitAll with inEntry := false } := by
  simp only [asyncAndCommit] at h
  split at h
  · cases h
  · cases h; exact ⟨_, ‹_›, rfl⟩

theorem asyncAndCommit_fatal (h : asyncAndCommit s = .error (.fatal r u)) : asyncStep s = .error (.fatal r u) := by
  simp only [asyncAndCommit] at h
  split at h <;> cases h
  assumption

end Inversion

/-! ### Freeing takes Queues out of the caches and puts none in (R251) -/

/-- Every Queue cached in `t` is cached in `s`. -/
def CachesShrink (s t : State) : Prop := ∀ j, ∀ q ∈ (t.sched j).cache, q ∈ (s.sched j).cache

section Shrink

variable {s t u : State}

theorem CachesShrink.trans (h1 : CachesShrink s t) (h2 : CachesShrink t u) : CachesShrink s u :=
  fun j q hq => h1 j q (h2 j q hq)

theorem CachesShrink.of_eq (h : ∀ j, (t.sched j).cache = (s.sched j).cache) : CachesShrink s t :=
  fun j _ hq => by rwa [h] at hq

theorem setAuto_cachesShrink (k : Sched) (x : AutoState) : CachesShrink s (s.setAuto k x) := .of_eq fun j => by
  by_cases hj : j = k
  · subst hj; rw [State.setAuto_sched]
  · rw [State.setAuto_sched_ne _ _ hj]

theorem freeQueue_cachesShrink {q : Queue} (h : freeQueue q s = .ok t) : CachesShrink s t := by
  simp only [freeQueue] at h
  split at h
  · cases h
  · rename_i q1 s1 h1
    obtain ⟨-, cs, rfl⟩ := resetQueue_frame h1
    have herase : CachesShrink s
        (({ s with outbox := cs ++ s.outbox } : State).setCache q.kind (cacheErase (s.sched q.kind).cache q.qhaddr)) := by
      intro j r hr
      by_cases hj : j = q.kind
      · subst hj
        rw [State.setCache_sched] at hr
        exact mem_of_mem_cacheErase hr
      · rw [State.setCache_sched_ne _ _ hj] at hr
        cases j <;> exact hr
    have hcache : (({ s with outbox := cs ++ s.outbox } : State).sched q.kind).cache = (s.sched q.kind).cache := by
      cases q.kind <;> rfl
    rw [hcache] at h
    split at h
    · cases h
      refine herase.trans (.of_eq fun j => ?_)
      by_cases hj : j = q.kind
      · subst hj; rw [State.setCur_sched]
      · rw [State.setCur_sched_ne _ _ hj]
    · cases h; exact herase

theorem freeQueues_cachesShrink {sel : Queue → Bool} {l : List Queue} (h : freeQueues sel l s = .ok t) :
    CachesShrink s t := by
  induction l generalizing s with
  | nil => cases h; exact .of_eq fun _ => rfl
  | cons q l ih =>
    simp only [freeQueues] at h
    split at h
    · split at h
      · cases h
      · exact (freeQueue_cachesShrink ‹_›).trans (ih h)
    · exact ih h

theorem reapDevice_cachesShrink {d : DevRef} (h : reapDevice d s = .ok t) : CachesShrink s t := by
  simp only [reapDevice] at h
  split at h
  · cases h
  · exact (freeQueues_cachesShrink ‹_›).trans (freeQueues_cachesShrink h)

theorem schedEnable_cachesShrink {k : Sched} (h : schedEnable k s = .ok t) : CachesShrink s t := by
  rcases schedEnable_cases h with rfl | rfl | ⟨s1, h1, rfl⟩
  · exact .of_eq fun _ => rfl
  · exact setAuto_cachesShrink k _
  · exact (freeQueues_cachesShrink h1).trans (setAuto_cachesShrink k _)

theorem doorbell_cachesShrink (h : doorbell s = .ok t) : CachesShrink s t := by
  rcases doorbell_cases h with rfl | ⟨s1, h1, rfl⟩
  · exact .of_eq fun _ => rfl
  · exact (freeQueues_cachesShrink h1).trans (.of_eq fun j => by cases j <;> rfl)

end Shrink

/-! ### No Queue marked seen (R246) -/

section Seen

variable {s t : State}

theorem Unseen.shrink {j : Sched} (h : Unseen s j) (hc : CachesShrink s t) : Unseen t j := fun q hq => h q (hc j q hq)

theorem agedQueue_seen {q r : Queue} (h : agedQueue s q = some r) : r.seen = false := by
  unfold agedQueue at h
  split at h
  · cases h; rfl
  · split at h
    · cases h
    · cases h; simpa using ‹¬ q.seen = true›

/-- `reap_unused` clears the marks of its schedule and leaves the other one alone (R246). -/
theorem reapUnused_unseen {k : Sched} (hi : Inv s = true) (h : reapUnused k s = .ok t) :
    Unseen t k ∧ ∀ j, j ≠ k → Unseen s j → Unseen t j := by
  obtain ⟨cs, c, u, e, hgood, -, hfind, -⟩ := reapUnused_good (inv_sched hi k)
  rw [h] at e
  cases e
  refine ⟨fun q hq => ?_, fun j hj hs q hq => hs q ?_⟩
  · rw [State.setSched_sched] at hq
    have hq' := cacheFind_of_mem (schedOk_iff.1 hgood).1 hq
    rw [hfind] at hq'
    obtain ⟨r, -, hr⟩ := Option.bind_eq_some_iff.1 hq'
    exact agedQueue_seen hr
  · rw [State.setSched_sched_ne _ _ hj] at hq
    cases j <;> exact hq

/-- A pass marks Queues of its own schedule only. -/
theorem run_unseen {k j : Sched} {n : Nat} {b : State} (hi : Inv s = true) (hb : Confined k s b)
    (h : run k n b = .ok t) (hj : j ≠ k) (hs : Unseen s j) : Unseen t j := by
  have hrun := run_confines (k := k) (s := b) n
  rw [h] at hrun
  exact (hb.trans hrun).unseen (kindsMatch_of_inv hi) j hj hs

theorem unseen_all_of {k : Sched} (hk : Unseen s k) (ho : ∀ j, j ≠ k → Unseen s j) (j : Sched) : Unseen s j := by
  by_cases hj : j = k
  · exact hj ▸ hk
  · exact ho j hj

theorem run_inv {k : Sched} {n : Nat} (hi : Inv s = true) (h : run k n s = .ok t) : Inv t = true := by
  have hk := run_keeps (k := k) (n := n) hi
  rwa [h] at hk

theorem doorbell_inv (hi : Inv s = true) (h : doorbell s = .ok t) : Inv t = true := by
  obtain ⟨u, e, hu⟩ := inv_doorbell hi
  rw [h] at e; cases e
  exact hu

theorem asyncStep_unseen (hi : Inv s = true) (hs : ∀ j, Unseen s j) (h : asyncStep s = .ok t) : ∀ j, Unseen t j := by
  obtain ⟨s1, h1, hpass | hbell⟩ := asyncStep_ok h
  · obtain ⟨n, s2, s3, h2, h3, h4⟩ := hpass
    have i1 := schedEnable_inv hi h1
    have i3 := doorbell_inv (run_inv (inv_asyncBegin i1) h2) h3
    have hreap := reapUnused_unseen i3 h4
    refine unseen_all_of hreap.1 fun j hj => hreap.2 j hj ?_
    have hrun := run_unseen i1 Confined.asyncBegin h2 hj ((hs j).shrink (schedEnable_cachesShrink h1))
    exact hrun.shrink (doorbell_cachesShrink h3)
  · exact fun j => (hs j).shrink ((schedEnable_cachesShrink h1).trans (doorbell_cachesShrink hbell))

theorem periodicStep_unseen (hi : Inv s = true) (hs : ∀ j, Unseen s j) (h : periodicStep s = .ok t) :
    ∀ j, Unseen t j := by
  obtain ⟨s1, h1, ⟨n, s2, h2, h3⟩ | rfl⟩ := periodicStep_ok h
  · have i1 := schedEnable_inv hi h1
    have hreap := reapUnused_unseen (run_inv (inv_periodicBegin i1) h2) h3
    refine unseen_all_of hreap.1 fun j hj => hreap.2 j hj ?_
    exact run_unseen i1 Confined.periodicBegin h2 hj ((hs j).shrink (schedEnable_cachesShrink h1))
  · exact fun j => (hs j).shrink (schedEnable_cachesShrink h1)

end Seen

/-! ### Entries end at rest (R31, R246) -/

section Rest

variable {s t : State}

theorem rested_of_sched (h : Rested s) (e : ∀ k, t.sched k = s.sched k) : Rested t :=
  ⟨idle_congr h.1 e, fun k q hq => h.2 k q (by rwa [e] at hq)⟩

theorem rested_of_regs (h : Rested s) (ha : t.async = s.async) (hp : t.periodic = s.periodic) : Rested t :=
  rested_of_sched h fun k => by cases k <;> assumption

theorem rested_of_reaped (h : Rested s) (hr : Reaped s t) (hc : CachesShrink s t) : Rested t :=
  ⟨idle_reaped hr h.1, fun k => Unseen.shrink (h.2 k) hc⟩

theorem ResetTo.rested (h : ResetTo s t) : Rested t := by
  have ha : t.async = ⟨.inactive, 0, none, 0, []⟩ := by have e := congrArg State.async h.1; exact e
  have hp : t.periodic = ⟨.inactive, 0, none, 0, []⟩ := by have e := congrArg State.periodic h.1; exact e
  refine ⟨by rw [Idle, ha, hp]; rfl, fun k q hq => ?_⟩
  cases k
  · rw [State.sched_async, ha] at hq; cases hq
  · rw [State.sched_periodic, hp] at hq; cases hq

theorem asyncStep_rested (hi : Inv s = true) (hs : Rested s) (h : asyncStep s = .ok t) : Rested t :=
  ⟨idle_asyncStep hs.1 h, asyncStep_unseen hi hs.2 h⟩

theorem periodicStep_rested (hi : Inv s = true) (hs : Rested s) (h : periodicStep s = .ok t) : Rested t :=
  ⟨idle_periodicStep hs.1 h, periodicStep_unseen hi hs.2 h⟩

theorem processMicroframes_rested {left i j : Nat} (hi : Inv s = true) (hs : Rested s)
    (h : processMicroframes left i s = .ok (j, t)) : Rested t := by
  induction left generalizing i s with
  | zero => cases h; exact hs
  | succ n ih =>
    simp only [processMicroframes] at h
    have hs1 := rested_of_sched hs (thresholdCommit_sched s)
    have i1 := inv_accountMicroframe (inv_thresholdCommit hi)
    split at h
    · cases h; exact hs1
    · split at h
      · cases h
      · rename_i s2 h2
        have hk := periodicStep_keeps i1
        rw [h2] at hk
        exact ih hk (periodicStep_rested i1 (rested_of_sched hs1 (accountMicroframe_sched _)) h2) h

theorem asyncAndCommit_rested (hi : Inv s = true) (hs : Rested s) (h : asyncAndCommit s = .ok t) : Rested t := by
  obtain ⟨s1, h1, rfl⟩ := asyncAndCommit_ok h
  exact rested_of_sched (asyncStep_rested hi hs h1) fun k => by rw [← State.commitAll_sched s1]; cases k <;> rfl

theorem tickEntry_rested {now : Nat} (hi : Inv s = true) (hs : Rested s) (h : tickEntry now s = .ok t) : Rested t := by
  simp only [tickEntry] at h
  have istart : Inv (skipMicroframes (tickElapsed now s - s.params.maxUfrPerTick) (tickStart now s)) = true :=
    inv_skipMicroframes _ (inv_congr hi rfl rfl rfl rfl fun k => by cases k <;> rfl)
  have hstart : Rested (skipMicroframes (tickElapsed now s - s.params.maxUfrPerTick) (tickStart now s)) :=
    rested_of_sched hs fun k => by rw [skipMicroframes_sched]; cases k <;> rfl
  split at h
  · cases h
  · rename_i j s3 h3
    have hk := processMicroframes_keeps (left := min (tickElapsed now s) s.params.maxUfrPerTick) (i := 0) istart
    rw [h3] at hk
    refine asyncAndCommit_rested ?_ (rested_of_regs (processMicroframes_rested istart hstart h3) ?_ ?_) h
    · exact inv_free hk rfl rfl rfl rfl rfl rfl
    · rfl
    · rfl

/-- A completion belongs to no walk, so it sets no mark in either schedule and moves neither automaton. -/
theorem deliver_rested {c : Completion} (hi : Inv s = true) (hs : Rested s) (h : deliver c s = .ok t) : Rested t := by
  have hc : ∀ k, Confined k s t := fun k => Confined.deliver h
  have hk := kindsMatch_of_inv hi
  refine ⟨idle_iff.2 fun j => ?_, fun j => ?_⟩
  · cases j
    · rw [(hc .periodic).walked.otherAuto .async nofun]; exact idle_iff.1 hs.1 .async
    · rw [(hc .async).walked.otherAuto .periodic nofun]; exact idle_iff.1 hs.1 .periodic
  · cases j
    · exact (hc .periodic).unseen hk .async nofun (hs.2 .async)
    · exact (hc .async).unseen hk .periodic nofun (hs.2 .periodic)

theorem completeEntry_rested {c : Completion} (hi : Inv s = true) (hs : Rested s) (h : completeEntry c s = .ok t) :
    Rested t := by
  simp only [completeEntry] at h
  split at h
  · cases h
  · rename_i s1 h1
    have hs1 := deliver_rested hi hs h1
    split at h
    · refine asyncAndCommit_rested ?_ (rested_of_regs hs1 ?_ ?_) h
      · exact inv_free (inv_deliver hi h1) rfl rfl rfl rfl rfl rfl
      · rfl
      · rfl
    · cases h; exact hs1

/-- An entry that ends at rest where it ends normally does so at a Fatal as well: the controller was reset (R530). -/
theorem rested_finish {x : Except Stop State} (hk : Keeps x) (hx : ∀ u, x = .ok u → Rested u)
    (h : finish x = .next t) : Rested t := by
  cases x with
  | ok u => cases h; exact hx _ rfl
  | error e =>
    cases e with
    | fault f => cases h
    | fatal r u =>
      obtain ⟨v, e, hv⟩ := takeFatal_good r hk
      simp only [finish, e] at h
      cases h
      exact hv.rested

/-! The stimuli (R175). -/

theorem outcome_next {x : Except Fault State} (h : outcome x = .next t) : x = .ok t := by
  cases x <;> cases h
  rfl

/-- A read changes nothing, or counts one draw of the port model (R510, log 9). -/
theorem readOpValue_state (off : Word) (s : State) :
    (readOpValue off s).2 = s ∨ (readOpValue off s).2 = s.portActs := by
  unfold readOpValue
  repeat' refine iteInduction (motive := fun x : Word × State => x.2 = s ∨ x.2 = s.portActs) (fun _ => ?_) fun _ => ?_
  any_goals exact .inl rfl
  exact .inr rfl

theorem readOpEntry_sched (off : Word) (s : State) (k : Sched) : (readOpEntry off s).sched k = s.sched k := by
  rw [readOpEntry, State.emit_sched]
  rcases readOpValue_state off s with e | e <;> rw [e]
  exact State.portActs_sched s k

/-- What a write at an operational offset leads to: the write of one register, or nothing (R501 to R509). -/
inductive OpWritten (v : Word) (s : State) : State → Prop
  | ignored : OpWritten v s s
  | usbcmd {t : State} (h : writeUsbcmd v s = .ok t) : OpWritten v s t
  | usbsts : OpWritten v s (writeUsbsts v s)
  | usbintr : OpWritten v s (writeUsbintr v s)
  | frindex : OpWritten v s (writeFrindex v s)
  | periodicListBase : OpWritten v s (writePeriodiclistbase v s)
  | asyncListAddr : OpWritten v s (writeAsynclistaddr v s)
  | configflag : OpWritten v s (writeConfigflag v s)
  | portsc (i : Nat) : OpWritten v s (writePortsc i v s)

theorem writeOp_written {off v : Word} : writeOp off v s = .ok t → OpWritten v s t := by
  unfold writeOp
  iterate 9
    refine iteInduction (motive := fun x : Except Fault State => x = .ok t → OpWritten v s t) (fun _ => ?_) fun _ => ?_
    swap
  all_goals intro h
  case refine_1 => exact .usbcmd h
  all_goals cases h
  · exact .ignored
  · exact .portsc _
  · exact .configflag
  · exact .asyncListAddr
  · exact .periodicListBase
  · exact .ignored
  · exact .frindex
  · exact .usbintr
  · exact .usbsts

theorem controllerReset_rested (hi : Inv s = true) (h : controllerReset s = .ok t) : Rested t := by
  obtain ⟨u, e, hu⟩ := controllerReset_good hi
  rw [h] at e; cases e
  exact hu.rested

theorem writeFrindex_rested {v : Word} (hs : Rested s) : Rested (writeFrindex v s) := by
  unfold writeFrindex
  split
  · exact rested_of_regs hs rfl rfl
  · exact hs

theorem writePortsc_rested {i : Nat} {v : Word} (hs : Rested s) : Rested (writePortsc i v s) := by
  unfold writePortsc
  split
  · exact rested_of_regs hs rfl rfl
  · exact hs

theorem writeUsbcmd_rested {v : Word} (hi : Inv s = true) (hs : Rested s) (h : writeUsbcmd v s = .ok t) : Rested t := by
  unfold writeUsbcmd at h
  split at h
  · exact controllerReset_rested hi h
  · cases h; exact rested_of_regs hs rfl rfl

theorem writeOp_rested {off v : Word} (hi : Inv s = true) (hs : Rested s) (h : writeOp off v s = .ok t) : Rested t := by
  cases writeOp_written h with
  | ignored => exact hs
  | usbcmd h => exact writeUsbcmd_rested hi hs h
  | usbsts => exact rested_of_regs hs rfl rfl
  | usbintr => exact rested_of_regs hs rfl rfl
  | frindex => exact writeFrindex_rested hs
  | periodicListBase => exact rested_of_regs hs rfl rfl
  | asyncListAddr => exact rested_of_regs hs rfl rfl
  | configflag => exact rested_of_regs hs rfl rfl
  | portsc i => exact writePortsc_rested hs

theorem execMmioRead_rested {off : Word} {w : Width} (hs : Rested s) (h : execMmioRead off w s = .next t) : Rested t := by
  unfold execMmioRead at h
  split_ifs at h <;> cases h
  · exact rested_of_sched hs fun k => by simp
  · exact rested_of_sched hs (readOpEntry_sched _ s)

theorem execMmioWrite_rested {off v : Word} {w : Width} (hi : Inv s = true) (hs : Rested s)
    (h : execMmioWrite off w v s = .next t) : Rested t := by
  unfold execMmioWrite at h
  split_ifs at h
  · cases h; exact hs
  · exact writeOp_rested hi hs (outcome_next h)

theorem execTick_rested {now : Nat} (hi : Inv s = true) (hs : Rested s) (h : execTick now s = .next t) : Rested t := by
  unfold execTick at h
  split_ifs at h
  exact rested_finish (tickEntry_keeps hi) (fun _ => tickEntry_rested hi hs) h

theorem execComplete_rested {k : Sched} {qh qtd : Word} {r : DevAnswer} (hi : Inv s = true) (hs : Rested s)
    (h : execComplete k qh qtd r s = .next t) : Rested t :=
  rested_finish (completeEntry_keeps hi) (fun _ => completeEntry_rested hi hs) h

theorem execDeviceRemove_rested {d : DevRef} (hs : Rested s) (h : execDeviceRemove d s = .next t) : Rested t := by
  have h' := outcome_next h
  split at h'
  · cases h'
  · rename_i s1 h1
    cases h'
    have hs1 := rested_of_reaped hs (reapDevice_frame h1) (reapDevice_cachesShrink h1)
    exact rested_of_sched hs1 fun k => by simp

theorem execPowerOn_rested (h : execPowerOn s = .next t) : Rested t := by
  cases h
  exact ⟨rfl, fun k q hq => by cases k <;> cases hq⟩

end Rest

end Sys2Proof.Machine

section
open Sys2Proof Sys2Proof.Machine

/-- Settles O57, stimulus by stimulus: only ticks and completions run passes, and the reaping after each pass clears
the marks that it set. -/
theorem stimuliEndAtRest : Obligations.StimuliEndAtRest := by
  unfold Obligations.StimuliEndAtRest
  intro i s t hstim hinv hrest h
  cases i with
  | mmioRead off w => exact execMmioRead_rested hrest h
  | mmioWrite off w v => exact execMmioWrite_rested hinv hrest h
  | tick now => exact execTick_rested hinv hrest h
  | complete k qh qtd r => exact execComplete_rested hinv hrest h
  | deviceRemove dev => exact execDeviceRemove_rested hrest h
  | portChange =>
    cases h
    exact rested_of_sched hrest fun k => by simp
  | powerOn => exact execPowerOn_rested h
  | _ => exact Bool.noConfusion hstim

end

/-! PROOFS. What every step keeps of the parameters, the interrupt state and the timer (O59). -/

namespace Sys2Proof.Machine

/-! ### Interrupt bits (R534, R539) -/

theorem IrqBit.mask_coalesced {b : IrqBit} (h : b.immediate = false) : b.mask &&& immediateBits = 0 := by
  cases b <;> revert h <;> decide

theorem IrqBit.mask_ne_hse {b : IrqBit} (h : b ≠ .hse) : b.mask.getLsbD 4 = false := by
  cases b <;> revert h <;> decide

theorem or_coalesced {x y : BitVec 6} (hx : x &&& immediateBits = 0) (hy : y &&& immediateBits = 0) :
    (x ||| y) &&& immediateBits = 0 := by
  ext i hi
  have hxi := congrArg (fun z : BitVec 6 => z[i]) hx
  have hyi := congrArg (fun z : BitVec 6 => z[i]) hy
  simp only [BitVec.getElem_and, BitVec.getElem_or] at hxi hyi ⊢
  rw [Bool.and_or_distrib_right, hxi, hyi, Bool.or_self]

/-- HSE is among the bits raised at once. -/
theorem hse_of_coalesced {x : BitVec 6} (h : x &&& immediateBits = 0) : x.getLsbD 4 = false := by
  have hbit := congrArg (fun z : BitVec 6 => z.getLsbD 4) h
  simpa [immediateBits] using hbit

/-! ### What every step keeps of the parameters, the interrupt state and the timer -/

/-- The time accounted is no later than the last tick's (log 36). -/
def TimeInOrder (s : State) : Prop := ∀ b, s.lastRunUs = some b → ∃ l, s.lastTickUs = some l ∧ b ≤ l

/-- Only bits that are coalesced are pending: PCD, FLR and HSE are raised at once (R534). -/
def OnlyCoalesced (s : State) : Prop := s.usbstsPending &&& immediateBits = 0

/-- What lies between two states of a run: the parameters and where there is memory are the same; what is pending, HSE,
the next commit and the time accounted stay in bounds they were in. -/
structure Guarded (s t : State) : Prop where
  params : t.params = s.params
  holes : t.mem.holes = s.mem.holes
  pending : OnlyCoalesced s → OnlyCoalesced t
  hse : OnlyCoalesced s → s.usbsts.getLsbD 4 = false → t.usbsts.getLsbD 4 = false
  commit : s.nextCommit ≤ s.uframeCtr + 255 → t.nextCommit ≤ t.uframeCtr + 255
  time : TimeInOrder s → TimeInOrder t

namespace Guarded

variable {s t u : State}

theorem trans (h1 : Guarded s t) (h2 : Guarded t u) : Guarded s u :=
  ⟨h2.params.trans h1.params, h2.holes.trans h1.holes, fun h => h2.pending (h1.pending h),
    fun hp h => h2.hse (h1.pending hp) (h1.hse hp h), fun h => h2.commit (h1.commit h), fun h => h2.time (h1.time h)⟩

/-- An update of nothing this speaks of. -/
theorem of_eq (hp : t.params = s.params) (hm : t.mem.holes = s.mem.holes) (hi : t.usbstsPending = s.usbstsPending)
    (hs : t.usbsts = s.usbsts) (hn : t.nextCommit = s.nextCommit) (hc : t.uframeCtr = s.uframeCtr)
    (hr : t.lastRunUs = s.lastRunUs) (hl : t.lastTickUs = s.lastTickUs) : Guarded s t :=
  ⟨hp, hm, fun h => by rwa [OnlyCoalesced, hi], fun _ h => by rwa [hs], fun h => by rwa [hn, hc],
    fun h => by rwa [TimeInOrder, hr, hl]⟩

theorem refl (s : State) : Guarded s s := of_eq rfl rfl rfl rfl rfl rfl rfl rfl

theorem of_stepped (h : Stepped s t) (hm : t.mem.holes = s.mem.holes) : Guarded s t :=
  ⟨h.params, hm, fun hp => by rw [OnlyCoalesced, h.pending]; exact hp, fun _ hs => by rwa [h.usbsts],
    fun hc => by rwa [h.nextCommit, h.uframeCtr], fun ht => by rwa [TimeInOrder, h.lastRunUs, h.lastTickUs]⟩

theorem of_confined {k : Sched} (h : Confined k s t) : Guarded s t := of_stepped (.ofWalked h.walked) h.holes

theorem of_reaped (h : Reaped s t) : Guarded s t := of_stepped (.ofReaped h) (by unfold Reaped at h; rw [h])

theorem setAuto (k : Sched) (x : AutoState) : Guarded s (s.setAuto k x) := of_confined (Confined.setAuto (k := k) x)

theorem emit (o : Output) : Guarded s (s.emit o) := of_eq rfl rfl rfl rfl rfl rfl rfl rfl

/-- What is raised is pending only where it is coalesced (R534), and no bit but HSE raises HSE (R539). -/
theorem raiseIrq {b : IrqBit} (hb : b ≠ .hse) : Guarded s (s.raiseIrq b) := by
  unfold State.raiseIrq
  split
  · refine ⟨rfl, rfl, id, fun _ hs => ?_, id, id⟩
    rw [BitVec.getLsbD_or, hs, IrqBit.mask_ne_hse hb, Bool.or_self]
  · exact ⟨rfl, rfl, fun hp => or_coalesced hp (IrqBit.mask_coalesced (by simpa using ‹¬ b.immediate = true›)),
      fun _ => id, id, id⟩

/-- A commit moves the pending bits, HSE not among them, into USBSTS; the next is at most 255 microframes on (R535). -/
theorem commitPending : Guarded s s.commit := by
  refine ⟨rfl, rfl, fun _ => BitVec.zero_and, fun hp hs => ?_, fun _ => ?_, id⟩
  · rw [State.commit, BitVec.getLsbD_or, hs, hse_of_coalesced hp, Bool.or_self]
  · have := s.usbcmd.itc.isLt
    show s.uframeCtr + s.usbcmd.itc.toNat ≤ s.uframeCtr + 255
    omega

theorem thresholdCommit : Guarded s s.thresholdCommit := by
  unfold State.thresholdCommit
  split
  · exact commitPending
  · exact refl s

theorem commitAll : Guarded s s.commitAll := by
  unfold State.commitAll
  split
  · exact commitPending
  · exact refl s

/-- A reset leaves nothing pending, no status bit, no commit due and no time accounted (R583). -/
theorem of_reset (hp : t.params = s.params) (hm : t.mem.holes = s.mem.holes) (hi : t.usbstsPending = 0)
    (hs : t.usbsts = 0) (hn : t.nextCommit = 0) (hr : t.lastRunUs = none) : Guarded s t :=
  ⟨hp, hm, fun _ => by rw [OnlyCoalesced, hi]; decide, fun _ _ => by rw [hs]; decide, fun _ => by omega,
    fun _ b hb => by rw [hr] at hb; cases hb⟩

theorem controllerReset (h : Machine.controllerReset s = .ok t) : Guarded s t := by
  simp only [Machine.controllerReset] at h
  split at h
  · cases h
  · rename_i s1 h1
    split at h
    · cases h
    · rename_i s2 h2
      cases h
      have hr := of_reaped ((reapAll_frame h1).trans (reapAll_frame h2))
      exact of_reset hr.params hr.holes rfl rfl rfl rfl

/-! The steps of an entry. -/

theorem schedEnable {k : Sched} (h : Machine.schedEnable k s = .ok t) : Guarded s t := by
  rcases schedEnable_cases h with rfl | rfl | ⟨s1, h1, rfl⟩
  · exact refl _
  · exact setAuto k _
  · exact (of_reaped (reapAll_frame h1)).trans (setAuto k _)

theorem doorbell (h : Machine.doorbell s = .ok t) : Guarded s t := by
  rcases doorbell_cases h with rfl | ⟨s1, h1, rfl⟩
  · exact refl _
  · have hcmd : Guarded s1 { s1 with usbcmd := { s1.usbcmd with iaad := false } } := of_eq rfl rfl rfl rfl rfl rfl rfl rfl
    exact ((of_reaped (reapUnseen_frame h1)).trans hcmd).trans (raiseIrq nofun)

theorem advanceFrindex : Guarded s (Machine.advanceFrindex s) := by
  have hf : Guarded s { s with frindex := s.frindex + 1 } := of_eq rfl rfl rfl rfl rfl rfl rfl rfl
  simp only [Machine.advanceFrindex]
  split
  · exact hf.trans (raiseIrq nofun)
  · exact hf

theorem countUframe : Guarded s { s with uframeCtr := s.uframeCtr + 1 } :=
  ⟨rfl, rfl, id, fun _ => id, fun h => le_trans h (by simp), id⟩

theorem accountMicroframe : Guarded s (Machine.accountMicroframe s) := by
  refine trans (t := if s.hch then s else Machine.advanceFrindex s) ?_ countUframe
  split
  · exact refl s
  · exact advanceFrindex

theorem skipMicroframes (n : Nat) : Guarded s (Machine.skipMicroframes n s) := by
  induction n generalizing s with
  | zero => exact refl s
  | succ n ih => exact accountMicroframe.trans ih

end Guarded

/-- A step of an entry ends, normally or at a Fatal, in a guarded state; a fault leaves no state. -/
def Guards (s : State) (x : Except Stop State) : Prop :=
  match x with
  | .ok t => Guarded s t
  | .error (.fatal _ u) => Guarded s u
  | .error (.fault _) => True

section Entries

variable {s t : State}

theorem guards_of {x : Except Stop State} (hok : ∀ t, x = .ok t → Guarded s t)
    (hfatal : ∀ r u, x = .error (.fatal r u) → Guarded s u) : Guards s x :=
  match x, hok, hfatal with
  | .ok _, hok, _ => hok _ rfl
  | .error (.fatal _ _), _, hfatal => hfatal _ _ rfl
  | .error (.fault _), _, _ => trivial

theorem Guards.of_guarded {x : Except Stop State} (h : Guarded s t) (hx : Guards t x) : Guards s x :=
  match x, hx with
  | .ok _, hx => h.trans hx
  | .error (.fatal _ _), hx => h.trans hx
  | .error (.fault _), _ => trivial

theorem Guards.of_confines {k : Sched} {x : Except Stop State} (hx : Confines k s x) : Guards s x :=
  match x, hx with
  | .ok _, hx => .of_confined hx
  | .error (.fatal _ _), hx => .of_confined hx
  | .error (.fault _), _ => trivial

theorem run_guarded {k : Sched} {n : Nat} (h : run k n s = .ok t) : Guarded s t := by
  have hk := Guards.of_confines (run_confines (k := k) (s := s) n)
  rwa [h] at hk

theorem run_fatal_guarded {k : Sched} {n : Nat} {r : FatalReason} (h : run k n s = .error (.fatal r t)) :
    Guarded s t := by
  have hk := Guards.of_confines (run_confines (k := k) (s := s) n)
  rwa [h] at hk

theorem asyncStep_guards : Guards s (asyncStep s) := by
  refine guards_of (fun t h => ?_) fun r u h => ?_
  · obtain ⟨s1, h1, ⟨n, s2, s3, h2, h3, h4⟩ | hbell⟩ := asyncStep_ok h
    · have hpass : Guarded s1 s2 := (Guarded.of_confined Confined.asyncBegin).trans (run_guarded h2)
      exact (((Guarded.schedEnable h1).trans hpass).trans (.doorbell h3)).trans (.of_reaped (reapUnused_frame h4))
    · exact (Guarded.schedEnable h1).trans (.doorbell hbell)
  · obtain ⟨s1, n, h1, h2⟩ := asyncStep_fatal h
    exact ((Guarded.schedEnable h1).trans (.of_confined Confined.asyncBegin)).trans (run_fatal_guarded h2)

theorem periodicStep_guards : Guards s (periodicStep s) := by
  refine guards_of (fun t h => ?_) fun r u h => ?_
  · obtain ⟨s1, h1, ⟨n, s2, h2, h3⟩ | rfl⟩ := periodicStep_ok h
    · have hpass : Guarded s1 s2 := (Guarded.of_confined Confined.periodicBegin).trans (run_guarded h2)
      exact ((Guarded.schedEnable h1).trans hpass).trans (.of_reaped (reapUnused_frame h3))
    · exact .schedEnable h1
  · obtain ⟨s1, n, h1, h2⟩ := periodicStep_fatal h
    exact ((Guarded.schedEnable h1).trans (.of_confined Confined.periodicBegin)).trans (run_fatal_guarded h2)

theorem asyncAndCommit_guards : Guards s (asyncAndCommit s) := by
  have hstep := asyncStep_guards (s := s)
  refine guards_of (fun t h => ?_) fun r u h => ?_
  · obtain ⟨s1, h1, rfl⟩ := asyncAndCommit_ok h
    rw [h1] at hstep
    exact (Guarded.trans hstep .commitAll).trans (.of_eq rfl rfl rfl rfl rfl rfl rfl rfl)
  · rwa [asyncAndCommit_fatal h] at hstep

theorem completeEntry_guards {c : Completion} : Guards s (completeEntry c s) := by
  simp only [completeEntry]
  split
  · trivial
  · rename_i s1 h1
    have hdone : Guarded s s1 := .of_confined (k := .async) (Confined.deliver h1)
    split
    · have hentry : Guarded s1 { s1 with inEntry := true } := .of_eq rfl rfl rfl rfl rfl rfl rfl rfl
      exact .of_guarded (hdone.trans hentry) asyncAndCommit_guards
    · exact hdone

/-! The tick (R470 to R472): the time up to which it accounts is never later than its own. -/

theorem accountMicroframe_lastTickUs (s : State) : (accountMicroframe s).lastTickUs = s.lastTickUs := by
  simp only [accountMicroframe, advanceFrindex]
  split
  · rfl
  · split <;> rfl

theorem skipMicroframes_lastTickUs (n : Nat) (s : State) : (skipMicroframes n s).lastTickUs = s.lastTickUs := by
  induction n generalizing s with
  | zero => rfl
  | succ n ih => rw [skipMicroframes, ih, accountMicroframe_lastTickUs]

theorem processMicroframes_guarded {left i j : Nat} (h : processMicroframes left i s = .ok (j, t)) :
    Guarded s t ∧ t.lastTickUs = s.lastTickUs := by
  induction left generalizing i s with
  | zero => cases h; exact ⟨.refl _, rfl⟩
  | succ n ih =>
    simp only [processMicroframes] at h
    split at h
    · cases h; exact ⟨.thresholdCommit, by simp⟩
    · split at h
      · cases h
      · rename_i s2 h2
        have hstep := periodicStep_guards (s := accountMicroframe s.thresholdCommit)
        rw [h2] at hstep
        obtain ⟨hrest, htick⟩ := ih h
        refine ⟨((Guarded.thresholdCommit.trans .accountMicroframe).trans hstep).trans hrest, ?_⟩
        rw [htick, (Stepped.periodicStep h2).lastTickUs, accountMicroframe_lastTickUs, State.thresholdCommit_lastTickUs]

theorem processMicroframes_fatal_guarded {left i : Nat} {r : FatalReason}
    (h : processMicroframes left i s = .error (.fatal r t)) : Guarded s t := by
  induction left generalizing i s with
  | zero => cases h
  | succ n ih =>
    simp only [processMicroframes] at h
    split at h
    · cases h
    · have hstep := periodicStep_guards (s := accountMicroframe s.thresholdCommit)
      have haccount : Guarded s (accountMicroframe s.thresholdCommit) := Guarded.thresholdCommit.trans .accountMicroframe
      split at h
      · rename_i e h2
        cases h
        rw [h2] at hstep
        exact haccount.trans hstep
      · rename_i s2 h2
        rw [h2] at hstep
        exact (haccount.trans hstep).trans (ih h)

theorem tickUpTo_le {now : Nat} (h : tickBase now s ≤ now) : tickUpTo now s ≤ now := by
  have := Nat.div_mul_le_self (now - tickBase now s) Config.uframeUs
  simp only [tickUpTo, tickElapsed]
  omega

theorem tickStart_guarded {now : Nat} (h : tickBase now s ≤ now) : Guarded s (tickStart now s) :=
  ⟨rfl, rfl, id, fun _ => id, id, fun _ b hb => ⟨now, rfl, by cases hb; exact tickUpTo_le h⟩⟩

/-- The time accounted set to one no later than the last tick's. -/
theorem setLastRun_guarded {b now : Nat} (hl : s.lastTickUs = some now) (hb : b ≤ now) :
    Guarded s { s with lastRunUs := some b } :=
  ⟨rfl, rfl, id, fun _ => id, id, fun _ b' hb' => ⟨now, hl, by cases hb'; exact hb⟩⟩

theorem tickEntry_guards {now : Nat} (h : tickBase now s ≤ now) : Guards s (tickEntry now s) := by
  have hskip : Guarded s (skipMicroframes (tickElapsed now s - s.params.maxUfrPerTick) (tickStart now s)) :=
    (tickStart_guarded h).trans (.skipMicroframes _)
  simp only [tickEntry]
  cases hp : processMicroframes (min (tickElapsed now s) s.params.maxUfrPerTick) 0
      (skipMicroframes (tickElapsed now s - s.params.maxUfrPerTick) (tickStart now s)) with
  | error e =>
    cases e with
    | fault f => trivial
    | fatal r u => exact hskip.trans (processMicroframes_fatal_guarded hp)
  | ok x =>
    obtain ⟨i, s3⟩ := x
    obtain ⟨hproc, htick⟩ := processMicroframes_guarded hp
    rw [skipMicroframes_lastTickUs] at htick
    refine .of_guarded ((hskip.trans hproc).trans (setLastRun_guarded htick ?_)) asyncAndCommit_guards
    exact le_trans (Nat.sub_le _ _) (tickUpTo_le h)

end Entries

/-! ### What every row keeps -/

/-- Where a row leaves a state, it is a guarded one. -/
def GuardedOutcome (s : State) (x : Host.Outcome State Fault Refusal) : Prop := ∀ t, x = .next t → Guarded s t

section Rows

variable {s t : State} {k : Sched}

theorem guarded_next (h : Guarded s t) : GuardedOutcome s (.next t) := fun _ e => by cases e; exact h

theorem guarded_fault (f : Fault) : GuardedOutcome s (.fault f) := fun _ e => by cases e

theorem guarded_refused (r : Refusal) : GuardedOutcome s (.refused r) := fun _ e => by cases e

theorem guarded_outcome {x : Except Fault State} (h : ∀ t, x = .ok t → Guarded s t) : GuardedOutcome s (outcome x) :=
  fun t e => h t (outcome_next e)

theorem guarded_fatal (r : FatalReason) : GuardedOutcome s (outcome (takeFatal r s)) :=
  guarded_outcome fun _ => .controllerReset

/-- A Fatal is taken by a controller reset (R530). -/
theorem guarded_finish {x : Except Stop State} (h : Guards s x) : GuardedOutcome s (finish x) :=
  match x, h with
  | .ok _, h => guarded_next h
  | .error (.fatal r _), h => fun t e => Guarded.trans h (guarded_fatal r t e)
  | .error (.fault f), _ => guarded_fault f

theorem guarded_walk {x : Except Stop State} (h : Confines k s x) : GuardedOutcome s (finish x) :=
  guarded_finish (.of_confines h)

/-! Rows of the schedules' automata, in any state. -/

theorem answered_confines {r : DevAnswer} {f : Queue → Packet → State → Except Stop (Queue × State)}
    (hf : ∀ q p s1, ConfinesResult k s1 q (f q p s1)) : Confines k s (answered k r s f) := by
  refine confines_withCurrent fun q hq => ?_
  split
  · trivial
  · split
    · trivial
    · rename_i p _ _
      exact toWriteback_confines (q := q.putPacket (p.settle r)) (Confined.reclIfAsync k) hq (hf _ _ _)

theorem resultNak_guarded : GuardedOutcome s (execResultNak k s) := by
  refine guarded_walk (k := k) (confines_withCurrent fun q hq => ?_)
  split
  · trivial
  · split
    · trivial
    · exact Confined.nakStep _ hq

theorem resultPending_guarded : GuardedOutcome s (execResultPending k s) := by
  refine guarded_walk (k := k) (confines_withPacket fun q p hq => ?_)
  split
  · trivial
  · exact (Confined.refl k s).afterAnswer p .pending hq

theorem resultCountOverlong_guarded {data : List Byte} : GuardedOutcome s (execResultCountOverlong k data s) := by
  refine guarded_walk (k := k) (answered_confines fun q p s1 => ?_)
  split
  · exact ⟨usberrint_confined, rfl⟩
  · exact resultSuccess_confines q p _

theorem linkFstnStep_confines (h : Confined k s t) : Confines k s (linkFstnStep k t) := h

theorem executeToken_confines (w : Word) : Confines k s (executeToken k w s) :=
  confines_withPacket fun _ _ hq => executePacket_confines hq

theorem schedBegin_guarded : Guarded s (schedBegin k s) := by
  cases k <;> simp only [schedBegin] <;> split
  · exact .of_confined Confined.asyncBegin
  · exact .refl s
  · exact .of_confined Confined.periodicBegin
  · exact .refl s

theorem stateInactive_guarded : GuardedOutcome s (execStateInactive k s) :=
  guarded_outcome fun _ h => (Guarded.setAuto k _).trans (.schedEnable h)

theorem stateActive_guarded : GuardedOutcome s (execStateActive k s) := by
  refine guarded_outcome fun t h => ?_
  split at h
  · cases h
  · cases h
    exact ((Guarded.setAuto k _).trans (.schedEnable ‹_›)).trans schedBegin_guarded

/-! Register rows (R500 to R510). -/

theorem writeUsbcmd_guarded {v : Word} (h : writeUsbcmd v s = .ok t) : Guarded s t := by
  unfold writeUsbcmd at h
  split at h
  · exact .controllerReset h
  · cases h; exact .of_eq rfl rfl rfl rfl rfl rfl rfl rfl

theorem writeUsbsts_guarded (v : Word) : Guarded s (writeUsbsts v s) := by
  refine ⟨rfl, rfl, id, fun _ hs => ?_, id, id⟩
  rw [writeUsbsts, BitVec.getLsbD_and, hs, Bool.false_and]

theorem writeUsbintr_guarded (v : Word) : Guarded s (writeUsbintr v s) := .of_eq rfl rfl rfl rfl rfl rfl rfl rfl

theorem writeFrindex_guarded (v : Word) : Guarded s (writeFrindex v s) := by
  unfold writeFrindex
  split
  · exact .of_eq rfl rfl rfl rfl rfl rfl rfl rfl
  · exact .refl s

theorem writePeriodiclistbase_guarded (v : Word) : Guarded s (writePeriodiclistbase v s) :=
  .of_eq rfl rfl rfl rfl rfl rfl rfl rfl

theorem writeAsynclistaddr_guarded (v : Word) : Guarded s (writeAsynclistaddr v s) :=
  .of_eq rfl rfl rfl rfl rfl rfl rfl rfl

theorem writePortsc_guarded (i : Nat) (v : Word) : Guarded s (writePortsc i v s) := by
  unfold writePortsc
  split
  · exact .emit _
  · exact .refl s

theorem writeOp_guarded {off v : Word} (h : writeOp off v s = .ok t) : Guarded s t := by
  cases writeOp_written h with
  | ignored => exact .refl s
  | usbcmd h => exact writeUsbcmd_guarded h
  | usbsts => exact writeUsbsts_guarded v
  | usbintr => exact writeUsbintr_guarded v
  | frindex => exact writeFrindex_guarded v
  | periodicListBase => exact writePeriodiclistbase_guarded v
  | asyncListAddr => exact writeAsynclistaddr_guarded v
  | configflag => exact .emit _
  | portsc i => exact writePortsc_guarded i v

theorem portActs_guarded : Guarded s s.portActs := .of_eq rfl rfl rfl rfl rfl rfl rfl rfl

theorem readOpEntry_guarded (off : Word) : Guarded s (readOpEntry off s) := by
  refine Guarded.trans ?_ (.emit _)
  rcases readOpValue_state off s with e | e <;> rw [e]
  · exact .refl s
  · exact portActs_guarded

/-! Stimuli (R175). -/

theorem mmioRead_guarded {off : Word} {w : Width} : GuardedOutcome s (execMmioRead off w s) := by
  unfold execMmioRead
  split_ifs
  · exact guarded_next (.emit _)
  · exact guarded_refused _
  · exact guarded_next (readOpEntry_guarded _)
  · exact guarded_refused _

theorem mmioWrite_guarded {off v : Word} {w : Width} : GuardedOutcome s (execMmioWrite off w v s) := by
  unfold execMmioWrite
  split_ifs
  · exact guarded_next (.refl s)
  · exact guarded_outcome fun _ => writeOp_guarded
  · exact guarded_refused _

theorem tick_guarded {now : Nat} : GuardedOutcome s (execTick now s) := by
  unfold execTick
  split_ifs with hback
  · exact guarded_refused _
  · simp only [timeGoesBack, Bool.or_eq_true, decide_eq_true_eq, not_or, Nat.not_lt] at hback
    exact guarded_finish (tickEntry_guards hback.1)

theorem deviceRemove_guarded {d : DevRef} : GuardedOutcome s (execDeviceRemove d s) := by
  refine guarded_outcome fun t h => ?_
  split at h
  · cases h
  · rename_i s1 h1
    cases h
    exact (Guarded.of_reaped (reapDevice_frame h1)).trans (.of_eq rfl rfl rfl rfl rfl rfl rfl rfl)

theorem powerOn_guarded : GuardedOutcome s (execPowerOn s) := guarded_next (.of_reset rfl rfl rfl rfl rfl rfl)

/-- Every row, in any state. -/
theorem exec_guarded (i : Instr) (s : State) : GuardedOutcome s (exec i s) := by
  cases i with
  | linkEnd k _ => exact guarded_next (.of_confined ((Confined.setFetch (k := k) _).trans (Confined.setAuto _)))
  | linkItd k _ _ => exact guarded_walk (.of_confined (Confined.setFetch (k := k) _) linkItdStep_confines)
  | linkQh k _ _ => exact guarded_next (.of_confined ((Confined.setFetch (k := k) _).trans (Confined.setAuto _)))
  | linkSitd k _ _ => exact guarded_walk (.of_confined (Confined.setFetch (k := k) _) linkSitdStep_confines)
  | linkFstn k _ _ => exact guarded_walk (k := k) (linkFstnStep_confines (Confined.setFetch _))
  | qtdInactive k _ _ => exact guarded_walk (k := k) (confines_withCurrent fun _ hq => dispatchQtd_confines hq)
  | pidOut k _ => exact guarded_walk (k := k) (executeToken_confines _)
  | pidIn k _ => exact guarded_walk (k := k) (executeToken_confines _)
  | pidSetup k _ => exact guarded_walk (k := k) (executeToken_confines _)
  | pidReserved k _ => exact guarded_walk (k := k) (executeToken_confines _)
  | qhHalted k _ _ => exact guarded_next (.setAuto k _)
  | resultCount k _ => exact guarded_walk (k := k) (answered_confines fun q p _ => resultCounted_confines q p _)
  | resultNak => exact resultNak_guarded
  | resultStall k => exact guarded_walk (k := k) (answered_confines fun _ _ _ => ⟨usberrint_confined, rfl⟩)
  | resultIoerror k => exact guarded_walk (k := k) (answered_confines fun _ _ _ => ⟨usberrint_confined, rfl⟩)
  | resultNodev k => exact guarded_walk (k := k) (answered_confines fun _ _ _ => ⟨usberrint_confined, rfl⟩)
  | resultBabble k => exact guarded_walk (k := k) (answered_confines fun _ _ _ => ⟨usberrint_confined, rfl⟩)
  | resultPending => exact resultPending_guarded
  | resultCountOverlong => exact resultCountOverlong_guarded
  | mmioRead => exact mmioRead_guarded
  | mmioWrite => exact mmioWrite_guarded
  | tick => exact tick_guarded
  | complete => exact guarded_finish completeEntry_guards
  | deviceRemove => exact deviceRemove_guarded
  | portChange => exact guarded_next (portActs_guarded.trans (.raiseIrq nofun))
  | powerOn => exact powerOn_guarded
  | stateInactive => exact stateInactive_guarded
  | stateActive => exact stateActive_guarded
  | stateWaitListHead => exact guarded_next (.of_confined Confined.waitListHead)
  | stateFetchEntry k => exact guarded_walk (k := k) fetchEntry_confines
  | stateFetchQh k => exact guarded_walk (k := k) fetchQh_confines
  | stateFetchItd => exact guarded_next (.of_confined Confined.fetchStub)
  | stateFetchSitd => exact guarded_next (.of_confined Confined.fetchStub)
  | stateAdvanceQueue k => exact guarded_walk (k := k) advanceQueue_confines
  | stateFetchQtd k => exact guarded_walk (k := k) fetchQtd_confines
  | stateExecute k => exact guarded_walk (k := k) execute_confines
  | stateExecuting k => exact guarded_walk (k := k) executing_confines
  | stateWriteback k => exact guarded_walk (k := k) writeback_confines
  | stateHorizontalQh k => exact guarded_walk (k := k) horizontalQh_confines
  | usbcmdHcreset => exact guarded_outcome fun _ => writeUsbcmd_guarded
  | usbcmdRun => exact guarded_outcome fun _ => writeUsbcmd_guarded
  | usbcmdPse => exact guarded_outcome fun _ => writeUsbcmd_guarded
  | usbcmdAse => exact guarded_outcome fun _ => writeUsbcmd_guarded
  | usbcmdIaad => exact guarded_outcome fun _ => writeUsbcmd_guarded
  | usbcmdItc => exact guarded_outcome fun _ => writeUsbcmd_guarded
  | writeUsbsts v => exact guarded_next (writeUsbsts_guarded v)
  | writeUsbintr v => exact guarded_next (writeUsbintr_guarded v)
  | writeFrindex v => exact guarded_next (writeFrindex_guarded v)
  | writeCtrldssegment => exact guarded_next (.refl s)
  | writePeriodiclistbase v => exact guarded_next (writePeriodiclistbase_guarded v)
  | writeAsynclistaddr v => exact guarded_next (writeAsynclistaddr_guarded v)
  | writeConfigflag => exact guarded_next (.emit _)
  | writePortsc port v => exact guarded_next (writePortsc_guarded port.toNat v)
  | readOp off => exact guarded_next (readOpEntry_guarded off)
  | fatalAsyncType => exact guarded_fatal _
  | fatalFstn => exact guarded_fatal _
  | fatalReservedPid => exact guarded_fatal _
  | fatalPageIndex => exact guarded_fatal _

/-- What the fetch itself does to the state: the front item leaves the inbox, and the environment's act is performed. -/
theorem fetchInbox_guarded {x : Fetched} (h : fetchInbox s = x) :
    (∃ m u, x = .message m u ∧ Guarded s u) ∨ ∃ u, x = .quiet u ∧ Guarded s u := by
  subst h
  unfold fetchInbox
  split
  · exact .inr ⟨s, rfl, .refl s⟩
  · exact .inl ⟨_, _, rfl, .of_eq rfl rfl rfl rfl rfl rfl rfl rfl⟩
  · exact .inr ⟨_, rfl, .of_eq rfl (writeBytes_holes _ _ _) rfl rfl rfl rfl rfl rfl⟩
  · exact .inr ⟨_, rfl, .of_eq (by simp) (by simp) (by simp) (by simp) (by simp) (by simp) (by simp) (by simp)⟩

theorem fetch_guarded (s : State) :
    (∃ m u, s.fetch = .message m u ∧ Guarded s u) ∨ ∃ u, s.fetch = .quiet u ∧ Guarded s u := by
  unfold State.fetch
  split
  · exact .inl ⟨_, s, rfl, .refl s⟩
  · exact fetchInbox_guarded rfl

theorem step_guarded (h : step s = .next t) : Guarded s t := by
  obtain ⟨m, u, hfetch, hu⟩ | ⟨u, hfetch, hu⟩ := fetch_guarded s
  · cases hdec : decode m with
    | ok i =>
      rw [step_decoded hfetch hdec] at h
      exact hu.trans (exec_guarded i u t h)
    | error e =>
      rw [step_undecodable hfetch hdec] at h
      cases h
  · rw [step_quiet hfetch] at h
    cases h
    exact hu

end Rows

end Sys2Proof.Machine

section
open Sys2Proof Sys2Proof.Machine

/-- Settles O59: every row keeps the bounds of `Guarded` from any state, and so does the fetch before it. -/
theorem stepsKeepTheInterruptAndTimerState : Obligations.StepsKeepTheInterruptAndTimerState := by
  unfold Obligations.StepsKeepTheInterruptAndTimerState
  intro s t h
  obtain ⟨hparams, hholes, hpending, hhse, hcommit, htime⟩ := step_guarded h
  exact ⟨hparams, hholes, hpending, hhse, hcommit, htime⟩

end

/-! PROOFS. Every row keeps the invariant of the block, and so does the fetch before it (O55). -/

namespace Sys2Proof.Machine

/-! ### Results presented for the current Packet -/

section Results

variable {k : Sched} {s : State}

/-- A result is interpreted, or a Fatal met, in a good state; of the Queue only the QH changes. -/
def ResultKept (q : Queue) (s : State) (x : Except Stop (Queue × State)) : Prop :=
  match x with
  | .ok (q', u) => Inv u = true ∧ u.uframeCtr = s.uframeCtr ∧ ∃ h', q' = { q with qh := h' }
  | .error (.fatal _ u) => Inv u = true
  | .error (.fault _) => True

/-- The error results (R303 to R307): a token for the Queue, and USBERRINT raised. -/
theorem errorResult_kept (q : Queue) (token : Word) (h : Inv s = true) :
    ResultKept q s (.ok (q.setToken token, s.raiseIrq .usberrint)) :=
  ⟨inv_raiseIrq _ h, State.raiseIrq_uframeCtr s _, _, rfl⟩

theorem resultCounted_kept (q : Queue) (p : Packet) (n : Nat) (h : Inv s = true) :
    ResultKept q s (resultCounted q p n s) := by
  unfold resultCounted
  split
  · exact resultSuccess_kept q p n s h
  · exact errorResult_kept q _ h

theorem resultOverlong_kept (q : Queue) (p : Packet) (n : Nat) (h : Inv s = true) :
    ResultKept q s
      (if (tokTotal q.qh.ov.token).toNat < n then .ok (resultBabble q s) else resultSuccess q p n s) := by
  split
  · exact errorResult_kept q _ h
  · exact resultSuccess_kept q p n s h

theorem resultCount_good (data : List Byte) (h : Inv s = true) : GoodOutcome (execResultCount k data s) :=
  good_finish (answered_keeps h nofun fun q p _ => resultCounted_kept q p _)

theorem resultCountOverlong_good (data : List Byte) (h : Inv s = true) :
    GoodOutcome (execResultCountOverlong k data s) :=
  good_finish (answered_keeps h nofun fun q p _ => resultOverlong_kept q p _)

theorem resultStall_good (h : Inv s = true) : GoodOutcome (execResultStall k s) :=
  good_finish (answered_keeps h nofun fun q _ _ => errorResult_kept q _)

theorem resultIoerror_good (h : Inv s = true) : GoodOutcome (execResultIoerror k s) :=
  good_finish (answered_keeps h nofun fun q _ _ => errorResult_kept q _)

theorem resultNodev_good (h : Inv s = true) : GoodOutcome (execResultNodev k s) :=
  good_finish (answered_keeps h nofun fun q _ _ => errorResult_kept q _)

theorem resultBabble_good (h : Inv s = true) : GoodOutcome (execResultBabble k s) :=
  good_finish (answered_keeps h nofun fun q _ _ => errorResult_kept q _)

/-- NAK frees the Packet (R302). -/
theorem resultNak_good (h : Inv s = true) : GoodOutcome (execResultNak k s) := by
  refine good_finish (keeps_withCurrent fun q hq => ?_)
  have hok := (current_ok h hq).1
  split
  · trivial
  · split
    · trivial
    · exact inv_setAuto _ _ (inv_putQueue h (queueOk_kind (k := k) (queueOk_freePacket _ hok)))

/-- PENDING puts the Packet in flight with the device that there is (R287). -/
theorem resultPending_good (h : Inv s = true) : GoodOutcome (execResultPending k s) := by
  refine good_finish (keeps_withPacket fun q p hp _ => ?_)
  split
  · trivial
  · rename_i hdev
    exact inv_afterAnswer h (current_ok h hp.1).1 fun _ => by rw [hdev]; rfl

end Results

/-! ### The other rows -/

section Rows

variable {k : Sched} {s t : State}

theorem schedBegin_inv (h : Inv s = true) : Inv (schedBegin k s) = true := by
  cases k <;> simp only [schedBegin] <;> split
  · exact inv_asyncBegin h
  · exact h
  · exact inv_periodicBegin h
  · exact h

theorem stateInactive_good (h : Inv s = true) : GoodOutcome (execStateInactive k s) :=
  good_outcome fun _ => schedEnable_inv (inv_setAuto _ _ h)

theorem stateActive_good (h : Inv s = true) : GoodOutcome (execStateActive k s) := by
  refine good_outcome fun t ht => ?_
  split at ht
  · cases ht
  · cases ht
    exact schedBegin_inv (schedEnable_inv (inv_setAuto _ _ h) ‹_›)

theorem good_refused (r : Refusal) : GoodOutcome (.refused r) := fun _ e => by cases e

theorem mmioRead_good {off : Word} {w : Width} (h : Inv s = true) : GoodOutcome (execMmioRead off w s) := by
  unfold execMmioRead
  split_ifs
  · exact good_next (inv_emit _ h)
  · exact good_refused _
  · exact good_next (readOpEntry_inv h)
  · exact good_refused _

theorem mmioWrite_good {off v : Word} {w : Width} (h : Inv s = true) : GoodOutcome (execMmioWrite off w v s) := by
  unfold execMmioWrite
  split_ifs
  · exact good_next h
  · exact good_outcome fun _ => writeOp_inv h
  · exact good_refused _

theorem tick_good {now : Nat} (h : Inv s = true) : GoodOutcome (execTick now s) := by
  unfold execTick
  split_ifs
  · exact good_refused _
  · exact good_finish (tickEntry_keeps h)

theorem reapDevice_inv {d : DevRef} (h : Inv s = true) (e : reapDevice d s = .ok t) : Inv t = true := by
  obtain ⟨s1, e1, h1⟩ := inv_reapSel (k := .async) (fun q => q.dev == some d) h
  obtain ⟨s2, e2, h2⟩ := inv_reapSel (k := .periodic) (fun q => q.dev == some d) h1
  simp only [reapDevice, e1, e2] at e
  cases e
  exact h2

theorem deviceRemove_good {d : DevRef} (h : Inv s = true) : GoodOutcome (execDeviceRemove d s) := by
  refine good_outcome fun t ht => ?_
  split at ht
  · cases ht
  · rename_i s1 h1
    cases ht
    exact inv_free (reapDevice_inv h h1) rfl rfl rfl rfl rfl rfl

/-- What power-on does not touch is guest memory; the rest is the reset state's (R580). -/
theorem powerOn_good (h : Inv s = true) : GoodOutcome (execPowerOn s) :=
  good_next (inv_emit _ (Inv_iff.2 ⟨inv_mem (s := s) h, (by decide : regsOk State.reset = true), rfl, rfl⟩))

end Rows

/-- Every row. -/
theorem exec_good (i : Instr) {s : State} (h : Inv s = true) : GoodOutcome (exec i s) := by
  cases i with
  | linkEnd => exact good_next (inv_setAuto _ _ (inv_setFetch _ _ h))
  | linkItd => exact good_finish (linkItd_keeps (inv_setFetch _ _ h))
  | linkQh => exact good_next (inv_setAuto _ _ (inv_setFetch _ _ h))
  | linkSitd => exact good_finish (linkSitd_keeps (inv_setFetch _ _ h))
  | linkFstn k => exact good_fatal (inv_setFetch k _ h)
  | qtdInactive => exact good_finish (keeps_withCurrent fun _ hq => dispatchQtd_keeps h (current_ok h hq).1)
  | pidOut => exact good_finish (executeToken_keeps h)
  | pidIn => exact good_finish (executeToken_keeps h)
  | pidSetup => exact good_finish (executeToken_keeps h)
  | pidReserved => exact good_finish (executeToken_keeps h)
  | qhHalted => exact good_next (inv_setAuto _ _ h)
  | resultCount => exact resultCount_good _ h
  | resultNak => exact resultNak_good h
  | resultStall => exact resultStall_good h
  | resultIoerror => exact resultIoerror_good h
  | resultNodev => exact resultNodev_good h
  | resultBabble => exact resultBabble_good h
  | resultPending => exact resultPending_good h
  | resultCountOverlong => exact resultCountOverlong_good _ h
  | mmioRead => exact mmioRead_good h
  | mmioWrite => exact mmioWrite_good h
  | tick => exact tick_good h
  | complete => exact good_finish (completeEntry_keeps h)
  | deviceRemove => exact deviceRemove_good h
  | portChange => exact good_next (inv_raiseIrq _ (inv_free h rfl rfl rfl rfl rfl rfl))
  | powerOn => exact powerOn_good h
  | stateInactive => exact stateInactive_good h
  | stateActive => exact stateActive_good h
  | stateWaitListHead => exact good_next (inv_waitListHead h)
  | stateFetchEntry => exact good_finish (fetchEntry_keeps h)
  | stateFetchQh => exact good_finish (fetchQh_keeps h)
  | stateFetchItd => exact good_next (inv_fetchStub h)
  | stateFetchSitd => exact good_next (inv_fetchStub h)
  | stateAdvanceQueue => exact good_finish (advanceQueue_keeps h)
  | stateFetchQtd => exact good_finish (fetchQtd_keeps h)
  | stateExecute => exact good_finish (execute_keeps h)
  | stateExecuting => exact good_finish (executing_keeps h)
  | stateWriteback => exact good_finish (writeback_keeps h)
  | stateHorizontalQh => exact good_finish (horizontalQh_keeps h)
  | usbcmdHcreset => exact good_outcome fun _ => writeUsbcmd_inv h
  | usbcmdRun => exact good_outcome fun _ => writeUsbcmd_inv h
  | usbcmdPse => exact good_outcome fun _ => writeUsbcmd_inv h
  | usbcmdAse => exact good_outcome fun _ => writeUsbcmd_inv h
  | usbcmdIaad => exact good_outcome fun _ => writeUsbcmd_inv h
  | usbcmdItc => exact good_outcome fun _ => writeUsbcmd_inv h
  | writeUsbsts => exact good_next (inv_free h rfl rfl rfl rfl rfl rfl)
  | writeUsbintr => exact good_next (inv_free h rfl rfl rfl rfl rfl rfl)
  | writeFrindex => exact good_next (writeFrindex_inv h)
  | writeCtrldssegment => exact good_next h
  | writePeriodiclistbase v => exact good_next (writePeriodiclistbase_inv v h)
  | writeAsynclistaddr v => exact good_next (writeAsynclistaddr_inv v h)
  | writeConfigflag => exact good_next (inv_emit _ h)
  | writePortsc => exact good_next (writePortsc_inv h)
  | readOp => exact good_next (readOpEntry_inv h)
  | fatalAsyncType => exact good_fatal h
  | fatalFstn => exact good_fatal h
  | fatalReservedPid => exact good_fatal h
  | fatalPageIndex => exact good_fatal h

/-! ### The fetch -/

section Step

variable {s t : State}

theorem guestWrite_inv (a : Word) (bs : List Byte) (h : Inv s = true) : Inv (s.guestWrite a bs) = true :=
  inv_setMem h (writeBytes_wf (inv_mem h) a bs)

theorem setDevice_inv (a : BitVec 7) (d : Option DevRef) (h : Inv s = true) : Inv (s.setDevice a d) = true :=
  inv_congr h (by simp) (by simp) (by simp) (by simp) fun k => by simp

theorem fetchInbox_inv (h : Inv s = true) :
    (∃ m u, fetchInbox s = .message m u ∧ Inv u = true) ∨ ∃ u, fetchInbox s = .quiet u ∧ Inv u = true := by
  have taken : ∀ rest, Inv { s with inbox := rest } = true := fun _ => inv_free h rfl rfl rfl rfl rfl rfl
  unfold fetchInbox
  split
  · exact .inr ⟨s, rfl, h⟩
  · exact .inl ⟨_, _, rfl, taken _⟩
  · exact .inr ⟨_, rfl, guestWrite_inv _ _ (taken _)⟩
  · exact .inr ⟨_, rfl, setDevice_inv _ _ (taken _)⟩

theorem fetch_inv (h : Inv s = true) :
    (∃ m u, s.fetch = .message m u ∧ Inv u = true) ∨ ∃ u, s.fetch = .quiet u ∧ Inv u = true := by
  unfold State.fetch
  split
  · exact .inl ⟨_, s, rfl, h⟩
  · exact fetchInbox_inv h

theorem step_inv (h : Inv s = true) (hstep : step s = .next t) : Inv t = true := by
  obtain ⟨m, u, hfetch, hu⟩ | ⟨u, hfetch, hu⟩ := fetch_inv h
  · cases hdec : decode m with
    | ok i =>
      rw [step_decoded hfetch hdec] at hstep
      exact exec_good i hu t hstep
    | error e =>
      rw [step_undecodable hfetch hdec] at hstep
      cases hstep
  · rw [step_quiet hfetch] at hstep
    cases hstep
    exact hu

end Step

end Sys2Proof.Machine

section
open Sys2Proof Sys2Proof.Machine

/-- Settles O55: the fetch keeps the invariant, and so does every row. -/
theorem stepsKeepTheInvariant : Obligations.StepsKeepTheInvariant := by
  unfold Obligations.StepsKeepTheInvariant
  intro s t h hstep
  exact step_inv h hstep

end

/-! PROOFS. What the engine itself leaves of the guest's registers (O58). -/

namespace Sys2Proof.Machine

/-! ### What the engine keeps where no reset is taken -/

/-- What lies between two states of a run without a write of the guest's and without a reset: the list bases, the enables
and the mask are the same, the doorbell is withdrawn at most, and no status bit is cleared. -/
structure GuestKept (s t : State) : Prop where
  asyncListAddr : t.asyncListAddr = s.asyncListAddr
  periodicListBase : t.periodicListBase = s.periodicListBase
  usbintr : t.usbintr = s.usbintr
  usbcmd : t.usbcmd = { s.usbcmd with iaad := t.usbcmd.iaad }
  iaad : t.usbcmd.iaad = true → s.usbcmd.iaad = true
  usbsts : s.usbsts &&& t.usbsts = s.usbsts

namespace GuestKept

variable {s t u : State}

theorem trans (h1 : GuestKept s t) (h2 : GuestKept t u) : GuestKept s u where
  asyncListAddr := h2.asyncListAddr.trans h1.asyncListAddr
  periodicListBase := h2.periodicListBase.trans h1.periodicListBase
  usbintr := h2.usbintr.trans h1.usbintr
  usbcmd := by rw [h2.usbcmd, h1.usbcmd]
  iaad h := h1.iaad (h2.iaad h)
  usbsts := by rw [← h1.usbsts, BitVec.and_assoc, h2.usbsts]

/-- An update of none of the guest's registers but USBSTS, where it clears no bit. -/
theorem of_usbsts (ha : t.asyncListAddr = s.asyncListAddr) (hp : t.periodicListBase = s.periodicListBase)
    (hi : t.usbintr = s.usbintr) (hc : t.usbcmd = s.usbcmd) (hs : s.usbsts &&& t.usbsts = s.usbsts) : GuestKept s t :=
  ⟨ha, hp, hi, by rw [hc], fun h => by rwa [← hc], hs⟩

/-- An update of none of the guest's registers. -/
theorem of_eq (ha : t.asyncListAddr = s.asyncListAddr) (hp : t.periodicListBase = s.periodicListBase)
    (hi : t.usbintr = s.usbintr) (hc : t.usbcmd = s.usbcmd) (hs : t.usbsts = s.usbsts) : GuestKept s t :=
  of_usbsts ha hp hi hc (by rw [hs, BitVec.and_self])

theorem refl (s : State) : GuestKept s s := of_eq rfl rfl rfl rfl rfl

theorem of_walked {k : Sched} (h : Walked k s t) : GuestKept s t :=
  of_eq h.asyncListAddr h.periodicListBase h.usbintr h.usbcmd h.usbsts

theorem of_reaped (h : Reaped s t) : GuestKept s t := by
  unfold Reaped at h
  apply of_eq <;> rw [h]

theorem setAuto (k : Sched) (x : AutoState) : GuestKept s (s.setAuto k x) := of_walked (Walked.setAuto x)

theorem emit (o : Output) : GuestKept s (s.emit o) := of_eq rfl rfl rfl rfl rfl

theorem portActs : GuestKept s s.portActs := of_eq rfl rfl rfl rfl rfl

theorem and_or_absorb (x y : BitVec 6) : x &&& (x ||| y) = x := by
  ext i hi
  simp only [BitVec.getElem_and, BitVec.getElem_or]
  cases x[i] <;> rfl

/-- Raising an interrupt sets a bit at once or makes it pending (R534). -/
theorem raiseIrq (b : IrqBit) : GuestKept s (s.raiseIrq b) := by
  unfold State.raiseIrq
  split
  · exact of_usbsts rfl rfl rfl rfl (and_or_absorb _ _)
  · exact of_eq rfl rfl rfl rfl rfl

/-- A commit adds the pending bits to USBSTS (R535, R536). -/
theorem commit : GuestKept s s.commit := of_usbsts rfl rfl rfl rfl (and_or_absorb _ _)

theorem thresholdCommit : GuestKept s s.thresholdCommit := by
  unfold State.thresholdCommit
  split
  · exact commit
  · exact refl s

theorem commitAll : GuestKept s s.commitAll := by
  unfold State.commitAll
  split
  · exact commit
  · exact refl s

/-! The steps of an entry. -/

theorem schedEnable {k : Sched} (h : Machine.schedEnable k s = .ok t) : GuestKept s t := by
  rcases schedEnable_cases h with rfl | rfl | ⟨s1, h1, rfl⟩
  · exact refl _
  · exact setAuto k _
  · exact (of_reaped (reapAll_frame h1)).trans (setAuto k _)

theorem schedBegin {k : Sched} : GuestKept s (Machine.schedBegin k s) := by
  cases k <;> simp only [Machine.schedBegin] <;> split
  · exact of_walked (asyncBegin_walked s)
  · exact refl s
  · exact of_walked (periodicBegin_walked s)
  · exact refl s

/-- The doorbell's answer withdraws IAAD (R406). -/
theorem withdrawDoorbell : GuestKept s { s with usbcmd := { s.usbcmd with iaad := false } } :=
  ⟨rfl, rfl, rfl, rfl, nofun, BitVec.and_self⟩

theorem doorbell (h : Machine.doorbell s = .ok t) : GuestKept s t := by
  rcases doorbell_cases h with rfl | ⟨s1, h1, rfl⟩
  · exact refl _
  · exact ((of_reaped (reapUnseen_frame h1)).trans withdrawDoorbell).trans (raiseIrq .iaa)

theorem asyncStep (h : Machine.asyncStep s = .ok t) : GuestKept s t := by
  obtain ⟨s1, h1, ⟨n, s2, s3, h2, h3, h4⟩ | hbell⟩ := asyncStep_ok h
  · have hpass : GuestKept s1 s2 := of_walked ((asyncBegin_walked s1).trans (Walked.run h2))
    exact (((schedEnable h1).trans hpass).trans (doorbell h3)).trans (of_reaped (reapUnused_frame h4))
  · exact (schedEnable h1).trans (doorbell hbell)

theorem periodicStep (h : Machine.periodicStep s = .ok t) : GuestKept s t := by
  obtain ⟨s1, h1, ⟨n, s2, h2, h3⟩ | rfl⟩ := periodicStep_ok h
  · have hpass : GuestKept s1 s2 := of_walked ((periodicBegin_walked s1).trans (Walked.run h2))
    exact ((schedEnable h1).trans hpass).trans (of_reaped (reapUnused_frame h3))
  · exact schedEnable h1

theorem asyncAndCommit (h : Machine.asyncAndCommit s = .ok t) : GuestKept s t := by
  obtain ⟨s1, h1, rfl⟩ := asyncAndCommit_ok h
  exact ((asyncStep h1).trans commitAll).trans (of_eq rfl rfl rfl rfl rfl)

theorem completeEntry {c : Completion} (h : Machine.completeEntry c s = .ok t) : GuestKept s t := by
  simp only [Machine.completeEntry] at h
  split at h
  · cases h
  · rename_i s1 h1
    have hdone : GuestKept s s1 := of_walked (k := .async) (Walked.deliver h1)
    split at h
    · have hentry : GuestKept s1 { s1 with inEntry := true } := of_eq rfl rfl rfl rfl rfl
      exact (hdone.trans hentry).trans (asyncAndCommit h)
    · cases h; exact hdone

/-- FLR is raised where the frame index wraps (R474). -/
theorem advanceFrindex : GuestKept s (Machine.advanceFrindex s) := by
  have hf : GuestKept s { s with frindex := s.frindex + 1 } := of_eq rfl rfl rfl rfl rfl
  simp only [Machine.advanceFrindex]
  split
  · exact hf.trans (raiseIrq .flr)
  · exact hf

theorem accountMicroframe : GuestKept s (Machine.accountMicroframe s) := by
  refine trans (t := if s.hch then s else Machine.advanceFrindex s) ?_ (of_eq rfl rfl rfl rfl rfl)
  split
  · exact refl s
  · exact advanceFrindex

theorem skipMicroframes (n : Nat) : GuestKept s (Machine.skipMicroframes n s) := by
  induction n generalizing s with
  | zero => exact refl s
  | succ n ih => exact accountMicroframe.trans ih

theorem processMicroframes {left i j : Nat} (h : Machine.processMicroframes left i s = .ok (j, t)) : GuestKept s t := by
  induction left generalizing i s with
  | zero => cases h; exact refl _
  | succ n ih =>
    simp only [Machine.processMicroframes] at h
    split at h
    · cases h; exact thresholdCommit
    · split at h
      · cases h
      · exact ((thresholdCommit.trans accountMicroframe).trans (periodicStep ‹_›)).trans (ih h)

theorem tickEntry {now : Nat} (h : Machine.tickEntry now s = .ok t) : GuestKept s t := by
  have hstart : GuestKept s (tickStart now s) := of_eq rfl rfl rfl rfl rfl
  simp only [Machine.tickEntry] at h
  split at h
  · cases h
  · rename_i j s3 h3
    refine ((hstart.trans (skipMicroframes _)).trans (processMicroframes h3)).trans (trans ?_ (asyncAndCommit h))
    exact of_eq rfl rfl rfl rfl rfl

end GuestKept

/-! ### What a reset leaves of the registers -/

/-- The controller was reset: its registers hold their reset values, whatever the caches hold (R583). -/
structure WasReset (t : State) : Prop where
  asyncListAddr : t.asyncListAddr = 0
  periodicListBase : t.periodicListBase = 0
  usbintr : t.usbintr = 0
  usbcmd : t.usbcmd = ⟨false, false, false, false, 8⟩
  usbsts : t.usbsts = 0
  usbstsPending : t.usbstsPending = 0
  frindex : t.frindex = 0
  lastRunUs : t.lastRunUs = none
  async : t.async = ⟨.inactive, 0, none, 0, t.async.cache⟩
  periodic : t.periodic = ⟨.inactive, 0, none, 0, t.periodic.cache⟩

/-- A controller reset that completes, from any state. -/
theorem controllerReset_wasReset {s t : State} (h : controllerReset s = .ok t) : WasReset t := by
  simp only [controllerReset] at h
  split at h
  · cases h
  · split at h
    · cases h
    · cases h
      exact ⟨rfl, rfl, rfl, rfl, rfl, rfl, rfl, rfl, rfl, rfl⟩

/-! ### Steps that take no Fatal -/

/-- The step does not end at a Fatal. -/
def NoFatal (x : Except Stop State) : Prop := ∀ r u, x ≠ .error (.fatal r u)

section NoFatal

variable {k : Sched} {s t : State}

theorem noFatal_ok : NoFatal (.ok t) := fun _ _ h => by cases h

theorem noFatal_fault (f : Fault) : NoFatal (.error (.fault f)) := fun _ _ h => by cases h

theorem noFatal_withCurrent {f : Queue → Except Stop State} (hf : ∀ q, NoFatal (f q)) :
    NoFatal (withCurrent k s f) := by
  unfold withCurrent
  split
  · exact noFatal_fault _
  · exact hf _

theorem noFatal_withPacket {g : PacketTag} {f : Queue → Packet → Except Stop State} (hf : ∀ q p, NoFatal (f q p)) :
    NoFatal (withPacket k g s f) := by
  refine noFatal_withCurrent fun q => ?_
  split
  · exact noFatal_fault _
  · split
    · exact hf _ _
    · exact noFatal_fault _

theorem checkQh_noFatal (q : Queue) (b : Bool) (fresh : Qh) : NoFatal (checkQh k q b fresh s) := by
  simp only [checkQh]
  split
  · exact noFatal_fault _
  · exact noFatal_ok

theorem visitQh_noFatal : NoFatal (visitQh k s) := by
  simp only [visitQh]
  split
  · split
    · exact checkQh_noFatal _ _ _
    · exact noFatal_ok
  · exact checkQh_noFatal _ _ _

theorem fetchQh_noFatal : NoFatal (fetchQh k s) := by
  cases k <;> simp only [fetchQh]
  case async =>
    split
    · exact noFatal_ok
    · exact visitQh_noFatal
  case periodic => exact visitQh_noFatal

theorem advanceQueue_noFatal : NoFatal (advanceQueue k s) := by
  refine noFatal_withCurrent fun q => ?_
  split_ifs <;> exact noFatal_ok

theorem dispatchQtd_noFatal (q : Queue) (d : Qtd) : NoFatal (dispatchQtd k q d s) := by
  simp only [dispatchQtd]
  split
  · split
    · split
      · exact noFatal_fault _
      · exact noFatal_ok
    · split <;> exact noFatal_ok
  · split
    · split
      · exact noFatal_fault _
      · exact noFatal_ok
    · exact noFatal_ok

theorem fetchQtd_noFatal : NoFatal (fetchQtd k s) := noFatal_withCurrent fun _ => dispatchQtd_noFatal _ _

theorem writeback_noFatal : NoFatal (writeback k s) := by
  refine noFatal_withPacket fun q p => ?_
  simp only [writebackPacket]
  split
  · exact noFatal_fault _
  · exact noFatal_ok

theorem horizontalQh_noFatal : NoFatal (horizontalQh k s) := noFatal_withCurrent fun _ => noFatal_ok

/-- A result that is interpreted without a Fatal (R302 to R306). -/
theorem answered_noFatal {r : DevAnswer} {f : Queue → Packet → State → Queue × State} :
    NoFatal (answered k r s fun q p s1 => .ok (f q p s1)) := by
  refine noFatal_withCurrent fun q => ?_
  split
  · exact noFatal_fault _
  · split
    · exact noFatal_fault _
    · exact noFatal_ok

/-- A completion of a periodic Packet runs no pass (R310). -/
theorem completeEntry_noFatal {c : Completion} (h : c.kind ≠ .async) : NoFatal (completeEntry c s) := by
  simp only [completeEntry]
  split
  · exact noFatal_fault _
  · split
    · exact absurd (‹_ ∧ _›).2 h
    · exact noFatal_ok

end NoFatal

/-! ### Rows -/

/-- Where a row leaves a state, the guest's registers are kept, or a Fatal was taken by a row that may. -/
def EngineOutcome (may : Bool) (s : State) (x : Host.Outcome State Fault Refusal) : Prop :=
  ∀ t, x = .next t → GuestKept s t ∨ may = true ∧ WasReset t

section Rows

variable {k : Sched} {s t : State} {may : Bool}

theorem engine_next (h : GuestKept s t) : EngineOutcome may s (.next t) := fun _ e => by cases e; exact .inl h

theorem engine_refused (r : Refusal) : EngineOutcome may s (.refused r) := fun _ e => by cases e

theorem engine_outcome {x : Except Fault State} (h : ∀ t, x = .ok t → GuestKept s t) :
    EngineOutcome may s (outcome x) := fun t e => .inl (h t (outcome_next e))

theorem engine_fatal (r : FatalReason) : EngineOutcome true s (outcome (takeFatal r t)) :=
  fun _ e => .inr ⟨rfl, controllerReset_wasReset (outcome_next e)⟩

/-- A row that may take a Fatal. -/
theorem engine_finish {x : Except Stop State} (h : ∀ t, x = .ok t → GuestKept s t) : EngineOutcome true s (finish x) :=
  match x, h with
  | .ok _, h => engine_next (h _ rfl)
  | .error (.fatal r _), _ => engine_fatal r
  | .error (.fault _), _ => fun _ e => by cases e

/-- A row that takes none. -/
theorem engine_finish_noFatal {x : Except Stop State} (hx : NoFatal x) (h : ∀ t, x = .ok t → GuestKept s t) :
    EngineOutcome may s (finish x) :=
  match x, hx, h with
  | .ok _, _, h => engine_next (h _ rfl)
  | .error (.fatal r u), hx, _ => absurd rfl (hx r u)
  | .error (.fault _), _, _ => fun _ e => by cases e

theorem guestKept_of_confines {x : Except Stop State} (hx : Confines k s x) (t : State) (e : x = .ok t) :
    GuestKept s t := by
  subst e
  exact .of_walked (Confined.walked hx)

theorem engine_walk {x : Except Stop State} (h : Confines k s x) : EngineOutcome true s (finish x) :=
  engine_finish (guestKept_of_confines h)

theorem engine_walk_noFatal {x : Except Stop State} (hx : NoFatal x) (h : Confines k s x) :
    EngineOutcome may s (finish x) :=
  engine_finish_noFatal hx (guestKept_of_confines h)

/-- The error results (R303 to R306). -/
theorem errorResult_engine {r : DevAnswer} (token : Queue → Word) :
    EngineOutcome may s (finish (answered k r s fun q _ s1 => .ok (q.setToken (token q), s1.raiseIrq .usberrint))) :=
  engine_walk_noFatal answered_noFatal (answered_confines fun _ _ _ => ⟨usberrint_confined, rfl⟩)

theorem resultNak_engine : EngineOutcome may s (execResultNak k s) := by
  refine engine_finish_noFatal (noFatal_withCurrent fun q => ?_) fun t h =>
    .of_walked (Walked.withCurrent h fun q hq => ?_)
  · split
    · exact noFatal_fault _
    · split
      · exact noFatal_fault _
      · exact noFatal_ok
  · split at hq
    · cases hq
    · split at hq
      · cases hq
      · cases hq; exact (Walked.putQueue _).trans (Walked.setAuto _)

theorem resultPending_engine : EngineOutcome may s (execResultPending k s) := by
  refine engine_finish_noFatal (noFatal_withPacket fun q p => ?_) fun t h =>
    .of_walked (Walked.withPacket h fun q p hq => ?_)
  · split
    · exact noFatal_fault _
    · exact noFatal_ok
  · split at hq
    · cases hq
    · cases hq; exact Walked.afterAnswer _ _ _

theorem resultCountOverlong_engine {data : List Byte} : EngineOutcome true s (execResultCountOverlong k data s) := by
  refine engine_walk (answered_confines fun q p s1 => ?_)
  split
  · exact ⟨usberrint_confined, rfl⟩
  · exact resultSuccess_confines q p _

/-- A link to an iTD or siTD is fatal in the asynchronous list only (R342). -/
theorem linkItd_engine (addr : BitVec 27) (rsvd : BitVec 2) :
    EngineOutcome (mayTakeFatal (.linkItd k addr rsvd)) s (execLinkItd k addr rsvd s) := by
  cases k with
  | async => exact engine_fatal _
  | periodic => exact engine_next (.of_walked ((Walked.setFetch _).trans (Walked.setAuto _)))

theorem linkSitd_engine (addr : BitVec 27) (rsvd : BitVec 2) :
    EngineOutcome (mayTakeFatal (.linkSitd k addr rsvd)) s (execLinkSitd k addr rsvd s) := by
  cases k with
  | async => exact engine_fatal _
  | periodic => exact engine_next (.of_walked ((Walked.setFetch _).trans (Walked.setAuto _)))

theorem complete_engine (qh qtd : Word) (r : DevAnswer) :
    EngineOutcome (mayTakeFatal (.complete k qh qtd r)) s (execComplete k qh qtd r s) := by
  cases k with
  | async => exact engine_finish fun _ => .completeEntry
  | periodic => exact engine_finish_noFatal (completeEntry_noFatal nofun) fun _ => .completeEntry

theorem tick_engine {now : Nat} : EngineOutcome true s (execTick now s) := by
  unfold execTick
  split_ifs
  · exact engine_refused _
  · exact engine_finish fun _ => .tickEntry

theorem readOpEntry_guestKept (off : Word) : GuestKept s (readOpEntry off s) := by
  refine GuestKept.trans ?_ (.emit _)
  rcases readOpValue_state off s with e | e <;> rw [e]
  · exact .refl s
  · exact .portActs

theorem mmioRead_engine {off : Word} {w : Width} : EngineOutcome may s (execMmioRead off w s) := by
  unfold execMmioRead
  split_ifs
  · exact engine_next (.emit _)
  · exact engine_refused _
  · exact engine_next (readOpEntry_guestKept _)
  · exact engine_refused _

theorem deviceRemove_engine {d : DevRef} : EngineOutcome may s (execDeviceRemove d s) := by
  refine engine_outcome fun t h => ?_
  split at h
  · cases h
  · rename_i s1 h1
    cases h
    exact (GuestKept.of_reaped (reapDevice_frame h1)).trans (.of_eq rfl rfl rfl rfl rfl)

theorem stateInactive_engine : EngineOutcome may s (execStateInactive k s) :=
  engine_outcome fun _ h => (GuestKept.setAuto k _).trans (.schedEnable h)

theorem stateActive_engine : EngineOutcome may s (execStateActive k s) := by
  refine engine_outcome fun t h => ?_
  split at h
  · cases h
  · cases h
    exact ((GuestKept.setAuto k _).trans (.schedEnable ‹_›)).trans .schedBegin

theorem writePortsc_guestKept (i : Nat) (v : Word) : GuestKept s (writePortsc i v s) := by
  unfold writePortsc
  split
  · exact .emit _
  · exact .refl s

/-- Every row that is no write of the guest's, in any state. -/
theorem exec_engine {i : Instr} (hi : writesRegisters i = false) (s : State) :
    EngineOutcome (mayTakeFatal i) s (exec i s) := by
  cases i with
  | linkEnd k _ => exact engine_next (.of_walked ((Walked.setFetch (k := k) _).trans (Walked.setAuto _)))
  | linkItd => exact linkItd_engine _ _
  | linkQh k _ _ => exact engine_next (.of_walked ((Walked.setFetch (k := k) _).trans (Walked.setAuto _)))
  | linkSitd => exact linkSitd_engine _ _
  | linkFstn => exact engine_fatal _
  | qtdInactive k _ _ =>
    exact engine_walk_noFatal (k := k) (noFatal_withCurrent fun _ => dispatchQtd_noFatal _ _)
      (confines_withCurrent fun _ hq => dispatchQtd_confines hq)
  | pidOut k _ => exact engine_walk (k := k) (executeToken_confines _)
  | pidIn k _ => exact engine_walk (k := k) (executeToken_confines _)
  | pidSetup k _ => exact engine_walk (k := k) (executeToken_confines _)
  | pidReserved k _ => exact engine_walk (k := k) (executeToken_confines _)
  | qhHalted => exact engine_next (.setAuto _ _)
  | resultCount k _ => exact engine_walk (k := k) (answered_confines fun q p _ => resultCounted_confines q p _)
  | resultNak => exact resultNak_engine
  | resultStall => exact errorResult_engine fun q => tokStall q.qh.ov.token
  | resultIoerror => exact errorResult_engine fun q => tokIoerror q.qh.ov.token
  | resultNodev => exact errorResult_engine fun q => tokIoerror q.qh.ov.token
  | resultBabble => exact errorResult_engine fun q => tokBabble q.qh.ov.token
  | resultPending => exact resultPending_engine
  | resultCountOverlong => exact resultCountOverlong_engine
  | mmioRead => exact mmioRead_engine
  | tick => exact tick_engine
  | complete => exact complete_engine _ _ _
  | deviceRemove => exact deviceRemove_engine
  | portChange => exact engine_next (GuestKept.portActs.trans (.raiseIrq .pcd))
  | stateInactive => exact stateInactive_engine
  | stateActive => exact stateActive_engine
  | stateWaitListHead => exact engine_next (.of_walked Walked.waitListHead)
  | stateFetchEntry => exact engine_walk fetchEntry_confines
  | stateFetchQh => exact engine_walk_noFatal fetchQh_noFatal fetchQh_confines
  | stateFetchItd => exact engine_next (.of_walked Walked.fetchStub)
  | stateFetchSitd => exact engine_next (.of_walked Walked.fetchStub)
  | stateAdvanceQueue => exact engine_walk_noFatal advanceQueue_noFatal advanceQueue_confines
  | stateFetchQtd => exact engine_walk_noFatal fetchQtd_noFatal fetchQtd_confines
  | stateExecute => exact engine_walk execute_confines
  | stateExecuting => exact engine_walk executing_confines
  | stateWriteback => exact engine_walk_noFatal writeback_noFatal writeback_confines
  | stateHorizontalQh => exact engine_walk_noFatal horizontalQh_noFatal horizontalQh_confines
  | writeCtrldssegment => exact engine_next (.refl s)
  | writeConfigflag => exact engine_next (.emit _)
  | writePortsc => exact engine_next (writePortsc_guestKept _ _)
  | readOp => exact engine_next (readOpEntry_guestKept _)
  | fatalAsyncType => exact engine_fatal _
  | fatalFstn => exact engine_fatal _
  | fatalReservedPid => exact engine_fatal _
  | fatalPageIndex => exact engine_fatal _
  | _ => exact Bool.noConfusion hi

end Rows

end Sys2Proof.Machine

section
open Sys2Proof Sys2Proof.Machine

/-- Settles O58: the two outcomes of `EngineOutcome`, registers kept or a Fatal's reset, row by row. -/
theorem engineKeepsTheGuestsRegisters : Obligations.EngineKeepsTheGuestsRegisters := by
  unfold Obligations.EngineKeepsTheGuestsRegisters
  intro i s t hi h
  rcases exec_engine hi s t h with ⟨haddr, hbase, hintr, hcmd, hiaad, hsts⟩ | ⟨hmay, hreset⟩
  · exact .inl ⟨haddr, hbase, hintr, hcmd, hiaad, hsts⟩
  · obtain ⟨haddr, hbase, hintr, hcmd, hsts, hpend, hframe, hrun, hasync, hperiodic⟩ := hreset
    exact .inr ⟨hmay, haddr, hbase, hintr, hcmd, hsts, hpend, hframe, hrun, hasync, hperiodic⟩

end

/-! PROOFS. The descriptor cache as a map (O25), the list registers (O11) and the capability registers (O15). -/

namespace Sys2Proof.Machine

/-! ### find_or_create_queue (R230) -/

theorem findOrCreate_found {s : State} {k : Sched} {a : Word} {q : Queue} (h : s.queue? k a = some q) :
    s.findOrCreate k a = (q, false) := by
  simp only [State.findOrCreate, h]

theorem findOrCreate_new {s : State} {k : Sched} {a : Word} (h : s.queue? k a = none) :
    s.findOrCreate k a = (newQueue k a s.uframeCtr, true) := by
  simp only [State.findOrCreate, h]

/-- After reset both maps are empty. -/
theorem reset_queue? (k : Sched) (a : Word) : State.reset.queue? k a = none := by cases k <;> rfl

/-! ### Fields of masked registers (R48, R49) -/

/-- A field all of whose bits a mask keeps. -/
theorem field_and_mask {v m : Word} {i n : Nat} (h : m.extractLsb' i n = BitVec.allOnes n) :
    (v &&& m).extractLsb' i n = v.extractLsb' i n := by
  rw [BitVec.extractLsb'_and, h, BitVec.and_allOnes]

/-- A field all of whose bits a mask clears. -/
theorem field_and_clear {v m : Word} {i n : Nat} (h : m.extractLsb' i n = 0#n) :
    (v &&& m).extractLsb' i n = 0#n := by
  rw [BitVec.extractLsb'_and, h, BitVec.and_zero]

/-! ### The capability block (R38, R500) -/

theorem mmioRead_capability {s : State} {off v : Word} {w : Width} (h : capAccess s.params off w = true)
    (hv : capabilityValue s.params off.toNat w = v) : exec (.mmioRead off w) s = .next (s.emit (.readValue w v)) := by
  have hlt : off.toNat < s.params.opregBase.toNat := by
    simp only [capAccess, Bool.and_eq_true, decide_eq_true_eq] at h
    have : 0 < widthBytes w := by cases w <;> decide
    omega
  show execMmioRead off w s = _
  rw [execMmioRead, if_pos hlt, if_pos h, hv]

theorem mmioWrite_capability {s : State} {off v : Word} {w : Width} (h : off.toNat < s.params.opregBase.toNat) :
    exec (.mmioWrite off w v) s = .next s := if_pos h

/-- A word is put together from its bytes (R102). -/
theorem wordOf_wordByte (w : Word) : wordOf (wordByte w 0) (wordByte w 1) (wordByte w 2) (wordByte w 3) = w :=
  wordOf_wordBytes w

/-- The bytes of a word above a narrower value are 0. -/
theorem wordByte_above {n i : Nat} (v : BitVec n) (h : n ≤ 8 * i) : wordByte (v.setWidth 32) i = 0 := by
  refine field_of_bits fun j _ => ?_
  rw [BitVec.getLsbD_setWidth, BitVec.getLsbD_of_ge v _ (by omega), Bool.and_false]
  exact BitVec.getLsbD_zero.symm

theorem wordByte_zero (b : Byte) : wordByte (b.setWidth 32) 0 = b := by
  refine field_of_bits fun j hj => ?_
  rw [BitVec.getLsbD_setWidth, decide_eq_true (by omega), Bool.true_and, Nat.mul_zero, Nat.zero_add]

theorem capabilityValue_caplength (p : Params) : capabilityValue p 0 .w1 = p.opregBase.setWidth 32 := by
  have h := wordOf_wordByte (p.opregBase.setWidth 32)
  rwa [wordByte_zero, wordByte_above _ (by decide), wordByte_above _ (by decide), wordByte_above _ (by decide)] at h

theorem capabilityValue_hciversion (p : Params) : capabilityValue p 2 .w2 = p.hciversion.setWidth 32 := by
  have h := wordOf_wordByte (p.hciversion.setWidth 32)
  rwa [wordByte_above (i := 2) _ (by decide), wordByte_above (i := 3) _ (by decide)] at h

theorem capabilityValue_hcsparams (p : Params) : capabilityValue p 4 .w4 = p.hcsparams := wordOf_wordByte _

theorem capabilityValue_hccparams (p : Params) : capabilityValue p 8 .w4 = hccparamsValue p := wordOf_wordByte _

end Sys2Proof.Machine

section
open Sys2Proof Sys2Proof.Machine

/-- Settles O25, by the law of the map that finds after a store. -/
theorem cacheIsAFiniteMapPerSchedule : Obligations.CacheIsAFiniteMapPerSchedule := by
  unfold Obligations.CacheIsAFiniteMapPerSchedule
  refine ⟨queue?_putQueue, fun s k a q => findOrCreate_found, fun s k a hnone => ?_, reset_queue?⟩
  rw [findOrCreate_new hnone]
  exact ⟨rfl, rfl, rfl, rfl, rfl, rfl, rfl, rfl⟩

/-- Settles O11: each mask keeps the field of address bits and clears the field below it. -/
theorem listBaseWritesMaskTheAddress : Obligations.ListBaseWritesMaskTheAddress := by
  unfold Obligations.ListBaseWritesMaskTheAddress
  intro s v
  exact ⟨_, _, rfl, rfl, rfl, rfl, field_and_mask (by decide), field_and_clear (by decide),
    field_and_mask (by decide), field_and_clear (by decide)⟩

/-- Settles O15: each named register is an aligned access inside the block, put together from its bytes. -/
theorem capabilityRegistersReadTheParameters : Obligations.CapabilityRegistersReadTheParameters := by
  unfold Obligations.CapabilityRegistersReadTheParameters
  intro s hbase
  have inside : ∀ off w, off.toNat % widthBytes w = 0 → off.toNat + widthBytes w ≤ 12 →
      capAccess s.params off w = true := fun off w halign hend => by
    simp only [capAccess, halign, BEq.rfl, Bool.true_and, decide_eq_true_eq]
    omega
  refine ⟨?caplength, ?hciversion, ?hcsparams, ⟨hccparamsValue s.params, ?hccparams, ?low, ?high⟩, ?writes⟩
  case caplength =>
    exact mmioRead_capability (inside _ _ (by decide) (by decide)) (capabilityValue_caplength _)
  case hciversion =>
    exact mmioRead_capability (inside _ _ (by decide) (by decide)) (capabilityValue_hciversion _)
  case hcsparams =>
    exact mmioRead_capability (inside _ _ (by decide) (by decide)) (capabilityValue_hcsparams _)
  case hccparams =>
    exact mmioRead_capability (inside _ _ (by decide) (by decide)) (capabilityValue_hccparams _)
  case low => exact field_and_clear (by decide)
  case high => exact field_and_mask (by decide)
  case writes => exact fun off w v => mmioWrite_capability

end

/-! PROOFS. Guest memory: words in byte order, and what a write stores and leaves (O1). -/

namespace Sys2Proof.Machine

/-! ### Words and their bytes (R102) -/

/-- Two strings of bits side by side are the lower one and the upper one shifted past it. -/
theorem append_eq_or_shiftLeft {n m k : Nat} (x : BitVec n) (y : BitVec m) :
    (x ++ y).setWidth k = y.setWidth k ||| x.setWidth k <<< m := by
  refine BitVec.eq_of_getLsbD_eq fun i hi => ?_
  simp only [BitVec.getLsbD_setWidth, BitVec.getLsbD_append, BitVec.getLsbD_or, BitVec.getLsbD_shiftLeft, hi]
  by_cases hm : i < m
  · simp [hm]
  · simp [hm, BitVec.getLsbD_of_ge y i (by omega), show i - m < k by omega]

/-- Byte i of a word put together is at bits 8i+7 to 8i. -/
theorem wordOf_eq_or (b0 b1 b2 b3 : Byte) :
    wordOf b0 b1 b2 b3 =
      b0.setWidth 32 ||| b1.setWidth 32 <<< 8 ||| b2.setWidth 32 <<< 16 ||| b3.setWidth 32 <<< 24 := by
  calc wordOf b0 b1 b2 b3
      = (b3 ++ b2 ++ b1 ++ b0).setWidth 32 := (BitVec.setWidth_eq _).symm
    _ = b0.setWidth 32 ||| (b1.setWidth 32 ||| (b2.setWidth 32 ||| b3.setWidth 32 <<< 8) <<< 8) <<< 8 := by
        simp only [append_eq_or_shiftLeft]
    _ = _ := by
        rw [BitVec.or_assoc, BitVec.or_assoc, BitVec.shiftLeft_or_distrib, BitVec.shiftLeft_or_distrib,
          BitVec.shiftLeft_or_distrib, ← BitVec.shiftLeft_add _ 8 8, ← BitVec.shiftLeft_add _ 8 8,
          ← BitVec.shiftLeft_add _ 8 (8 + 8)]

theorem wordBytes_getD (w : Word) {i : Nat} (h : i < 4) : (wordBytes w).getD i 0 = w.extractLsb' (8 * i) 8 := by
  obtain rfl | rfl | rfl | rfl : i = 0 ∨ i = 1 ∨ i = 2 ∨ i = 3 := by omega
  all_goals rfl

theorem read32_eq (m : Memory) (a : Word) :
    read32 m a = wordOf (readByte m (a + BitVec.ofNat 32 0)) (readByte m (a + BitVec.ofNat 32 1))
      (readByte m (a + BitVec.ofNat 32 2)) (readByte m (a + BitVec.ofNat 32 3)) := by
  rw [BitVec.add_zero]; rfl

/-! ### What a write stores -/

/-- The address i bytes past a start lies i bytes from it, also where addresses wrap modulo 2^32 (R33). -/
theorem toNat_add_ofNat_sub (a : Word) {i : Nat} (h : i < 2 ^ 32) : (a + BitVec.ofNat 32 i - a).toNat = i := by
  rw [BitVec.add_comm, BitVec.add_sub_cancel, BitVec.toNat_ofNat, Nat.mod_eq_of_lt h]

/-- Each byte of a string is read back where there is memory. -/
theorem readByte_writeBytes_stored {m : Memory} (hm : Memory.wf m = true) (a : Word) {bs : List Byte}
    (hl : bs.length ≤ 2 ^ 32) {i : Nat} (hi : i < bs.length) (hr : m.hasRam (a + BitVec.ofNat 32 i) = true) :
    readByte (writeBytes m a bs) (a + BitVec.ofNat 32 i) = bs[i] := by
  rw [readByte_writeBytes hm a bs hl hr, toNat_add_ofNat_sub a (by omega), if_pos hi, List.getD_eq_getElem _ _ hi]

/-- A write changes no byte of memory outside its range. -/
theorem writeBytes_frame {m : Memory} (hm : Memory.wf m = true) (a : Word) {bs : List Byte}
    (hl : bs.length ≤ 2 ^ 32) : SameRamBut m (writeBytes m a bs) fun x => InRange x a bs.length :=
  ⟨writeBytes_holes m a bs, fun _ hx hout => (readByte_writeBytes hm a bs hl hx).trans (if_neg hout)⟩

theorem readByte_write32_stored {m : Memory} (hm : Memory.wf m = true) (a w : Word) {i : Nat} (hi : i < 4)
    (hr : m.hasRam (a + BitVec.ofNat 32 i) = true) :
    readByte (write32 m a w) (a + BitVec.ofNat 32 i) = w.extractLsb' (8 * i) 8 := by
  rw [readByte_write32 hm a w hr, toNat_add_ofNat_sub a (by omega), if_pos hi, wordBytes_getD w hi]

/-- A word with memory behind all four of its bytes is read back. -/
theorem read32_write32 {m : Memory} (hm : Memory.wf m = true) (a w : Word)
    (hr : ∀ i < 4, m.hasRam (a + BitVec.ofNat 32 i) = true) : read32 (write32 m a w) a = w := by
  have stored (i : Nat) (hi : i < 4) := readByte_write32_stored hm a w hi (hr i hi)
  rw [read32_eq, stored 0 (by decide), stored 1 (by decide), stored 2 (by decide), stored 3 (by decide)]
  exact wordOf_wordBytes w

end Sys2Proof.Machine

section
open Sys2Proof Sys2Proof.Machine

/-- Settles O1, by the law that says what a byte reads as after a string is written. -/
theorem memoryWordsAreLittleEndian : Obligations.MemoryWordsAreLittleEndian := by
  unfold Obligations.MemoryWordsAreLittleEndian
  intro m a w hm
  exact ⟨wordOf_eq_or _ _ _ _, fun i => readByte_write32_stored hm a w, read32_write32 hm a w,
    writeBytes_frame hm a (bs := wordBytes w) (by simp [wordBytes_length]), readBytes_map m a,
    fun bs hl => ⟨writeBytes_wf hm a bs, fun i => readByte_writeBytes_stored hm a hl, writeBytes_frame hm a hl⟩⟩

end

/-! PROOFS. The encoding: the decoder undoes the encoder (O2), the encoder gives back the word of a one-word row (O3),
the words of the test vectors (O4). The page walk (O33). -/

namespace Sys2Proof

open Laws

/-! ### Decode after encode -/

/-- The decoder undoes the encoder: the round trips of the rows, put together. -/
theorem decode_encode : ∀ {i : Instr}, i.wf = true → decode (encode i) = .ok i
  | .linkEnd k rest => RoundTrip.linkEnd k rest
  | .linkItd k addr rsvd => RoundTrip.linkItd k addr rsvd
  | .linkQh k addr rsvd => RoundTrip.linkQh k addr rsvd
  | .linkSitd k addr rsvd => RoundTrip.linkSitd k addr rsvd
  | .linkFstn k addr rsvd => RoundTrip.linkFstn k addr rsvd
  | .qtdInactive k pid t => RoundTrip.qtdInactive k pid t
  | .pidOut k t => RoundTrip.pidOut k t
  | .pidIn k t => RoundTrip.pidIn k t
  | .pidSetup k t => RoundTrip.pidSetup k t
  | .pidReserved k t => RoundTrip.pidReserved k t
  | .qhHalted k hi lo => RoundTrip.qhHalted k hi lo
  | .resultCount k data => RoundTrip.resultCount k data
  | .resultNak k => RoundTrip.resultNak k
  | .resultStall k => RoundTrip.resultStall k
  | .resultIoerror k => RoundTrip.resultIoerror k
  | .resultNodev k => RoundTrip.resultNodev k
  | .resultBabble k => RoundTrip.resultBabble k
  | .resultPending k => RoundTrip.resultPending k
  | .resultCountOverlong k data => RoundTrip.resultCountOverlong k data
  | .mmioRead off w => RoundTrip.mmioRead off w
  | .mmioWrite off w v => RoundTrip.mmioWrite off w v
  | .tick now => RoundTrip.tick now
  | .complete k qh qtd r => RoundTrip.complete k qh qtd r
  | .deviceRemove dev => RoundTrip.deviceRemove dev
  | .portChange => RoundTrip.portChange
  | .powerOn => RoundTrip.powerOn
  | .stateInactive k => RoundTrip.stateInactive k
  | .stateActive k => RoundTrip.stateActive k
  | .stateWaitListHead => RoundTrip.stateWaitListHead
  | .stateFetchEntry k => RoundTrip.stateFetchEntry k
  | .stateFetchQh k => RoundTrip.stateFetchQh k
  | .stateFetchItd => RoundTrip.stateFetchItd
  | .stateFetchSitd => RoundTrip.stateFetchSitd
  | .stateAdvanceQueue k => RoundTrip.stateAdvanceQueue k
  | .stateFetchQtd k => RoundTrip.stateFetchQtd k
  | .stateExecute k => RoundTrip.stateExecute k
  | .stateExecuting k => RoundTrip.stateExecuting k
  | .stateWriteback k => RoundTrip.stateWriteback k
  | .stateHorizontalQh k => RoundTrip.stateHorizontalQh k
  | .usbcmdHcreset hi rs => RoundTrip.usbcmdHcreset hi rs
  | .usbcmdRun hi => RoundTrip.usbcmdRun hi
  | .usbcmdPse hi fls => RoundTrip.usbcmdPse hi fls
  | .usbcmdAse hi fls => RoundTrip.usbcmdAse hi fls
  | .usbcmdIaad hi fls => RoundTrip.usbcmdIaad hi fls
  | .usbcmdItc hi fls => RoundTrip.usbcmdItc hi fls
  | .writeUsbsts v => RoundTrip.writeUsbsts v
  | .writeUsbintr v => RoundTrip.writeUsbintr v
  | .writeFrindex v => RoundTrip.writeFrindex v
  | .writeCtrldssegment v => RoundTrip.writeCtrldssegment v
  | .writePeriodiclistbase v => RoundTrip.writePeriodiclistbase v
  | .writeAsynclistaddr v => RoundTrip.writeAsynclistaddr v
  | .writeConfigflag v => RoundTrip.writeConfigflag v
  | .writePortsc port v => RoundTrip.writePortsc port v
  | .readOp off => RoundTrip.readOp off
  | .fatalAsyncType => RoundTrip.fatalAsyncType
  | .fatalFstn => RoundTrip.fatalFstn
  | .fatalReservedPid => RoundTrip.fatalReservedPid
  | .fatalPageIndex => RoundTrip.fatalPageIndex

/-- A message that is the encoding of a row decodes to that row. -/
theorem decode_eq_of_encode {m : Message} {i : Instr} (hw : i.wf = true) (h : encode i = m) : decode m = .ok i :=
  h ▸ decode_encode hw

/-! ### Fields of a word -/

theorem twoBits_cases : ∀ x : BitVec 2, x = 0b00#2 ∨ x = 0b01#2 ∨ x = 0b10#2 ∨ x = 0b11#2 := by decide

theorem extractLsb'_one {n : Nat} (x : BitVec n) (s : Nat) : x.extractLsb' s 1 = BitVec.ofBool (x.getLsbD s) :=
  field_of_bits fun i hi => by
    obtain rfl : i = 0 := by omega
    simp

theorem extractLsb'_two {n : Nat} (x : BitVec n) (s : Nat) :
    x.extractLsb' s 2 = BitVec.ofBool (x.getLsbD (s + 1)) ++ BitVec.ofBool (x.getLsbD s) := by
  rw [← extractLsb'_one, ← extractLsb'_one, BitVec.extractLsb'_append_extractLsb'_eq_extractLsb' rfl]

theorem extractLsb'_three {n : Nat} (x : BitVec n) (s : Nat) :
    x.extractLsb' s 3 =
      BitVec.ofBool (x.getLsbD (s + 2)) ++ (BitVec.ofBool (x.getLsbD (s + 1)) ++ BitVec.ofBool (x.getLsbD s)) := by
  rw [← extractLsb'_two, ← extractLsb'_one, BitVec.extractLsb'_append_extractLsb'_eq_extractLsb' rfl]

/-- Two neighbouring fields are one; the positions are arguments, so that a rewrite can name them. -/
theorem extractLsb'_append (v : Word) (s n m : Nat) :
    v.extractLsb' (s + n) m ++ v.extractLsb' s n = v.extractLsb' s (m + n) :=
  BitVec.extractLsb'_append_extractLsb'_eq_extractLsb' rfl

/-! ### The fields of a USBCMD value (R502)

The rows fix the bits that tell them apart; the other bits are operands. -/

theorem hcresetValue_fields {v : Word} (h1 : v.getLsbD 1) :
    hcresetValue (v.extractLsb' 2 30) (v.extractLsb' 0 1) = v := by
  have bit : 1#1 = v.extractLsb' 1 1 := by simp only [extractLsb'_one, h1]; rfl
  rw [hcresetValue, bit, extractLsb'_append v 1 1 30, extractLsb'_append v 0 1 31]
  exact BitVec.extractLsb'_eq_self

theorem runValue_fields {v : Word} (h1 : ¬ v.getLsbD 1) (h0 : v.getLsbD 0) :
    runValue (v.extractLsb' 2 30) = v := by
  have low : 0b01#2 = v.extractLsb' 0 2 := by simp only [extractLsb'_two, h1, h0]; rfl
  rw [runValue, low, extractLsb'_append v 0 2 30]
  exact BitVec.extractLsb'_eq_self

/-- A USBCMD value with RS and HCRESET clear is its bits 31:4, the frame list size and two zeros. -/
theorem usbcmd_fields {v : Word} (h1 : ¬ v.getLsbD 1) (h0 : ¬ v.getLsbD 0) :
    v.extractLsb' 4 28 ++ v.extractLsb' 2 2 ++ 0b00#2 = v := by
  have low : 0b00#2 = v.extractLsb' 0 2 := by simp only [extractLsb'_two, h1, h0]; rfl
  rw [low, extractLsb'_append v 2 2 28, extractLsb'_append v 0 2 30]
  exact BitVec.extractLsb'_eq_self

theorem pseValue_fields {v : Word} (h1 : ¬ v.getLsbD 1) (h0 : ¬ v.getLsbD 0) (h4 : v.getLsbD 4) :
    pseValue (v.extractLsb' 5 27) (v.extractLsb' 2 2) = v := by
  have bit : 1#1 = v.extractLsb' 4 1 := by simp only [extractLsb'_one, h4]; rfl
  rw [pseValue, bit, extractLsb'_append v 4 1 27]
  exact usbcmd_fields h1 h0

theorem aseValue_fields {v : Word} (h1 : ¬ v.getLsbD 1) (h0 : ¬ v.getLsbD 0) (h4 : ¬ v.getLsbD 4)
    (h5 : v.getLsbD 5) : aseValue (v.extractLsb' 6 26) (v.extractLsb' 2 2) = v := by
  have bits : 0b10#2 = v.extractLsb' 4 2 := by simp only [extractLsb'_two, h5, h4]; rfl
  rw [aseValue, bits, extractLsb'_append v 4 2 26]
  exact usbcmd_fields h1 h0

theorem iaadValue_fields {v : Word} (h1 : ¬ v.getLsbD 1) (h0 : ¬ v.getLsbD 0) (h4 : ¬ v.getLsbD 4)
    (h5 : ¬ v.getLsbD 5) (h6 : v.getLsbD 6) :
    iaadValue (v.extractLsb' 7 25) (v.extractLsb' 2 2) = v := by
  have bits : 0b100#3 = v.extractLsb' 4 3 := by simp only [extractLsb'_three, h6, h5, h4]; rfl
  rw [iaadValue, bits, extractLsb'_append v 4 3 25]
  exact usbcmd_fields h1 h0

theorem itcValue_fields {v : Word} (h1 : ¬ v.getLsbD 1) (h0 : ¬ v.getLsbD 0) (h4 : ¬ v.getLsbD 4)
    (h5 : ¬ v.getLsbD 5) (h6 : ¬ v.getLsbD 6) :
    itcValue (v.extractLsb' 7 25) (v.extractLsb' 2 2) = v := by
  have bits : 0b000#3 = v.extractLsb' 4 3 := by simp only [extractLsb'_three, h6, h5, h4]; rfl
  rw [itcValue, bits, extractLsb'_append v 4 3 25]
  exact usbcmd_fields h1 h0

/-! ### Encode after decode: the message of a one-word row -/

theorem encode_decodeLink (k : Sched) (w : Word) : encode (decodeLink k w) = wordMsg .link k w := by
  cases hT : w.getLsbD 0 with
  | true => simp only [decodeLink, hT, if_true, encode, linkEndWord_fields w hT]
  | false =>
    have fields := linkWord_fields w hT
    obtain typ | typ | typ | typ := twoBits_cases (w.extractLsb' 1 2)
    all_goals
      rw [typ] at fields
      simp only [decodeLink, hT, typ]
      exact congrArg (wordMsg .link k) fields

theorem encode_decodeToken (k : Sched) (w : Word) : encode (decodeToken k w) = wordMsg .qtdToken k w := by
  cases hA : w.getLsbD 7 with
  | false =>
    simp only [decodeToken, hA]
    exact congrArg (wordMsg .qtdToken k) (token_fields w 0#1 hA)
  | true =>
    have fields := token_fields w 1#1 hA
    obtain pid | pid | pid | pid := twoBits_cases (w.extractLsb' 8 2)
    all_goals
      rw [pid] at fields
      simp only [decodeToken, hA, pid]
      exact congrArg (wordMsg .qtdToken k) fields

theorem encode_of_decodeQhToken {k : Sched} {w : Word} {i : Instr} (h : decodeQhToken k w = .ok i) :
    encode i = wordMsg .qhToken k w := by
  unfold decodeQhToken at h
  split_ifs at h with hH
  cases h
  exact congrArg (wordMsg .qhToken k) (qhHaltedWord_fields w hH)

theorem encode_decodeUsbcmd (v : Word) : encode (decodeUsbcmd v) = wordMsg .usbcmdWrite .async v := by
  unfold decodeUsbcmd
  split_ifs with h1 h0 h4 h5 h6
  · simp only [encode, hcresetValue_fields h1]
  · simp only [encode, runValue_fields h1 h0]
  · simp only [encode, pseValue_fields h1 h0 h4]
  · simp only [encode, aseValue_fields h1 h0 h4 h5]
  · simp only [encode, iaadValue_fields h1 h0 h4 h5 h6]
  · simp only [encode, itcValue_fields h1 h0 h4 h5 h6]

/-- What a word decodes to is encoded as that word again. The code spaces of registers have no schedule. -/
theorem encode_of_decode_word {f : Format} {k : Sched} {w : Word} {i : Instr}
    (hf : f = .link ∨ f = .qtdToken ∨ f = .qhToken ∨ f = .usbcmdWrite ∨ f = .opRead)
    (h : decode (wordMsg f k w) = .ok i) :
    ∃ k', encode i = wordMsg f k' w ∧ (f = .link ∨ f = .qtdToken ∨ f = .qhToken → k' = k) := by
  obtain rfl | rfl | rfl | rfl | rfl := hf
  all_goals simp only [decode, wordMsg, withWord_word] at h
  · cases h
    exact ⟨k, encode_decodeLink k w, fun _ => rfl⟩
  · cases h
    exact ⟨k, encode_decodeToken k w, fun _ => rfl⟩
  · exact ⟨k, encode_of_decodeQhToken h, fun _ => rfl⟩
  · cases h
    exact ⟨.async, encode_decodeUsbcmd w, by simp⟩
  · cases h
    exact ⟨.async, rfl, by simp⟩

end Sys2Proof

section
open Sys2Proof Sys2Proof.Machine

/-- Settles O2, by the round trip of each row. -/
theorem decodeEncodeRoundTrip : Obligations.DecodeEncodeRoundTrip := by
  unfold Obligations.DecodeEncodeRoundTrip
  exact fun _ hw => decode_encode hw

/-- Settles O3: in each of the five code spaces the encoder gives back the word; only the schedule of a USBCMD value or
of a read offset, which those rows do not have, may differ. -/
theorem decodedWordsLoseNoBit : Obligations.DecodedWordsLoseNoBit := by
  unfold Obligations.DecodedWordsLoseNoBit
  intro f k w i hf h
  obtain ⟨k', he, hk⟩ := encode_of_decode_word hf h
  rw [he]
  exact ⟨rfl, rfl, hk⟩

/-- Settles O33: the walk's failure, its segments and their byte addresses; gathering reads at those addresses. -/
theorem pageWalkSplitsAtPages : Obligations.PageWalkSplitsAtPages := by
  unfold Obligations.PageWalkSplitsAtPages
  refine fun d n => ⟨segments_none, fun gs hgs => ?_⟩
  obtain ⟨hsum, hpage, haddr⟩ := segments_some hgs
  exact ⟨hsum, hpage, haddr, fun m => by rw [gatherBytes_map, haddr, List.map_map]; rfl⟩

/-- Settles O4: each word of the vectors is the encoding of its row; no case of the decoder has stimulus 7
or state 13. -/
theorem specWordsDecode : Obligations.SpecWordsDecode := by
  unfold Obligations.SpecWordsDecode
  refine ⟨?_, ?_, ?_, ?_, ?_, ?_, ?_, ?_, ?_, ?stimulus, ?state⟩
  case stimulus => rfl
  case state => rfl
  all_goals exact decode_eq_of_encode rfl rfl

end

/-! PROOFS. The descriptor cache: the overlay loaded from a qTD and the nine words its flush stores (O34), and what
`reap_unused` leaves of each Queue (O45). -/

namespace Sys2Proof.Machine

/-! ### The overlay of a qTD (R245), bit by bit -/

/-- Bits 4:1 of word 1 are NakCnt, taken from RL; the rest is the qTD's. -/
theorem getLsbD_overlayOf_alt (h : Qh) (d : Qtd) {j : Nat} (hj : j < 32) :
    (overlayOf h d).alt.getLsbD j = if 1 ≤ j ∧ j < 5 then (epRl h.epchar).getLsbD (j - 1) else d.alt.getLsbD j := by
  have hmask : ∀ j : Fin 32, (~~~0x1E#32).getLsbD j.val = !decide (1 ≤ j.val ∧ j.val < 5) := by decide
  have hkeep := hmask ⟨j, hj⟩
  simp only [overlayOf, BitVec.getLsbD_or, BitVec.getLsbD_and, hkeep, BitVec.getLsbD_shiftLeft, BitVec.getLsbD_setWidth]
  split_ifs with hin
  · simp [hin, hj, show j - 1 < 32 by omega, show ¬ j < 1 by omega]
  · have hout : ¬ j < 1 → (epRl h.epchar).getLsbD (j - 1) = false := fun _ => BitVec.getLsbD_of_ge _ _ (by omega)
    by_cases h1 : j < 1
    · simp [hin, h1]
    · simp [hin, hout h1]

/-- The token is the qTD's, but for the toggle where DTC = 0 and the ping state at high speed. -/
theorem getLsbD_overlayOf_token (h : Qh) (d : Qtd) (j : Nat) :
    (overlayOf h d).token.getLsbD j =
      if j = 31 ∧ epDtc h.epchar = false then tokToggle h.ov.token
      else if j = 0 ∧ epSpeed h.epchar = 0b10#2 then tokPing h.ov.token else d.token.getLsbD j := by
  simp only [overlayOf]
  cases epDtc h.epchar with
  | true => by_cases hs : epSpeed h.epchar = 0b10#2 <;> simp [hs, getLsbD_setBit]
  | false => by_cases hs : epSpeed h.epchar = 0b10#2 <;> simp [hs, getLsbD_setBit]

theorem overlayOf_token_ping (h : Qh) (d : Qtd) : (overlayOf h d).token.getLsbD 0 =
    (if epSpeed h.epchar = 0b10#2 then h.ov.token else d.token).getLsbD 0 := by
  rw [getLsbD_overlayOf_token, if_neg (by simp), apply_ite (BitVec.getLsbD · 0)]
  exact if_congr (and_iff_right rfl) rfl rfl

theorem overlayOf_token_toggle (h : Qh) (d : Qtd) : (overlayOf h d).token.getLsbD 31 =
    (if epDtc h.epchar = false then h.ov.token else d.token).getLsbD 31 := by
  rw [getLsbD_overlayOf_token, if_neg (by simp : ¬ (31 = 0 ∧ _)), apply_ite (BitVec.getLsbD · 31)]
  exact if_congr (and_iff_right rfl) rfl rfl

/-! ### Consecutive words in memory -/

/-- Words with the offsets they are stored at, from a first offset on. -/
def withOffsets (c : Nat) (ws : List Word) : List (Nat × Word) := ws.mapIdx fun i w => (c + 4 * i, w)

theorem withOffsets_cons (c : Nat) (w : Word) (ws : List Word) :
    withOffsets c (w :: ws) = (c, w) :: withOffsets (c + 4) ws := by
  simp only [withOffsets, List.mapIdx_cons, Nat.mul_zero, Nat.add_zero, List.cons.injEq, true_and]
  congr 1
  funext i v
  rw [show c + 4 * (i + 1) = c + 4 + 4 * i by omega]

theorem writeBytes_append (m : Memory) (a : Word) (bs cs : List Byte) :
    writeBytes m a (bs ++ cs) = writeBytes (writeBytes m a bs) (a + BitVec.ofNat 32 bs.length) cs := by
  induction bs generalizing m a with
  | nil => rw [List.length_nil, BitVec.add_zero]; rfl
  | cons b bs ih =>
    rw [List.cons_append, writeBytes, ih, writeBytes, List.length_cons, Nat.add_comm, BitVec.ofNat_add,
      ← BitVec.add_assoc]
    rfl

/-- The bytes of consecutive words are stored by the words' own writes, in order. -/
theorem writeBytes_wordsBytes (m : Memory) (a : Word) (c : Nat) (ws : List Word) :
    writeBytes m (a + BitVec.ofNat 32 c) (wordsBytes ws) =
      (withOffsets c ws).foldl (fun n w => write32 n (a + BitVec.ofNat 32 w.1) w.2) m := by
  induction ws generalizing m c with
  | nil => rfl
  | cons w ws ih =>
    rw [withOffsets_cons, List.foldl_cons, ← ih, BitVec.ofNat_add, ← BitVec.add_assoc]
    exact writeBytes_append m _ (wordBytes w) (wordsBytes ws)

theorem wordsBytes_getD {ws : List Word} {i j : Nat} (hi : i < ws.length) (hj : j < 4) :
    (wordsBytes ws).getD (4 * i + j) 0 = ws[i].extractLsb' (8 * j) 8 := by
  induction ws generalizing i with
  | nil => cases hi
  | cons w ws ih =>
    have hcons : wordsBytes (w :: ws) = wordBytes w ++ wordsBytes ws := rfl
    rw [hcons]
    cases i with
    | zero =>
      rw [List.getD_append _ _ _ _ (by rw [wordBytes_length]; omega), Nat.mul_zero, Nat.zero_add, wordBytes_getD w hj]
      rfl
    | succ i =>
      rw [List.getD_append_right _ _ _ _ (by rw [wordBytes_length]; omega), wordBytes_length,
        show 4 * (i + 1) + j - 4 = 4 * i + j by omega, ih (Nat.lt_of_succ_lt_succ hi)]
      rfl

/-- Each of the consecutive words is read back where there is memory. -/
theorem read32_writeBytes_wordsBytes {m : Memory} (hm : Memory.wf m = true) (a : Word) {ws : List Word}
    (hl : 4 * ws.length ≤ 2 ^ 32) {i : Nat} (hi : i < ws.length)
    (hr : ∀ j < 4, m.hasRam (a + BitVec.ofNat 32 (4 * i) + BitVec.ofNat 32 j) = true) :
    read32 (writeBytes m a (wordsBytes ws)) (a + BitVec.ofNat 32 (4 * i)) = ws[i] := by
  have hlen := wordsBytes_length ws
  have stored (j : Nat) (hj : j < 4) :
      readByte (writeBytes m a (wordsBytes ws)) (a + BitVec.ofNat 32 (4 * i) + BitVec.ofNat 32 j) =
        ws[i].extractLsb' (8 * j) 8 := by
    rw [readByte_writeBytes hm a _ (by omega) (hr j hj), BitVec.add_assoc, ← BitVec.ofNat_add,
      toNat_add_ofNat_sub a (by omega), if_pos (by omega), wordsBytes_getD hi hj]
  rw [read32_eq, stored 0 (by decide), stored 1 (by decide), stored 2 (by decide), stored 3 (by decide)]
  exact wordOf_wordBytes _

/-! ### The flush (R248) -/

theorem flushOverlay_eq (q : Queue) (s : State) :
    flushOverlay q s = { s with mem := flushQh s.mem q.qhaddr q.qh } := rfl

/-- A flush stores words 3 to 11 one after the other. -/
theorem flushQh_eq_writes (m : Memory) (a : Word) (h : Qh) :
    flushQh m a h =
      (withOffsets 12 h.overlayWords).foldl (fun n w => write32 n (a + BitVec.ofNat 32 w.1) w.2) m :=
  writeBytes_wordsBytes m a 12 h.overlayWords

/-- Each of the words a flush stores is read back where there is memory. -/
theorem read32_flushQh {m : Memory} (hm : Memory.wf m = true) (a : Word) (h : Qh) {w : Nat × Word}
    (hw : w ∈ withOffsets 12 h.overlayWords)
    (hr : ∀ i < 4, m.hasRam (a + BitVec.ofNat 32 w.1 + BitVec.ofNat 32 i) = true) :
    read32 (flushQh m a h) (a + BitVec.ofNat 32 w.1) = w.2 := by
  obtain ⟨i, hi, rfl⟩ := List.mem_mapIdx.1 hw
  have hlen : h.overlayWords.length = 9 := rfl
  have haddr : a + BitVec.ofNat 32 (12 + 4 * i) = a + 12 + BitVec.ofNat 32 (4 * i) := by
    rw [BitVec.ofNat_add, ← BitVec.add_assoc]; rfl
  simp only [haddr] at hr ⊢
  exact read32_writeBytes_wordsBytes hm (a + 12) (by omega) hi hr

theorem flushQh_frame {m : Memory} (hm : Memory.wf m = true) (a : Word) (h : Qh) :
    SameRamBut m (flushQh m a h) fun x => InRange x (a + 12) 36 :=
  ⟨flushQh_holes m a h, fun _ hx hout => (readByte_flushQh hm a h hx).trans (if_neg hout)⟩

/-! ### What `reap_unused` leaves of a Queue (R246) -/

theorem tooOld_iff {s : State} {q : Queue} :
    tooOld s q = true ↔ s.params.queueMaxAge < s.uframeCtr - q.lastSeen := decide_eq_true_iff

theorem agedQueue_of_seen {s : State} {q : Queue} (h : q.seen = true) :
    agedQueue s q = some { q with seen := false } := if_pos h

theorem agedQueue_of_old {s : State} {q : Queue} (h : q.seen = false)
    (hold : s.params.queueMaxAge < s.uframeCtr - q.lastSeen) : agedQueue s q = none := by
  rw [agedQueue, h, if_neg (by decide), if_pos (tooOld_iff.2 hold)]

theorem agedQueue_of_young {s : State} {q : Queue} (h : q.seen = false)
    (hage : s.uframeCtr - q.lastSeen ≤ s.params.queueMaxAge) : agedQueue s q = some q := by
  rw [agedQueue, h, if_neg (by decide), if_neg fun hold => by have := tooOld_iff.1 hold; omega]

/-- A Queue is kept where it is seen or young enough. -/
theorem agedQueue_isSome (s : State) (q : Queue) :
    (agedQueue s q).isSome = (q.seen || decide (s.uframeCtr - q.lastSeen ≤ s.params.queueMaxAge)) := by
  cases h : q.seen with
  | true => rw [agedQueue_of_seen h]; rfl
  | false =>
    by_cases hage : s.uframeCtr - q.lastSeen ≤ s.params.queueMaxAge
    · rw [agedQueue_of_young h hage, decide_eq_true hage]; rfl
    · rw [agedQueue_of_old h (by omega), decide_eq_false hage]; rfl

/-- The current Queue is given up exactly where ageing the cache frees it. -/
theorem keptCur_aged {s : State} {k : Sched} {c : List Queue}
    (hfind : ∀ a, cacheFind c a = (s.queue? k a).bind (agedQueue s)) (cur : Option Word) :
    keptCur cur c = cur.filter fun a =>
      (s.queue? k a).any fun q => q.seen || decide (s.uframeCtr - q.lastSeen ≤ s.params.queueMaxAge) := by
  refine congrArg cur.filter (funext fun a => ?_)
  rw [hfind]
  cases s.queue? k a with
  | none => rfl
  | some q => exact agedQueue_isSome s q

end Sys2Proof.Machine

section
open Sys2Proof Sys2Proof.Machine

/-- Settles O34: the bits of the overlay; the flush as its word writes, in order, each read back. -/
theorem overlayLoadAndFlush : Obligations.OverlayLoadAndFlush := by
  unfold Obligations.OverlayLoadAndFlush
  refine ⟨fun q p => ?load, fun q s hm => ?flush⟩
  case load =>
    have alt {j : Nat} := getLsbD_overlayOf_alt q.qh p.qtd (j := j)
    refine ⟨rfl, rfl, rfl, rfl, rfl, ?alt0, ?nakCnt, ?altHigh, ?tokenMid, overlayOf_token_ping _ _,
      overlayOf_token_toggle _ _, field_and_clear (by decide), field_and_mask (by decide), field_and_clear (by decide),
      field_and_mask (by decide)⟩
    case alt0 => exact (alt (by decide)).trans (if_neg (by decide))
    case nakCnt =>
      refine field_of_bits fun i hi => ?_
      rw [Queue.loadOverlay, alt (by omega), if_pos (by omega), Nat.add_sub_cancel_left]
      rfl
    case altHigh => exact field_congr 5 fun j hlo hhi => (alt (by omega)).trans (if_neg (by omega))
    case tokenMid =>
      refine field_congr 1 fun j hlo hhi => (getLsbD_overlayOf_token _ _ j).trans ?_
      rw [if_neg (by omega), if_neg (by omega)]
  case flush =>
    intro m words
    have hmem : m = flushQh s.mem q.qhaddr q.qh := flushOverlay_mem q s
    have hwords : words = withOffsets 12 q.qh.overlayWords := rfl
    rw [hmem, hwords]
    exact ⟨flushOverlay_eq q s, flushQh_wf hm _ _, flushQh_eq_writes _ _ _, fun w hw => read32_flushQh hm _ _ hw,
      flushQh_frame hm _ _⟩

/-- Settles O45, by what `reap_unused` does to a good schedule: it looks up each Queue aged. -/
theorem reapUnusedAgesTheCache : Obligations.ReapUnusedAgesTheCache := by
  unfold Obligations.ReapUnusedAgesTheCache
  intro k s hinv
  obtain ⟨cs, c, u, hrun, hgood, hcur, hfind, hcancel⟩ := reapUnused_good (inv_sched hinv k)
  have hafter : ∀ a, (({ s with outbox := cs ++ s.outbox } : State).setSched k
      { s.sched k with cache := c, curQueue := u }).queue? k a = (s.queue? k a).bind (agedQueue s) := fun a => by
    rw [State.queue?, State.setSched_sched]; exact hfind a
  refine ⟨_, hrun, inv_setSched (inv_outbox _ hinv) hgood, fun a q hq hseen => ?seen, fun a q hq hseen hold => ?old,
    fun a q hq hseen hage => ?young, fun a hnone => ?absent, ⟨cs, State.setSched_outbox _ _ _, fun o => ?cancels⟩,
    ?cur, ?auto, ?fetch, ?visits, fun j hj => ?other, ?frame⟩
  case seen => rw [hafter, hq, Option.bind_some, agedQueue_of_seen hseen]
  case old => rw [hafter, hq, Option.bind_some, agedQueue_of_old hseen hold]
  case young => rw [hafter, hq, Option.bind_some, agedQueue_of_young hseen hage]
  case absent => rw [hafter, hnone, Option.bind_none]
  case cancels =>
    rw [hcancel, Cancelled]
    simp only [Bool.and_eq_true, Bool.not_eq_true', tooOld_iff]
    constructor
    · rintro ⟨q, p, d, hq, ⟨hseen, hold⟩, hp, htag, hdev, rfl⟩
      exact ⟨q, d, p, hq, hseen, hold, hp, htag, hdev, rfl⟩
    · rintro ⟨q, d, p, hq, hseen, hold, hp, htag, hdev, rfl⟩
      exact ⟨q, p, d, hq, ⟨hseen, hold⟩, hp, htag, hdev, rfl⟩
  case cur => rw [State.setSched_sched, hcur, keptCur_aged hfind]
  case other =>
    rw [State.setSched_sched_ne _ _ hj]
    cases j <;> rfl
  case frame => cases k <;> rfl
  all_goals rw [State.setSched_sched]

end

/-! PROOFS. How a Packet takes an answer (O35), and the error results (O38) and NAK (O39) presented for the
current Packet. -/

namespace Sys2Proof.Machine

/-! ### A Packet takes its answer (R288, R310) -/

theorem Packet.isIn_iff {p : Packet} : p.isIn = true ↔ tokPid p.qtd.token = 0b01#2 := beq_iff_eq

theorem settle_count (p : Packet) (data : List Byte) : p.settle (.count data) =
    { p with result := some .count, count := data.length, buf := if p.isIn then data else p.buf, tag := .finished } :=
  rfl

@[simp] theorem settle_qtd (p : Packet) (r : DevAnswer) : (p.settle r).qtd = p.qtd := by cases r <;> rfl
@[simp] theorem settle_pid (p : Packet) (r : DevAnswer) : (p.settle r).pid = p.pid := by cases r <;> rfl
@[simp] theorem settle_len (p : Packet) (r : DevAnswer) : (p.settle r).len = p.len := by cases r <;> rfl

@[simp] theorem settle_isIn (p : Packet) (r : DevAnswer) : (p.settle r).isIn = p.isIn := by
  rw [Packet.isIn, settle_qtd, Packet.isIn]

/-! ### Rows that work on the current Packet -/

section Rows

variable {k : Sched} {s : State} {q : Queue} {p : Packet}

theorem withCurrent_eq {f : Queue → Except Stop State} (h : s.current k = some q) : withCurrent k s f = f q := by
  rw [withCurrent, h]

/-- A result presented for a Packet that is not in flight is its answer (R288), and is interpreted (R375). -/
theorem answered_eq {r : DevAnswer} {f : Queue → Packet → State → Except Stop (Queue × State)}
    (hp : HasPacket s k q p) (ht : p.tag ≠ .inflight) :
    answered k r s f = toWriteback k (f (q.putPacket (p.settle r)) (p.settle r) (s.reclIfAsync k)) := by
  simp only [answered, withCurrent_eq hp.1, hp.2, if_neg ht]

theorem hasPacket_kind (h : Inv s = true) (hp : HasPacket s k q p) : q.kind = k := by
  obtain ⟨-, -, hkind, -⟩ := only_packet h hp
  exact hkind

theorem hasPacket_queue? (h : Inv s = true) (hp : HasPacket s k q p) : s.queue? k q.qhaddr = some q := by
  obtain ⟨-, -, -, hfound, -⟩ := only_packet h hp
  exact hfound

theorem hasPacket_packets (h : Inv s = true) (hp : HasPacket s k q p) : q.packets = [p] := by
  obtain ⟨hone, -⟩ := only_packet h hp
  exact hone

/-- The Packet of a good Queue is its only one (R292), so the Queue with it stored back holds what was stored. -/
theorem putPacket_settle_eq (h : Inv s = true) (hp : HasPacket s k q p) (r : DevAnswer) :
    q.putPacket (p.settle r) = { q with packets := [p.settle r] } := by
  rw [Queue.putPacket, hasPacket_packets h hp, replacePacket, if_pos (settle_qtdaddr p r).symm]

/-- What an error result leaves (R303 to R307): the Packet has the answer, its Queue the overlay token `t`, USBERRINT is
pending, RECL is set in the asynchronous schedule, and WRITEBACK follows. -/
def haltedWith (k : Sched) (s : State) (q : Queue) (p : Packet) (r : DevAnswer) (t : Word) : State :=
  ((({ s with
      recl := if k = .async then true else s.recl
      usbstsPending := s.usbstsPending ||| 0b000010#6 } : State).putQueue { q with
        packets := replacePacket q.packets (p.settle r)
        qh := { q.qh with ov := { q.qh.ov with token := t } } }).setAuto k .writeback)

theorem toWriteback_halted (r : DevAnswer) (t : Word) :
    toWriteback k (.ok ((q.putPacket (p.settle r)).setToken t, (s.reclIfAsync k).raiseIrq .usberrint)) =
      .ok (haltedWith k s q p r t) := by
  cases k <;> rfl

/-- A row of an error result that sets the overlay token by `g`. -/
theorem answered_halted {r : DevAnswer} (g : Word → Word) (hp : HasPacket s k q p) (ht : p.tag ≠ .inflight) :
    finish (answered k r s fun q _ s1 => .ok (q.setToken (g q.qh.ov.token), s1.raiseIrq .usberrint)) =
      .next (haltedWith k s q p r (g q.qh.ov.token)) := by
  rw [answered_eq hp ht]
  exact congrArg finish (toWriteback_halted r _)

/-- A COUNT above TotalBytes halts as BABBLE does (R307), by either COUNT row. -/
theorem count_overlong {data : List Byte} (hp : HasPacket s k q p) (ht : p.tag ≠ .inflight)
    (hn : (tokTotal q.qh.ov.token).toNat < data.length) :
    execResultCountOverlong k data s = .next (haltedWith k s q p (.count data) (tokBabble q.qh.ov.token)) ∧
    execResultCount k data s = .next (haltedWith k s q p (.count data) (tokBabble q.qh.ov.token)) := by
  have hn' : (tokTotal (q.putPacket (p.settle (.count data))).qh.ov.token).toNat < data.length := hn
  constructor
  · rw [execResultCountOverlong, answered_eq hp ht, if_pos hn']
    exact congrArg finish (toWriteback_halted _ _)
  · rw [execResultCount, answered_eq hp ht, resultCounted, if_neg (Nat.not_le.2 hn')]
    exact congrArg finish (toWriteback_halted _ _)

/-- NAK (R302): the Packet is freed and the pass moves on. -/
theorem resultNak_eq (hp : HasPacket s k q p) (ht : p.tag ≠ .inflight) :
    exec (.resultNak k) s = .next (nakStep k q p s) := by
  show execResultNak k s = _
  rw [execResultNak, withCurrent_eq hp.1]
  simp only [hp.2, if_neg ht]
  rfl

end Rows

end Sys2Proof.Machine

section
open Sys2Proof Sys2Proof.Machine

/-- Settles O35: the fields of a Packet that takes an answer, answer by answer. -/
theorem packetTakesItsAnswer : Obligations.PacketTakesItsAnswer := by
  unfold Obligations.PacketTakesItsAnswer
  intro p r _
  refine ⟨settle_tag p r, settle_qtdaddr p r, settle_qtd p r, settle_pid p r, settle_len p r, fun data h => ?count,
    fun h => ?nak, fun h => ?stall, fun h => ?ioerror, fun h => ?nodev, fun h => ?babble⟩
  case count =>
    subst h
    rw [settle_count]
    refine ⟨rfl, rfl, ?_⟩
    simp only [Packet.isIn_iff]
  all_goals subst h; rfl

/-- Settles O38: every error result, and a COUNT above TotalBytes, is one halt with its own token. -/
theorem errorResultsHaltTheQueue : Obligations.ErrorResultsHaltTheQueue := by
  unfold Obligations.ErrorResultsHaltTheQueue
  intro k s q p hp ht T _ _
  rw [← tokStall_eq T, ← tokIoerror_eq T, ← tokBabble_eq T]
  exact ⟨answered_halted tokStall hp ht, answered_halted tokIoerror hp ht, answered_halted tokIoerror hp ht,
    answered_halted tokBabble hp ht, fun _ hn => count_overlong hp ht hn⟩

/-- Settles O39: the row is `nakStep`, and the Queue of a good state held no other Packet. -/
theorem nakLeavesTheTransferAsItIs : Obligations.NakLeavesTheTransferAsItIs := by
  unfold Obligations.NakLeavesTheTransferAsItIs
  intro k s q p hp ht
  refine ⟨resultNak_eq hp ht, fun hinv => ?_⟩
  have hfree : q.freePacket p = { q with packets := [] } := by
    rw [Queue.freePacket, hasPacket_packets hinv hp, dropPacket_head]
  obtain ⟨hqueue, hauto, -, -, honly⟩ :=
    put_auto (q := { q with packets := [] }) (s := s) .horizontalQh (hasPacket_kind (q := q) hinv hp) fun _ => rfl
  exact ⟨_, by rw [resultNak_eq hp ht, nakStep, hfree], hqueue, hauto, honly, put_auto_rest s k _ _ _ _⟩

end

/-! PROOFS. A COUNT within TotalBytes, presented for the current Packet (O37). -/

namespace Sys2Proof.Machine

/-! ### The token and the buffer pointer after a success (R300) -/

section Token

variable (T : Word) (mp off n : Nat)

/-- The bits of the token after a success, field by field. -/
theorem getLsbD_tokCount_all {j : Nat} (hj : j < 32) : (tokCount T mp off n).getLsbD j =
    if j = 7 then false
    else if j = 31 then T.getLsbD 31 ^^ (packetCount mp n % 2 == 1)
    else if 16 ≤ j then (tokTotal T - BitVec.ofNat 15 n).getLsbD (j - 16)
    else if 12 ≤ j ∧ j < 15 then (BitVec.ofNat 3 ((tokCPage T).toNat + (off + n) / 4096)).getLsbD (j - 12)
    else T.getLsbD j := by
  have htotal : ∀ x, tokTotal (tokSetCPage T x) = tokTotal T := fun x => field_congr 16 fun i hi hi' => by
    rw [getLsbD_tokSetCPage _ _ _ (by omega), if_neg (by omega)]
  simp only [tokCount, htotal, tokToggle]
  rw [getLsbD_setBit _ _ _ _ (by omega), getLsbD_setBit _ _ _ _ (by omega), getLsbD_tokSetTotal _ _ _ hj,
    getLsbD_tokSetTotal _ _ _ (by omega), getLsbD_tokSetCPage _ _ _ hj, getLsbD_tokSetCPage _ _ _ (by omega)]
  grind

theorem tokCount_active : (tokCount T mp off n).getLsbD 7 = false := by
  rw [getLsbD_tokCount_all _ _ _ _ (by omega), if_pos rfl]

theorem tokCount_toggle : (tokCount T mp off n).getLsbD 31 = (T.getLsbD 31 ^^ (packetCount mp n % 2 == 1)) := by
  rw [getLsbD_tokCount_all _ _ _ _ (by omega), if_neg (by omega), if_pos rfl]

theorem tokCount_ioc : (tokCount T mp off n).getLsbD 15 = T.getLsbD 15 :=
  getLsbD_tokCount T mp off n 15 (by omega) (.inr rfl) (by omega)

/-- The fields below C_Page that leave Active out stay. -/
theorem tokCount_low {i w : Nat} (hi : i + w ≤ 12) (h7 : i + w ≤ 7 ∨ 7 < i) :
    (tokCount T mp off n).extractLsb' i w = T.extractLsb' i w :=
  field_congr i fun j _ _ => getLsbD_tokCount T mp off n j (by omega) (.inl (by omega)) (by omega)

theorem tokTotal_tokCount : tokTotal (tokCount T mp off n) = tokTotal T - BitVec.ofNat 15 n :=
  BitVec.eq_of_getLsbD_eq fun i hi => by
    rw [tokTotal, BitVec.getLsbD_extractLsb', decide_eq_true hi, Bool.true_and,
      getLsbD_tokCount_all _ _ _ _ (by omega), if_neg (by omega), if_neg (by omega), if_pos (by omega),
      Nat.add_sub_cancel_left]

theorem tokTotal_tokCount_toNat (hn : n ≤ (tokTotal T).toNat) :
    (tokTotal (tokCount T mp off n)).toNat = (tokTotal T).toNat - n := by
  have hlt := (tokTotal T).isLt
  rw [tokTotal_tokCount, BitVec.toNat_sub, BitVec.toNat_ofNat]
  omega

theorem tokCPage_tokCount : (tokCPage (tokCount T mp off n)).toNat = ((tokCPage T).toNat + (off + n) / 4096) % 8 := by
  have h : tokCPage (tokCount T mp off n) = BitVec.ofNat 3 ((tokCPage T).toNat + (off + n) / 4096) :=
    BitVec.eq_of_getLsbD_eq fun i hi => by
      rw [tokCPage, BitVec.getLsbD_extractLsb', decide_eq_true hi, Bool.true_and,
        getLsbD_tokCount_all _ _ _ _ (by omega), if_neg (by omega), if_neg (by omega), if_neg (by omega),
        if_pos (by omega), Nat.add_sub_cancel_left]
  rw [h, BitVec.toNat_ofNat]

/-- Whether a success leaves bytes asked for. -/
theorem tokCount_short (hn : n ≤ (tokTotal T).toNat) : tokTotal (tokCount T mp off n) ≠ 0 ↔ n < (tokTotal T).toNat := by
  have h := tokTotal_tokCount_toNat T mp off n hn
  rw [ne_eq, ← BitVec.toNat_inj, h]
  show ¬ _ = 0 ↔ _
  omega

end Token

theorem bufSetOffset_offset (b : Word) (n : Nat) :
    ((bufSetOffset b (BitVec.ofNat 12 n)).extractLsb' 0 12).toNat = n % 4096 := by
  have h : (bufSetOffset b (BitVec.ofNat 12 n)).extractLsb' 0 12 = BitVec.ofNat 12 n :=
    BitVec.eq_of_getLsbD_eq fun i hi => by
      rw [BitVec.getLsbD_extractLsb', decide_eq_true hi, Bool.true_and, Nat.zero_add,
        getLsbD_bufSetOffset _ _ _ (by omega), if_pos hi]
  rw [h, BitVec.toNat_ofNat]

theorem bufSetOffset_page (b : Word) (o : BitVec 12) : (bufSetOffset b o).extractLsb' 12 20 = b.extractLsb' 12 20 :=
  field_congr 12 fun j _ _ => by rw [getLsbD_bufSetOffset _ _ _ (by omega), if_neg (by omega)]

/-! ### The bytes an IN stores (R286) -/

section Scatter

variable {m : Memory} {d : Qtd} {gs : List Segment} {data : List Byte} {x : Word}

theorem scatterBytes_walk (h : segments d data.length = some gs) :
    scatterBytes m gs data = writeEach m ((List.range data.length).map (bufByteAddr d)) data := by
  obtain ⟨hsum, -, haddrs⟩ := segments_some h
  rw [scatterBytes_each _ _ _ hsum.symm, haddrs]

/-- A byte of the transfer, the last at its address, is the device's. -/
theorem readByte_scatterBytes_stored (hm : Memory.wf m = true) (h : segments d data.length = some gs) {j : Nat}
    (hj : j < data.length) (hlast : ∀ i < data.length, j < i → bufByteAddr d i ≠ bufByteAddr d j)
    (hr : m.hasRam (bufByteAddr d j) = true) :
    readByte (scatterBytes m gs data) (bufByteAddr d j) = data.getD j 0 := by
  have hat : ∀ i < data.length, ((List.range data.length).map (bufByteAddr d))[i]? = some (bufByteAddr d i) :=
    fun i hi => by rw [List.getElem?_map, List.getElem?_range hi, Option.map_some]
  rw [scatterBytes_walk h]
  refine (readByte_writeEach hm _ data hr).2 (by rw [List.length_map, List.length_range]) j (hat j hj)
    fun i hji hi => ?_
  by_cases hlt : i < data.length
  · rw [hat i hlt, Option.some.injEq] at hi
    exact hlast i hlt hji hi
  · rw [List.getElem?_eq_none (by rw [List.length_map, List.length_range]; omega)] at hi
    exact absurd hi nofun

/-- A byte outside the transfer is as before. -/
theorem readByte_scatterBytes_frame (hm : Memory.wf m = true) (h : segments d data.length = some gs)
    (hx : ¬ ∃ j < data.length, x = bufByteAddr d j) (hr : m.hasRam x = true) :
    readByte (scatterBytes m gs data) x = readByte m x := by
  rw [scatterBytes_walk h]
  refine (readByte_writeEach hm _ data hr).1 fun hmem => hx ?_
  obtain ⟨j, hj, he⟩ := List.mem_map.1 hmem
  exact ⟨j, List.mem_range.1 hj, he.symm⟩

end Scatter

/-! ### The row (R300, R301) -/

/-- The interrupt of a success of `n` bytes (R300, R301): USBINT where the token has IOC, or where an IN moved fewer
bytes than asked. -/
theorem successIrq_tokCount (p : Packet) (T : Word) (mp off : Nat) {n : Nat} (s : State) (hn : n ≤ (tokTotal T).toNat) :
    successIrq p.isIn (tokCount T mp off n) s = { s with
      usbstsPending := if T.getLsbD 15 = true ∨ (tokPid p.qtd.token = 0b01#2 ∧ n < (tokTotal T).toNat)
        then s.usbstsPending ||| 0b000001#6 else s.usbstsPending } := by
  have hcond : (tokIoc (tokCount T mp off n) ∨ (p.isIn ∧ tokTotal (tokCount T mp off n) ≠ 0)) ↔
      (T.getLsbD 15 = true ∨ (tokPid p.qtd.token = 0b01#2 ∧ n < (tokTotal T).toNat)) := by
    rw [tokCount_short T mp off n hn, tokIoc, tokCount_ioc, Packet.isIn_iff]
  rw [successIrq, if_congr hcond rfl rfl]
  split <;> rfl

/-- The memory that a success of Packet p with these bytes leaves (R286): an IN's bytes at the transfer's addresses. -/
structure StoresData (d : Qtd) (isIn : Prop) (data : List Byte) (m m' : Memory) : Prop where
  stored : isIn → ∀ j < data.length, (∀ i < data.length, j < i → bufByteAddr d i ≠ bufByteAddr d j) →
    m.hasRam (bufByteAddr d j) = true → readByte m' (bufByteAddr d j) = data.getD j 0
  frame : isIn → SameRamBut m m' fun x => ∃ j < data.length, x = bufByteAddr d j
  kept : ¬ isIn → m' = m

theorem storesData_scatterBytes {d : Qtd} {isIn : Prop} {data : List Byte} {m : Memory} {gs : List Segment}
    (hin : isIn) (hm : Memory.wf m = true) (h : segments d data.length = some gs) :
    StoresData d isIn data m (scatterBytes m gs data) where
  stored _ _ hj hlast hr := readByte_scatterBytes_stored hm h hj hlast hr
  frame _ := ⟨scatterBytes_holes _ _ _, fun _ hr hx => readByte_scatterBytes_frame hm h hx hr⟩
  kept hout := absurd hin hout

theorem storesData_self {d : Qtd} {isIn : Prop} {data : List Byte} {m : Memory} (hout : ¬ isIn) :
    StoresData d isIn data m m where
  stored hin := absurd hin hout
  frame hin := absurd hin hout
  kept _ := rfl

section Row

variable {k : Sched} {s : State} {q : Queue} {p : Packet} {data : List Byte}

/-- The Queue after a success (R300). -/
def countedQueue (q : Queue) (p : Packet) (data : List Byte) : Queue :=
  { q with packets := [p.settle (.count data)], qh := overlayCount q.qh data.length }

/-- What a success changes beside the schedules (R286, R300, R301, R375), with the memory `m` that it leaves. -/
def countedState (k : Sched) (s : State) (q : Queue) (p : Packet) (n : Nat) (m : Memory) : State :=
  { s with
    mem := m
    recl := if k = .async then true else s.recl
    usbstsPending := if q.qh.ov.token.getLsbD 15 = true ∨
        (tokPid p.qtd.token = 0b01#2 ∧ n < (tokTotal q.qh.ov.token).toNat)
      then s.usbstsPending ||| 0b000001#6 else s.usbstsPending }

theorem countedState_sched (n : Nat) (m : Memory) (j : Sched) : (countedState k s q p n m).sched j = s.sched j := by
  cases j <;> rfl

/-- The success itself, for the Queue `q` as the Packet has taken the answer: its page walk fits where it is an IN. -/
theorem resultSuccess_eq (hm : Memory.wf s.mem = true) (hn : data.length ≤ (tokTotal q.qh.ov.token).toNat)
    (hfit : tokPid p.qtd.token = 0b01#2 → WalkFits q.qh.ov data.length) :
    ∃ m, StoresData q.qh.ov (tokPid p.qtd.token = 0b01#2) data s.mem m ∧
      resultSuccess { q with packets := [p.settle (.count data)] } (p.settle (.count data)) data.length
        (s.reclIfAsync k) = .ok (countedQueue q p data, countedState k s q p data.length m) := by
  have hirq : ∀ m, successIrq p.isIn (overlayCount q.qh data.length).ov.token ((s.reclIfAsync k).setMem m) =
      countedState k s q p data.length m := fun m => by
    refine (successIrq_tokCount p _ _ _ _ hn).trans ?_
    cases k <;> rfl
  by_cases hin : p.isIn = true
  · obtain ⟨gs, hgs⟩ := segments_fits (hfit (Packet.isIn_iff.1 hin))
    refine ⟨_, storesData_scatterBytes (Packet.isIn_iff.1 hin) hm hgs, ?_⟩
    have hbuf : (p.settle (.count data)).buf = data := if_pos hin
    simp only [resultSuccess, settle_isIn, hgs, ← hirq, hbuf, hin, if_true, State.reclIfAsync_mem]
    rfl
  · refine ⟨s.mem, storesData_self (mt Packet.isIn_iff.2 hin), ?_⟩
    simp only [resultSuccess, settle_isIn, ← hirq, hin, if_false, Bool.false_eq_true]
    cases k <;> rfl

/-- Both COUNT rows are one success for a count within TotalBytes. -/
theorem count_within (hinv : Inv s = true) (hp : HasPacket s k q p) (ht : p.tag ≠ .inflight)
    (hn : data.length ≤ (tokTotal q.qh.ov.token).toNat)
    (hfit : tokPid p.qtd.token = 0b01#2 → WalkFits q.qh.ov data.length) :
    ∃ m t, StoresData q.qh.ov (tokPid p.qtd.token = 0b01#2) data s.mem m ∧
      t = ((countedState k s q p data.length m).putQueue (countedQueue q p data)).setAuto k .writeback ∧
      exec (.resultCount k data) s = .next t ∧ exec (.resultCountOverlong k data) s = .next t := by
  obtain ⟨m, hdata, hsuccess⟩ := resultSuccess_eq (k := k) (inv_mem hinv) hn hfit
  refine ⟨m, _, hdata, rfl, ?_, ?_⟩
  · show execResultCount k data s = _
    rw [execResultCount, answered_eq hp ht, putPacket_settle_eq hinv hp, resultCounted, if_pos hn, hsuccess]
    rfl
  · show execResultCountOverlong k data s = _
    rw [execResultCountOverlong, answered_eq hp ht, putPacket_settle_eq hinv hp, if_neg (Nat.not_lt.2 hn), hsuccess]
    rfl

end Row

end Sys2Proof.Machine

section
open Sys2Proof Sys2Proof.Machine

/-- Settles O37: the row is one success, whose token, buffer pointer, bytes and interrupt are those of `countedQueue`,
`StoresData` and `countedState`. -/
theorem countIsASuccess : Obligations.CountIsASuccess := by
  unfold Obligations.CountIsASuccess
  intro k s q p data hinv hp ht T n total off mp packets isIn hn hwalk
  obtain ⟨m, t, hdata, hstate, hrow, hover⟩ := count_within hinv hp ht hn hwalk
  obtain ⟨hqueue, hauto, hcur, hvisits, honly⟩ := put_auto (q := countedQueue q p data) .writeback
    (hasPacket_kind (q := q) hinv hp) (countedState_sched (k := k) (s := s) (q := q) (p := p) n m)
  have hmem : t.mem = m := by rw [hstate, State.setAuto_mem, State.putQueue_mem]; rfl
  rw [← hstate] at hqueue hauto hcur hvisits honly
  refine ⟨t, tokCount T mp off n, bufSetOffset q.qh.ov.buf0 (BitVec.ofNat 12 (off + n)), hrow, hover, hqueue,
    tokCount_toggle .., tokTotal_tokCount_toNat _ _ _ _ hn, tokCPage_tokCount .., tokCount_active .., tokCount_ioc ..,
    tokCount_low _ _ _ _ (by omega) (by omega), tokCount_low _ _ _ _ (by omega) (by omega), bufSetOffset_offset _ _,
    bufSetOffset_page _ _, ?stored, fun hin => ?frame, fun hout => ?kept, ?pending, hauto, ?recl, hcur, hvisits, honly,
    ?rest⟩
  case stored => rw [hmem]; exact hdata.stored
  case frame => rw [SameBytesBut, hmem]; exact hdata.frame hin
  case kept => rw [hmem]; exact hdata.kept hout
  case pending => rw [hstate, State.setAuto_usbstsPending, State.putQueue_usbstsPending]; rfl
  case recl => rw [hstate, State.setAuto_recl, State.putQueue_recl]; rfl
  case rest =>
    have hrest := put_auto_rest (countedState k s q p n m) k (countedQueue q p data) .writeback s.async s.periodic
    rw [← hstate] at hrest
    exact congrArg (fun x : State => { x with recl := s.recl, mem := s.mem, usbstsPending := s.usbstsPending }) hrest

end

/-! PROOFS. The completion callback (O53). -/

namespace Sys2Proof.Machine

/-! ### The first lines of COMPLETE (R310) -/

section Deliver

variable {s t u : State} {c : Completion}

/-- The Packet that a completion names (log 14) is in flight. -/
def InFlight (s : State) (c : Completion) : Prop :=
  ∃ y z, s.queue? c.kind c.qhaddr = some y ∧ findPacket y.packets c.qtdaddr = some z ∧ z.tag = .inflight

theorem deliver_notInflight (h : ¬ InFlight s c) : deliver c s = .error .completionNotInflight := by
  simp only [deliver]
  split
  · rfl
  · split
    · rfl
    · exact if_pos fun ht => h ⟨_, _, ‹_›, ‹_›, ht⟩

theorem deliver_pending (h : InFlight s c) (ha : c.answer = .pending) : deliver c s = .error .completionPending := by
  obtain ⟨y, z, hy, hz, ht⟩ := h
  simp only [deliver, hy, hz, ht, ha, ne_eq, not_true, if_false, if_true]

theorem deliver_final {y : Queue} {z : Packet} (hy : s.queue? c.kind c.qhaddr = some y)
    (hz : findPacket y.packets c.qtdaddr = some z) (ht : z.tag = .inflight) (ha : c.answer ≠ .pending) :
    deliver c s = .ok (s.putQueue (y.putPacket (z.settle c.answer))) := by
  simp only [deliver, hy, hz, ht, ha, ne_eq, not_true, if_false]

/-! ### The entry: the Packet finished, and the re-run (R310) -/

theorem completeEntry_of_fault {f : Fault} (h : deliver c s = .error f) : completeEntry c s = .error (.fault f) := by
  simp only [completeEntry, h]

theorem completeEntry_of_noRerun (h : deliver c s = .ok t) (hk : s.inEntry = true ∨ c.kind = .periodic) :
    completeEntry c s = .ok t := by
  have hin : t.inEntry = s.inEntry := (Walked.deliver (k := .async) h).inEntry
  simp only [completeEntry, h]
  refine if_neg fun hr => ?_
  rw [hin] at hr
  rcases hk with hk | hk
  · exact absurd (hk.symm.trans hr.1) nofun
  · exact absurd (hk.symm.trans hr.2) nofun

theorem completeEntry_of_rerun (h : deliver c s = .ok t) (hin : s.inEntry = false) (hk : c.kind = .async) :
    completeEntry c s = asyncAndCommit { t with inEntry := true } := by
  have hin' : t.inEntry = false := (Walked.deliver (k := .async) h).inEntry.trans hin
  simp only [completeEntry, h, hin', hk, and_self, if_true]

theorem asyncAndCommit_of_ok (h : asyncStep s = .ok u) :
    asyncAndCommit s = .ok { u.commitAll with inEntry := false } := by
  simp only [asyncAndCommit, h]

theorem asyncAndCommit_of_error {e : Stop} (h : asyncStep s = .error e) : asyncAndCommit s = .error e := by
  simp only [asyncAndCommit, h]

theorem asyncAndCommit_inEntry (h : asyncAndCommit s = .ok t) : t.inEntry = false := by
  obtain ⟨_, _, rfl⟩ := asyncAndCommit_ok h
  rfl

theorem ResetTo.inEntry (h : ResetTo s t) : t.inEntry = false := congrArg State.inEntry h.1

/-- An entry that ends well completes in a good state at rest, a Fatal in it by the controller reset (R530). -/
theorem finish_of_endsWell {x : Except Stop State} (h : EndsWell x) (hin : ∀ t, x = .ok t → t.inEntry = false) :
    ∃ t, finish x = .next t ∧ Inv t = true ∧ Idle t = true ∧ t.inEntry = false := by
  match x, h with
  | .ok t, ⟨hinv, hidle, _⟩ => exact ⟨t, rfl, hinv, hidle, hin t rfl⟩
  | .error (.fatal r u), ⟨hinv, _⟩ =>
    obtain ⟨t, ht, hreset⟩ := takeFatal_good r hinv
    exact ⟨t, ht, hreset.inv hinv, hreset.rested.1, hreset.inEntry⟩

theorem idle_putQueue (q : Queue) (h : Idle s = true) : Idle (s.putQueue q) = true :=
  idle_iff.2 fun k => by rw [auto_putQueue]; exact idle_iff.1 h k

/-- The re-run after a completion's Queue `q` is stored in a state at rest, with plain answers lined up, ends well. -/
theorem rerun_endsWell {q : Queue} (hinv : Inv (s.putQueue q) = true) (hi : Idle s = true)
    (hp : plainAnswers s = true) : EndsWell (asyncAndCommit { s.putQueue q with inEntry := true }) :=
  asyncAndCommit_endsWell (inv_congr hinv rfl rfl rfl rfl fun k => by cases k <;> rfl)
    (idle_congr (idle_putQueue q hi) fun k => by cases k <;> rfl) (plain_of hp (State.putQueue_answers s q))

end Deliver

end Sys2Proof.Machine

section
open Sys2Proof Sys2Proof.Machine

/-- Settles O53: the completion's first lines, then nothing more, or the re-run by what its async step does. -/
theorem completionFinishesThePacket : Obligations.CompletionFinishesThePacket := by
  unfold Obligations.CompletionFinishesThePacket
  intro k s qh qtd r
  set c : Completion := ⟨k, qh, qtd, r⟩
  refine ⟨fun hnone => ?notInFlight, fun q p hq hp ht => ?_⟩
  case notInFlight =>
    have hnot : ¬ InFlight s c := fun ⟨y, z, hy, hz, htag⟩ => hnone y z hy hz htag
    exact congrArg finish (completeEntry_of_fault (deliver_notInflight hnot))
  have hdone : r ≠ .pending → deliver c s = .ok (s.putQueue (q.putPacket (p.settle r))) :=
    deliver_final (c := c) hq hp ht
  refine ⟨fun hr => ?pending, fun hr hk => ?alone, fun hr hin hk => ?rerun⟩
  case pending => exact congrArg finish (completeEntry_of_fault (deliver_pending ⟨q, p, hq, hp, ht⟩ hr))
  case alone => exact congrArg finish (completeEntry_of_noRerun (hdone hr) hk)
  case rerun =>
    have hrun : exec (.complete k qh qtd r) s =
        finish (asyncAndCommit { s.putQueue (q.putPacket (p.settle r)) with inEntry := true }) :=
      congrArg finish (completeEntry_of_rerun (hdone hr) hin hk)
    refine ⟨fun u hu => ?ends, fun x u hu => ?fatal, fun hinv hidle hplain => ?good⟩
    case ends => exact hrun.trans (congrArg finish (asyncAndCommit_of_ok hu))
    case fatal => exact hrun.trans (congrArg finish (asyncAndCommit_of_error hu))
    case good =>
      rw [hrun]
      exact finish_of_endsWell (rerun_endsWell (inv_deliver hinv (hdone hr)) hidle hplain)
        fun _ => asyncAndCommit_inEntry

end

/-! PROOFS. A submit call in which the device completes Packets (O60). -/

namespace Sys2Proof.Machine

/-! ### Updates of states that differ in their Queues at most -/

namespace SameRegs

variable {s t : State}

/-- The second state is the first with other Queues in its schedules. -/
theorem eq_with (h : SameRegs s t) : t = { s with async := t.async, periodic := t.periodic } := by
  conv_rhs => rw [← h.rest]

theorem of_rest (h : SameRegs s t) {s' t' : State} (hs : ∀ j, s'.sched j = s.sched j) (ht : ∀ j, t'.sched j = t.sched j)
    (hrest : { t' with async := s'.async, periodic := s'.periodic } = s') : SameRegs s' t' :=
  ⟨fun j => by rw [hs, ht]; exact h.regs j, hrest⟩

theorem setSched (h : SameRegs s t) (k : Sched) {r r' : SchedRegs} (ha : r'.auto = r.auto)
    (hf : r'.fetchAddr = r.fetchAddr) (hc : r'.curQueue = r.curQueue) (hv : r'.visits = r.visits) :
    SameRegs (s.setSched k r) (t.setSched k r') := by
  refine ⟨fun j => ?_, ?_⟩
  · by_cases hj : j = k
    · subst hj
      rw [State.setSched_sched, State.setSched_sched]
      exact ⟨ha, hf, hc, hv⟩
    · rw [State.setSched_sched_ne _ _ hj, State.setSched_sched_ne _ _ hj]
      exact h.regs j
  · rw [setSched_rest, h.eq_with]
    cases k <;> rfl

theorem setAuto (h : SameRegs s t) (k : Sched) (x : AutoState) : SameRegs (s.setAuto k x) (t.setAuto k x) := by
  obtain ⟨-, hf, hc, hv⟩ := h.regs k
  exact h.setSched k rfl hf hc hv

theorem putQueue (h : SameRegs s t) (q : Queue) : SameRegs (s.putQueue q) (t.putQueue q) := by
  obtain ⟨ha, hf, hc, hv⟩ := h.regs q.kind
  exact h.setSched q.kind ha hf hc hv

theorem setMem (h : SameRegs s t) (m : Memory) : SameRegs (s.setMem m) (t.setMem m) := by
  refine h.of_rest (State.setMem_sched s m) (State.setMem_sched t m) ?_
  rw [h.eq_with]
  rfl

theorem flushOverlay (h : SameRegs s t) (q : Queue) :
    SameRegs (Machine.flushOverlay q s) (Machine.flushOverlay q t) := by
  have hmem : t.mem = s.mem := by rw [h.eq_with]
  rw [Machine.flushOverlay, Machine.flushOverlay, hmem]
  exact h.setMem _

theorem reclIfAsync (h : SameRegs s t) (k : Sched) : SameRegs (s.reclIfAsync k) (t.reclIfAsync k) := by
  refine h.of_rest (reclIfAsync_sched s k) (reclIfAsync_sched t k) ?_
  rw [h.eq_with]
  cases k <;> rfl

end SameRegs

/-! ### What follows the answer (R288, R372) -/

/-- The Packet as the answer leaves it: in flight, or settled. -/
def answeredPacket (p : Packet) : DevAnswer → Packet
  | .pending => { p with tag := .inflight }
  | r => p.settle r

section AfterAnswer

variable {k : Sched} {q : Queue} {p : Packet} {s t : State}

theorem afterAnswer_pending : afterAnswer k q p .pending s =
    (((flushOverlay (q.putPacket (answeredPacket p .pending)) s).reclIfAsync k).putQueue
      (q.putPacket (answeredPacket p .pending))).setAuto k .horizontalQh := by
  show ((flushOverlay _ (s.putQueue _)).reclIfAsync k).setAuto k .horizontalQh = _
  rw [flushOverlay_putQueue, reclIfAsync_putQueue]
  rfl

theorem afterAnswer_final {r : DevAnswer} (hr : r ≠ .pending) : afterAnswer k q p r s =
    (s.putQueue (q.putPacket (answeredPacket p r))).setAuto k .executing := by
  cases r with
  | pending => exact absurd rfl hr
  | _ => rfl

theorem afterAnswer_sameRegs (h : SameRegs s t) (r : DevAnswer) :
    SameRegs (afterAnswer k q p r s) (afterAnswer k q p r t) := by
  by_cases hr : r = .pending
  · subst hr
    rw [afterAnswer_pending, afterAnswer_pending]
    exact (((h.flushOverlay _).reclIfAsync k).putQueue _).setAuto k _
  · rw [afterAnswer_final hr, afterAnswer_final hr]
    exact (h.putQueue _).setAuto k _

/-- The answer changes the Queue whose Packet it is, and no other. -/
theorem afterAnswer_queue? (hk : q.kind = k) (r : DevAnswer) (j : Sched) (b : Word) :
    (afterAnswer k q p r s).queue? j b =
      if j = k ∧ b = q.qhaddr then some (q.putPacket (answeredPacket p r)) else s.queue? j b := by
  have key : ∀ (u : State) (x : AutoState), (∀ i, u.sched i = s.sched i) →
      ((u.putQueue (q.putPacket (answeredPacket p r))).setAuto k x).queue? j b =
        if j = k ∧ b = q.qhaddr then some (q.putPacket (answeredPacket p r)) else s.queue? j b := fun u x hu => by
    obtain ⟨hown, -, -, -, hother, -⟩ := put_auto (q := q.putPacket (answeredPacket p r)) x hk hu
    split
    · rename_i hjb
      obtain ⟨rfl, rfl⟩ := hjb
      exact hown
    · exact hother j b ‹_›
  by_cases hr : r = .pending
  · subst hr
    rw [afterAnswer_pending]
    exact key _ _ fun i => by rw [reclIfAsync_sched, flushOverlay_sched]
  · rw [afterAnswer_final hr]
    exact key _ _ fun _ => rfl

end AfterAnswer

/-! ### EXECUTE up to the submit call (R370, R287) -/

/-- The Packet as EXECUTE submits it: the outbound bytes gathered, once the overlay is flushed (R285). -/
def submittedPacket (q : Queue) (e : Packet) (gs : List Segment) (s : State) : Packet :=
  if tokPid e.qtd.token = pidInCode then e
  else { e with buf := gatherBytes (flushOverlay (q.loadOverlay e) s).mem gs }

/-- The state in which the device delivers its completions: the overlay loaded and flushed, the request given out, the
answers `rest` left. -/
def submittedState (d : DevRef) (q : Queue) (e : Packet) (gs : List Segment) (rest : List SubmitAnswer) (s : State) :
    State :=
  { ((flushOverlay (q.loadOverlay e) s).putQueue (q.loadOverlay e)).emit
      (.submit d (requestOf (q.loadOverlay e) (submittedPacket q e gs s))) with answers := rest }

section Submit

variable {k : Sched} {s : State} {q : Queue} {p e : Packet} {d : DevRef} {gs : List Segment} {cs : List Completion}
  {a : DevAnswer} {rest : List SubmitAnswer}

theorem submittedPacket_qtdaddr : (submittedPacket q e gs s).qtdaddr = e.qtdaddr := by
  unfold submittedPacket
  split <;> rfl

/-- The answers lined up do not touch what is submitted. -/
theorem submittedState_answers (l : List SubmitAnswer) :
    submittedState d q e gs rest { s with answers := l } = submittedState d q e gs rest s := by
  have h : ({ (flushOverlay (q.loadOverlay e) { s with answers := l }).putQueue (q.loadOverlay e) with
      answers := rest } : State) = { (flushOverlay (q.loadOverlay e) s).putQueue (q.loadOverlay e) with
      answers := rest } := by
    cases hk : q.kind <;> simp only [State.putQueue, State.setCache, Queue.loadOverlay, hk] <;> rfl
  exact congrArg (State.emit · (.submit d (requestOf (q.loadOverlay e) (submittedPacket q e gs s)))) h

theorem direction_eq (hdir : tokPid e.qtd.token ≠ 0b11#2) : direction e = some (tokPid e.qtd.token) := if_neg hdir

/-- EXECUTE of a Packet that R370 lets through goes on with the answer that it gets. -/
theorem executePacket_of_answer {r : DevAnswer} {t : State} (hdir : tokPid e.qtd.token ≠ 0b11#2)
    (hgs : segments e.qtd e.len.toNat = some gs)
    (h : answerFor (q.loadOverlay e) (submittedPacket q e gs s)
      ((flushOverlay (q.loadOverlay e) s).putQueue (q.loadOverlay e)) = .ok (r, t)) :
    executePacket k q e s = .ok (afterAnswer k (q.loadOverlay e) (submittedPacket q e gs s) r t) := by
  unfold submittedPacket at h ⊢
  simp only [executePacket, direction_eq hdir, hgs, h]

theorem executePacket_of_fault {f : Fault} (hdir : tokPid e.qtd.token ≠ 0b11#2)
    (hgs : segments e.qtd e.len.toNat = some gs)
    (h : answerFor (q.loadOverlay e) (submittedPacket q e gs s)
      ((flushOverlay (q.loadOverlay e) s).putQueue (q.loadOverlay e)) = .error f) :
    executePacket k q e s = .error (.fault f) := by
  unfold submittedPacket at h
  simp only [executePacket, direction_eq hdir, hgs, h]

theorem nextAnswer_cons {b : SubmitAnswer} (ha : s.answers = b :: rest) :
    s.nextAnswer = (b, { s with answers := rest }) := by
  rw [State.nextAnswer, ha]

/-- The submit call whose completions and answer are lined up (R287, R311): the device's own completion of the Packet is
the answer, where there is one. -/
theorem answerFor_lined (p : Packet) (hd : q.dev = some d) (ha : s.answers = ⟨cs, a⟩ :: rest) :
    answerFor q p s = (deliverAll q p cs none { s.emit (.submit d (requestOf q p)) with answers := rest }).map
      fun x => (x.1.getD a, x.2) := by
  have hnext : (s.emit (.submit d (requestOf q p))).nextAnswer =
      (⟨cs, a⟩, { s.emit (.submit d (requestOf q p)) with answers := rest }) := nextAnswer_cons ha
  simp only [answerFor, hd, submit, hnext]
  split <;> simp only [*, Except.map]

/-- What the device's completions do decides what EXECUTE does. -/
theorem answerFor_submitted (hd : q.dev = some d) (ha : s.answers = ⟨cs, a⟩ :: rest) :
    answerFor (q.loadOverlay e) (submittedPacket q e gs s)
      ((flushOverlay (q.loadOverlay e) s).putQueue (q.loadOverlay e)) =
    (deliverAll (q.loadOverlay e) (submittedPacket q e gs s) cs none (submittedState d q e gs rest s)).map
      fun x => (x.1.getD a, x.2) :=
  answerFor_lined _ hd (by rw [State.putQueue_answers, flushOverlay, State.setMem_answers, ha])

theorem submittedState_inv (h : Inv s = true) (hq : queueOk s.uframeCtr k q = true) :
    Inv (submittedState d q e gs rest s) = true := by
  have hq1 : queueOk (flushOverlay (q.loadOverlay e) s).uframeCtr k (q.loadOverlay e) = true := by
    rw [flushOverlay, State.setMem_uframeCtr]
    exact queueOk_congr hq rfl rfl rfl rfl rfl
  exact inv_congr (inv_putQueue (inv_flushOverlay _ h) (queueOk_kind hq1)) rfl rfl rfl rfl fun j => by cases j <;> rfl

theorem submittedState_queue? (j : Sched) (b : Word) : (submittedState d q e gs rest s).queue? j b =
    if j = q.kind ∧ b = q.qhaddr then some (q.loadOverlay e) else s.queue? j b := by
  have hflush : (flushOverlay (q.loadOverlay e) s).queue? j b = s.queue? j b := by
    rw [State.queue?, flushOverlay_sched, State.queue?]
  have hput := queue?_putQueue (flushOverlay (q.loadOverlay e) s) (q.loadOverlay e) j b
  rw [hflush] at hput
  refine Eq.trans ?_ hput
  cases j <;> rfl

end Submit

/-! ### The completions of the submit call (R310, R311) -/

section Completions

variable {c : Completion} {q : Queue} {p : Packet} {cs : List Completion} {s u : State}

theorem Completion.names_iff :
    c.names q p = true ↔ c.kind = q.kind ∧ c.qhaddr = q.qhaddr ∧ c.qtdaddr = p.qtdaddr := by
  simp only [Completion.names, Bool.and_eq_true, beq_iff_eq, and_assoc]

/-- Which Packets are in flight depends on the Queues' Packets alone. -/
theorem inFlight_congr
    (h : ∀ j b, (u.queue? j b).map Queue.packets = (s.queue? j b).map Queue.packets) : InFlight u c ↔ InFlight s c := by
  have key : ∀ {s u : State}, (∀ j b, (u.queue? j b).map Queue.packets = (s.queue? j b).map Queue.packets) →
      InFlight u c → InFlight s c := by
    rintro s u h ⟨y, z, hy, hz, ht⟩
    have hmap := h c.kind c.qhaddr
    rw [hy, Option.map_some, eq_comm, Option.map_eq_some_iff] at hmap
    obtain ⟨x, hx, hpackets⟩ := hmap
    exact ⟨x, z, hx, hpackets ▸ hz, ht⟩
  exact ⟨key h, key fun j b => (h j b).symm⟩

theorem deliverAll_own_pending (hown : c.names q p = true) (ha : c.answer = .pending) :
    deliverAll q p (c :: cs) none s = .error .completionPending := by
  simp only [deliverAll, Option.isNone_none, hown, Bool.and_self, if_true, ha]

theorem deliverAll_other_fault {f : Fault} (hown : c.names q p = false) (hd : deliver c s = .error f) :
    deliverAll q p (c :: cs) none s = .error f := by
  simp only [deliverAll, Option.isNone_none, hown, Bool.and_false, Bool.false_eq_true, if_false, hd]

end Completions

/-! ### A row that submits -/

/-- A row of EXECUTE in a good state, for a Packet that R370 lets through (its page walk is `gs`), of a Queue with a
device whose completions `cs` and answer `a` are lined up. -/
structure SubmitCall (k : Sched) (s : State) (q : Queue) (p e : Packet) (i : Instr) (d : DevRef) (gs : List Segment)
    (cs : List Completion) (a : DevAnswer) (rest : List SubmitAnswer) : Prop where
  inv : Inv s = true
  packet : HasPacket s k q p
  uninit : p.tag = .uninit
  row : ExecutesAs k p i e
  dir : tokPid e.qtd.token ≠ 0b11#2
  walk : segments e.qtd e.len.toNat = some gs
  dev : q.dev = some d
  lined : s.answers = ⟨cs, a⟩ :: rest

/-- The completion names the Packet submitted. -/
def OwnOf (k : Sched) (q : Queue) (p : Packet) (c : Completion) : Prop :=
  c.kind = k ∧ c.qhaddr = q.qhaddr ∧ c.qtdaddr = p.qtdaddr

theorem ExecutesAs.qtdaddr {k : Sched} {p e : Packet} {i : Instr} (h : ExecutesAs k p i e) : e.qtdaddr = p.qtdaddr := by
  rcases h with ⟨-, rfl⟩ | ⟨t, ⟨-, rfl⟩ | ⟨-, rfl⟩ | ⟨-, rfl⟩⟩ <;> rfl

/-- The rows of EXECUTE perform it on the current Packet (R370). -/
theorem exec_executesAs {k : Sched} {s : State} {q : Queue} {p e : Packet} {i : Instr} (hp : HasPacket s k q p)
    (ht : p.tag = .uninit) (h : ExecutesAs k p i e) : exec i s = finish (executePacket k q e s) := by
  have hwith : ∀ f, withPacket k .uninit s f = f q p := fun f => by
    rw [withPacket, withCurrent_eq hp.1]
    simp only [hp.2, ht, if_true]
  rcases h with ⟨rfl, rfl⟩ | ⟨t, ⟨rfl, rfl⟩ | ⟨rfl, rfl⟩ | ⟨rfl, rfl⟩⟩ <;> exact congrArg finish (hwith _)

namespace SubmitCall

variable {k : Sched} {s : State} {q : Queue} {p e : Packet} {i : Instr} {d : DevRef} {gs : List Segment}
  {cs : List Completion} {a : DevAnswer} {rest : List SubmitAnswer} {c : Completion}

/-- The same call with other answers lined up. -/
theorem relined (h : SubmitCall k s q p e i d gs cs a rest) (cs' : List Completion) (r : DevAnswer) :
    SubmitCall k { s with answers := ⟨cs', r⟩ :: rest } q p e i d gs cs' r rest where
  inv := h.inv
  packet := ⟨by rw [← h.packet.1]; cases k <;> rfl, h.packet.2⟩
  uninit := h.uninit
  row := h.row
  dir := h.dir
  walk := h.walk
  dev := h.dev
  lined := rfl

theorem exec_of_ok (h : SubmitCall k s q p e i d gs cs a rest) {own : Option DevAnswer} {t : State}
    (hd : deliverAll (q.loadOverlay e) (submittedPacket q e gs s) cs none (submittedState d q e gs rest s) =
      .ok (own, t)) :
    exec i s = .next (afterAnswer k (q.loadOverlay e) (submittedPacket q e gs s) (own.getD a) t) := by
  have hanswer := answerFor_submitted (e := e) (gs := gs) h.dev h.lined
  rw [hd] at hanswer
  rw [exec_executesAs h.packet h.uninit h.row, executePacket_of_answer h.dir h.walk hanswer]
  rfl

theorem exec_of_fault (h : SubmitCall k s q p e i d gs cs a rest) {f : Fault}
    (hd : deliverAll (q.loadOverlay e) (submittedPacket q e gs s) cs none (submittedState d q e gs rest s) =
      .error f) : exec i s = .fault f := by
  have hanswer := answerFor_submitted (e := e) (gs := gs) h.dev h.lined
  rw [hd] at hanswer
  rw [exec_executesAs h.packet h.uninit h.row, executePacket_of_fault h.dir h.walk hanswer]
  rfl

/-- With no completions the row goes on with the answer lined up. -/
theorem exec_plain (h : SubmitCall k s q p e i d gs cs a rest) (r : DevAnswer) :
    exec i { s with answers := ⟨[], r⟩ :: rest } =
      .next (afterAnswer k (q.loadOverlay e) (submittedPacket q e gs s) r (submittedState d q e gs rest s)) := by
  rw [(h.relined [] r).exec_of_ok rfl, submittedState_answers]
  rfl

theorem names_iff (h : SubmitCall k s q p e i d gs cs a rest) :
    c.names (q.loadOverlay e) (submittedPacket q e gs s) = true ↔ OwnOf k q p c := by
  rw [Completion.names_iff, submittedPacket_qtdaddr, h.row.qtdaddr, ← hasPacket_kind h.inv h.packet]
  rfl

theorem names_false_iff (h : SubmitCall k s q p e i d gs cs a rest) :
    c.names (q.loadOverlay e) (submittedPacket q e gs s) = false ↔ ¬ OwnOf k q p c := by
  rw [← h.names_iff, Bool.not_eq_true]

theorem queue?_eq (h : SubmitCall k s q p e i d gs cs a rest) (j : Sched) (b : Word) :
    (submittedState d q e gs rest s).queue? j b =
      if j = k ∧ b = q.qhaddr then some (q.loadOverlay e) else s.queue? j b := by
  rw [submittedState_queue?, hasPacket_kind h.inv h.packet]

/-- The overlay loaded and flushed, the same Packets are in flight. -/
theorem inFlight_iff (h : SubmitCall k s q p e i d gs cs a rest) :
    InFlight (submittedState d q e gs rest s) c ↔ InFlight s c := by
  refine inFlight_congr fun j b => ?_
  rw [h.queue?_eq]
  split
  · rename_i hjb
    obtain ⟨rfl, rfl⟩ := hjb
    rw [hasPacket_queue? h.inv h.packet]
    rfl
  · rfl

/-- A completion that names another Packet than the one submitted names one of another Queue (R292). -/
theorem other_queue (h : SubmitCall k s q p e i d gs cs a rest) (hown : ¬ OwnOf k q p c) {y : Queue} {z : Packet}
    (hy : s.queue? c.kind c.qhaddr = some y) (hz : findPacket y.packets c.qtdaddr = some z) :
    ¬ (c.kind = k ∧ c.qhaddr = q.qhaddr) := by
  rintro ⟨hk, hq⟩
  rw [hk, hq, hasPacket_queue? h.inv h.packet, Option.some.injEq] at hy
  obtain ⟨hmem, hat⟩ := findPacket_some hz
  rw [← hy, hasPacket_packets h.inv h.packet, List.mem_singleton] at hmem
  exact hown ⟨hk, hq, by rw [← hat, hmem]⟩

/-- The first completion stops the machine as R310 has it. -/
theorem first_faults (h : SubmitCall k s q p e i d gs (c :: cs) a rest) :
    (¬ OwnOf k q p c → ¬ InFlight s c → exec i s = .fault .completionNotInflight) ∧
    (OwnOf k q p c ∨ InFlight s c → c.answer = .pending → exec i s = .fault .completionPending) := by
  refine ⟨fun hown hfl => ?_, fun hor ha => ?_⟩
  · exact h.exec_of_fault (deliverAll_other_fault (h.names_false_iff.2 hown)
      (deliver_notInflight (mt h.inFlight_iff.1 hfl)))
  · by_cases hown : OwnOf k q p c
    · exact h.exec_of_fault (deliverAll_own_pending (h.names_iff.2 hown) ha)
    · exact h.exec_of_fault (deliverAll_other_fault (h.names_false_iff.2 hown)
        (deliver_pending (h.inFlight_iff.2 (hor.resolve_left hown)) ha))

/-- Completions that stop nothing: the row goes on with the answer `r` that they or the device give, and beside its own
Queue finds the others as `deliverAll_good` says. -/
theorem delivers (h : SubmitCall k s q p e i d gs cs a rest)
    (hcs : ∀ c ∈ cs, c.answer ≠ .pending ∧ (OwnOf k q p c ∨ InFlight s c))
    (hn : (cs.map fun c => (c.kind, c.qhaddr, c.qtdaddr)).Nodup) {r : DevAnswer}
    (hr : (r = a ∧ ∀ c ∈ cs, ¬ OwnOf k q p c) ∨ ∃ c ∈ cs, OwnOf k q p c ∧ r = c.answer) :
    ∃ t, exec i s = .next (afterAnswer k (q.loadOverlay e) (submittedPacket q e gs s) r t) ∧
      SameRegs (submittedState d q e gs rest s) t ∧
      (∀ c ∈ cs, ¬ OwnOf k q p c → ∀ y z, s.queue? c.kind c.qhaddr = some y → findPacket y.packets c.qtdaddr = some z →
        t.queue? c.kind c.qhaddr = some { y with packets := [z.settle c.answer] }) ∧
      ∀ j b, (¬ ∃ c ∈ cs, ¬ OwnOf k q p c ∧ c.kind = j ∧ c.qhaddr = b) →
        t.queue? j b = (submittedState d q e gs rest s).queue? j b := by
  have hfinal : ∀ c ∈ cs, c.answer ≠ .pending ∧ (c.names (q.loadOverlay e) (submittedPacket q e gs s) = true ∨
      c.names (q.loadOverlay e) (submittedPacket q e gs s) = false ∧
        InFlight (submittedState d q e gs rest s) c) := fun c hc => by
    obtain ⟨ha, hor⟩ := hcs c hc
    refine ⟨ha, ?_⟩
    by_cases hown : OwnOf k q p c
    · exact .inl (h.names_iff.2 hown)
    · exact .inr ⟨h.names_false_iff.2 hown, h.inFlight_iff.2 (hor.resolve_left hown)⟩
  obtain ⟨own, t, hd, hregs, -, hnone, hsome, hnamed, hframe⟩ := deliverAll_good _ _ cs none _
    (submittedState_inv h.inv (current_ok h.inv h.packet.1).1) nofun hfinal hn
  have hanswer : own.getD a = r := by
    rcases hr with ⟨rfl, hno⟩ | ⟨c, hc, hown, rfl⟩
    · rw [hnone fun c hc => h.names_false_iff.2 (hno c hc)]; rfl
    · rw [hsome rfl c hc (h.names_iff.2 hown)]; rfl
  refine ⟨t, hanswer ▸ h.exec_of_ok hd, hregs, fun c hc hown y z hy hz => ?_, fun j b hjb => hframe j b ?_⟩
  · refine hnamed c hc (h.names_false_iff.2 hown) y z ?_ hz
    rw [h.queue?_eq, if_neg (h.other_queue hown hy hz), hy]
  · rintro ⟨c, hc, hown, hat⟩
    exact hjb ⟨c, hc, h.names_false_iff.1 hown, hat⟩

end SubmitCall

end Sys2Proof.Machine

section
open Sys2Proof Sys2Proof.Machine

/-- Settles O60: the first completion's faults; else the row is the one without completions, on the state that the
completions of the other Packets leave. -/
theorem submitDeliversCompletions : Obligations.SubmitDeliversCompletions := by
  unfold Obligations.SubmitDeliversCompletions
  intro k s q p e i d cs a rest hinv hp ht hrow hdir hwalk hdev hlined
  obtain ⟨gs, hgs⟩ := segments_fits hwalk
  have hcall : SubmitCall k s q p e i d gs cs a rest := ⟨hinv, hp, ht, hrow, hdir, hgs, hdev, hlined⟩
  refine ⟨fun c cs' hcs => ?first, fun hcs hn r hr => ?all⟩
  case first =>
    subst hcs
    exact hcall.first_faults
  case all =>
    obtain ⟨t, hexec, hregs, hnamed, hframe⟩ := hcall.delivers hcs hn hr
    have hkind : (q.loadOverlay e).kind = k := hasPacket_kind (q := q) hinv hp
    have hsame := afterAnswer_sameRegs (k := k) (q := q.loadOverlay e) (p := submittedPacket q e gs s) hregs r
    refine ⟨_, _, hcall.exec_plain r, hexec, fun c hc hown y z hy hz => ?named, fun j b hjb => ?frame, hsame.regs,
      hsame.rest⟩
    case named =>
      rw [afterAnswer_queue? hkind]
      exact (if_neg (hcall.other_queue hown hy hz)).trans (hnamed c hc hown y z hy hz)
    case frame => rw [afterAnswer_queue? hkind, afterAnswer_queue? hkind, hframe j b hjb]

end

/-! PROOFS. The walk: `run` performs the rows of the states (O6), links and FETCH-ENTRY (O21, O22), and the steps that
only choose the next one (O26, O29, O32). -/

namespace Sys2Proof.Machine

/-! ### A Fatal inside a walk (R530) -/

/-- A controller reset leaves the same of two states that differ in registers of one schedule other than its cache. -/
theorem ResetTo.of_setSched {s t : State} {k : Sched} {r : SchedRegs} (hr : r.cache = (s.sched k).cache)
    (h : ResetTo (s.setSched k r) t) : ResetTo s t := by
  obtain ⟨hregs, cs, hout, hcs⟩ := h
  have hcache : ∀ j, ((s.setSched k r).sched j).cache = (s.sched j).cache := fun j => by
    by_cases hj : j = k
    · subst hj; rw [State.setSched_sched, hr]
    · rw [State.setSched_sched_ne _ _ hj]
  refine ⟨?_, cs, by rw [hout, State.setSched_outbox], fun o => ?_⟩
  · cases k <;> exact hregs
  · simp only [hcs, CancelOf, hcache]

/-- No interrupt is out after a controller reset (R581). -/
theorem ResetTo.irq {s t : State} (h : ResetTo s t) : t.irq = false := by
  have hsts : t.usbsts = 0 := congrArg State.usbsts h.1
  rw [State.irq, hsts]
  exact bne_eq_false_iff_eq.2 BitVec.zero_and

/-- A row that raises a Fatal in a good state takes it, also where it has changed registers of its schedule before. -/
theorem takesFatal_of_setSched {i : Instr} {s : State} {k : Sched} {r : SchedRegs} {f : FatalReason}
    (hinv : Inv s = true) (hrow : exec i s = finish (.error (.fatal f (s.setSched k r))))
    (hcache : r.cache = (s.sched k).cache) (hcur : r.curQueue = (s.sched k).curQueue) : TakesFatal i s := by
  obtain ⟨t, ht, hreset⟩ := takeFatal_good f (inv_setSched hinv (schedOk_congr (inv_sched hinv k) hcache hcur))
  exact ⟨t, hrow.trans ht, hreset.of_setSched hcache, hreset.irq⟩

theorem takesFatal_of_raise {i : Instr} {s : State} {f : FatalReason} (hinv : Inv s = true)
    (hrow : exec i s = finish (.error (.fatal f s))) : TakesFatal i s :=
  takesFatal_of_setSched (k := .async) (r := s.sched .async) hinv (by rw [State.setSched_self]; exact hrow) rfl rfl

/-! ### Links (R341) -/

section Links

variable {k : Sched} {lp : Word} {s : State}

theorem linkStep_end (hT : lp.getLsbD 0 = true) : linkStep k lp s = .ok (s.setAuto k .active) := if_pos hT

theorem linkStep_live (hT : lp.getLsbD 0 = false) : linkStep k lp s =
    if lp.extractLsb' 1 2 = 0b01#2 then .ok (linkQhStep k s)
    else if lp.extractLsb' 1 2 = 0b00#2 then linkItdStep k s
    else if lp.extractLsb' 1 2 = 0b10#2 then linkSitdStep k s
    else linkFstnStep k s := if_neg (by rw [ptrT, hT]; decide)

theorem linkStep_qh (hT : lp.getLsbD 0 = false) (htyp : lp.extractLsb' 1 2 = 0b01#2) :
    linkStep k lp s = .ok (s.setAuto k .fetchQh) := by rw [linkStep_live hT, htyp]; rfl

theorem linkStep_itd (hT : lp.getLsbD 0 = false) (htyp : lp.extractLsb' 1 2 = 0b00#2) :
    linkStep k lp s = linkItdStep k s := by rw [linkStep_live hT, htyp]; rfl

theorem linkStep_sitd (hT : lp.getLsbD 0 = false) (htyp : lp.extractLsb' 1 2 = 0b10#2) :
    linkStep k lp s = linkSitdStep k s := by rw [linkStep_live hT, htyp]; rfl

theorem linkStep_fstn (hT : lp.getLsbD 0 = false) (htyp : lp.extractLsb' 1 2 = 0b11#2) :
    linkStep k lp s = .error (.fatal .fstn s) := by rw [linkStep_live hT, htyp]; rfl

end Links

/-! ### FETCH-ENTRY (R341) -/

/-- The state in which FETCH-ENTRY decodes the link: the periodic visit is counted. -/
def countedEntry (k : Sched) (s : State) : State :=
  match k with
  | .async => s
  | .periodic => s.setVisits .periodic (s.periodic.visits + 1)

theorem fetchEntry_eq (k : Sched) (s : State) : fetchEntry k s =
    if k = .periodic ∧ s.params.maxPeriodicVisits < s.periodic.visits + 1 then .ok (boundExceeded k (countedEntry k s))
    else linkStep k (s.sched k).fetchAddr (countedEntry k s) := by
  cases k with
  | async => rw [if_neg (by rintro ⟨h, -⟩; cases h)]; rfl
  | periodic => simp only [true_and]; rfl

/-- A Fatal of FETCH-ENTRY is taken, the visit counted or not. -/
theorem fetchEntry_takesFatal {k : Sched} {s : State} {f : FatalReason} (hinv : Inv s = true)
    (hrow : exec (.stateFetchEntry k) s = finish (.error (.fatal f (countedEntry k s)))) :
    TakesFatal (.stateFetchEntry k) s := by
  cases k with
  | async => exact takesFatal_of_raise hinv hrow
  | periodic => exact takesFatal_of_setSched hinv hrow rfl rfl

/-! ### `run` and the rows of the states (R340) -/

/-- The row that a state in the middle of a walk decodes to performs the step rule of that state. -/
theorem exec_stateRow {k : Sched} {s : State} {i : Instr} (hwalk : autoIdle (s.sched k).auto = false)
    (hdec : decode (stateMsg k (s.sched k).auto) = .ok i) : exec i s = finish (walkStep k s) := by
  unfold walkStep
  cases hauto : (s.sched k).auto
  all_goals rw [hauto] at hwalk hdec
  case inactive => cases hwalk
  case active => cases hwalk
  all_goals cases k <;> cases hdec <;> rfl

theorem run_succ {k : Sched} {n : Nat} {s : State} (hwalk : autoIdle (s.sched k).auto = false) : run k (n + 1) s =
    match walkStep k s with
    | .error e => .error e
    | .ok u => run k n u := if_neg (by rw [hwalk]; decide)

end Sys2Proof.Machine

section
open Sys2Proof Sys2Proof.Machine

/-- Settles O6, by the equation of `run` and the step rule of each state. -/
theorem runPerformsTheStateRows : Obligations.RunPerformsTheStateRows := by
  unfold Obligations.RunPerformsTheStateRows
  intro k s i n hwalk hdec
  exact ⟨exec_stateRow hwalk hdec, fun u hu => by rw [run_succ hwalk, hu], fun e he => by rw [run_succ hwalk, he]⟩

/-- Settles O21: each row puts its link into `fetch_addr`; the Fatal of an FSTN resets what the link was put into. -/
theorem linkRowsSelectTheStep : Obligations.LinkRowsSelectTheStep := by
  unfold Obligations.LinkRowsSelectTheStep
  intro s k rest addr rsvd hi lo
  exact ⟨rfl, rfl, rfl, rfl, rfl, fun hinv => takesFatal_of_setSched hinv rfl rfl rfl⟩

/-- Settles O22: the visit bound first, then the T bit, then the type of the link. -/
theorem fetchEntryDecodesTheLink : Obligations.FetchEntryDecodesTheLink := by
  unfold Obligations.FetchEntryDecodesTheLink
  intro k s hinv lp counted tooMany
  have hrow : exec (.stateFetchEntry k) s =
      finish (if tooMany then .ok (boundExceeded k counted) else linkStep k lp counted) :=
    congrArg finish (fetchEntry_eq k s)
  refine ⟨fun hmany => by rw [hrow, if_pos hmany]; rfl, fun hfew => ?_⟩
  rw [if_neg hfew] at hrow
  refine ⟨fun hT => by rw [hrow, linkStep_end hT]; rfl,
    fun hT => ⟨fun htyp => ?qh, fun htyp => ⟨fun hk => ?itdFatal, fun hk => ?itd⟩,
    fun htyp => ⟨fun hk => ?sitdFatal, fun hk => ?sitd⟩, fun htyp => ?fstn⟩⟩
  case qh => rw [hrow, linkStep_qh hT htyp]; rfl
  case fstn => exact fetchEntry_takesFatal hinv (by rw [hrow, linkStep_fstn hT htyp]; rfl)
  case itdFatal => subst hk; exact fetchEntry_takesFatal hinv (by rw [hrow, linkStep_itd hT htyp]; rfl)
  case itd => subst hk; rw [hrow, linkStep_itd hT htyp]; rfl
  case sitdFatal => subst hk; exact fetchEntry_takesFatal hinv (by rw [hrow, linkStep_sitd hT htyp]; rfl)
  case sitd => subst hk; rw [hrow, linkStep_sitd hT htyp]; rfl

/-- Settles O26: the bound is checked before anything else of the visit. -/
theorem visitBoundEndsTheAsyncPass : Obligations.VisitBoundEndsTheAsyncPass := by
  unfold Obligations.VisitBoundEndsTheAsyncPass
  intro s hmany
  have hbound : fetchQh .async s = .ok (boundExceeded .async (s.setVisits .async (s.async.visits + 1))) := if_pos hmany
  exact congrArg finish hbound

/-- Settles O29: the alternate pointer, the next pointer, or neither. -/
theorem advanceQueuePicksTheNextQtd : Obligations.AdvanceQueuePicksTheNextQtd := by
  unfold Obligations.AdvanceQueuePicksTheNextQtd
  intro k s q hq takeAlt
  have hrow : exec (.stateAdvanceQueue k) s = finish (if takeAlt then
        .ok ((s.putQueue { q with qtdaddr := ptrAddr q.qh.ov.alt }).setAuto k .fetchQtd)
      else if q.qh.ov.next.getLsbD 0 = false then
        .ok ((s.putQueue { q with qtdaddr := ptrAddr q.qh.ov.next }).setAuto k .fetchQtd)
      else .ok (s.setAuto k .horizontalQh)) :=
    congrArg finish (withCurrent_eq hq)
  refine ⟨fun halt => ?_, fun halt hnext => ?_, fun halt hnext => ?_⟩
  · rw [hrow, if_pos halt]; rfl
  · rw [hrow, if_neg halt, if_pos hnext]; rfl
  · rw [hrow, if_neg halt, if_neg (by rw [hnext]; decide)]; rfl

/-- Settles O32. -/
theorem horizontalQhFollowsTheLink : Obligations.HorizontalQhFollowsTheLink := by
  unfold Obligations.HorizontalQhFollowsTheLink
  intro k s q hq
  exact congrArg finish (withCurrent_eq hq)

end

/-! PROOFS. No pass and no tick runs out of steps (O54). -/

namespace Sys2Proof.Machine

/-! ### Freeing and reaping run out of no budget (R246 to R251, R583) -/

theorem NotLong.rethrow {α β : Type} {x : Except Fault α} {f : Fault} (h : NotLong x) (e : x = .error f) :
    NotLong (.error f : Except Fault β) := by
  rintro ⟨⟩
  exact h e

theorem freeQueue_notLong (q : Queue) (s : State) : NotLong (freeQueue q s) := by
  simp only [freeQueue]
  split
  · exact (resetQueue_notLong _ _).rethrow ‹_›
  · split <;> nofun

theorem freeQueues_notLong (sel : Queue → Bool) (l : List Queue) (s : State) : NotLong (freeQueues sel l s) := by
  induction l generalizing s with
  | nil => nofun
  | cons q rest ih =>
    simp only [freeQueues]
    split
    · split
      · exact (freeQueue_notLong _ _).rethrow ‹_›
      · exact ih _
    · exact ih _

theorem reapUnusedList_notLong (l : List Queue) (s : State) : NotLong (reapUnusedList l s) := by
  induction l generalizing s with
  | nil => nofun
  | cons q rest ih =>
    simp only [reapUnusedList]
    split
    · exact ih _
    · split
      · split
        · exact (freeQueue_notLong _ _).rethrow ‹_›
        · exact ih _
      · exact ih _

theorem controllerReset_notLong (s : State) : NotLong (controllerReset s) := by
  simp only [controllerReset]
  split
  · exact (freeQueues_notLong _ _ _).rethrow ‹_›
  · split
    · exact (freeQueues_notLong _ _ _).rethrow ‹_›
    · nofun

theorem doorbell_notLong (s : State) : NotLong (doorbell s) := by
  simp only [doorbell]
  split
  · split
    · exact (freeQueues_notLong _ _ _).rethrow ‹_›
    · nofun
  · nofun

theorem asyncAfterPass_notLong (s : State) : NotLong (asyncAfterPass s) := by
  simp only [asyncAfterPass]
  split
  · exact (doorbell_notLong _).rethrow ‹_›
  · exact reapUnusedList_notLong _ _

theorem asyncEnable_notLong (s : State) : NotLong (asyncEnable s) := by
  simp only [asyncEnable]
  split
  · nofun
  · split
    · split
      · exact (freeQueues_notLong _ _ _).rethrow ‹_›
      · nofun
    · nofun

theorem periodicEnable_notLong (s : State) : NotLong (periodicEnable s) := by
  simp only [periodicEnable]
  split
  · nofun
  · split
    · nofun
    · split
      · split
        · exact (freeQueues_notLong _ _ _).rethrow ‹_›
        · nofun
      · nofun

/-! ### Entries (R404, R441, R472) -/

/-- A step of an entry that does not stop for a pass that did not end. -/
def PassEnds {α : Type} (x : Except Stop α) : Prop := x ≠ .error (.fault .passTooLong)

theorem PassEnds.rethrow {α β : Type} {x : Except Stop α} {e : Stop} (h : PassEnds x) (he : x = .error e) :
    PassEnds (.error e : Except Stop β) := by
  rintro ⟨⟩
  exact h he

theorem NotLong.stop {α β : Type} {x : Except Fault α} {f : Fault} (h : NotLong x) (e : x = .error f) :
    PassEnds (.error (.fault f) : Except Stop β) := by
  rintro ⟨⟩
  exact h e

theorem passEnds_orFault {x : Except Fault State} (h : NotLong x) : PassEnds (orFault x) := by
  cases x with
  | error f => rintro ⟨⟩; exact h rfl
  | ok t => nofun

theorem asyncPass_ends (s : State) : PassEnds (run .async (passBudget .async s.params) (asyncBegin s)) :=
  run_notLong (asyncBegin_budget s)

theorem periodicPass_ends (s : State) : PassEnds (run .periodic (passBudget .periodic s.params) (periodicBegin s)) :=
  run_notLong (periodicBegin_budget s)

theorem asyncStep_passEnds (s : State) : PassEnds (asyncStep s) := by
  simp only [asyncStep]
  split
  · exact (asyncEnable_notLong _).stop ‹_›
  · split
    · split
      · exact (asyncPass_ends _).rethrow ‹_›
      · exact passEnds_orFault (asyncAfterPass_notLong _)
    · exact passEnds_orFault (doorbell_notLong _)

theorem periodicStep_passEnds (s : State) : PassEnds (periodicStep s) := by
  simp only [periodicStep]
  split
  · exact (periodicEnable_notLong _).stop ‹_›
  · split
    · split
      · exact (periodicPass_ends _).rethrow ‹_›
      · exact passEnds_orFault (reapUnusedList_notLong _ _)
    · nofun

theorem processMicroframes_passEnds (left i : Nat) (s : State) : PassEnds (processMicroframes left i s) := by
  induction left generalizing i s with
  | zero => nofun
  | succ left ih =>
    simp only [processMicroframes]
    split
    · nofun
    · split
      · exact (periodicStep_passEnds _).rethrow ‹_›
      · exact ih _ _

theorem asyncAndCommit_passEnds (s : State) : PassEnds (asyncAndCommit s) := by
  simp only [asyncAndCommit]
  split
  · exact (asyncStep_passEnds _).rethrow ‹_›
  · nofun

theorem tickEntry_passEnds (now : Nat) (s : State) : PassEnds (tickEntry now s) := by
  simp only [tickEntry]
  split
  · exact (processMicroframes_passEnds _ _ _).rethrow ‹_›
  · exact asyncAndCommit_passEnds _

theorem outcome_ne_passTooLong {x : Except Fault State} (h : NotLong x) : outcome x ≠ .fault .passTooLong := by
  cases x with
  | error f => rintro ⟨⟩; exact h rfl
  | ok t => nofun

/-- An entry whose passes end does not stop the machine for one that did not, nor does the Fatal it may take. -/
theorem finish_ne_passTooLong {x : Except Stop State} (h : PassEnds x) : finish x ≠ .fault .passTooLong :=
  match x, h with
  | .ok _, _ => nofun
  | .error (.fault _), h => by rintro ⟨⟩; exact h rfl
  | .error (.fatal _ u), _ => outcome_ne_passTooLong (controllerReset_notLong u)

theorem tick_ne_passTooLong (s : State) (now : Nat) : exec (.tick now) s ≠ .fault .passTooLong := by
  show execTick now s ≠ _
  simp only [execTick]
  split
  · nofun
  · exact finish_ne_passTooLong (tickEntry_passEnds now s)

end Sys2Proof.Machine

section
open Sys2Proof Sys2Proof.Machine

/-- Settles O54: the measure of a walk is within the budget where a pass starts, and nothing else of a tick has one. -/
theorem everyPassEnds : Obligations.EveryPassEnds := by
  unfold Obligations.EveryPassEnds
  exact ⟨asyncPass_ends, periodicPass_ends, fun _ _ _ _ hrun => run_idle hrun, tick_ne_passTooLong⟩

end

/-! PROOFS. FETCH-QTD (O30, O31). -/

namespace Sys2Proof.Machine

/-! ### Resetting a good Queue (R242) -/

/-- A reset of a good Queue drops its Packet and its device, and cancels the Packet where it is in flight. -/
theorem resetQueue_eq {ctr : Nat} {k : Sched} {q : Queue} (s : State) (hq : queueOk ctr k q = true) :
    resetQueue q s =
      .ok ({ q with packets := [], dev := none }, { s with outbox := cancelsOf q ++ s.outbox }) := by
  obtain ⟨-, -, hlen, -, hok⟩ := queueOk_iff.1 hq
  rw [resetQueue, reverse_short hlen]
  cases hps : q.packets with
  | nil => cases hd : q.dev <;> simp [cancelPackets, cancelsOf, hd, hps]
  | cons p rest =>
    obtain rfl : rest = [] := List.length_eq_zero_iff.1 (by rw [hps, List.length_cons] at hlen; omega)
    have hfree : q.freePacket p = { q with packets := [] } := by rw [Queue.freePacket, hps, dropPacket_head]
    by_cases ht : p.tag = .inflight
    · have hdev : q.dev.isSome = true := by
        simpa [packetOk, ht] using hok p (by rw [hps]; exact List.mem_singleton_self p)
      obtain ⟨d, hd⟩ := Option.isSome_iff_exists.1 hdev
      simp [cancelPackets, cancelPacket, cancelsOf, ht, hd, hps, hfree, State.emit]
    · cases hd : q.dev <;> simp [cancelPackets, cancelPacket, cancelsOf, ht, hd, hps, hfree]

/-! ### The dispatch (R363, R364) -/

/-- Storing the current Queue as it is changes nothing. -/
theorem putQueue_current {s : State} {k : Sched} {q : Queue} (hinv : Inv s = true) (hcur : s.current k = some q) :
    s.putQueue q = s := by
  obtain ⟨-, rfl, -, -, hmem⟩ := current_ok hinv hcur
  obtain ⟨hrising, -⟩ := schedOk_iff.1 (inv_sched hinv q.kind)
  rw [State.putQueue, cachePut_self hrising hmem]
  exact State.setSched_self s q.kind

section Dispatch

variable {k : Sched} {s : State} {q : Queue} {d : Qtd}

/-- FETCH-QTD executes nothing: the qTD is inactive, or the S-mask has the microframe's bit clear (R363, R443). -/
def SkipsQtd (k : Sched) (s : State) (q : Queue) (d : Qtd) : Prop :=
  d.token.getLsbD 7 = false ∨ (k = .periodic ∧ q.qh.epcap.getLsbD (s.frindex.toNat % 8) = false)

theorem smaskBit_frindex (epcap : Word) (f : BitVec 14) :
    smaskBit epcap (f.extractLsb' 0 3) = epcap.getLsbD (f.toNat % 8) := by
  rw [smaskBit, BitVec.extractLsb'_toNat]; rfl

theorem dispatchNew_skip (h : SkipsQtd k s q d ∨ q.packets ≠ []) :
    dispatchNew k q d s = (s.putQueue q).setAuto k .horizontalQh := by
  simp only [dispatchNew, smaskBit_frindex]
  split
  · rfl
  · split
    · rfl
    · rename_i hactive hmask
      have hfull : q.packets ≠ [] := h.resolve_left (not_or.2 ⟨hactive, hmask⟩)
      exact if_pos (Nat.one_le_iff_ne_zero.2 (mt List.length_eq_zero_iff.1 hfull))

theorem dispatchNew_work (h : ¬ SkipsQtd k s q d) (hempty : q.packets = []) :
    dispatchNew k q d s = (s.putQueue { q with packets := [newPacket q.qtdaddr d] }).setAuto k .execute := by
  obtain ⟨hactive, hmask⟩ := not_or.1 h
  simp only [dispatchNew, smaskBit_frindex, Queue.allocate, hempty]
  exact (if_neg hactive).trans (if_neg hmask)

/-- No Packet: the qTD is taken up. -/
theorem dispatchQtd_free (hempty : q.packets = []) : dispatchQtd k q d s = .ok (dispatchNew k q d s) := by
  simp only [dispatchQtd, hempty, findPacket, ne_eq, not_true_eq_false, if_false]

/-- The Packet of this very qTD: it is interpreted where it is finished, else left alone. -/
theorem dispatchQtd_live {p : Packet} (hinv : Inv s = true) (hcur : s.current k = some q) (hone : q.packets = [p])
    (hlive : p.qtdaddr = q.qtdaddr ∧ p.qtd = d) :
    dispatchQtd k q d s = .ok (s.setAuto k (if p.tag = .finished then .executing else .horizontalQh)) := by
  have hfind : findPacket q.packets q.qtdaddr = some p := by rw [hone, findPacket, if_pos hlive.1]
  simp only [dispatchQtd, hfind, hlive.2, ne_eq, not_true_eq_false, if_false]
  cases p.tag with
  | inflight => rfl
  | finished => rfl
  | uninit => rw [dispatchNew_skip (.inr (by rw [hone]; nofun)), putQueue_current hinv hcur]; rfl

/-- A Packet of another qTD, or of another content: it is cancelled and dropped with the device, then the qTD is taken
up. -/
theorem dispatchQtd_stale {ctr : Nat} {p : Packet} (hq : queueOk ctr k q = true) (hone : q.packets = [p])
    (hstale : ¬ (p.qtdaddr = q.qtdaddr ∧ p.qtd = d)) : dispatchQtd k q d s =
      .ok (dispatchNew k { q with packets := [], dev := none } d { s with outbox := cancelsOf q ++ s.outbox }) := by
  by_cases hat : p.qtdaddr = q.qtdaddr
  · have hfind : findPacket q.packets q.qtdaddr = some p := by rw [hone, findPacket, if_pos hat]
    simp only [dispatchQtd, hfind, resetQueue_eq s hq]
    exact if_pos fun hqtd => hstale ⟨hat, hqtd⟩
  · have hfind : findPacket q.packets q.qtdaddr = none := by rw [hone, findPacket, if_neg hat, findPacket]
    simp only [dispatchQtd, hfind, resetQueue_eq s hq]
    exact if_pos (by rw [hone]; nofun)

/-- A Queue of a good state has no Packet or one (R292). -/
theorem packets_none_or_one {ctr : Nat} (hq : queueOk ctr k q = true) : q.packets = [] ∨ ∃ p, q.packets = [p] := by
  obtain ⟨-, -, hlen, -⟩ := queueOk_iff.1 hq
  match hps : q.packets with
  | [] => exact .inl rfl
  | [p] => exact .inr ⟨p, rfl⟩
  | p :: r :: rest => rw [hps] at hlen; simp at hlen

end Dispatch

end Sys2Proof.Machine

section
open Sys2Proof Sys2Proof.Machine

/-- Settles O30: the Packet of this qTD, a stale one, or none; the last two go on with the qTD as `dispatchNew` does. -/
theorem fetchQtdDispatches : Obligations.FetchQtdDispatches := by
  unfold Obligations.FetchQtdDispatches
  intro k s q hinv hcur d skip fresh emptied cancelled
  obtain ⟨hok, -⟩ := current_ok hinv hcur
  have hrow : exec (.stateFetchQtd k) s = finish (dispatchQtd k q d s) := congrArg finish (withCurrent_eq hcur)
  refine ⟨fun p hone hlive => ?live, fun p hone hstale => ?stale, fun hempty => ?free, packets_none_or_one hok⟩
  case live =>
    rw [hrow, dispatchQtd_live hinv hcur hone hlive]
    exact ⟨fun ht => by rw [if_pos ht]; rfl, fun ht => by rw [if_neg ht]; rfl⟩
  case stale =>
    rw [hrow, dispatchQtd_stale hok hone hstale]
    refine ⟨fun hskip => ?_, fun hwork => ?_⟩
    · exact congrArg Host.Outcome.next (dispatchNew_skip (s := cancelled) (q := emptied) (.inl hskip))
    · exact congrArg Host.Outcome.next (dispatchNew_work (s := cancelled) (q := emptied) hwork rfl)
  case free =>
    rw [hrow, dispatchQtd_free hempty]
    refine ⟨fun hskip => ?_, fun hwork => ?_⟩
    · rw [dispatchNew_skip (.inl hskip), putQueue_current hinv hcur]; rfl
    · rw [dispatchNew_work hwork hempty]; rfl

/-- Settles O31: the dispatch of FETCH-QTD on a token that is not active. -/
theorem inactiveQtdIsSkipped : Obligations.InactiveQtdIsSkipped := by
  unfold Obligations.InactiveQtdIsSkipped
  intro k s q pid t hinv hcur d
  obtain ⟨hok, -⟩ := current_ok hinv hcur
  have hinactive : d.token.getLsbD 7 = false := token_active t pid 0#1
  have hrow : exec (.qtdInactive k pid t) s = finish (dispatchQtd k q d s) := congrArg finish (withCurrent_eq hcur)
  refine ⟨fun hempty => ?_, fun p hone hstale => ?_, fun p hone hlive => ?_⟩
  · rw [hrow, dispatchQtd_free hempty, dispatchNew_skip (.inl (.inl hinactive)), putQueue_current hinv hcur]; rfl
  · rw [hrow, dispatchQtd_stale hok hone hstale, dispatchNew_skip (.inl (.inl hinactive))]; rfl
  · rw [hrow, dispatchQtd_live hinv hcur hone hlive]; rfl

end

/-! PROOFS. FETCH-QH: a visit of a queue head (O28). -/

namespace Sys2Proof.Machine

/-! ### One Queue changed -/

section OnlyQueue

variable {k : Sched} {a : Word} {q : Queue} {s t u : State}

theorem OnlyQueue.trans (h1 : OnlyQueue s t k a) (h2 : OnlyQueue t u k a) : OnlyQueue s u k a := by
  obtain ⟨hqueues1, hfetch1, hother1⟩ := h1
  obtain ⟨hqueues2, hfetch2, hother2⟩ := h2
  exact ⟨fun j b hjb => (hqueues2 j b hjb).trans (hqueues1 j b hjb), hfetch2.trans hfetch1,
    fun j hj => (hother2 j hj).trans (hother1 j hj)⟩

theorem onlyQueue_of_sched (hs : ∀ j, t.sched j = s.sched j) : OnlyQueue s t k a :=
  ⟨fun j b _ => by rw [State.queue?, hs, State.queue?], by rw [hs], fun j _ => hs j⟩

theorem onlyQueue_putQueue (s : State) (hk : q.kind = k) : OnlyQueue s (s.putQueue q) k q.qhaddr := by
  subst hk
  exact ⟨fun j b hjb => by rw [queue?_putQueue, if_neg hjb], by rw [State.putQueue_sched],
    fun j hj => State.putQueue_sched_ne _ _ hj⟩

/-- Registers of the schedule other than its cache and `fetch_addr` are not what `OnlyQueue` speaks of. -/
theorem onlyQueue_setSched {r : SchedRegs} (hc : r.cache = (s.sched k).cache)
    (hf : r.fetchAddr = (s.sched k).fetchAddr) : OnlyQueue s (s.setSched k r) k a := by
  refine ⟨fun j b _ => ?_, by rw [State.setSched_sched, hf], fun j hj => State.setSched_sched_ne _ _ hj⟩
  unfold State.queue?
  by_cases hj : j = k
  · rw [hj, State.setSched_sched, hc]
  · rw [State.setSched_sched_ne _ _ hj]

end OnlyQueue

/-! ### The parts of a visit (R353, R354, R357) -/

theorem mismatch_iff {s : State} {q : Queue} {fresh : Qh} : mismatch s q fresh = true ↔ GuestEdited s q fresh := by
  simp only [mismatch, GuestEdited, Bool.or_eq_true, Bool.and_eq_true, bne_iff_ne, Option.isSome_iff_ne_none, or_assoc]

/-- Device resolution keeps a device that is there and else looks one up (R354). -/
theorem resolveDevice_eq (s : State) (q : Queue) :
    resolveDevice s q = { q with dev := q.dev.or (s.lookupDevice (epDevAddr q.qh.epchar)) } := by
  unfold resolveDevice
  split
  · rename_i hnone
    rw [hnone]; rfl
  · rename_i d hsome
    rw [hsome, Option.some_or, ← hsome]

/-- The state that FETCH-QH dispatches to (R357). -/
def afterQh (h : Qh) : AutoState :=
  if tokHalted h.ov.token then .horizontalQh
  else if tokActive h.ov.token ∧ ptrT h.current = false ∧ ptrAddr h.current ≠ 0 then .fetchQtd
  else .advanceQueue

theorem afterQh_halted {h : Qh} (hh : tokHalted h.ov.token = true) : afterQh h = .horizontalQh := if_pos hh

theorem afterQh_active {h : Qh} (hh : tokHalted h.ov.token = false)
    (hlive : tokActive h.ov.token = true ∧ ptrT h.current = false ∧ ptrAddr h.current ≠ 0) :
    afterQh h = .fetchQtd := by
  rw [afterQh, hh, if_neg (by decide), if_pos hlive]

theorem afterQh_advance {h : Qh} (hh : tokHalted h.ov.token = false)
    (hlive : ¬ (tokActive h.ov.token = true ∧ ptrT h.current = false ∧ ptrAddr h.current ≠ 0)) :
    afterQh h = .advanceQueue := by
  rw [afterQh, hh, if_neg (by decide), if_neg hlive]

/-- The dispatch stores the Queue, with the current qTD where FETCH-QTD is to read it (R357). -/
theorem dispatchQh_eq (k : Sched) (q : Queue) (s : State) : dispatchQh k q s =
    (s.putQueue { q with qtdaddr := if afterQh q.qh = .fetchQtd then ptrAddr q.qh.current else q.qtdaddr }).setAuto k
      (afterQh q.qh) := by
  unfold dispatchQh
  split
  · rename_i hh
    rw [afterQh_halted hh]; rfl
  · rename_i hh
    split
    · rename_i hlive
      rw [afterQh_active (Bool.eq_false_iff.2 hh) hlive]; rfl
    · rename_i hlive
      rw [afterQh_advance (Bool.eq_false_iff.2 hh) hlive]; rfl

/-- The Queue a visit leaves of the Queue `q` as it was checked: the QH as read, a device, the qTD to read. -/
def fetchedQueue (fresh : Qh) (found : Option DevRef) (q : Queue) : Queue :=
  { q with
    qh := fresh
    dev := q.dev.or found
    qtdaddr := if afterQh fresh = .fetchQtd then ptrAddr fresh.current else q.qtdaddr }

/-- The state in which FETCH-QH checks the Queue `q` of `a` (R350, R403): it is stored and current, and RECL is cleared
at the head of the asynchronous list. -/
def visitingState (k : Sched) (a : Word) (fresh : Qh) (q : Queue) (s : State) : State :=
  if k = .async ∧ epHead fresh.epchar = true then ((s.putQueue q).setCur k (some a)).setRecl false
  else (s.putQueue q).setCur k (some a)

/-- What a visit leaves of a state where the Queue `q0` was checked, as `q1`, and `o` has been given out. -/
def visitedState (k : Sched) (a : Word) (fresh : Qh) (q0 q1 : Queue) (o : List Output) (s : State) : State :=
  (({ visitingState k a fresh q0 s with outbox := o } : State).putQueue
    (fetchedQueue fresh (s.lookupDevice (epDevAddr fresh.epchar)) q1)).setAuto k (afterQh fresh)

/-- The Queue `q`, marked seen, as the check of FETCH-QH leaves it (R350 to R353), and what has been given out then. -/
structure CheckedQueue (k : Sched) (s : State) (a : Word) (fresh : Qh) (q : Queue) (o : List Output) : Prop where
  kind : q.kind = k
  qhaddr : q.qhaddr = a
  seen : q.seen = true
  lastSeen : q.lastSeen = s.uframeCtr
  fromNew : s.queue? k a = none → q.packets = [] ∧ q.dev = none ∧ q.qtdaddr = 0 ∧ o = s.outbox
  fromKept : ∀ r, s.queue? k a = some r → ¬ GuestEdited s r fresh →
    q.packets = r.packets ∧ q.dev = r.dev ∧ o = s.outbox
  fromEdited : ∀ r, s.queue? k a = some r → GuestEdited s r fresh →
    q.packets = [] ∧ q.dev = none ∧ o = cancelsOf r ++ s.outbox
  qtdaddr : ∀ r, s.queue? k a = some r → q.qtdaddr = r.qtdaddr

section Visit

variable {k : Sched} {a : Word} {fresh : Qh} {q q0 q1 : Queue} {o : List Output} {s : State}

theorem visitingState_sched (j : Sched) :
    (visitingState k a fresh q s).sched j = ((s.putQueue q).setCur k (some a)).sched j := by
  unfold visitingState
  split
  · exact State.setRecl_sched _ _ _
  · rfl

theorem visitingState_recl :
    (visitingState k a fresh q s).recl = if k = .async ∧ epHead fresh.epchar = true then false else s.recl := by
  unfold visitingState
  split
  · rfl
  · rw [State.setCur_recl, State.putQueue_recl]

theorem visitingState_outbox : (visitingState k a fresh q s).outbox = s.outbox := by
  unfold visitingState
  split <;> simp

theorem visitingState_devices : (visitingState k a fresh q s).devices = s.devices := by
  unfold visitingState
  split <;> simp

theorem visitingState_rest : { visitingState k a fresh q s with
    async := s.async, periodic := s.periodic, recl := s.recl, outbox := s.outbox } = s := by
  have hput : { (s.putQueue q).setCur k (some a) with async := s.async, periodic := s.periodic } = s :=
    (setSched_rest (s.putQueue q) k _ _ _).trans (setSched_rest s q.kind _ _ _)
  have hboth := congrArg (fun x : State => { x with recl := s.recl, outbox := s.outbox }) hput
  unfold visitingState
  split <;> exact hboth

/-- A visit, field by field. -/
theorem visitedState_fields (h0 : q0.kind = k) (h0a : q0.qhaddr = a) (h1 : q1.kind = k) (h1a : q1.qhaddr = a) :
    (visitedState k a fresh q0 q1 o s).queue? k a =
      some (fetchedQueue fresh (s.lookupDevice (epDevAddr fresh.epchar)) q1) ∧
    ((visitedState k a fresh q0 q1 o s).sched k).curQueue = some a ∧
    ((visitedState k a fresh q0 q1 o s).sched k).auto = afterQh fresh ∧
    ((visitedState k a fresh q0 q1 o s).sched k).visits = (s.sched k).visits ∧
    OnlyQueue s (visitedState k a fresh q0 q1 o s) k a ∧
    (visitedState k a fresh q0 q1 o s).outbox = o ∧
    (visitedState k a fresh q0 q1 o s).recl =
      (if k = .async ∧ epHead fresh.epchar = true then false else s.recl) ∧
    { visitedState k a fresh q0 q1 o s with
      async := s.async, periodic := s.periodic, recl := s.recl, outbox := s.outbox } = s := by
  have hsched : ∀ j, ({ visitingState k a fresh q0 s with outbox := o } : State).sched j =
      ((s.putQueue q0).setCur k (some a)).sched j := fun j => by
    rw [← visitingState_sched (fresh := fresh)]
    cases j <;> rfl
  have hfirst : OnlyQueue s ((s.putQueue q0).setCur k (some a)) k a :=
    h0a ▸ (onlyQueue_putQueue s h0).trans (onlyQueue_setSched rfl rfl)
  obtain ⟨hqueue, hauto, hcur, hvisits, honly⟩ :=
    put_auto (q := fetchedQueue fresh (s.lookupDevice (epDevAddr fresh.epchar)) q1) (afterQh fresh) h1 hsched
  subst h0 h1a
  refine ⟨hqueue, hcur.trans (by rw [State.setCur_sched]), hauto,
    hvisits.trans (by rw [State.setCur_sched, State.putQueue_sched]), hfirst.trans honly, ?outbox, ?recl, ?rest⟩
  case outbox => exact (State.setAuto_outbox _ _ _).trans (State.putQueue_outbox _ _)
  case recl => exact ((State.setAuto_recl _ _ _).trans (State.putQueue_recl _ _)).trans visitingState_recl
  case rest =>
    exact (congrArg (fun x : State => { x with recl := s.recl, outbox := s.outbox })
      (put_auto_rest { visitingState q0.kind q1.qhaddr fresh q0 s with outbox := o } q0.kind _ (afterQh fresh) s.async
        s.periodic)).trans visitingState_rest

/-! ### The check (R353) and the visit (R350 to R357) -/

theorem visitingState_lookupDevice (b : BitVec 7) :
    (visitingState k a fresh q s).lookupDevice b = s.lookupDevice b := by
  rw [State.lookupDevice, visitingState_devices]; rfl

theorem guestEdited_visiting {r : Queue} (ctr : Nat) :
    GuestEdited (visitingState k a fresh q s) (r.markSeen ctr) fresh ↔ GuestEdited s r fresh := by
  unfold GuestEdited
  rw [visitingState_lookupDevice]
  rfl

/-- What follows the check of the Queue, as `q1`, in a visit that has given out `o` (R354, R357). -/
theorem dispatch_checked : dispatchQh k (resolveDevice { visitingState k a fresh q0 s with outbox := o }
      { q1 with qh := fresh }) { visitingState k a fresh q0 s with outbox := o } =
    visitedState k a fresh q0 q1 o s := by
  rw [resolveDevice_eq, dispatchQh_eq, visitedState,
    ← visitingState_lookupDevice (k := k) (a := a) (fresh := fresh) (q := q0) (s := s)]
  rfl

theorem visitingState_withOutbox (h : o = s.outbox) :
    ({ visitingState k a fresh q s with outbox := o } : State) = visitingState k a fresh q s := by
  rw [h, ← visitingState_outbox (k := k) (a := a) (fresh := fresh) (q := q)]

/-- The check of a Queue that is new, or that the guest left as it was (R353). -/
theorem checkQh_kept {created : Bool} (h : created = true ∨ ¬ GuestEdited (visitingState k a fresh q s) q fresh) :
    checkQh k q created fresh (visitingState k a fresh q s) = .ok (visitedState k a fresh q q s.outbox s) := by
  have hkept : ¬ ((!created && mismatch (visitingState k a fresh q s) q fresh) = true) := by
    rw [Bool.and_eq_true, mismatch_iff]
    rintro ⟨hold, hedited⟩
    exact h.elim (fun hnew => by rw [hnew] at hold; cases hold) fun hno => hno hedited
  rw [← dispatch_checked, visitingState_withOutbox rfl]
  simp only [checkQh, if_neg hkept]

/-- The check of a Queue that the guest edited (R353): it is reset. -/
theorem checkQh_edited {ctr : Nat} (hq : queueOk ctr k q = true)
    (h : GuestEdited (visitingState k a fresh q s) q fresh) :
    checkQh k q false fresh (visitingState k a fresh q s) =
      .ok (visitedState k a fresh q { q with packets := [], dev := none } (cancelsOf q ++ s.outbox) s) := by
  rw [← dispatch_checked]
  simp only [checkQh, Bool.not_false, Bool.true_and, if_pos (mismatch_iff.2 h), resetQueue_eq _ hq, visitingState_outbox]

/-- Past the reclamation check, the visit is the check of the Queue found or made (R350, R351). -/
theorem visitQh_eq (ha : a = ptrAddr (s.sched k).fetchAddr) (hfresh : fresh = readQh s.mem a)
    (hrecl : k = .async → epHead fresh.epchar = true → s.recl = true) :
    visitQh k s = checkQh k ((s.findOrCreate k a).1.markSeen s.uframeCtr) (s.findOrCreate k a).2 fresh
      (visitingState k a fresh ((s.findOrCreate k a).1.markSeen s.uframeCtr) s) := by
  simp only [visitQh, visitingState, ← ha, ← hfresh]
  by_cases hhead : k = .async ∧ epHead fresh.epchar = true
  · simp only [if_pos hhead, hrecl hhead.1 hhead.2, if_true]
  · simp only [if_neg hhead]

theorem checkedQueue_new (hnone : s.queue? k a = none) :
    CheckedQueue k s a fresh ((newQueue k a s.uframeCtr).markSeen s.uframeCtr) s.outbox where
  kind := rfl
  qhaddr := rfl
  seen := rfl
  lastSeen := rfl
  fromNew _ := ⟨rfl, rfl, rfl, rfl⟩
  fromKept r hr := by rw [hnone] at hr; cases hr
  fromEdited r hr := by rw [hnone] at hr; cases hr
  qtdaddr r hr := by rw [hnone] at hr; cases hr

theorem checkedQueue_kept {r : Queue} (hfound : s.queue? k a = some r) (hkind : r.kind = k) (hqhaddr : r.qhaddr = a)
    (hkept : ¬ GuestEdited s r fresh) : CheckedQueue k s a fresh (r.markSeen s.uframeCtr) s.outbox where
  kind := hkind
  qhaddr := hqhaddr
  seen := rfl
  lastSeen := rfl
  fromNew hnone := by rw [hfound] at hnone; cases hnone
  fromKept r' hr _ := by rw [hfound] at hr; cases hr; exact ⟨rfl, rfl, rfl⟩
  fromEdited r' hr hedited := by rw [hfound] at hr; cases hr; exact absurd hedited hkept
  qtdaddr r' hr := by rw [hfound] at hr; cases hr; rfl

theorem checkedQueue_edited {r : Queue} (hfound : s.queue? k a = some r) (hkind : r.kind = k) (hqhaddr : r.qhaddr = a)
    (hedited : GuestEdited s r fresh) :
    CheckedQueue k s a fresh { r.markSeen s.uframeCtr with packets := [], dev := none } (cancelsOf r ++ s.outbox) where
  kind := hkind
  qhaddr := hqhaddr
  seen := rfl
  lastSeen := rfl
  fromNew hnone := by rw [hfound] at hnone; cases hnone
  fromKept r' hr hkept := by rw [hfound] at hr; cases hr; exact absurd hedited hkept
  fromEdited r' hr _ := by rw [hfound] at hr; cases hr; exact ⟨rfl, rfl, rfl⟩
  qtdaddr r' hr := by rw [hfound] at hr; cases hr; rfl

/-- A visit of a queue head in a good state, past the reclamation check. -/
theorem visitQh_checked (hinv : Inv s = true) (ha : a = ptrAddr (s.sched k).fetchAddr) (hfresh : fresh = readQh s.mem a)
    (hrecl : k = .async → epHead fresh.epchar = true → s.recl = true) :
    ∃ q0 q1 o, q0.kind = k ∧ q0.qhaddr = a ∧ CheckedQueue k s a fresh q1 o ∧
      visitQh k s = .ok (visitedState k a fresh q0 q1 o s) := by
  rw [visitQh_eq ha hfresh hrecl]
  cases hfound : s.queue? k a with
  | none =>
    rw [findOrCreate_new hfound]
    exact ⟨_, _, _, rfl, rfl, checkedQueue_new hfound, checkQh_kept (.inl rfl)⟩
  | some r =>
    rw [findOrCreate_found hfound]
    obtain ⟨hok, hkind, hqhaddr, -⟩ := queue?_ok hinv hfound
    by_cases hedited : GuestEdited s r fresh
    · exact ⟨r.markSeen s.uframeCtr, _, _, hkind, hqhaddr, checkedQueue_edited hfound hkind hqhaddr hedited,
        checkQh_edited (queueOk_markSeen hok) ((guestEdited_visiting _).2 hedited)⟩
    · exact ⟨r.markSeen s.uframeCtr, _, _, hkind, hqhaddr, checkedQueue_kept hfound hkind hqhaddr hedited,
        checkQh_kept (.inr (mt (guestEdited_visiting _).1 hedited))⟩

end Visit

/-! ### The visit counted (R352) -/

/-- The state in which FETCH-QH visits the queue head: the asynchronous visit is counted. -/
def countedVisit (k : Sched) (s : State) : State :=
  match k with
  | .async => s.setVisits .async (s.async.visits + 1)
  | .periodic => s

section Counted

variable {k : Sched} {a : Word} {fresh : Qh} {q : Queue} {o : List Output} {s t : State}

theorem fetchQh_eq (h : k = .async → s.async.visits + 1 ≤ s.params.maxQhVisits) :
    fetchQh k s = visitQh k (countedVisit k s) := by
  cases k with
  | async => exact if_neg (Nat.not_lt.2 (h rfl))
  | periodic => rfl

theorem countedVisit_inv (h : Inv s = true) : Inv (countedVisit k s) = true := by
  cases k with
  | async => exact inv_setVisits _ _ h
  | periodic => exact h

theorem countedVisit_visits :
    ((countedVisit k s).sched k).visits = (s.sched k).visits + if k = .async then 1 else 0 := by
  cases k <;> rfl

/-- The count of visits is none of what a visit looks at. -/
theorem checkedQueue_counted (h : CheckedQueue k (countedVisit k s) a fresh q o) : CheckedQueue k s a fresh q o := by
  cases k <;> exact ⟨h.kind, h.qhaddr, h.seen, h.lastSeen, h.fromNew, h.fromKept, h.fromEdited, h.qtdaddr⟩

theorem onlyQueue_counted (h : OnlyQueue (countedVisit k s) t k a) : OnlyQueue s t k a := by
  cases k with
  | periodic => exact h
  | async => exact (onlyQueue_setSched (r := { s.async with visits := s.async.visits + 1 }) rfl rfl).trans h

theorem rest_counted (h : { t with
      async := (countedVisit k s).async, periodic := (countedVisit k s).periodic, recl := (countedVisit k s).recl
      outbox := (countedVisit k s).outbox } = countedVisit k s) :
    { t with async := s.async, periodic := s.periodic, recl := s.recl, outbox := s.outbox } = s := by
  cases k with
  | periodic => exact h
  | async => exact congrArg (fun x : State => { x with async := s.async }) h

/-- FETCH-QH within the visit bound and past the reclamation check, in a good state: the Queue of `a` as the check
leaves it, and the state the visit leaves, field by field. -/
theorem fetchQh_checked (hinv : Inv s = true) (ha : a = ptrAddr (s.sched k).fetchAddr) (hfresh : fresh = readQh s.mem a)
    (hbound : k = .async → s.async.visits + 1 ≤ s.params.maxQhVisits)
    (hrecl : k = .async → epHead fresh.epchar = true → s.recl = true) :
    ∃ q o t, CheckedQueue k s a fresh q o ∧ exec (.stateFetchQh k) s = .next t ∧
      t.queue? k a = some (fetchedQueue fresh (s.lookupDevice (epDevAddr fresh.epchar)) q) ∧
      (t.sched k).curQueue = some a ∧ (t.sched k).auto = afterQh fresh ∧
      (t.sched k).visits = (s.sched k).visits + (if k = .async then 1 else 0) ∧ OnlyQueue s t k a ∧ t.outbox = o ∧
      t.recl = (if k = .async ∧ epHead fresh.epchar = true then false else s.recl) ∧
      { t with async := s.async, periodic := s.periodic, recl := s.recl, outbox := s.outbox } = s := by
  obtain ⟨q0, q1, o, h0, h0a, hchecked, hvisit⟩ := visitQh_checked (s := countedVisit k s) (countedVisit_inv hinv)
    (ha.trans (by cases k <;> rfl)) (hfresh.trans (by cases k <;> rfl))
    (fun hk hhead => (hrecl hk hhead).symm ▸ (by cases k <;> rfl))
  obtain ⟨hqueue, hcur, hauto, hvisits, honly, hout, hreclaim, hrest⟩ :=
    visitedState_fields (fresh := fresh) (o := o) (s := countedVisit k s) h0 h0a hchecked.kind hchecked.qhaddr
  refine ⟨q1, o, _, checkedQueue_counted hchecked, ?_, hqueue.trans (by cases k <;> rfl), hcur, hauto,
    hvisits.trans countedVisit_visits, onlyQueue_counted honly, hout, hreclaim.trans (by cases k <;> rfl),
    rest_counted hrest⟩
  show finish (fetchQh k s) = _
  rw [fetchQh_eq hbound, hvisit]
  rfl

end Counted

end Sys2Proof.Machine

section
open Sys2Proof Sys2Proof.Machine

/-- Settles O28: the Queue new, kept or edited as the check leaves it, then a device, the dispatch and the frame. -/
theorem fetchQhVisitsTheQueueHead : Obligations.FetchQhVisitsTheQueueHead := by
  unfold Obligations.FetchQhVisitsTheQueueHead
  intro k s a fresh hinv ha hfresh hguard found
  obtain ⟨q, o, t, hchecked, hrow, hqueue, hcur, hauto, hvisits, honly, hout, hrecl, hrest⟩ :=
    fetchQh_checked hinv ha hfresh (fun hk => (hguard hk).1) (fun hk => (hguard hk).2)
  refine ⟨t, _, hrow, hqueue, hcur, hchecked.kind, hchecked.qhaddr, rfl, hchecked.seen, hchecked.lastSeen,
    fun hnone => ?new, fun r hr hkept => ?kept, fun r hr hedited => ?edited, fun hhalted => ?halted,
    fun hrun => ⟨fun hlive => ?active, fun hdead => ?advance⟩, fun hother => ?qtdaddr, hrecl, hvisits, honly, hrest⟩
  case new =>
    obtain ⟨hpackets, hdev, -, rfl⟩ := hchecked.fromNew hnone
    exact ⟨hpackets, congrArg (Option.or · found) hdev, hout⟩
  case kept =>
    obtain ⟨hpackets, hdev, rfl⟩ := hchecked.fromKept r hr hkept
    refine ⟨hpackets, fun hnodev => ?_, fun hsome => ?_, hout⟩
    · exact congrArg (Option.or · found) (hdev.trans hnodev)
    · obtain ⟨d, hd⟩ := Option.ne_none_iff_exists'.1 hsome
      exact (congrArg (Option.or · found) (hdev.trans hd)).trans hd.symm
  case edited =>
    obtain ⟨hpackets, hdev, rfl⟩ := hchecked.fromEdited r hr hedited
    exact ⟨hpackets, congrArg (Option.or · found) hdev, hout⟩
  case halted => rw [hauto, afterQh_halted hhalted]
  case active =>
    have hfetch := afterQh_active hrun hlive
    exact ⟨hauto.trans hfetch, if_pos hfetch⟩
  case advance => rw [hauto, afterQh_advance hrun hdead]
  case qtdaddr =>
    rw [hauto] at hother
    have hsame : (fetchedQueue fresh found q).qtdaddr = q.qtdaddr := if_neg hother
    refine ⟨fun hnone => ?_, fun r hr => hsame.trans (hchecked.qtdaddr r hr)⟩
    obtain ⟨-, -, hzero, -⟩ := hchecked.fromNew hnone
    exact hsame.trans hzero

end

/-! PROOFS. The executor's steps: EXECUTE (O36), PENDING (O40), EXECUTING (O41) and WRITEBACK (O42). -/

namespace Sys2Proof.Machine

/-! ### Rows that work on the current Packet -/

section CurrentPacket

variable {k : Sched} {s : State} {q : Queue} {p : Packet}

theorem withPacket_eq {g : PacketTag} {f : Queue → Packet → Except Stop State} (hp : HasPacket s k q p)
    (ht : p.tag = g) : withPacket k g s f = f q p := by
  rw [withPacket, withCurrent_eq hp.1]
  simp only [hp.2, ht, if_true]

theorem replacePacket_one {r : Packet} (h : r.qtdaddr = p.qtdaddr) : replacePacket [p] r = [r] := if_pos h.symm

/-! ### EXECUTING (R375) -/

/-- EXECUTING interprets every result but NAK as RECL is set, and WRITEBACK follows. -/
theorem interpret_eq {r : ResultTag} (hr : p.result = some r) (hnak : r ≠ .nak) :
    interpret k q p s = toWriteback k (processResult q p r (s.reclIfAsync k)) := by
  rw [interpret, hr]
  cases r with
  | nak => exact absurd rfl hnak
  | _ => rfl

/-- A finished Packet that takes its own answer again stays as it is. -/
theorem settle_self {r : DevAnswer} (ht : p.tag = .finished) (hr : p.result = some (answerResult r))
    (hcount : ∀ data, r = .count data → data.length = p.count ∧ (p.isIn = true → p.buf = data)) :
    p.settle r = p := by
  obtain ⟨qtdaddr, qtd, pid, buf, len, result, count, tag⟩ := p
  obtain rfl : tag = .finished := ht
  obtain rfl : result = some (answerResult r) := hr
  cases r with
  | count data =>
    obtain ⟨hlen, hbuf⟩ := hcount data rfl
    rw [settle_count]
    simp only [Packet.mk.injEq, true_and, and_true]
    refine ⟨?_, rfl, hlen⟩
    split
    · exact (hbuf ‹_›).symm
    · rfl
  | _ => rfl

/-- A result presented for a Packet that has it already is interpreted as EXECUTING interprets it. -/
theorem answered_again {r : DevAnswer} {f : Queue → Packet → State → Except Stop (Queue × State)}
    (hp : HasPacket s k q p) (ht : p.tag = .finished) (hself : p.settle r = p) :
    answered k r s f = toWriteback k (f q p (s.reclIfAsync k)) := by
  have hput : q.putPacket p = q := by
    rw [Queue.putPacket, replacePacket_self (by rw [(findPacket_some hp.2).2]; exact hp.2)]
  rw [answered_eq hp (by rw [ht]; nofun), hself, hput]

/-- EXECUTING on a finished Packet. -/
theorem exec_executing (hp : HasPacket s k q p) (ht : p.tag = .finished) :
    exec (.stateExecuting k) s = finish (interpret k q p s) := congrArg finish (withPacket_eq hp ht)

/-- EXECUTING is the row of the Packet's result, which does what `process_result` does for it. -/
theorem executing_eq_answered {r : DevAnswer} {g : ResultTag}
    {f : Queue → Packet → State → Except Stop (Queue × State)} (hp : HasPacket s k q p) (ht : p.tag = .finished)
    (hr : p.result = some g) (hg : g ≠ .nak) (hself : p.settle r = p)
    (hf : processResult q p g (s.reclIfAsync k) = f q p (s.reclIfAsync k)) :
    exec (.stateExecuting k) s = finish (answered k r s f) := by
  rw [exec_executing hp ht, interpret_eq hr hg, hf, answered_again hp ht hself]

/-- EXECUTING completes for every result but COUNT, in a good state. -/
theorem executing_completes (hinv : Inv s = true) (hp : HasPacket s k q p) (ht : p.tag = .finished)
    (hcount : p.result ≠ some .count) : ∃ t, exec (.stateExecuting k) s = .next t := by
  obtain ⟨hok, -⟩ := current_ok hinv hp.1
  obtain ⟨-, -, -, -, hpackets⟩ := queueOk_iff.1 hok
  have hresult : p.result ≠ none ∧ p.result ≠ some .pending := by
    simpa [packetOk, ht] using hpackets p (findPacket_some hp.2).1
  rw [exec_executing hp ht, interpret]
  cases hr : p.result with
  | none => exact absurd hr hresult.1
  | some g =>
    cases g with
    | count => exact absurd hr hcount
    | pending => exact absurd hr hresult.2
    | _ => exact ⟨_, rfl⟩

end CurrentPacket

/-! ### A flush (R248) -/

/-- Memory `m'` is `m` with the overlay words of `h` stored at the QH at `a`, as far as there is memory. -/
structure Flushed (a : Word) (h : Qh) (m m' : Memory) : Prop where
  stored : ∀ x, m.hasRam x = true → InRange x (a + 12) 36 →
    readByte m' x = (wordsBytes h.overlayWords).getD (x - (a + 12)).toNat 0
  frame : SameRamBut m m' fun x => InRange x (a + 12) 36
  wf : Memory.wf m' = true

theorem flushed_flushQh {m : Memory} (hm : Memory.wf m = true) (a : Word) (h : Qh) : Flushed a h m (flushQh m a h) where
  stored _ hx hin := (readByte_flushQh hm a h hx).trans (if_pos hin)
  frame := flushQh_frame hm a h
  wf := flushQh_wf hm a h

/-- Storing the same words once more. -/
theorem Flushed.again {a : Word} {h : Qh} {m m' : Memory} (hf : Flushed a h m m') : Flushed a h m (flushQh m' a h) := by
  have hram : ∀ x, m.hasRam x = true → m'.hasRam x = true := fun x hx => by
    rw [Memory.hasRam_congr hf.frame.1]; exact hx
  refine ⟨fun x hx hin => (readByte_flushQh hf.wf a h (hram x hx)).trans (if_pos hin),
    ⟨(flushQh_holes _ _ _).trans hf.frame.1, fun x hx hout => ?_⟩, flushQh_wf hf.wf a h⟩
  exact ((readByte_flushQh hf.wf a h (hram x hx)).trans (if_neg hout)).trans (hf.frame.2 x hx hout)

/-- Where there is memory, the bytes after a flush are determined. -/
theorem Flushed.agree {a : Word} {h : Qh} {m m1 m2 : Memory} (h1 : Flushed a h m m1) (h2 : Flushed a h m m2) {x : Word}
    (hx : m.hasRam x = true) : readByte m1 x = readByte m2 x := by
  by_cases hin : InRange x (a + 12) 36
  · rw [h1.stored x hx hin, h2.stored x hx hin]
  · rw [h1.frame.2 x hx hin, h2.frame.2 x hx hin]

/-! ### What follows the answer (R288, R372), field by field -/

/-- The state to which the answer's Queue is stored: after PENDING the overlay is flushed and RECL set. -/
def answerBase (k : Sched) (q : Queue) (r : DevAnswer) (s : State) : State :=
  if r = .pending then (flushOverlay q s).reclIfAsync k else s

section Answer

variable {k : Sched} {q : Queue} {p : Packet} {r : DevAnswer} {s : State}

theorem afterAnswer_eq : afterAnswer k q p r s =
    ((answerBase k q r s).putQueue (q.putPacket (answeredPacket p r))).setAuto k
      (if r = .pending then .horizontalQh else .executing) := by
  unfold answerBase
  by_cases hr : r = .pending
  · subst hr; exact afterAnswer_pending
  · rw [if_neg hr, if_neg hr, afterAnswer_final hr]

theorem answerBase_sched (j : Sched) : (answerBase k q r s).sched j = s.sched j := by
  unfold answerBase
  split
  · rw [reclIfAsync_sched, flushOverlay_sched]
  · rfl

theorem answerBase_recl : (answerBase k q r s).recl = if r = .pending ∧ k = .async then true else s.recl := by
  unfold answerBase
  by_cases hr : r = .pending
  · simp only [hr, if_true, true_and, reclIfAsync_recl, flushOverlay_recl]
  · simp only [hr, if_false, false_and]

theorem answerBase_rest (c : Bool) (m : Memory) :
    { answerBase k q r s with recl := c, mem := m } = { s with recl := c, mem := m } := by
  unfold answerBase
  split
  · exact (congrArg (fun x : State => { x with mem := m }) (reclIfAsync_rest _ k c)).trans
      (congrArg (fun x : State => { x with recl := c }) (flushOverlay_rest q s m))
  · rfl

theorem answerBase_flushed {a : Word} {m : Memory} (ha : q.qhaddr = a) (h : Flushed a q.qh m s.mem) :
    Flushed a q.qh m (answerBase k q r s).mem := by
  subst ha
  unfold answerBase
  split
  · rw [State.reclIfAsync_mem, flushOverlay_mem]; exact h.again
  · exact h

/-- What the answer leaves of the rest of the state, whatever the schedules, RECL and memory are set to. -/
theorem afterAnswer_rest (a b : SchedRegs) (c : Bool) (m : Memory) :
    { afterAnswer k q p r s with async := a, periodic := b, recl := c, mem := m } =
      { s with async := a, periodic := b, recl := c, mem := m } := by
  rw [afterAnswer_eq]
  exact (congrArg (fun x : State => { x with recl := c, mem := m }) (put_auto_rest _ k _ _ a b)).trans
    (congrArg (fun x : State => { x with async := a, periodic := b }) (answerBase_rest c m))

theorem afterAnswer_recl : (afterAnswer k q p r s).recl = if r = .pending ∧ k = .async then true else s.recl := by
  rw [afterAnswer_eq, State.setAuto_recl, State.putQueue_recl, answerBase_recl]

theorem afterAnswer_mem : (afterAnswer k q p r s).mem = (answerBase k q r s).mem := by
  rw [afterAnswer_eq, State.setAuto_mem, State.putQueue_mem]

theorem answerBase_submitted : (answerBase k q r s).outbox = s.outbox ∧ (answerBase k q r s).answers = s.answers ∧
    (answerBase k q r s).draws = s.draws := by
  unfold answerBase
  split
  · simp [flushOverlay]
  · exact ⟨rfl, rfl, rfl⟩

/-- The answer gives nothing out and takes no further one. -/
theorem afterAnswer_submitted : (afterAnswer k q p r s).outbox = s.outbox ∧
    (afterAnswer k q p r s).answers = s.answers ∧ (afterAnswer k q p r s).draws = s.draws := by
  rw [afterAnswer_eq, State.setAuto_outbox, State.setAuto_answers, State.setAuto_draws, State.putQueue_outbox,
    State.putQueue_answers, State.putQueue_draws]
  exact answerBase_submitted

/-- The Queue, the automaton and the frame. -/
theorem afterAnswer_fields (hk : q.kind = k) :
    (afterAnswer k q p r s).queue? k q.qhaddr = some (q.putPacket (answeredPacket p r)) ∧
    ((afterAnswer k q p r s).sched k).auto = (if r = .pending then .horizontalQh else .executing) ∧
    ((afterAnswer k q p r s).sched k).curQueue = (s.sched k).curQueue ∧
    ((afterAnswer k q p r s).sched k).visits = (s.sched k).visits ∧
    OnlyQueue s (afterAnswer k q p r s) k q.qhaddr := by
  rw [afterAnswer_eq]
  exact put_auto (q := q.putPacket (answeredPacket p r)) _ hk answerBase_sched

/-- The one Packet of a Queue takes an answer. -/
theorem putPacket_answered {p0 : Packet} (hone : q.packets = [p0]) (ha : p.qtdaddr = p0.qtdaddr) (r : DevAnswer) :
    q.putPacket (answeredPacket p r) = { q with packets := [answeredPacket p r] } := by
  have hat : (answeredPacket p r).qtdaddr = p0.qtdaddr := by
    rw [← ha]
    cases r <;> rfl
  rw [Queue.putPacket, hone, replacePacket_one hat]

theorem answeredPacket_final (hr : r ≠ .pending) : answeredPacket p r = p.settle r := by
  cases r with
  | pending => exact absurd rfl hr
  | _ => rfl

end Answer

/-! ### The submit call (R287), where the device completes nothing inside it -/

/-- The state after the submit call. -/
def afterSubmit (q : Queue) (p : Packet) (s : State) : State :=
  match q.dev with
  | none => s
  | some d => (s.emit (.submit d (requestOf q p))).nextAnswer.2

section Submitted

variable {k : Sched} {q : Queue} {p e : Packet} {d : DevRef} {s : State}

theorem nextAnswer_nil (ha : s.answers = []) :
    s.nextAnswer = (⟨[], Config.deviceAnswer s.draws⟩, { s with draws := s.draws + 1 }) := by
  rw [State.nextAnswer, ha]

theorem answerFor_plainFront (h : ∀ a ∈ s.answers.head?, a.completions = []) :
    answerFor q p s = .ok (answerNow q s, afterSubmit q p s) := answerFor_front q p h

theorem afterSubmit_none (hd : q.dev = none) : afterSubmit q p s = s := by
  rw [afterSubmit, hd]

/-- A device gets the request and takes the answer at the front, or a draw. -/
theorem afterSubmit_some (hd : q.dev = some d) : afterSubmit q p s = { s with
    outbox := .submit d (requestOf q p) :: s.outbox
    answers := s.answers.tail
    draws := s.draws + (if s.answers = [] then 1 else 0) } := by
  simp only [afterSubmit, hd]
  cases ha : s.answers with
  | nil => rw [nextAnswer_nil (s := s.emit _) ha, if_pos rfl]; simp [State.emit, ha]
  | cons b rest => rw [nextAnswer_cons (s := s.emit _) ha]; rfl

theorem afterSubmit_rest : { afterSubmit q p s with outbox := s.outbox, answers := s.answers, draws := s.draws } = s := by
  cases hd : q.dev with
  | none => rw [afterSubmit_none hd]
  | some d => rw [afterSubmit_some hd]

theorem afterSubmit_sched (j : Sched) : (afterSubmit q p s).sched j = s.sched j := by
  cases hd : q.dev with
  | none => rw [afterSubmit_none hd]
  | some d => rw [afterSubmit_some hd]; cases j <;> rfl

theorem afterSubmit_mem : (afterSubmit q p s).mem = s.mem := by
  have h := congrArg State.mem (afterSubmit_rest (q := q) (p := p) (s := s))
  exact h

theorem afterSubmit_recl : (afterSubmit q p s).recl = s.recl := by
  have h := congrArg State.recl (afterSubmit_rest (q := q) (p := p) (s := s))
  exact h

end Submitted

/-! ### EXECUTE (R370) -/

theorem gatherBytes_walk {d : Qtd} {n : Nat} {gs : List Segment} (h : segments d n = some gs) (m : Memory) :
    gatherBytes m gs = (List.range n).map fun j => readByte m (bufByteAddr d j) := by
  obtain ⟨-, -, haddr⟩ := segments_some h
  rw [gatherBytes_map, haddr, List.map_map]; rfl

/-- Beside the schedules, storing a Queue changes nothing. -/
theorem putQueue_rest (u : State) (q : Queue) (a b : SchedRegs) :
    { u.putQueue q with async := a, periodic := b } = { u with async := a, periodic := b } := by
  rw [State.putQueue, State.setCache]
  exact setSched_rest u _ _ a b

/-- A step that stays in the schedules after one that stays in memory. -/
theorem sched_rest_trans {s u v : State}
    (hsched : { v with async := s.async, periodic := s.periodic } = { u with async := s.async, periodic := s.periodic })
    (hmem : { u with mem := s.mem } = s) :
    { v with async := s.async, periodic := s.periodic, mem := s.mem } = s :=
  (congrArg (fun x : State => { x with mem := s.mem }) hsched).trans
    (congrArg (fun x : State => { x with async := s.async, periodic := s.periodic }) hmem)

/-- The state in which EXECUTE submits: the overlay loaded, flushed and stored (R370). -/
def loadedState (q : Queue) (e : Packet) (s : State) : State :=
  (flushOverlay (q.loadOverlay e) s).putQueue (q.loadOverlay e)

section Execute

variable {k : Sched} {s : State} {q : Queue} {p e : Packet} {i : Instr} {gs : List Segment}

theorem loadedState_answers : (loadedState q e s).answers = s.answers := by
  rw [loadedState, State.putQueue_answers, flushOverlay_eq]

theorem loadedState_draws : (loadedState q e s).draws = s.draws := by
  rw [loadedState, State.putQueue_draws, flushOverlay_eq]

theorem loadedState_outbox : (loadedState q e s).outbox = s.outbox := by
  rw [loadedState, State.putQueue_outbox, flushOverlay_eq]

theorem loadedState_recl : (loadedState q e s).recl = s.recl := by
  rw [loadedState, State.putQueue_recl, flushOverlay_eq]


theorem loadedState_mem : (loadedState q e s).mem = (flushOverlay (q.loadOverlay e) s).mem := State.putQueue_mem _ _

theorem loadedState_rest :
    { loadedState q e s with async := s.async, periodic := s.periodic, mem := s.mem } = s :=
  sched_rest_trans (putQueue_rest _ _ _ _) (flushOverlay_rest _ s s.mem)

theorem loadedState_onlyQueue (hk : q.kind = k) : OnlyQueue s (loadedState q e s) k q.qhaddr :=
  (onlyQueue_of_sched (flushOverlay_sched _ s)).trans (onlyQueue_putQueue (q := q.loadOverlay e) _ hk)

theorem answerNow_loaded : answerNow (q.loadOverlay e) (loadedState q e s) = answerNow q s := by
  unfold answerNow
  rw [loadedState_answers, loadedState_draws]
  rfl

/-- What EXECUTE leaves, where the device completes nothing inside the submit call. -/
def executedState (k : Sched) (q : Queue) (e : Packet) (gs : List Segment) (s : State) : State :=
  afterAnswer k (q.loadOverlay e) (submittedPacket q e gs s) (answerNow q s)
    (afterSubmit (q.loadOverlay e) (submittedPacket q e gs s) (loadedState q e s))

theorem exec_execute (hfront : ∀ a ∈ s.answers.head?, a.completions = []) (hp : HasPacket s k q p)
    (ht : p.tag = .uninit) (hrow : ExecutesAs k p i e) (hdir : tokPid e.qtd.token ≠ 0b11#2)
    (hgs : segments e.qtd e.len.toNat = some gs) : exec i s = .next (executedState k q e gs s) := by
  have hanswer := answerFor_plainFront (q := q.loadOverlay e) (p := submittedPacket q e gs s) (s := loadedState q e s)
    (by rw [loadedState_answers]; exact hfront)
  rw [exec_executesAs hp ht hrow, executePacket_of_answer hdir hgs hanswer, answerNow_loaded]
  rfl

theorem submittedPacket_in (h : tokPid e.qtd.token = 0b01#2) : submittedPacket q e gs s = e := if_pos h

theorem submittedPacket_out (h : tokPid e.qtd.token ≠ 0b01#2) : submittedPacket q e gs s =
    { e with buf := gatherBytes (flushOverlay (q.loadOverlay e) s).mem gs } := if_neg h

/-- The Packet submitted differs in its outbound bytes only. -/
theorem submittedPacket_eq : submittedPacket q e gs s = { e with buf := (submittedPacket q e gs s).buf } := by
  unfold submittedPacket
  split <;> rfl

theorem requestOf_submitted : requestOf (q.loadOverlay e) (submittedPacket q e gs s) =
    { dir := tokPid e.qtd.token
      devAddr := q.qh.epchar.extractLsb' 0 7
      endpoint := q.qh.epchar.extractLsb' 8 4
      speed := q.qh.epchar.extractLsb' 12 2
      toggle := (q.loadOverlay e).qh.ov.token.getLsbD 31
      buf := if tokPid e.qtd.token = 0b01#2 then [] else (submittedPacket q e gs s).buf
      len := (q.loadOverlay e).qh.ov.token.extractLsb' 16 15 } := by
  rw [submittedPacket_eq]
  simp only [requestOf, Packet.isIn_iff]
  rfl

/-- EXECUTE's overlay words are in memory. -/
theorem executedState_flushed (hm : Memory.wf s.mem = true) :
    Flushed q.qhaddr (q.loadOverlay e).qh s.mem (executedState k q e gs s).mem := by
  rw [executedState, afterAnswer_mem]
  refine answerBase_flushed rfl ?_
  rw [afterSubmit_mem, loadedState_mem, flushOverlay_mem]
  exact flushed_flushQh hm _ _

theorem executedState_queue? (hinv : Inv s = true) (hp : HasPacket s k q p) (hrow : ExecutesAs k p i e) :
    (executedState k q e gs s).queue? k q.qhaddr = some { q.loadOverlay e with
      packets := [answeredPacket (submittedPacket q e gs s) (answerNow q s)] } := by
  have hput := putPacket_answered (q := q.loadOverlay e) (p := submittedPacket q e gs s) (p0 := p)
    (hasPacket_packets (q := q) hinv hp)
    (submittedPacket_qtdaddr.trans hrow.qtdaddr) (answerNow q s)
  exact hput ▸ (afterAnswer_fields (q := q.loadOverlay e) (hasPacket_kind (q := q) hinv hp)).1

theorem executedState_recl : (executedState k q e gs s).recl =
    if answerNow q s = .pending ∧ k = .async then true else s.recl := by
  rw [executedState, afterAnswer_recl, afterSubmit_recl, loadedState_recl]

theorem executedState_none (hd : q.dev = none) : (executedState k q e gs s).outbox = s.outbox ∧
    (executedState k q e gs s).answers = s.answers ∧ (executedState k q e gs s).draws = s.draws := by
  obtain ⟨hout, hans, hdraws⟩ := afterAnswer_submitted (k := k) (q := q.loadOverlay e)
    (p := submittedPacket q e gs s) (r := answerNow q s)
    (s := afterSubmit (q.loadOverlay e) (submittedPacket q e gs s) (loadedState q e s))
  rw [executedState, hout, hans, hdraws, afterSubmit_none (q := q.loadOverlay e) hd]
  exact ⟨loadedState_outbox, loadedState_answers, loadedState_draws⟩

theorem executedState_some {d : DevRef} (hd : q.dev = some d) :
    (executedState k q e gs s).outbox =
      .submit d (requestOf (q.loadOverlay e) (submittedPacket q e gs s)) :: s.outbox ∧
    (executedState k q e gs s).answers = s.answers.tail ∧
    (executedState k q e gs s).draws = s.draws + (if s.answers = [] then 1 else 0) := by
  obtain ⟨hout, hans, hdraws⟩ := afterAnswer_submitted (k := k) (q := q.loadOverlay e)
    (p := submittedPacket q e gs s) (r := answerNow q s)
    (s := afterSubmit (q.loadOverlay e) (submittedPacket q e gs s) (loadedState q e s))
  rw [executedState, hout, hans, hdraws, afterSubmit_some (q := q.loadOverlay e) hd]
  simp only [loadedState_outbox, loadedState_answers, loadedState_draws, and_self]

/-- The automaton and the frame of EXECUTE. -/
theorem executedState_frame (hk : q.kind = k) :
    ((executedState k q e gs s).sched k).auto = (if answerNow q s = .pending then .horizontalQh else .executing) ∧
    ((executedState k q e gs s).sched k).curQueue = (s.sched k).curQueue ∧
    ((executedState k q e gs s).sched k).visits = (s.sched k).visits ∧
    OnlyQueue s (executedState k q e gs s) k q.qhaddr := by
  obtain ⟨-, hauto, hcur, hvisits, honly⟩ := afterAnswer_fields (q := q.loadOverlay e)
    (p := submittedPacket q e gs s)
    (r := answerNow q s) (s := afterSubmit (q.loadOverlay e) (submittedPacket q e gs s) (loadedState q e s)) hk
  rw [afterSubmit_sched, loadedState, curQueue_putQueue, flushOverlay_sched] at hcur
  rw [afterSubmit_sched, loadedState, visits_putQueue, flushOverlay_sched] at hvisits
  exact ⟨hauto, hcur, hvisits, ((loadedState_onlyQueue hk).trans (onlyQueue_of_sched afterSubmit_sched)).trans honly⟩

theorem executedState_rest : { executedState k q e gs s with
    async := s.async, periodic := s.periodic, recl := s.recl, mem := s.mem, outbox := s.outbox
    answers := s.answers, draws := s.draws } = s := by
  have hanswer := afterAnswer_rest (k := k) (q := q.loadOverlay e) (p := submittedPacket q e gs s) (r := answerNow q s)
    (s := afterSubmit (q.loadOverlay e) (submittedPacket q e gs s) (loadedState q e s)) s.async s.periodic s.recl s.mem
  have hsubmit := afterSubmit_rest (q := q.loadOverlay e) (p := submittedPacket q e gs s) (s := loadedState q e s)
  rw [loadedState_outbox, loadedState_answers, loadedState_draws] at hsubmit
  calc _ = { afterSubmit (q.loadOverlay e) (submittedPacket q e gs s) (loadedState q e s) with
        async := s.async, periodic := s.periodic, recl := s.recl, mem := s.mem, outbox := s.outbox
        answers := s.answers, draws := s.draws } :=
      congrArg (fun x : State => { x with outbox := s.outbox, answers := s.answers, draws := s.draws }) hanswer
    _ = { loadedState q e s with async := s.async, periodic := s.periodic, recl := s.recl, mem := s.mem } :=
      congrArg (fun x : State => { x with async := s.async, periodic := s.periodic, recl := s.recl, mem := s.mem }) hsubmit
    _ = s := congrArg (fun x : State => { x with recl := s.recl }) loadedState_rest

end Execute

/-! ### WRITEBACK (R380, R381) -/

/-- The state to which WRITEBACK stores the Queue: the status words stored, then the overlay. -/
def writtenState (q : Queue) (p : Packet) (s : State) : State :=
  flushOverlay q (s.setMem (writebackQtd s.mem p q.qh.ov.token))

section Writeback

variable {k : Sched} {s : State} {q : Queue} {p : Packet}

/-- WRITEBACK leaves the Queue of a good state without Packets, so that a halt has none to cancel (R381, R292). -/
theorem exec_writeback (hinv : Inv s = true) (hp : HasPacket s k q p) (ht : p.tag = .finished) :
    exec (.stateWriteback k) s =
      .next (((writtenState q p s).putQueue { q with packets := [] }).setAuto k .horizontalQh) := by
  have hfree : q.freePacket p = { q with packets := [] } := by
    rw [Queue.freePacket, hasPacket_packets hinv hp, dropPacket_head]
  have hhalt : ∀ u, haltPropagation { q with packets := [] } u = .ok ({ q with packets := [] }, u) := fun u => by
    unfold haltPropagation
    split <;> rfl
  show finish (withPacket k .finished s _) = _
  rw [withPacket_eq hp ht, writebackPacket, hfree]
  simp only [hhalt]
  rfl

theorem writtenState_sched (j : Sched) : (writtenState q p s).sched j = s.sched j := by
  rw [writtenState, flushOverlay_sched, State.setMem_sched]

theorem writtenState_rest : { writtenState q p s with mem := s.mem } = s := by
  rw [writtenState, flushOverlay_rest]
  exact setMem_rest _ _ _

/-- The overlay is stored over what the status words left. -/
theorem writtenState_flushed (hm : Memory.wf s.mem = true) :
    Flushed q.qhaddr q.qh (writebackQtd s.mem p q.qh.ov.token) (writtenState q p s).mem := by
  rw [writtenState, flushOverlay_mem, State.setMem_mem]
  exact flushed_flushQh (writebackQtd_wf hm p _) _ _

end Writeback

end Sys2Proof.Machine

section
open Sys2Proof Sys2Proof.Machine

/-- Settles O36: EXECUTE as `executedState`, part by part. -/
theorem executeSubmitsThePacket : Obligations.ExecuteSubmitsThePacket := by
  unfold Obligations.ExecuteSubmitsThePacket
  intro k s q p e i hinv hfront hp ht hrow hdir hwalk isIn flushed
  obtain ⟨gs, hgs⟩ := segments_fits hwalk
  have hbytes := executedState_flushed (k := k) (q := q) (e := e) (gs := gs) (inv_mem hinv)
  obtain ⟨hauto, hcur, hvisits, honly⟩ :=
    executedState_frame (e := e) (gs := gs) (s := s) (hasPacket_kind (q := q) hinv hp)
  refine ⟨executedState k q e gs s, _, (submittedPacket q e gs s).buf, exec_execute hfront hp ht hrow hdir hgs,
    executedState_queue? hinv hp hrow, rfl, hbytes.stored, hbytes.frame, hbytes.wf, fun hin => ?inbound,
    fun hout => ?outbound, executedState_none, fun d hd => ?submitted, fun hpending => ⟨?_, ?_, ?_⟩,
    fun hfinal => ⟨?_, ?_, ?_⟩, hcur, hvisits, honly, executedState_rest⟩
  case inbound => rw [submittedPacket_in hin]
  case outbound =>
    have hbuf : (submittedPacket q e gs s).buf = (List.range e.len.toNat).map fun j =>
        readByte (flushOverlay (q.loadOverlay e) s).mem (bufByteAddr e.qtd j) := by
      rw [submittedPacket_out hout]; exact gatherBytes_walk hgs _
    refine ⟨hbuf, fun j hj hram => ?_⟩
    have hfirst : Flushed q.qhaddr (q.loadOverlay e).qh s.mem (flushOverlay (q.loadOverlay e) s).mem := by
      rw [flushOverlay_mem]; exact flushed_flushQh (inv_mem hinv) _ _
    rw [hbuf, List.getElem?_map, List.getElem?_range hj, ← hfirst.agree hbytes hram]
    rfl
  case submitted =>
    have hsome := executedState_some (k := k) (e := e) (gs := gs) (s := s) hd
    rw [requestOf_submitted] at hsome
    exact hsome
  · rw [hpending]
    exact congrArg (fun x : Packet => [{ x with tag := PacketTag.inflight }]) submittedPacket_eq
  · rw [hauto, if_pos hpending]
  · rw [executedState_recl]; simp only [hpending, true_and]
  · show [answeredPacket _ _] = _
    rw [answeredPacket_final hfinal]
    exact congrArg (fun x : Packet => [x.settle (answerNow q s)]) submittedPacket_eq
  · rw [hauto, if_neg hfinal]
  · rw [executedState_recl, if_neg fun h => hfinal h.1]

/-- Settles O40: the row is what follows the answer PENDING. -/
theorem pendingFlushesAndMovesOn : Obligations.PendingFlushesAndMovesOn := by
  unfold Obligations.PendingFlushesAndMovesOn
  intro k s q p d hinv hp ht hd flushed
  have hrow : exec (.resultPending k) s = .next (afterAnswer k q p .pending s) := by
    show finish (withPacket k .uninit s _) = _
    rw [withPacket_eq hp ht, hd]
    rfl
  have hbytes : Flushed q.qhaddr q.qh s.mem (afterAnswer k q p .pending s).mem := by
    rw [afterAnswer_mem, answerBase, if_pos rfl, State.reclIfAsync_mem, flushOverlay_mem]
    exact flushed_flushQh (inv_mem hinv) _ _
  obtain ⟨hqueue, hauto, hcur, hvisits, honly⟩ :=
    afterAnswer_fields (p := p) (r := .pending) (s := s) (hasPacket_kind hinv hp)
  rw [putPacket_answered (hasPacket_packets hinv hp) rfl] at hqueue
  refine ⟨_, hrow, hqueue, hbytes.stored, hbytes.frame, hauto, ?_, hcur, hvisits, honly, afterAnswer_rest _ _ _ _⟩
  rw [afterAnswer_recl]
  simp only [true_and]

/-- Settles O41: the rows interpret the Packet with its own answer taken again, which changes nothing. -/
theorem executingInterpretsTheResult : Obligations.ExecutingInterpretsTheResult := by
  unfold Obligations.ExecutingInterpretsTheResult
  intro k s q p hp ht
  refine ⟨fun hr => ?nak, fun hr => ?stall, fun hr => ?ioerror, fun hr => ?nodev, fun hr => ?babble,
    fun data hr hlen hbuf => ?count, fun hinv hr => executing_completes hinv hp ht hr⟩
  case nak =>
    rw [exec_executing hp ht, interpret, hr, resultNak_eq hp (by rw [ht]; nofun)]
    rfl
  case count =>
    have hself : p.settle (.count data) = p := settle_self ht hr fun data' hdata => by
      cases hdata
      exact ⟨hlen, fun hin => hbuf (Packet.isIn_iff.1 hin)⟩
    refine executing_eq_answered hp ht hr nofun hself ?_
    rw [hlen]; rfl
  all_goals exact executing_eq_answered hp ht hr nofun (settle_self ht hr nofun) rfl

/-- Settles O42: the status words, then the overlay over them, and the Queue without its Packet. -/
theorem writebackStoresTheStatus : Obligations.WritebackStoresTheStatus := by
  unfold Obligations.WritebackStoresTheStatus
  intro k s q p hinv hp ht overlay status
  have hm := inv_mem hinv
  have hbytes := writtenState_flushed (q := q) (p := p) hm
  have hram : ∀ x, s.mem.hasRam x = true → (writebackQtd s.mem p q.qh.ov.token).hasRam x = true := fun x hx => by
    rw [Memory.hasRam_congr (writebackQtd_holes _ _ _)]; exact hx
  have hmem : (((writtenState q p s).putQueue { q with packets := [] }).setAuto k .horizontalQh).mem =
      (writtenState q p s).mem := by rw [State.setAuto_mem, State.putQueue_mem]
  obtain ⟨hqueue, hauto, hcur, hvisits, honly⟩ := put_auto (u := writtenState q p s) (q := { q with packets := [] })
    .horizontalQh (hasPacket_kind (q := q) hinv hp) writtenState_sched
  refine ⟨_, exec_writeback hinv hp ht, hqueue, fun x hx hov => ?overlay, fun x hx hst hov => ?status,
    ⟨?holes, fun x hx hout => ?frame⟩, hauto, hcur, hvisits, honly, ?rest⟩
  case overlay => rw [hmem, hbytes.stored x (hram x hx) hov]
  case status => rw [hmem, hbytes.frame.2 x (hram x hx) hov, readByte_writebackQtd hm p _ hx,
    if_pos (show _ < 12 from hst)]
  case holes => rw [hmem, hbytes.frame.1, writebackQtd_holes]
  case frame =>
    rw [hmem, hbytes.frame.2 x (hram x hx) fun hov => hout (.inl hov), readByte_writebackQtd hm p _ hx,
      if_neg fun hst : _ < 12 => hout (.inr hst)]
  case rest => exact sched_rest_trans (put_auto_rest _ k _ _ s.async s.periodic) writtenState_rest

end

/-! PROOFS. The rows of the asynchronous schedule and of the idle states: the head search (O24), the reclamation check
(O27), and the steps of INACTIVE and ACTIVE (O43, O44). -/

namespace Sys2Proof.Machine

/-! ### The head search (R402) -/

section HeadSearch

variable {m : Memory} {start : Word}

/-- The queue head reached by `i` links has H = 1. -/
def RingHead (m : Memory) (start : Word) (i : Nat) : Prop := (read32 m (ringAt m start i + 4)).getLsbD 15 = true

theorem findHead_head {i n : Nat} (h : RingHead m start i) :
    findHead m start (n + 1) (ringAt m start i) = some (ringAt m start i) := if_pos h

theorem findHead_end {i n : Nat} (h : ¬ RingHead m start i) (hend : RingEnds m start (ringAt m start i)) :
    findHead m start (n + 1) (ringAt m start i) = none := (if_neg h).trans (if_pos hend)

theorem findHead_next {i n : Nat} (h : ¬ RingHead m start i) (hend : ¬ RingEnds m start (ringAt m start i)) :
    findHead m start (n + 1) (ringAt m start i) = findHead m start n (ringAt m start (i + 1)) :=
  (if_neg h).trans (if_neg hend)

/-- The search goes over the queue heads that neither have H = 1 nor end it. -/
theorem findHead_skip {i n : Nat} (h : ∀ j < i, ¬ RingHead m start j ∧ ¬ RingEnds m start (ringAt m start j)) :
    findHead m start (i + n) start = findHead m start n (ringAt m start i) := by
  induction i generalizing n with
  | zero => rw [Nat.zero_add]; rfl
  | succ i ih =>
    obtain ⟨hno, hlive⟩ := h i (Nat.lt_succ_self i)
    rw [Nat.succ_add_eq_add_succ, ih fun j hj => h j (Nat.lt_succ_of_lt hj), findHead_next hno hlive]

theorem findHead_found {i n : Nat} (hi : i < n) (hhead : RingHead m start i)
    (h : ∀ j < i, ¬ RingHead m start j ∧ ¬ RingEnds m start (ringAt m start j)) :
    findHead m start n start = some (ringAt m start i) := by
  obtain ⟨r, rfl⟩ : ∃ r, n = i + (r + 1) := ⟨n - i - 1, by omega⟩
  rw [findHead_skip h, findHead_head hhead]

/-- From the queue head reached by `i` links, where every head within the limit lies behind an end of the search and
none of the first `i` ends it. -/
theorem findHead_none_from {i n : Nat} (hlive : ∀ j < i, ¬ RingEnds m start (ringAt m start j))
    (h : ∀ l < i + n, RingHead m start l → ∃ j < l, RingEnds m start (ringAt m start j)) :
    findHead m start n (ringAt m start i) = none := by
  induction n generalizing i with
  | zero => rfl
  | succ n ih =>
    have hno : ¬ RingHead m start i := fun hhead => by
      obtain ⟨j, hj, hend⟩ := h i (by omega) hhead
      exact hlive j hj hend
    by_cases hend : RingEnds m start (ringAt m start i)
    · exact findHead_end hno hend
    · rw [findHead_next hno hend]
      refine ih (fun j hj => ?_) fun l hl => h l (by omega)
      rcases Nat.lt_succ_iff_lt_or_eq.1 hj with hj | rfl
      · exact hlive j hj
      · exact hend

theorem waitListHead_found {s : State} {a : Word}
    (h : findHead s.mem (ptrAddr s.asyncListAddr) s.params.listHeadSearchLimit (ptrAddr s.asyncListAddr) = some a) :
    waitListHead s = ((s.setRecl true).setFetch .async (qhLink a)).setAuto .async .fetchEntry := by
  simp only [waitListHead, h]

theorem waitListHead_none {s : State}
    (h : findHead s.mem (ptrAddr s.asyncListAddr) s.params.listHeadSearchLimit (ptrAddr s.asyncListAddr) = none) :
    waitListHead s = (s.setRecl true).setAuto .async .active := by
  simp only [waitListHead, h]

end HeadSearch

/-! ### The reclamation check (R403) -/

/-- FETCH-QH at a head of the list with RECL = 0: the Queue is stored and current, and the pass ends. -/
theorem visitQh_reclaimed {s : State} {a : Word} (ha : a = ptrAddr s.async.fetchAddr)
    (hhead : epHead (readQh s.mem a).epchar = true) (hrecl : s.recl = false) :
    visitQh .async s = .ok (((s.putQueue ((s.findOrCreate .async a).1.markSeen s.uframeCtr)).setCur .async
      (some a)).setAuto .async .active) := by
  subst ha
  exact (if_pos ⟨rfl, hhead⟩).trans (if_neg (by rw [hrecl]; decide))

/-- The Queue that a visit of the queue head at `a` marks seen: the one there, or a new one (R230, R351). -/
theorem markedQueue_of {s : State} (k : Sched) (a : Word) (hinv : Inv s = true) :
    let q := (s.findOrCreate k a).1.markSeen s.uframeCtr
    q.kind = k ∧ q.qhaddr = a ∧ (s.queue? k a = none → q = ⟨k, a, q.qh, true, s.uframeCtr, none, [], 0⟩) ∧
      ∀ r, s.queue? k a = some r → q = { r with seen := true, lastSeen := s.uframeCtr } := by
  cases hfound : s.queue? k a with
  | none =>
    rw [findOrCreate_new hfound]
    exact ⟨rfl, rfl, fun _ => rfl, nofun⟩
  | some r =>
    rw [findOrCreate_found hfound]
    obtain ⟨-, hkind, hqhaddr, -⟩ := queue?_ok hinv hfound
    exact ⟨hkind, hqhaddr, nofun, fun r' hr => by cases hr; rfl⟩

theorem afterQh_cases (h : Qh) : afterQh h = .horizontalQh ∨ afterQh h = .fetchQtd ∨ afterQh h = .advanceQueue := by
  unfold afterQh
  split
  · exact .inl rfl
  · split
    · exact .inr (.inl rfl)
    · exact .inr (.inr rfl)

/-- What the visit that ends the pass leaves of a Queue `q` of the asynchronous schedule, field by field. -/
theorem endedVisit_fields {s : State} {q : Queue} (hk : q.kind = .async) :
    let t := ((s.putQueue q).setCur .async (some q.qhaddr)).setAuto .async .active
    t.queue? .async q.qhaddr = some q ∧ t.async.visits = s.async.visits ∧ OnlyQueue s t .async q.qhaddr ∧
      { t with async := s.async } = s := by
  have hput : s.putQueue q = s.setSched .async { s.async with cache := cachePut s.async.cache q } := by
    rw [State.putQueue, hk]; rfl
  have honly := (onlyQueue_putQueue s hk).trans (onlyQueue_setSched (s := s.putQueue q) (a := q.qhaddr)
    (r := { (s.putQueue q).async with auto := .active, curQueue := some q.qhaddr }) rfl rfl)
  refine ⟨?_, ?_, honly, ?_⟩
  · exact (queue?_putQueue s q .async q.qhaddr).trans (if_pos ⟨hk.symm, rfl⟩)
  · rw [hput]; rfl
  · rw [hput]; rfl

/-! ### The enable and disable of a schedule (R404, R440) -/

/-- RS and the enable of schedule k are 1 (R404, R440). -/
def SchedOn (k : Sched) (s : State) : Prop :=
  s.usbcmd.rs = true ∧ (match k with | .async => s.usbcmd.ase | .periodic => s.usbcmd.pse) = true

/-- Schedule k is enabled and disabled now: the periodic one on frame boundaries only (R440). -/
def Switches (k : Sched) (s : State) : Prop :=
  match k with
  | .async => True
  | .periodic => s.frindex.toNat % 8 = 0

/-- A schedule that is disabled now: what is cancelled is given out, its cache is empty, and it is INACTIVE (R250). -/
def stoppedSched (k : Sched) (cs : List Output) (s : State) : State :=
  ({ s with outbox := cs ++ s.outbox } : State).setSched k
    ⟨.inactive, (s.sched k).fetchAddr, none, (s.sched k).visits, []⟩

theorem asyncEnabled_iff {s : State} : asyncEnabled s = true ↔ SchedOn .async s := Bool.and_eq_true_iff

theorem periodicEnabled_iff {s : State} : periodicEnabled s = true ↔ SchedOn .periodic s := Bool.and_eq_true_iff

theorem frameBoundary_iff {s : State} : frameBoundary s = true ↔ Switches .periodic s := by
  rw [frameBoundary, beq_iff_eq, ← BitVec.toNat_inj, BitVec.extractLsb'_toNat]
  rfl

section Enable

variable {k : Sched} {s : State}

theorem schedEnable_starts (hsw : Switches k s) (hoff : (s.sched k).auto = .inactive) (hon : SchedOn k s) :
    schedEnable k s = .ok (s.setAuto k .active) := by
  cases k with
  | async => exact if_pos ⟨hoff, asyncEnabled_iff.2 hon⟩
  | periodic =>
    refine (if_neg ?_).trans (if_pos ⟨hoff, periodicEnabled_iff.2 hon⟩)
    rw [frameBoundary_iff.2 hsw]; decide

theorem schedEnable_stays (hstart : ¬ (Switches k s ∧ (s.sched k).auto = .inactive ∧ SchedOn k s))
    (hstop : ¬ (Switches k s ∧ (s.sched k).auto = .active ∧ ¬ SchedOn k s)) : schedEnable k s = .ok s := by
  cases k with
  | async =>
    refine (if_neg fun h => hstart ⟨trivial, h.1, asyncEnabled_iff.1 h.2⟩).trans
      (if_neg fun h => hstop ⟨trivial, h.1, ?_⟩)
    rw [← asyncEnabled_iff, h.2]; decide
  | periodic =>
    simp only [schedEnable, periodicEnable]
    split_ifs with hnow h1 h2
    · rfl
    · exact absurd ⟨frameBoundary_iff.1 (by simpa using hnow), h1.1, periodicEnabled_iff.1 h1.2⟩ hstart
    · refine absurd ⟨frameBoundary_iff.1 (by simpa using hnow), h2.1, ?_⟩ hstop
      rw [← periodicEnabled_iff, h2.2]; decide
    · rfl

/-- The disable of a good schedule (R404, R440, R250): the cancels are those of its Packets in flight. -/
theorem schedEnable_stops (hinv : Inv s = true) (hsw : Switches k s) (hact : (s.sched k).auto = .active)
    (hoff : ¬ SchedOn k s) : ∃ cs, schedEnable k s = .ok (stoppedSched k cs s) ∧
      ∀ o, o ∈ cs ↔ Cancelled s k (fun _ => true) o := by
  obtain ⟨cs, hreap, hcs⟩ := reapAll_good (inv_sched hinv k)
  have hstopped : ∀ s1, s1 = ({ s with outbox := cs ++ s.outbox } : State).setSched k
      { s.sched k with cache := [], curQueue := none } → s1.setAuto k .inactive = stoppedSched k cs s := by
    rintro _ rfl
    cases k <;> rfl
  refine ⟨cs, ?_, hcs⟩
  rw [← hstopped _ rfl]
  cases k with
  | async =>
    have hno : asyncEnabled s = false := Bool.eq_false_iff.2 (mt asyncEnabled_iff.1 hoff)
    refine (if_neg fun h => hoff (asyncEnabled_iff.1 h.2)).trans ((if_pos ⟨hact, hno⟩).trans ?_)
    rw [hreap]
  | periodic =>
    have hno : periodicEnabled s = false := Bool.eq_false_iff.2 (mt periodicEnabled_iff.1 hoff)
    have hnow : ¬ frameBoundary s = false := by rw [frameBoundary_iff.2 hsw]; decide
    refine (if_neg hnow).trans ((if_neg fun h => hoff (periodicEnabled_iff.1 h.2)).trans
      ((if_pos ⟨hact, hno⟩).trans ?_))
    rw [hreap]

/-- The cancels of a whole schedule, in the order of the statements. -/
theorem cancelled_all_iff {o : Output} : Cancelled s k (fun _ => true) o ↔
    ∃ q d p, q ∈ (s.sched k).cache ∧ p ∈ q.packets ∧ p.tag = .inflight ∧ q.dev = some d ∧
      o = .cancel d k q.qhaddr p.qtdaddr := by
  constructor
  · rintro ⟨q, p, d, hq, -, h⟩; exact ⟨q, d, p, hq, h⟩
  · rintro ⟨q, d, p, hq, h⟩; exact ⟨q, p, d, hq, rfl, h⟩

/-- The row of INACTIVE is the enable from INACTIVE (log 18). -/
theorem exec_stateInactive_of {t : State} (h : schedEnable k (s.setAuto k .inactive) = .ok t) :
    exec (.stateInactive k) s = .next t := congrArg outcome h

theorem exec_stateInactive_on (hsw : Switches k s) (hon : SchedOn k s) :
    exec (.stateInactive k) s = .next (s.setAuto k .active) := by
  have hrow : schedEnable k (s.setAuto k .inactive) = .ok (s.setAuto k .active) := by
    cases k <;> exact schedEnable_starts hsw rfl hon
  exact exec_stateInactive_of hrow

theorem exec_stateInactive_off (hoff : ¬ (Switches k s ∧ SchedOn k s)) :
    exec (.stateInactive k) s = .next (s.setAuto k .inactive) := by
  have hrow : schedEnable k (s.setAuto k .inactive) = .ok (s.setAuto k .inactive) := by
    cases k <;> exact schedEnable_stays (fun h => hoff ⟨h.1, h.2.2⟩) fun h => absurd h.2.1 nofun
  exact exec_stateInactive_of hrow

end Enable

/-! ### The start of a pass (R404, R441) -/

section Begin

variable {s : State}

theorem asyncCanStart_iff : asyncCanStart s = true ↔
    s.async.auto = .active ∧ s.usbsts.getLsbD 5 = false ∧ s.asyncListAddr ≠ 0 := by
  simp [asyncCanStart, State.iaa, and_assoc]

theorem asyncBegin_eq : asyncBegin s = { s with
    async := ⟨.waitListHead, s.async.fetchAddr, none, 0, s.async.cache⟩ } := rfl

theorem periodicCanStart_iff : periodicCanStart s = true ↔
    s.periodic.auto = .active ∧ s.periodicListBase &&& 0xFFFFF000#32 ≠ 0 := by
  simp [periodicCanStart, periodicBase]

/-- The frame-list entry of FRINDEX[12:3] (R441, R170). -/
theorem frameSlot_eq : frameSlot s =
    (s.periodicListBase &&& 0xFFFFF000#32) + BitVec.ofNat 32 (4 * (s.frindex.toNat / 8 % 1024)) := by
  refine congrArg (periodicBase s + ·) (BitVec.eq_of_toNat_eq ?_)
  rw [BitVec.toNat_shiftLeft, BitVec.toNat_setWidth, BitVec.extractLsb'_toNat, BitVec.toNat_ofNat,
    Nat.shiftRight_eq_div_pow, Nat.shiftLeft_eq]
  omega

theorem periodicBegin_eq : periodicBegin s = { s with
    periodic := ⟨.fetchEntry, read32 s.mem ((s.periodicListBase &&& 0xFFFFF000#32) +
      BitVec.ofNat 32 (4 * (s.frindex.toNat / 8 % 1024))), none, 0, s.periodic.cache⟩ } := by
  rw [← frameSlot_eq]; rfl

theorem schedBegin_async (hact : s.async.auto = .active) (hiaa : s.usbsts.getLsbD 5 = false)
    (hlist : s.asyncListAddr ≠ 0) : schedBegin .async s = asyncBegin s :=
  if_pos (asyncCanStart_iff.2 ⟨hact, hiaa, hlist⟩)

theorem schedBegin_async_none (h : s.usbsts.getLsbD 5 = true ∨ s.asyncListAddr = 0) : schedBegin .async s = s := by
  refine if_neg fun hstart => ?_
  obtain ⟨-, hiaa, hlist⟩ := asyncCanStart_iff.1 hstart
  exact h.elim (fun h => absurd (hiaa.symm.trans h) nofun) hlist

theorem schedBegin_periodic (hact : s.periodic.auto = .active) (hbase : s.periodicListBase &&& 0xFFFFF000#32 ≠ 0) :
    schedBegin .periodic s = periodicBegin s := if_pos (periodicCanStart_iff.2 ⟨hact, hbase⟩)

theorem schedBegin_periodic_none (hbase : s.periodicListBase &&& 0xFFFFF000#32 = 0) : schedBegin .periodic s = s :=
  if_neg fun hstart => (periodicCanStart_iff.1 hstart).2 hbase

/-- A schedule that has stopped starts no pass. -/
theorem schedBegin_stopped (k : Sched) (cs : List Output) (s : State) :
    schedBegin k (stoppedSched k cs s) = stoppedSched k cs s := by cases k <;> rfl

/-- The row of ACTIVE is the enable and disable from ACTIVE, and the start of a pass after it (log 18). -/
theorem exec_stateActive_of {k : Sched} {t : State} (h : schedEnable k (s.setAuto k .active) = .ok t) :
    exec (.stateActive k) s = .next (schedBegin k t) := by
  show execStateActive k s = _
  rw [execStateActive, h]
  rfl

/-- The row of ACTIVE where the schedule is not disabled now: a pass starts where one may. -/
theorem exec_stateActive_on {k : Sched} (h : ¬ (Switches k s ∧ ¬ SchedOn k s)) :
    exec (.stateActive k) s = .next (schedBegin k (s.setAuto k .active)) := by
  have hrow : schedEnable k (s.setAuto k .active) = .ok (s.setAuto k .active) := by
    cases k <;> exact schedEnable_stays (fun h' => absurd h'.2.1 nofun) fun h' => h ⟨h'.1, h'.2.2⟩
  exact exec_stateActive_of hrow

/-- The row of ACTIVE where the schedule is disabled now: its Queues are freed and it becomes INACTIVE. -/
theorem exec_stateActive_off {k : Sched} (hinv : Inv s = true) (hsw : Switches k s) (hoff : ¬ SchedOn k s) :
    ∃ cs, exec (.stateActive k) s = .next (stoppedSched k cs s) ∧
      ∀ o, o ∈ cs ↔ ∃ q d p, q ∈ (s.sched k).cache ∧ p ∈ q.packets ∧ p.tag = .inflight ∧ q.dev = some d ∧
        o = .cancel d k q.qhaddr p.qtdaddr := by
  have hstop : ∃ cs, schedEnable k (s.setAuto k .active) = .ok (stoppedSched k cs s) ∧
      ∀ o, o ∈ cs ↔ Cancelled (s.setAuto k .active) k (fun _ => true) o := by
    cases k <;> exact schedEnable_stops (inv_setAuto _ _ hinv) hsw rfl hoff
  obtain ⟨cs, hrow, hcs⟩ := hstop
  refine ⟨cs, (exec_stateActive_of hrow).trans (congrArg _ (schedBegin_stopped k cs s)), fun o => ?_⟩
  rw [hcs, cancelled_all_iff, State.setAuto_sched]

end Begin

end Sys2Proof.Machine

section
open Sys2Proof Sys2Proof.Machine

/-- Settles O24: the search goes link by link, and stops at the first head or the first end. -/
theorem waitListHeadFindsTheHead : Obligations.WaitListHeadFindsTheHead := by
  unfold Obligations.WaitListHeadFindsTheHead
  intro s start qh isHead
  refine ⟨fun i hi hhead hbefore => ?_, fun hbehind => ?_⟩
  · exact congrArg Host.Outcome.next (waitListHead_found (findHead_found hi hhead hbefore))
  · refine congrArg Host.Outcome.next (waitListHead_none (findHead_none_from (i := 0) nofun fun l hl => ?_))
    exact hbehind l (by omega)

/-- Settles O27: with RECL = 1 it is the visit of O28, and with RECL = 0 the Queue is stored and the
pass ends. -/
theorem reclamationCheckClosesTheLoop : Obligations.ReclamationCheckClosesTheLoop := by
  unfold Obligations.ReclamationCheckClosesTheLoop
  intro s a hinv ha hbound hhead
  refine ⟨fun hrecl => ?_, fun hrecl => ?_⟩
  · obtain ⟨q, o, t, -, hrow, -, -, hauto, -, -, -, hclear, -⟩ :=
      fetchQh_checked (k := .async) hinv ha rfl (fun _ => hbound) fun _ _ => hrecl
    refine ⟨t, hrow, hclear.trans (if_pos ⟨rfl, hhead⟩), ?_⟩
    rw [← State.sched_async, hauto]
    exact afterQh_cases _
  · obtain ⟨hkind, hqhaddr, hnew, hfound⟩ := markedQueue_of .async a (countedVisit_inv (k := .async) hinv)
    obtain ⟨hqueue, hvisits, honly, hrest⟩ := endedVisit_fields (s := countedVisit .async s) hkind
    rw [hqhaddr] at hqueue honly hvisits hrest
    refine ⟨_, _, ?row, rfl, hqueue, rfl, hvisits, hnew, hfound, onlyQueue_counted honly,
      congrArg (fun x : State => { x with async := s.async }) hrest⟩
    show finish (fetchQh .async s) = _
    rw [fetchQh_eq fun _ => hbound, visitQh_reclaimed (s := countedVisit .async s) ha hhead hrecl]
    rfl

/-- Settles O43, schedule by schedule. -/
theorem inactiveScheduleIsEnabled : Obligations.InactiveScheduleIsEnabled := by
  unfold Obligations.InactiveScheduleIsEnabled
  refine fun s => ⟨?async, ?periodic⟩
  case async =>
    split
    · exact exec_stateInactive_on trivial ‹_›
    · exact exec_stateInactive_off fun h => ‹¬ _› h.2
  case periodic =>
    split
    · rename_i h
      exact exec_stateInactive_on h.2.2 ⟨h.1, h.2.1⟩
    · rename_i h
      exact exec_stateInactive_off fun h' => h ⟨h'.2.1, h'.2.2, h'.1⟩

/-- Settles O44: the disable where one is due, else the start of a pass where one may start. -/
theorem activeScheduleStopsOrStarts : Obligations.ActiveScheduleStopsOrStarts := by
  unfold Obligations.ActiveScheduleStopsOrStarts
  intro s hinv aOn pOff base freed
  refine ⟨fun hoff => ?asyncOff, fun hon hiaa hlist => ?asyncPass, fun hon hno => ?asyncStay,
    fun hoff => ?periodicOff, fun hon hbase => ?periodicPass, fun hon hbase => ?periodicStay⟩
  case asyncOff =>
    obtain ⟨cs, hrow, hcs⟩ := exec_stateActive_off (k := .async) hinv trivial hoff
    exact ⟨_, hrow, cs, rfl, hcs⟩
  case asyncPass =>
    rw [exec_stateActive_on (k := .async) fun h => h.2 hon,
      schedBegin_async (s := s.setAuto .async .active) rfl hiaa hlist, asyncBegin_eq]
    rfl
  case asyncStay =>
    rw [exec_stateActive_on (k := .async) fun h => h.2 hon, schedBegin_async_none (s := s.setAuto .async .active) hno]
  case periodicOff =>
    obtain ⟨cs, hrow, hcs⟩ := exec_stateActive_off (k := .periodic) hinv hoff.1 hoff.2
    exact ⟨_, hrow, cs, rfl, hcs⟩
  case periodicPass =>
    rw [exec_stateActive_on (k := .periodic) hon, schedBegin_periodic (s := s.setAuto .periodic .active) rfl hbase,
      periodicBegin_eq]
    rfl
  case periodicStay =>
    rw [exec_stateActive_on (k := .periodic) hon, schedBegin_periodic_none (s := s.setAuto .periodic .active) hbase]

end

/-! PROOFS. What a tick runs (O46): the asynchronous step, the periodic step, a processed microframe, the whole tick. -/

namespace Sys2Proof.Machine

/-! ### The asynchronous step (R404) -/

section AsyncStep

variable {s e u : State}

theorem setAuto_self {k : Sched} {x : AutoState} (h : (s.sched k).auto = x) : s.setAuto k x = s := by
  subst h
  exact State.setSched_self s k

/-- An enabled schedule at rest is ACTIVE after the enable (R404, R440). -/
theorem schedEnable_on {k : Sched} (hsw : Switches k s) (hon : SchedOn k s)
    (hrest : (s.sched k).auto = .inactive ∨ (s.sched k).auto = .active) :
    schedEnable k s = .ok (s.setAuto k .active) := by
  rcases hrest with hoff | hact
  · exact schedEnable_starts hsw hoff hon
  · rw [setAuto_self hact]
    exact schedEnable_stays (fun h => absurd (hact.symm.trans h.2.1) nofun) fun h => h.2.2 hon

/-- A schedule that is not disabled now is ACTIVE after the enable where it is enabled now, and else as it was. The
condition `c` is the one of the statement. -/
theorem schedEnable_goes {k : Sched} {c : Prop} [Decidable c]
    (hc : c ↔ Switches k s ∧ (s.sched k).auto = .inactive ∧ SchedOn k s)
    (hgo : ¬ (Switches k s ∧ (s.sched k).auto = .active ∧ ¬ SchedOn k s)) :
    schedEnable k s = .ok (if c then s.setAuto k .active else s) := by
  split
  · obtain ⟨hsw, hoff, hon⟩ := hc.1 ‹_›
    exact schedEnable_starts hsw hoff hon
  · exact schedEnable_stays (mt hc.2 ‹_›) hgo

/-- Where no pass may start, the doorbell step alone follows the enable (R404, R406). -/
theorem asyncStep_noPass (he : asyncEnable s = .ok e) (hno : ¬ asyncCanStart e = true) (hu : doorbell e = .ok u) :
    asyncStep s = .ok u := by
  simp only [asyncStep, he, if_neg hno, hu, orFault]

/-- Disabled and ACTIVE, the schedule is stopped, and the doorbell step follows (R404, R250). -/
theorem asyncStep_stops (hinv : Inv s = true) (hact : s.async.auto = .active) (hoff : ¬ SchedOn .async s) :
    ∃ cs u, doorbell (stoppedSched .async cs s) = .ok u ∧ asyncStep s = .ok u ∧
      ∀ o, o ∈ cs ↔ ∃ q d p, q ∈ s.async.cache ∧ p ∈ q.packets ∧ p.tag = .inflight ∧ q.dev = some d ∧
        o = .cancel d .async q.qhaddr p.qtdaddr := by
  obtain ⟨cs, he, hcs⟩ := schedEnable_stops (k := .async) hinv trivial hact hoff
  obtain ⟨u, hu, -⟩ := inv_doorbell (schedEnable_inv hinv he)
  exact ⟨cs, u, hu, asyncStep_noPass he nofun hu, fun o => (hcs o).trans cancelled_all_iff⟩

/-- Enabled, without a list and a doorbell or with IAA not acknowledged, the step makes the schedule ACTIVE. -/
theorem asyncStep_idle (hon : SchedOn .async s) (hrest : s.async.auto = .inactive ∨ s.async.auto = .active)
    (hidle : (s.asyncListAddr = 0 ∧ s.usbcmd.iaad = false) ∨ s.usbsts.getLsbD 5 = true) :
    asyncStep s = .ok (s.setAuto .async .active) := by
  refine asyncStep_noPass (schedEnable_on (k := .async) trivial hon hrest) (fun hstart => ?_) (if_neg fun hring => ?_)
  · obtain ⟨-, hiaa, hlist⟩ := asyncCanStart_iff.1 hstart
    exact hidle.elim (fun h => hlist h.1) fun h => Bool.noConfusion (hiaa.symm.trans h)
  · obtain ⟨hiaad, hiaa⟩ := hring
    exact hidle.elim (fun h => Bool.noConfusion (h.2.symm.trans hiaad)) fun h => Bool.noConfusion (hiaa.symm.trans h)

/-- Where a pass may start, it is run from WAIT-LIST-HEAD; the doorbell step and `reap_unused` follow (R404, R406). -/
theorem asyncStep_pass (hinv : Inv s = true) (he : asyncEnable s = .ok e)
    (hsame : e = s ∨ e = s.setAuto .async .active) (hact : e.async.auto = .active) (hiaa : s.usbsts.getLsbD 5 = false)
    (hlist : s.asyncListAddr ≠ 0) :
    let pass := run .async (8 * (s.params.maxQhVisits + 1) + 3)
      { s with async := ⟨.waitListHead, s.async.fetchAddr, none, 0, s.async.cache⟩ }
    (∀ u, pass = .ok u → ∃ v w, doorbell u = .ok v ∧ reapUnused .async v = .ok w ∧ asyncStep s = .ok w) ∧
      ∀ x, pass = .error x → asyncStep s = .error x := by
  intro pass
  have hpass : run .async (passBudget .async e.params) (asyncBegin e) = pass := by rcases hsame with rfl | rfl <;> rfl
  have hstart : asyncCanStart e = true :=
    asyncCanStart_iff.2 (by rcases hsame with rfl | rfl <;> exact ⟨hact, hiaa, hlist⟩)
  refine ⟨fun u hu => ?_, fun x hx => ?_⟩
  · have hinvu := run_inv (inv_asyncBegin (schedEnable_inv (k := .async) hinv he)) (hpass.trans hu)
    obtain ⟨v, hv, hinvv⟩ := inv_doorbell hinvu
    obtain ⟨w, hw, -⟩ := inv_reapUnused (k := .async) hinvv
    refine ⟨v, w, hv, hw, ?_⟩
    simp only [asyncStep, he, if_pos hstart, hpass, hu, asyncAfterPass, hv, hw, orFault]
  · simp only [asyncStep, he, if_pos hstart, hpass, hx]

/-- The doorbell step has nothing to free in an empty cache (R406, R247). -/
theorem doorbell_emptyCache (h : s.async.cache = []) (hu : doorbell s = .ok u) :
    u.async = s.async ∧ u.periodic = s.periodic ∧ u.mem = s.mem ∧ u.outbox = s.outbox := by
  rcases doorbell_cases hu with rfl | ⟨s1, hreap, rfl⟩
  · exact ⟨rfl, rfl, rfl, rfl⟩
  · rw [reapUnseen, State.sched_async, h] at hreap
    cases hreap
    exact ⟨rfl, rfl, rfl, rfl⟩

end AsyncStep

/-! ### The periodic step (R440, R441) -/

section PeriodicStep

variable {s e : State}

theorem periodicStep_noPass (he : periodicEnable s = .ok e) (hno : ¬ periodicCanStart e = true) :
    periodicStep s = .ok e := by
  simp only [periodicStep, he, if_neg hno]

/-- Where a pass may start, it is run from the entry of the frame list; `reap_unused` follows (R441). -/
theorem periodicStep_pass (hinv : Inv s = true) (he : periodicEnable s = .ok e)
    (hsame : e = s ∨ e = s.setAuto .periodic .active) (hact : e.periodic.auto = .active)
    (hbase : s.periodicListBase &&& 0xFFFFF000#32 ≠ 0) :
    let pass := run .periodic (8 * (s.params.maxPeriodicVisits + 1) + 3) { e with
      periodic := ⟨.fetchEntry, read32 s.mem ((s.periodicListBase &&& 0xFFFFF000#32) +
        BitVec.ofNat 32 (4 * (s.frindex.toNat / 8 % 1024))), none, 0, s.periodic.cache⟩ }
    (∀ u, pass = .ok u → ∃ w, reapUnused .periodic u = .ok w ∧ periodicStep s = .ok w) ∧
      ∀ x, pass = .error x → periodicStep s = .error x := by
  intro pass
  have hpass : run .periodic (passBudget .periodic e.params) (periodicBegin e) = pass := by
    rw [periodicBegin_eq]
    rcases hsame with rfl | rfl <;> rfl
  have hstart : periodicCanStart e = true :=
    periodicCanStart_iff.2 (by rcases hsame with rfl | rfl <;> exact ⟨hact, hbase⟩)
  refine ⟨fun u hu => ?_, fun x hx => ?_⟩
  · have hinvu := run_inv (inv_periodicBegin (schedEnable_inv (k := .periodic) hinv he)) (hpass.trans hu)
    obtain ⟨w, hw, -⟩ := inv_reapUnused (k := .periodic) hinvu
    refine ⟨w, hw, ?_⟩
    simp only [periodicStep, he, if_pos hstart, hpass, hu, hw, orFault]
  · simp only [periodicStep, he, if_pos hstart, hpass, hx]

end PeriodicStep

/-! ### The microframes (R471, R472) -/

section Microframes

variable {s u : State}

theorem advanceFrindex_uframeCtr (s : State) : (advanceFrindex s).uframeCtr = s.uframeCtr := by
  simp only [advanceFrindex]
  split <;> rfl

theorem accountMicroframe_committed (s : State) : accountMicroframe s.thresholdCommit =
    { (if s.thresholdCommit.hch then s.thresholdCommit else advanceFrindex s.thresholdCommit) with
      uframeCtr := s.uframeCtr + 1 } := by
  have hctr : (if s.thresholdCommit.hch then s.thresholdCommit else advanceFrindex s.thresholdCommit).uframeCtr =
      s.uframeCtr := by
    split
    · exact State.thresholdCommit_uframeCtr s
    · exact (advanceFrindex_uframeCtr _).trans (State.thresholdCommit_uframeCtr s)
  simp only [accountMicroframe, hctr]

theorem processMicroframes_enough {left i : Nat} (h : s.params.minUfrPerTick ≤ i ∧ s.thresholdCommit.irq = true) :
    processMicroframes (left + 1) i s = .ok (i, s.thresholdCommit) :=
  if_pos (by rwa [State.thresholdCommit_params])

theorem processMicroframes_step {left i : Nat}
    (h : ¬ (s.params.minUfrPerTick ≤ i ∧ s.thresholdCommit.irq = true)) :
    processMicroframes (left + 1) i s = match periodicStep (accountMicroframe s.thresholdCommit) with
      | .error e => .error e
      | .ok u => processMicroframes left (i + 1) u :=
  if_neg (by rwa [State.thresholdCommit_params])

end Microframes

/-! ### The tick (R470 to R472) -/

section Tick

variable {s : State} {now : Nat}

theorem exec_tick (hb : s.lastRunUs.getD now ≤ now) (hl : s.lastTickUs.getD now ≤ now) :
    exec (.tick now) s = finish (tickEntry now s) := by
  refine if_neg ?_
  rw [timeGoesBack, tickBase, Bool.or_eq_true, decide_eq_true_iff, decide_eq_true_iff]
  omega

theorem tickUpTo_eq (now : Nat) (s : State) :
    tickUpTo now s = s.lastRunUs.getD now + 125 * ((now - s.lastRunUs.getD now) / 125) := by
  rw [Nat.mul_comm]; rfl

/-- The start of a tick in which no microframe has elapsed (R470). -/
def quietStart (now : Nat) (s : State) : State :=
  { s with inEntry := true, lastRunUs := some (s.lastRunUs.getD now), lastTickUs := some now }

theorem quietStart_inv (now : Nat) (hinv : Inv s = true) : Inv (quietStart now s) = true :=
  inv_congr hinv rfl rfl rfl rfl fun k => by cases k <;> rfl

/-- A tick in which no microframe has elapsed is the asynchronous step and the commit. -/
theorem exec_tick_quiet (hb : s.lastRunUs.getD now ≤ now) (hl : s.lastTickUs.getD now ≤ now)
    (hlt : now < s.lastRunUs.getD now + 125) :
    exec (.tick now) s = finish (asyncAndCommit (quietStart now s)) := by
  have helapsed : tickElapsed now s = 0 := Nat.div_eq_of_lt (by rw [tickBase]; show _ < 125; omega)
  have hupTo : tickUpTo now s = s.lastRunUs.getD now := by
    rw [tickUpTo, helapsed, Nat.zero_mul, Nat.add_zero, tickBase]
  rw [exec_tick hb hl]
  simp only [tickEntry, helapsed, Nat.zero_sub, Nat.zero_min, processMicroframes, skipMicroframes, tickStart, hupTo,
    Nat.zero_mul, Nat.sub_zero, quietStart]

/-- The microframes of a tick: the excess skipped, the rest processed (R471, R472). -/
def tickLoop (now : Nat) (s : State) : Except Stop (Nat × State) :=
  processMicroframes (min (tickElapsed now s) s.params.maxUfrPerTick) 0
    (skipMicroframes (tickElapsed now s - s.params.maxUfrPerTick) (tickStart now s))

/-- After its microframes a tick moves `last_run_us` back for what is owed (R472). -/
theorem tickEntry_of_loop {i : Nat} {u : State} (h : tickLoop now s = .ok (i, u)) :
    tickEntry now s = asyncAndCommit { u with lastRunUs := some (s.lastRunUs.getD now +
      125 * (tickElapsed now s - (min (tickElapsed now s) s.params.maxUfrPerTick - i))) } := by
  have hback : tickUpTo now s - (min (tickElapsed now s) s.params.maxUfrPerTick - i) * Config.uframeUs =
      s.lastRunUs.getD now + 125 * (tickElapsed now s - (min (tickElapsed now s) s.params.maxUfrPerTick - i)) := by
    show tickBase now s + tickElapsed now s * 125 - _ * 125 = tickBase now s + _
    omega
  rw [← hback]
  unfold tickLoop at h
  simp only [tickEntry, h]

theorem tickEntry_of_stop {x : Stop} (h : tickLoop now s = .error x) : tickEntry now s = .error x := by
  unfold tickLoop at h
  simp only [tickEntry, h]

/-- How a tick ends after its microframes. -/
theorem finish_asyncAndCommit (v : State) :
    (∀ w, asyncStep v = .ok w → finish (asyncAndCommit v) = .next { w.commitAll with inEntry := false }) ∧
    (∀ x w, asyncStep v = .error (.fatal x w) → finish (asyncAndCommit v) = outcome (controllerReset w)) ∧
    ∀ f, asyncStep v = .error (.fault f) → finish (asyncAndCommit v) = .fault f :=
  ⟨fun _ h => by rw [asyncAndCommit_of_ok h]; rfl, fun _ _ h => by rw [asyncAndCommit_of_error h]; rfl,
    fun _ h => by rw [asyncAndCommit_of_error h]; rfl⟩

theorem commitAll_inEntry (s : State) (b : Bool) :
    ({ s with inEntry := b } : State).commitAll = { s.commitAll with inEntry := b } := by
  unfold State.commitAll
  split <;> rfl

end Tick

end Sys2Proof.Machine

section
open Sys2Proof Sys2Proof.Machine

/-- Settles O46: the asynchronous and the periodic step by their enables and starts, the tick around them. -/
theorem tickRunsThePasses : Obligations.TickRunsThePasses := by
  unfold Obligations.TickRunsThePasses
  refine ⟨?idle, ?pass, ?disabled, fun s hinv => ?asyncStep, fun s hinv => ?periodicStep, fun left i s => ?microframe,
    fun s now => ?tick⟩
  case idle =>
    intro s now hrs hase hrest b hb hl hlt hidle
    have hstep : asyncStep (quietStart now s) = _ := asyncStep_idle ⟨hrs, hase⟩ hrest hidle
    refine ⟨_, (exec_tick_quiet hb hl hlt).trans ((finish_asyncAndCommit _).1 _ hstep),
      (commitAll_inEntry _ false).symm, ?ass, ?hch, State.commitAll_mem _⟩
    case ass => rw [State.ass, State.commitAll_async]; rfl
    case hch =>
      have hrs' : ((quietStart now s).setAuto .async .active).usbcmd.rs = true := hrs
      rw [State.hch, State.commitAll_usbcmd, hrs']; rfl
  case pass =>
    intro s now hinv hrs hase hrest b hb hl hlt hlist hiaa
    have he : asyncEnable (quietStart now s) = .ok ((quietStart now s).setAuto .async .active) :=
      schedEnable_on (k := .async) trivial ⟨hrs, hase⟩ hrest
    obtain ⟨hok, hstop⟩ := asyncStep_pass (quietStart_inv now hinv) he (.inr rfl) rfl hiaa hlist
    obtain ⟨hnext, hfatal, hfault⟩ := finish_asyncAndCommit (quietStart now s)
    rw [exec_tick_quiet hb hl hlt]
    refine ⟨fun u hu => ?_, fun x u hx => hfatal x u (hstop _ hx), fun f hf => hfault f (hstop _ hf)⟩
    obtain ⟨v, w, hv, hw, hstep⟩ := hok u hu
    exact ⟨v, w, hv, hw, hnext w hstep⟩
  case disabled =>
    intro s now hinv hoff hact hb hl hlt
    obtain ⟨cs, u, hu, hstep, hcs⟩ := asyncStep_stops (quietStart_inv now hinv) hact hoff
    obtain ⟨hasync, hperiodic, hmem, hout⟩ := doorbell_emptyCache rfl hu
    have hasync' : u.commitAll.async = ⟨.inactive, s.async.fetchAddr, none, s.async.visits, []⟩ :=
      (State.commitAll_async u).trans hasync
    exact ⟨_, cs, (exec_tick_quiet hb hl hlt).trans ((finish_asyncAndCommit _).1 _ hstep), hasync',
      congrArg (fun r : SchedRegs => r.auto != .inactive) hasync', (State.commitAll_periodic u).trans hperiodic,
      (State.commitAll_mem u).trans hmem, rfl, (State.commitAll_outbox u).trans hout, hcs⟩
  case asyncStep =>
    intro on e stops passes
    have he : ¬ stops → asyncEnable s = .ok e := fun hgo =>
      schedEnable_goes (k := .async) ⟨fun h => ⟨trivial, h⟩, fun h => h.2⟩ fun h => hgo h.2
    have hsame : e = s ∨ e = s.setAuto .async .active := (ite_eq_or_eq _ _ _).symm
    have hstart : asyncCanStart e = true → passes := fun h => by
      obtain ⟨hact, hiaa, hlist⟩ := asyncCanStart_iff.1 h
      rcases hsame with hsame | hsame <;> rw [hsame] at hiaa hlist <;> exact ⟨hact, hiaa, hlist⟩
    refine ⟨fun hstops => asyncStep_stops hinv hstops.1 hstops.2, fun hgo hpasses => ?_, fun hgo hno => ?_⟩
    · exact asyncStep_pass hinv (he hgo) hsame hpasses.1 hpasses.2.1 hpasses.2.2
    · obtain ⟨u, hu, -⟩ := inv_doorbell (schedEnable_inv (k := .async) hinv (he hgo))
      exact ⟨u, hu, asyncStep_noPass (he hgo) (mt hstart hno) hu⟩
  case periodicStep =>
    intro on boundary base e stops
    have he : ¬ stops → periodicEnable s = .ok e := schedEnable_goes (k := .periodic) Iff.rfl
    have hsame : e = s ∨ e = s.setAuto .periodic .active := (ite_eq_or_eq _ _ _).symm
    refine ⟨fun hstops => ?_, fun hgo hact hbase => periodicStep_pass hinv (he hgo) hsame hact hbase,
      fun hgo hno => periodicStep_noPass (he hgo) fun h => ?_⟩
    · obtain ⟨cs, he, hcs⟩ := schedEnable_stops (k := .periodic) hinv hstops.1 hstops.2.1 hstops.2.2
      exact ⟨cs, periodicStep_noPass he nofun, fun o => (hcs o).trans cancelled_all_iff⟩
    · obtain ⟨hact, hbase⟩ := periodicCanStart_iff.1 h
      refine hno.elim (fun h => h hact) fun h => hbase ?_
      rcases hsame with hsame | hsame <;> rw [hsame] <;> exact h
  case microframe =>
    intro s1 enough counted
    have hcounted : counted = accountMicroframe s1 := (accountMicroframe_committed s).symm
    rw [hcounted]
    exact ⟨processMicroframes_enough, fun hgo =>
      ⟨fun u hu => by rw [processMicroframes_step hgo, hu], fun x hx => by rw [processMicroframes_step hgo, hx]⟩⟩
  case tick =>
    intro b hb hl n todo loop
    have hloop : tickLoop now s = loop := by
      rw [tickLoop, tickStart, tickUpTo_eq]; rfl
    rw [show exec (.tick now) s = finish (tickEntry now s) from exec_tick hb hl]
    refine ⟨fun i u hok => ?_, fun x w hx => ?_, fun f hf => ?_⟩
    · rw [tickEntry_of_loop (hloop.trans hok)]
      exact finish_asyncAndCommit _
    · rw [tickEntry_of_stop (hloop.trans hx)]; rfl
    · rw [tickEntry_of_stop (hloop.trans hf)]; rfl

end

/-! PROOFS. The doorbell (O47): what its step frees, and that a tick answers it. -/

namespace Sys2Proof.Machine

/-! ### The doorbell step (R406, R247) -/

/-- The doorbell step where it answers: the Queues not marked seen are freed, IAAD is withdrawn and IAA raised. -/
theorem doorbell_answers {s : State} (hinv : Inv s = true) (hiaad : s.usbcmd.iaad = true)
    (hiaa : s.usbsts.getLsbD 5 = false) : ∃ cs c u,
      doorbell s = .ok { s with
        usbcmd := { s.usbcmd with iaad := false }, usbstsPending := s.usbstsPending ||| 0b100000#6
        outbox := cs ++ s.outbox, async := { s.async with cache := c, curQueue := u } } ∧
      u = keptCur s.async.curQueue c ∧ (∀ a, cacheFind c a = (s.queue? .async a).filter fun q => q.seen) ∧
      (∀ q, q ∈ c ↔ q ∈ s.async.cache ∧ q.seen = true) ∧
      ∀ o, o ∈ cs ↔ Cancelled s .async (fun q => !q.seen) o := by
  obtain ⟨cs, c, u, hfree, hgood, hcur, hmem, hcs⟩ := reapSel_good (fun q => !q.seen) (inv_sched hinv .async)
  have hreap : reapUnseen s = _ := hfree
  refine ⟨cs, c, u, ?_, hcur, fun a => ?_, fun q => ?_, hcs⟩
  · refine (if_pos ⟨hiaad, hiaa⟩).trans ?_
    rw [hreap]
    rfl
  · have hfind := reapSel_find (inv_sched hinv .async) hgood hmem a
    simp only [Bool.not_not] at hfind
    exact hfind
  · exact (hmem q).trans (and_congr_right fun _ => by rw [Bool.not_eq_false'])

/-- The cancels of the Queues not marked seen, in the order of the statement. -/
theorem cancelled_unseen_iff {s : State} {k : Sched} {o : Output} : Cancelled s k (fun q => !q.seen) o ↔
    ∃ q d p, q ∈ (s.sched k).cache ∧ q.seen = false ∧ p ∈ q.packets ∧ p.tag = .inflight ∧ q.dev = some d ∧
      o = .cancel d k q.qhaddr p.qtdaddr := by
  simp only [Cancelled, Bool.not_eq_true']
  constructor
  · rintro ⟨q, p, d, h⟩; exact ⟨q, d, p, h⟩
  · rintro ⟨q, d, p, h⟩; exact ⟨q, p, d, h⟩

/-- A current Queue that is kept is one marked seen. -/
theorem keptCur_seen {s : State} {c : List Queue}
    (hfind : ∀ a, cacheFind c a = (s.queue? .async a).filter fun q => q.seen) (cur : Option Word) :
    keptCur cur c = cur.filter fun a => (s.queue? .async a).any fun q => q.seen :=
  congrArg cur.filter (funext fun a => by rw [hfind, Option.isSome_filter])

theorem doorbell_silent {s : State} (h : s.usbcmd.iaad = false ∨ s.usbsts.getLsbD 5 = true) : doorbell s = .ok s :=
  if_neg fun ⟨hiaad, hiaa⟩ => h.elim (fun h => Bool.noConfusion (h.symm.trans hiaad)) fun h =>
    Bool.noConfusion (hiaa.symm.trans h)

/-! ### Marks of the present count (R231) -/

/-- A Queue marked seen was last seen at the count `ctr`. -/
def FreshMark (ctr : Nat) (q : Queue) : Prop := q.seen = true → q.lastSeen = ctr

/-- The Queues marked seen were last seen at the count `ctr`. -/
def FreshMarks (ctr : Nat) (s : State) : Prop := ∀ j, ∀ q ∈ (s.sched j).cache, FreshMark ctr q

section Marks

variable {ctr : Nat} {k : Sched} {s t : State} {q q' : Queue} {x : AutoState}

theorem freshMarks_of_unseen (h : ∀ j, Unseen s j) : FreshMarks ctr s := fun j q hq hseen =>
  absurd ((h j q hq).symm.trans hseen) nofun

namespace FreshMarks

theorem of_sched (h : FreshMarks ctr s) (e : ∀ j, t.sched j = s.sched j) : FreshMarks ctr t :=
  fun j q hq => h j q (by rwa [e] at hq)

theorem setSched {r : SchedRegs} (h : FreshMarks ctr s) (hr : r.cache = (s.sched k).cache) :
    FreshMarks ctr (s.setSched k r) := fun j q hq => by
  by_cases hj : j = k
  · subst hj
    rw [State.setSched_sched, hr] at hq
    exact h j q hq
  · rw [State.setSched_sched_ne _ _ hj] at hq
    exact h j q hq

theorem setAuto (h : FreshMarks ctr s) : FreshMarks ctr (s.setAuto k x) := h.setSched rfl
theorem setFetch {a : Word} (h : FreshMarks ctr s) : FreshMarks ctr (s.setFetch k a) := h.setSched rfl
theorem setCur {a : Option Word} (h : FreshMarks ctr s) : FreshMarks ctr (s.setCur k a) := h.setSched rfl
theorem setVisits {n : Nat} (h : FreshMarks ctr s) : FreshMarks ctr (s.setVisits k n) := h.setSched rfl

theorem outbox {o : List Output} (h : FreshMarks ctr s) : FreshMarks ctr { s with outbox := o } :=
  h.of_sched fun j => by cases j <;> rfl

theorem putQueue (h : FreshMarks ctr s) (hq : FreshMark ctr q) : FreshMarks ctr (s.putQueue q) := fun j r hr => by
  by_cases hj : j = q.kind
  · subst hj
    rw [State.putQueue_sched] at hr
    rcases mem_cachePut hr with rfl | hr
    · exact hq
    · exact h _ r hr
  · rw [State.putQueue_sched_ne _ _ hj] at hr
    exact h j r hr

/-- A step ends by storing a Queue and choosing the next state. -/
theorem put_auto (h : FreshMarks ctr s) (hq : FreshMark ctr q) : FreshMarks ctr ((s.putQueue q).setAuto k x) :=
  (h.putQueue hq).setAuto

theorem queue (h : FreshMarks ctr s) {a : Word} (hq : s.queue? k a = some q) : FreshMark ctr q :=
  h k q (cacheFind_some hq).1

theorem current (h : FreshMarks ctr s) (hq : s.current k = some q) : FreshMark ctr q := by
  unfold State.current at hq
  split at hq
  · cases hq
  · exact h.queue hq

/-! The operations inside a step. -/

theorem resetQueue (h : FreshMarks ctr s) (hq : FreshMark ctr q) (hr : Machine.resetQueue q s = .ok (q', t)) :
    FreshMarks ctr t ∧ FreshMark ctr q' := by
  obtain ⟨⟨l, rfl, -⟩, cs, rfl⟩ := resetQueue_frame hr
  exact ⟨h.outbox, hq⟩

theorem flushOverlay (h : FreshMarks ctr s) : FreshMarks ctr (Machine.flushOverlay q s) :=
  h.of_sched (flushOverlay_sched q s)

theorem deliver {c : Completion} (h : FreshMarks ctr s) (hd : Machine.deliver c s = .ok t) : FreshMarks ctr t := by
  simp only [Machine.deliver] at hd
  split at hd
  · cases hd
  · rename_i q hq
    split at hd
    · cases hd
    · split_ifs at hd
      cases hd
      have hmark := h.queue hq
      exact h.putQueue (q := q.putPacket _) hmark

theorem deliverAll {p : Packet} {cs : List Completion} {r r' : Option DevAnswer} (h : FreshMarks ctr s)
    (hd : Machine.deliverAll q p cs r s = .ok (r', t)) : FreshMarks ctr t := by
  induction cs generalizing r s with
  | nil => cases hd; exact h
  | cons c cs ih =>
    simp only [Machine.deliverAll] at hd
    split at hd
    · split at hd
      · cases hd
      · exact ih h hd
    · split at hd
      · cases hd
      · exact ih (h.deliver ‹_›) hd

theorem nextAnswer (h : FreshMarks ctr s) : FreshMarks ctr s.nextAnswer.2 := by
  unfold State.nextAnswer
  split <;> exact h.of_sched fun j => by cases j <;> rfl

theorem answerFor {p : Packet} {r : DevAnswer} (h : FreshMarks ctr s) (ha : Machine.answerFor q p s = .ok (r, t)) :
    FreshMarks ctr t := by
  simp only [Machine.answerFor] at ha
  split at ha
  · cases ha; exact h
  · simp only [submit] at ha
    split at ha
    · cases ha
    · cases ha
      exact deliverAll (nextAnswer (h.of_sched fun j => State.emit_sched _ _ _)) ‹_›

theorem afterAnswer {p : Packet} {r : DevAnswer} (h : FreshMarks ctr s) (hq : FreshMark ctr q) :
    FreshMarks ctr (Machine.afterAnswer k q p r s) := by
  have hput : ∀ p', FreshMarks ctr (s.putQueue (q.putPacket p')) := fun p' => h.putQueue (q := q.putPacket p') hq
  unfold Machine.afterAnswer
  split
  · exact ((hput _).flushOverlay.of_sched (reclIfAsync_sched _ k)).setAuto
  · exact (hput _).setAuto

theorem dispatchQh (h : FreshMarks ctr s) (hq : FreshMark ctr q) : FreshMarks ctr (Machine.dispatchQh k q s) := by
  rw [dispatchQh_eq]
  exact h.put_auto hq

theorem dispatchNew {d : Qtd} (h : FreshMarks ctr s) (hq : FreshMark ctr q) :
    FreshMarks ctr (Machine.dispatchNew k q d s) := by
  simp only [Machine.dispatchNew, inactiveStep]
  split_ifs
  · exact h.put_auto hq
  · exact h.put_auto hq
  · exact h.put_auto hq
  · exact h.put_auto (q := q.allocate _ _) hq

/-! The steps of a walk. -/

theorem linkStep {lp : Word} (h : FreshMarks ctr s) (hs : Machine.linkStep k lp s = .ok t) : FreshMarks ctr t := by
  unfold Machine.linkStep at hs
  split_ifs at hs
  · cases hs; exact h.setAuto
  · cases hs; exact h.setAuto
  · cases k <;> cases hs
    exact h.setAuto
  · cases k <;> cases hs
    exact h.setAuto
  · cases hs

theorem boundExceeded (h : FreshMarks ctr s) : FreshMarks ctr (Machine.boundExceeded k s) :=
  (h.of_sched (t := { s with diagEmitted := true }) fun j => by cases j <;> rfl).setAuto

theorem fetchEntry (h : FreshMarks ctr s) (hs : Machine.fetchEntry k s = .ok t) : FreshMarks ctr t := by
  have hcounted : FreshMarks ctr (countedEntry k s) := by
    cases k
    · exact h
    · exact h.setVisits
  rw [fetchEntry_eq] at hs
  split at hs
  · cases hs; exact hcounted.boundExceeded
  · exact hcounted.linkStep hs

theorem checkQh {b : Bool} {f : Qh} (h : FreshMarks ctr s) (hq : FreshMark ctr q)
    (hs : Machine.checkQh k q b f s = .ok t) : FreshMarks ctr t := by
  have hend : ∀ {q1 s1}, FreshMarks ctr s1 ∧ FreshMark ctr q1 →
      FreshMarks ctr (Machine.dispatchQh k (resolveDevice s1 { q1 with qh := f }) s1) := fun {q1 s1} h1 => by
    rw [resolveDevice_eq]
    exact h1.1.dispatchQh h1.2
  simp only [Machine.checkQh] at hs
  split at hs
  · cases hs
  · rename_i h1
    cases hs
    split at h1
    · exact hend (h.resetQueue hq h1)
    · cases h1; exact hend ⟨h, hq⟩

/-- A visit marks its Queue at the present count (R231). -/
theorem visitQh (h : FreshMarks ctr s) (hctr : s.uframeCtr = ctr) (hs : Machine.visitQh k s = .ok t) :
    FreshMarks ctr t := by
  have hmark : ∀ q : Queue, FreshMark ctr (q.markSeen s.uframeCtr) := fun _ _ => hctr
  simp only [Machine.visitQh] at hs
  split at hs
  · split at hs
    · exact ((h.putQueue (hmark _)).setCur.of_sched (State.setRecl_sched _ _)).checkQh (hmark _) hs
    · cases hs; exact (h.putQueue (hmark _)).setCur.setAuto
  · exact (h.putQueue (hmark _)).setCur.checkQh (hmark _) hs

theorem fetchQh (h : FreshMarks ctr s) (hctr : s.uframeCtr = ctr) (hs : Machine.fetchQh k s = .ok t) :
    FreshMarks ctr t := by
  cases k with
  | periodic => exact h.visitQh (k := .periodic) hctr hs
  | async =>
    simp only [Machine.fetchQh] at hs
    split at hs
    · cases hs; exact h.setVisits.boundExceeded
    · exact h.setVisits.visitQh ((State.setVisits_uframeCtr _ _ _).trans hctr) hs

theorem advanceQueue (h : FreshMarks ctr s) (hs : Machine.advanceQueue k s = .ok t) : FreshMarks ctr t := by
  obtain ⟨q, hq, hs⟩ := withCurrent_ok hs
  have hmark := h.current hq
  have hput : ∀ a, FreshMarks ctr ((s.putQueue { q with qtdaddr := a }).setAuto k .fetchQtd) := fun a =>
    h.put_auto (q := { q with qtdaddr := a }) hmark
  split_ifs at hs <;> cases hs
  · exact hput _
  · exact hput _
  · exact h.setAuto

theorem dispatchQtd {d : Qtd} (h : FreshMarks ctr s) (hq : FreshMark ctr q)
    (hs : Machine.dispatchQtd k q d s = .ok t) : FreshMarks ctr t := by
  have hreset : ∀ {q1 s1}, Machine.resetQueue q s = .ok (q1, s1) →
      FreshMarks ctr (Machine.dispatchNew k q1 d s1) := fun hr => by
    obtain ⟨hs1, hq1⟩ := h.resetQueue hq hr
    exact hs1.dispatchNew hq1
  simp only [Machine.dispatchQtd] at hs
  split at hs
  · split at hs
    · split at hs <;> cases hs
      exact hreset ‹_›
    · split at hs <;> cases hs
      · exact h.setAuto
      · exact h.setAuto
      · exact h.dispatchNew hq
  · split at hs
    · split at hs <;> cases hs
      exact hreset ‹_›
    · cases hs; exact h.dispatchNew hq

theorem executePacket {p : Packet} (h : FreshMarks ctr s) (hq : FreshMark ctr q)
    (hs : Machine.executePacket k q p s = .ok t) : FreshMarks ctr t := by
  simp only [Machine.executePacket] at hs
  split at hs
  · cases hs
  · split at hs
    · cases hs
    · split at hs
      · cases hs
      · cases hs
        have hput := (h.flushOverlay (q := q.loadOverlay p)).putQueue (q := q.loadOverlay p) hq
        exact (hput.answerFor ‹_›).afterAnswer (q := q.loadOverlay p) hq

theorem interpret {p : Packet} (hinv : Inv s = true) (h : FreshMarks ctr s) (hq : FreshMark ctr q)
    (hs : Machine.interpret k q p s = .ok t) : FreshMarks ctr t := by
  simp only [Machine.interpret] at hs
  split at hs
  · cases hs
  · cases hs; exact h.put_auto (q := q.freePacket p) hq
  · simp only [toWriteback] at hs
    split at hs
    · cases hs
    · rename_i hresult
      cases hs
      obtain ⟨-, qh', rfl⟩ := inv_processResult (inv_reclIfAsync k hinv) hresult
      refine (h.of_sched fun j => ?_).put_auto (q := { q with qh := qh' }) hq
      rw [processResult_sched hresult, reclIfAsync_sched]

theorem writebackPacket {p : Packet} (h : FreshMarks ctr s) (hq : FreshMark ctr q)
    (hs : Machine.writebackPacket k q p s = .ok t) : FreshMarks ctr t := by
  have hflush : FreshMarks ctr (Machine.flushOverlay q (s.setMem (writebackQtd s.mem p q.qh.ov.token))) :=
    flushOverlay (h.of_sched (State.setMem_sched _ _))
  simp only [Machine.writebackPacket] at hs
  split at hs
  · cases hs
  · rename_i h3
    cases hs
    simp only [haltPropagation] at h3
    split at h3
    · obtain ⟨⟨l, rfl, -⟩, cs, rfl⟩ := cancelPackets_frame h3
      exact hflush.outbox.put_auto (q := { q.freePacket p with packets := l }) hq
    · cases h3
      exact hflush.put_auto (q := q.freePacket p) hq

theorem waitListHead (h : FreshMarks ctr s) : FreshMarks ctr (Machine.waitListHead s) := by
  have hrecl : FreshMarks ctr (s.setRecl true) := h.of_sched (State.setRecl_sched _ _)
  simp only [Machine.waitListHead]
  split
  · exact hrecl.setFetch.setAuto
  · exact hrecl.setAuto

theorem walkStep (hinv : Inv s = true) (h : FreshMarks ctr s) (hctr : s.uframeCtr = ctr)
    (hs : Machine.walkStep k s = .ok t) : FreshMarks ctr t := by
  simp only [Machine.walkStep] at hs
  split at hs
  · cases hs; exact h
  · cases hs; exact h
  · cases k <;> cases hs
    exact h.waitListHead
  · exact h.fetchEntry hs
  · exact h.fetchQh hctr hs
  · cases k <;> cases hs
    exact h.setFetch.setAuto
  · cases k <;> cases hs
    exact h.setFetch.setAuto
  · exact h.advanceQueue hs
  · obtain ⟨q, hq, hs⟩ := withCurrent_ok hs
    exact h.dispatchQtd (h.current hq) hs
  · obtain ⟨q, p, hp, -, hs⟩ := withPacket_ok hs
    exact h.executePacket (h.current hp.1) hs
  · obtain ⟨q, p, hp, -, hs⟩ := withPacket_ok hs
    exact h.interpret hinv (h.current hp.1) hs
  · obtain ⟨q, p, hp, -, hs⟩ := withPacket_ok hs
    exact h.writebackPacket (h.current hp.1) hs
  · obtain ⟨q, hq, hs⟩ := withCurrent_ok hs
    cases hs
    exact h.setFetch.setCur.setAuto

/-- A whole pass marks at the present count only. -/
theorem run {n : Nat} (hinv : Inv s = true) (h : FreshMarks ctr s) (hctr : s.uframeCtr = ctr)
    (hs : Machine.run k n s = .ok t) : FreshMarks ctr t := by
  induction n generalizing s with
  | zero =>
    simp only [Machine.run] at hs
    split_ifs at hs
    cases hs; exact h
  | succ n ih =>
    simp only [Machine.run] at hs
    split_ifs at hs
    · cases hs; exact h
    · split at hs
      · cases hs
      · rename_i u hu
        have hk := walkStep_keeps (k := k) hinv
        rw [hu] at hk
        exact ih hk (h.walkStep hinv hctr hu) ((Walked.walkStep hu).uframeCtr.trans hctr) hs

end FreshMarks

end Marks

/-! ### The doorbell up to the asynchronous step -/

/-- The doorbell has been rung and IAA is neither set nor pending (R406). -/
structure Ringing (s : State) : Prop where
  iaad : s.usbcmd.iaad = true
  iaa : s.usbsts.getLsbD 5 = false
  pending : s.usbstsPending.getLsbD 5 = false

/-- The doorbell has been answered: IAA is pending, and the asynchronous Queues left were last seen now (R406). -/
structure DoorbellAnswered (s : State) : Prop where
  iaad : s.usbcmd.iaad = false
  pending : s.usbstsPending.getLsbD 5 = true
  lastSeen : ∀ q ∈ s.async.cache, q.lastSeen = s.uframeCtr

section Ringing

variable {s t : State}

theorem Walked.of_reaped {k : Sched} (h : Reaped s t) : Walked k s t := by
  unfold Reaped at h
  constructor <;> intros <;> rw [h]
  · rename_i j _; cases j <;> rfl
  · rename_i j _; cases j <;> rfl

theorem Walked.schedEnable {k : Sched} (h : Machine.schedEnable k s = .ok t) : Walked k s t := by
  rcases schedEnable_cases h with rfl | rfl | ⟨s1, h1, rfl⟩
  · exact .refl k _
  · exact .setAuto _
  · exact (Walked.of_reaped (reapAll_frame h1)).trans (.setAuto _)

theorem Walked.periodicStep (h : Machine.periodicStep s = .ok t) : Walked .periodic s t := by
  obtain ⟨s1, h1, ⟨n, s2, h2, h3⟩ | rfl⟩ := periodicStep_ok h
  · exact (((Walked.schedEnable h1).trans (periodicBegin_walked s1)).trans (.run h2)).trans
      (.of_reaped (reapUnused_frame h3))
  · exact .schedEnable h1

namespace Ringing

theorem of_eq (h : Ringing s) (hc : t.usbcmd = s.usbcmd) (hs : t.usbsts.getLsbD 5 = s.usbsts.getLsbD 5)
    (hp : t.usbstsPending.getLsbD 5 = s.usbstsPending.getLsbD 5) : Ringing t :=
  ⟨by rw [hc]; exact h.iaad, hs.trans h.iaa, hp.trans h.pending⟩

theorem walked {k : Sched} (h : Ringing s) (hw : Walked k s t) : Ringing t := by
  refine h.of_eq hw.usbcmd (by rw [hw.usbsts]) ?_
  have hbit := congrArg (fun x : BitVec 6 => x.getLsbD 5) hw.pending
  simpa [walkQuietBits] using hbit

theorem thresholdCommit (h : Ringing s) : Ringing s.thresholdCommit := by
  unfold State.thresholdCommit
  split
  · exact ⟨h.iaad, by rw [State.commit, BitVec.getLsbD_or, h.iaa, h.pending]; rfl, BitVec.getLsbD_zero⟩
  · exact h

/-- Accounting a microframe may raise FLR, and no other bit (R474). -/
theorem accountMicroframe (h : Ringing s) : Ringing (Machine.accountMicroframe s) := by
  have hadvance : Ringing (advanceFrindex s) := by
    simp only [advanceFrindex]
    split
    · exact ⟨h.iaad, (BitVec.getLsbD_or).trans (by rw [h.iaa]; rfl), h.pending⟩
    · exact ⟨h.iaad, h.iaa, h.pending⟩
  have hframe : Ringing (if s.hch then s else advanceFrindex s) := by
    split
    · exact h
    · exact hadvance
  exact ⟨hframe.iaad, hframe.iaa, hframe.pending⟩

theorem skipMicroframes {n : Nat} (h : Ringing s) : Ringing (Machine.skipMicroframes n s) := by
  induction n generalizing s with
  | zero => exact h
  | succ n ih => exact ih h.accountMicroframe

theorem processMicroframes {left i j : Nat} (h : Ringing s) (hs : Machine.processMicroframes left i s = .ok (j, t)) :
    Ringing t := by
  induction left generalizing i s with
  | zero => cases hs; exact h
  | succ left ih =>
    simp only [Machine.processMicroframes] at hs
    split at hs
    · cases hs; exact h.thresholdCommit
    · split at hs
      · cases hs
      · exact ih (h.thresholdCommit.accountMicroframe.walked (.periodicStep ‹_›)) hs

end Ringing

/-! ### The asynchronous step answers -/

/-- The doorbell step after which only Queues seen at the present count are left. -/
theorem doorbell_answered (hinv : Inv s = true) (hr : Ringing s) (hm : FreshMarks s.uframeCtr s)
    (h : doorbell s = .ok t) : DoorbellAnswered t := by
  obtain ⟨cs, c, u, hbell, -, -, hmem, -⟩ := doorbell_answers hinv hr.iaad hr.iaa
  rw [h] at hbell
  cases hbell
  refine ⟨rfl, BitVec.getLsbD_or.trans (by rw [hr.pending]; rfl), fun q hq => ?_⟩
  obtain ⟨hq, hseen⟩ := (hmem q).1 hq
  exact hm .async q hq hseen

/-- Ageing the cache changes no count of a Queue (R246). -/
theorem DoorbellAnswered.reapUnused (ha : DoorbellAnswered s) (hinv : Inv s = true)
    (h : Machine.reapUnused .async s = .ok t) : DoorbellAnswered t := by
  obtain ⟨cs, c, u, hreap, hgood, -, hfind, -⟩ := reapUnused_good (inv_sched hinv .async)
  rw [h] at hreap
  cases hreap
  refine ⟨ha.iaad, ha.pending, fun q hq => ?_⟩
  have hq' := cacheFind_of_mem (schedOk_iff.1 hgood).1 hq
  rw [hfind] at hq'
  obtain ⟨r, hr, haged⟩ := Option.bind_eq_some_iff.1 hq'
  have hlast : q.lastSeen = r.lastSeen := by
    unfold agedQueue at haged
    split at haged
    · cases haged; rfl
    · split at haged <;> cases haged
      rfl
  exact hlast.trans (ha.lastSeen r (cacheFind_some hr).1)

/-- The asynchronous step from rest answers the doorbell: after its pass, or without one (R404, R406). -/
theorem asyncStep_answers (hinv : Inv s = true) (hrest : Rested s) (hr : Ringing s) (h : asyncStep s = .ok t) :
    DoorbellAnswered t := by
  obtain ⟨s1, h1, hcase⟩ := asyncStep_ok h
  have hinv1 := schedEnable_inv hinv h1
  have hr1 := hr.walked (.schedEnable h1)
  have hm1 : FreshMarks s1.uframeCtr s1 := freshMarks_of_unseen fun j =>
    Unseen.shrink (hrest.2 j) (schedEnable_cachesShrink h1)
  rcases hcase with ⟨n, s2, s3, h2, h3, h4⟩ | hbell
  · have hb : Walked .async s1 (asyncBegin s1) := asyncBegin_walked s1
    have hw : Walked .async s1 s2 := hb.trans (.run h2)
    have hinv2 := run_inv (inv_asyncBegin hinv1) h2
    have hm2 : FreshMarks s1.uframeCtr s2 :=
      FreshMarks.run (inv_asyncBegin hinv1) hm1.setVisits.setCur.setAuto hb.uframeCtr h2
    rw [← hw.uframeCtr] at hm2
    exact (doorbell_answered hinv2 (hr1.walked hw) hm2 h3).reapUnused (doorbell_inv hinv2 h3) h4
  · exact doorbell_answered hinv1 hr1 hm1 hbell

/-- A tick that ends normally: its microframes, then the asynchronous step and the commit (R472). -/
theorem tickEntry_ok {now : Nat} (h : tickEntry now s = .ok t) :
    ∃ i u b, tickLoop now s = .ok (i, u) ∧ asyncAndCommit { u with lastRunUs := some b } = .ok t := by
  cases hloop : tickLoop now s with
  | error x => rw [tickEntry_of_stop hloop] at h; cases h
  | ok r => exact ⟨r.1, r.2, _, rfl, (tickEntry_of_loop hloop).symm.trans h⟩

/-- The microframes of a tick leave a good state at rest (R31). -/
theorem tickLoop_good {now i : Nat} (hinv : Inv s = true) (hrest : Rested s) (h : tickLoop now s = .ok (i, t)) :
    Inv t = true ∧ Rested t := by
  have hinv0 : Inv (skipMicroframes (tickElapsed now s - s.params.maxUfrPerTick) (tickStart now s)) = true :=
    inv_skipMicroframes _ (inv_congr hinv rfl rfl rfl rfl fun k => by cases k <;> rfl)
  have hrest0 : Rested (skipMicroframes (tickElapsed now s - s.params.maxUfrPerTick) (tickStart now s)) :=
    rested_of_sched hrest fun k => by rw [skipMicroframes_sched]; cases k <;> rfl
  have hkeeps := processMicroframes_keeps (left := min (tickElapsed now s) s.params.maxUfrPerTick) (i := 0) hinv0
  unfold tickLoop at h
  rw [h] at hkeeps
  exact ⟨hkeeps, processMicroframes_rested hinv0 hrest0 h⟩

/-- The commit of an entry's end makes a pending IAA visible (R536). -/
theorem commitAll_iaa (h : s.usbstsPending.getLsbD 5 = true) : s.commitAll.usbsts.getLsbD 5 = true := by
  have hsome : s.usbstsPending ≠ 0 := fun h0 => by rw [h0] at h; cases h
  rw [State.commitAll, if_pos hsome, State.commit, BitVec.getLsbD_or, h, Bool.or_true]

theorem tickEntry_answers {now : Nat} (hinv : Inv s = true) (hrest : Rested s) (hr : Ringing s)
    (h : tickEntry now s = .ok t) : t.usbcmd.iaad = false ∧ t.usbsts.getLsbD 5 = true ∧
      ∀ q ∈ t.async.cache, q.lastSeen = t.uframeCtr := by
  obtain ⟨i, u, b, hloop, hend⟩ := tickEntry_ok h
  obtain ⟨hinvu, hrestu⟩ := tickLoop_good hinv hrest hloop
  have hstart : Ringing (tickStart now s) := ⟨hr.iaad, hr.iaa, hr.pending⟩
  have hru : Ringing u := hstart.skipMicroframes.processMicroframes hloop
  obtain ⟨w, hw, rfl⟩ := asyncAndCommit_ok hend
  have ha : DoorbellAnswered w := asyncStep_answers (s := { u with lastRunUs := some b })
    (inv_free hinvu rfl rfl rfl rfl rfl rfl) (rested_of_regs hrestu rfl rfl) ⟨hru.iaad, hru.iaa, hru.pending⟩ hw
  refine ⟨(congrArg UsbCmd.iaad (State.commitAll_usbcmd w)).trans ha.iaad, commitAll_iaa ha.pending, fun q hq => ?_⟩
  have hq' : q ∈ w.commitAll.async.cache := hq
  rw [State.commitAll_async] at hq'
  exact (ha.lastSeen q hq').trans (State.commitAll_uframeCtr w).symm

/-- A tick that no Fatal ends is one whose entry ends normally: the reset unsets `last_run_us` (R530, R583). -/
theorem exec_tick_noFatal {now : Nat} (hinv : Inv s = true) (h : exec (.tick now) s = .next t)
    (hrun : t.lastRunUs ≠ none) : tickEntry now s = .ok t := by
  have hrow : execTick now s = .next t := h
  unfold execTick at hrow
  split_ifs at hrow
  have hkeeps := tickEntry_keeps (now := now) hinv
  match hx : tickEntry now s with
  | .ok u => rw [hx] at hrow; cases hrow; rfl
  | .error (.fault f) => rw [hx] at hrow; cases hrow
  | .error (.fatal r u) =>
    rw [hx] at hrow hkeeps
    obtain ⟨v, hv, hreset⟩ := takeFatal_good r hkeeps
    cases hv.symm.trans hrow
    exact absurd (congrArg State.lastRunUs hreset.1) hrun

end Ringing

end Sys2Proof.Machine

section
open Sys2Proof Sys2Proof.Machine

/-- Settles O47: the doorbell step frees the Queues not marked; a tick from rest marks only at the present count. -/
theorem tickAnswersTheDoorbell : Obligations.TickAnswersTheDoorbell := by
  unfold Obligations.TickAnswersTheDoorbell
  refine ⟨fun s hinv => ⟨fun hiaad hiaa => ?step, doorbell_silent⟩,
    fun s t now hinv hrest hiaad hiaa hpending h hrun => ?tick⟩
  case step =>
    obtain ⟨cs, c, u, hbell, hcur, hfind, -, hcs⟩ := doorbell_answers hinv hiaad hiaa
    refine ⟨_, cs, hbell, rfl, rfl, hfind, rfl, fun o => (hcs o).trans cancelled_unseen_iff, rfl, rfl, rfl,
      hcur.trans (keptCur_seen hfind _), rfl⟩
  case tick => exact tickEntry_answers hinv hrest ⟨hiaad, hiaa, hpending⟩ (exec_tick_noFatal hinv h hrun)

end

namespace Sys2Proof.Machine

theorem exec_stateFetchItd (s : State) : exec .stateFetchItd s = .next (fetchStub .periodic s) := rfl

theorem exec_stateFetchSitd (s : State) : exec .stateFetchSitd s = .next (fetchStub .periodic s) := rfl

/-- The pointer of R150 written out, on the periodic fetch address. -/
theorem fetchStub_periodic (s : State) : fetchStub .periodic s =
    (s.setFetch .periodic (read32 s.mem (s.periodic.fetchAddr &&& 0xFFFFFFE0#32))).setAuto .periodic .fetchEntry := rfl

end Sys2Proof.Machine

section
open Sys2Proof Sys2Proof.Machine

/-- Settles O23: the iTD row and the siTD row are one stub step (R444, R445). -/
theorem stubStepsFollowWordZero : Obligations.StubStepsFollowWordZero := by
  unfold Obligations.StubStepsFollowWordZero
  rintro s i (rfl | rfl)
  · rw [exec_stateFetchItd, fetchStub_periodic]
  · rw [exec_stateFetchSitd, fetchStub_periodic]

end

/-! PROOFS. The tick from outside: which ticks are refused, that every other one records its time, that the first one
only takes it (O48), and that every tick from rest completes (O52). -/

namespace Sys2Proof.Machine

section TickOutcome

variable {s t u : State} {now : Nat} {r : FatalReason}

/-! ### The outcome of a tick (R470, R530) -/

/-- An entry leaves the state it ends normally in, or the one that the reset of its Fatal leaves (R530). -/
theorem finish_next {x : Except Stop State} (h : finish x = .next t) :
    x = .ok t ∨ ∃ r u, x = .error (.fatal r u) ∧ controllerReset u = .ok t :=
  match x, h with
  | .ok _, h => by cases h; exact .inl rfl
  | .error (.fatal r u), h => .inr ⟨r, u, rfl, outcome_next h⟩
  | .error (.fault _), h => by cases h

/-- An entry after which `last_run_us` is set was not ended by a Fatal, whose reset unsets it (R583). -/
theorem finish_next_noFatal {x : Except Stop State} (h : finish x = .next t) (hrun : t.lastRunUs ≠ none) :
    x = .ok t := by
  rcases finish_next h with hok | ⟨r, u, -, hreset⟩
  · exact hok
  · exact absurd (controllerReset_wasReset hreset).lastRunUs hrun

theorem timeGoesBack_iff :
    timeGoesBack now s = true ↔ now < s.lastRunUs.getD now ∨ now < s.lastTickUs.getD now := by
  rw [timeGoesBack, tickBase, Bool.or_eq_true, decide_eq_true_iff, decide_eq_true_iff]

theorem exec_tick_refused (h : timeGoesBack now s = true) : exec (.tick now) s = .refused .tickBackwards := if_pos h

/-- A tick that leaves a state does not go back in time, and the state is what its entry leaves. -/
theorem exec_tick_next (h : exec (.tick now) s = .next t) :
    s.lastRunUs.getD now ≤ now ∧ s.lastTickUs.getD now ≤ now ∧ finish (tickEntry now s) = .next t := by
  have hforward : ¬ timeGoesBack now s = true := fun hback => by rw [exec_tick_refused hback] at h; cases h
  rw [timeGoesBack_iff, not_or, Nat.not_lt, Nat.not_lt] at hforward
  obtain ⟨hbase, hlast⟩ := hforward
  exact ⟨hbase, hlast, (exec_tick hbase hlast).symm.trans h⟩

/-! ### The record of the tick's time (log 36) -/

theorem controllerReset_lastTickUs (h : controllerReset s = .ok t) : t.lastTickUs = s.lastTickUs := by
  simp only [controllerReset] at h
  split at h
  · cases h
  · rename_i s1 h1
    split at h
    · cases h
    · rename_i s2 h2
      cases h
      exact (Stepped.ofReaped ((reapAll_frame h1).trans (reapAll_frame h2))).lastTickUs

theorem run_fatal_lastTickUs {k : Sched} {n : Nat} (h : run k n s = .error (.fatal r u)) :
    u.lastTickUs = s.lastTickUs := by
  have hrun := run_confines (k := k) (s := s) n
  rw [h] at hrun
  exact hrun.walked.lastTickUs

theorem periodicStep_fatal_lastTickUs (h : periodicStep s = .error (.fatal r u)) : u.lastTickUs = s.lastTickUs := by
  obtain ⟨s1, n, h1, h2⟩ := periodicStep_fatal h
  exact (run_fatal_lastTickUs h2).trans ((Walked.schedEnable h1).trans (periodicBegin_walked s1)).lastTickUs

theorem asyncStep_fatal_lastTickUs (h : asyncStep s = .error (.fatal r u)) : u.lastTickUs = s.lastTickUs := by
  obtain ⟨s1, n, h1, h2⟩ := asyncStep_fatal h
  exact (run_fatal_lastTickUs h2).trans ((Walked.schedEnable h1).trans (asyncBegin_walked s1)).lastTickUs

theorem processMicroframes_fatal_lastTickUs {left i : Nat} (h : processMicroframes left i s = .error (.fatal r u)) :
    u.lastTickUs = s.lastTickUs := by
  induction left generalizing i s with
  | zero => cases h
  | succ left ih =>
    have haccount : (accountMicroframe s.thresholdCommit).lastTickUs = s.lastTickUs :=
      (accountMicroframe_lastTickUs _).trans (State.thresholdCommit_lastTickUs s)
    simp only [processMicroframes] at h
    split at h
    · cases h
    · split at h
      · rename_i hstep
        cases h
        exact (periodicStep_fatal_lastTickUs hstep).trans haccount
      · rename_i s2 hstep
        exact (ih h).trans ((Stepped.periodicStep hstep).lastTickUs.trans haccount)

theorem tickLoop_lastTickUs {i : Nat} (h : tickLoop now s = .ok (i, u)) : u.lastTickUs = some now :=
  (processMicroframes_guarded h).2.trans (skipMicroframes_lastTickUs _ _)

theorem tickEntry_lastTickUs (h : tickEntry now s = .ok t) : t.lastTickUs = some now := by
  obtain ⟨i, u, b, hloop, hend⟩ := tickEntry_ok h
  obtain ⟨w, hw, rfl⟩ := asyncAndCommit_ok hend
  calc w.commitAll.lastTickUs
      = w.lastTickUs := State.commitAll_lastTickUs w
    _ = u.lastTickUs := (Stepped.asyncStep hw).lastTickUs
    _ = some now := tickLoop_lastTickUs hloop

theorem tickEntry_fatal_lastTickUs (h : tickEntry now s = .error (.fatal r u)) : u.lastTickUs = some now := by
  cases hloop : tickLoop now s with
  | error x =>
    rw [tickEntry_of_stop hloop] at h
    cases h
    exact (processMicroframes_fatal_lastTickUs hloop).trans (skipMicroframes_lastTickUs _ _)
  | ok x =>
    obtain ⟨i, v⟩ := x
    have hv : v.lastTickUs = some now := tickLoop_lastTickUs hloop
    rw [tickEntry_of_loop hloop] at h
    exact (asyncStep_fatal_lastTickUs (asyncAndCommit_fatal h)).trans hv

/-- Every tick that leaves a state records its time, be it ended by a Fatal. -/
theorem exec_tick_lastTickUs (h : exec (.tick now) s = .next t) : t.lastTickUs = some now := by
  obtain ⟨-, -, hfinish⟩ := exec_tick_next h
  rcases finish_next hfinish with hok | ⟨r, u, hfatal, hreset⟩
  · exact tickEntry_lastTickUs hok
  · exact (controllerReset_lastTickUs hreset).trans (tickEntry_fatal_lastTickUs hfatal)

/-! ### The first tick (R470) -/

/-- The asynchronous step and the commit move neither the frame index nor the counts of time. -/
theorem asyncAndCommit_timer (h : asyncAndCommit s = .ok t) :
    t.lastRunUs = s.lastRunUs ∧ t.uframeCtr = s.uframeCtr ∧ t.frindex = s.frindex := by
  obtain ⟨w, hw, rfl⟩ := asyncAndCommit_ok h
  have hstep := Stepped.asyncStep hw
  exact ⟨(State.commitAll_lastRunUs w).trans hstep.lastRunUs, (State.commitAll_uframeCtr w).trans hstep.uframeCtr,
    (State.commitAll_frindex w).trans hstep.frindex⟩

/-- The first tick accounts no microframe: it is the asynchronous step and the commit at its own time. -/
theorem exec_tick_first (hfirst : s.lastRunUs = none) (hlast : s.lastTickUs.getD now ≤ now) :
    exec (.tick now) s = finish (asyncAndCommit (quietStart now s)) := by
  have hbase : s.lastRunUs.getD now = now := by rw [hfirst]; rfl
  exact exec_tick_quiet hbase.le hlast (by omega)

end TickOutcome

end Sys2Proof.Machine

section
open Sys2Proof Sys2Proof.Machine

/-- Settles O52: the entry of a tick ends well, at worst at a Fatal in a good state, which the controller reset ends. -/
theorem ticksComplete : Obligations.TicksComplete := by
  unfold Obligations.TicksComplete
  intro s now hinv hidle hplain hbase hlast
  rw [exec_tick hbase hlast]
  refine finish_of_endsWell (tickEntry_endsWell hinv hidle hplain) fun t ht => ?_
  obtain ⟨i, u, b, -, hend⟩ := tickEntry_ok ht
  exact asyncAndCommit_inEntry hend

/-- Settles O48: the guard of the tick, its record in both ways it ends, and the first tick, one without microframes. -/
theorem firstAndBackwardTicks : Obligations.FirstAndBackwardTicks := by
  unfold Obligations.FirstAndBackwardTicks
  refine ⟨fun s b now hb hlt => ?backward, fun s t now => exec_tick_lastTickUs, fun s t now hfirst h hrun => ?first⟩
  case backward =>
    refine exec_tick_refused (timeGoesBack_iff.2 (hb.imp (fun h => ?_) fun h => ?_)) <;> rw [h] <;> exact hlt
  case first =>
    obtain ⟨-, hlast, -⟩ := exec_tick_next h
    rw [exec_tick_first hfirst hlast] at h
    obtain ⟨htime, hctr, hframe⟩ := asyncAndCommit_timer (finish_next_noFatal h hrun)
    have hbase : (quietStart now s).lastRunUs = some now := by rw [quietStart, hfirst]; rfl
    exact ⟨htime.trans hbase, hctr, hframe⟩

end

/-! PROOFS. What a tick accounts: the frame index of a running controller (O50). -/

namespace Sys2Proof.Machine

/-! ### The wraps of the frame index (R474) -/

/-- One of the n values after `f` has bits 12:0 zero: FRINDEX wraps in n microframes. -/
def WrapsWithin (f : BitVec 14) (n : Nat) : Prop :=
  ∃ m, 1 ≤ m ∧ m ≤ n ∧ (f + BitVec.ofNat 14 m).extractLsb' 0 13 = 0#13

theorem not_wrapsWithin_zero {f : BitVec 14} : ¬ WrapsWithin f 0 := fun ⟨m, h1, h0, _⟩ => by omega

theorem wrapsWithin_one {f : BitVec 14} : WrapsWithin f 1 ↔ (f + 1).extractLsb' 0 13 = 0#13 := by
  constructor
  · rintro ⟨m, h1, hm, hwrap⟩
    obtain rfl : m = 1 := by omega
    exact hwrap
  · exact fun hwrap => ⟨1, le_refl _, le_refl _, hwrap⟩

theorem add_ofNat_add (f : BitVec 14) (n m : Nat) :
    f + BitVec.ofNat 14 (n + m) = f + BitVec.ofNat 14 n + BitVec.ofNat 14 m := by
  rw [BitVec.ofNat_add, BitVec.add_assoc]

theorem wrapsWithin_add {f : BitVec 14} {n m : Nat} :
    WrapsWithin f (n + m) ↔ WrapsWithin f n ∨ WrapsWithin (f + BitVec.ofNat 14 n) m := by
  constructor
  · rintro ⟨l, h1, hl, hwrap⟩
    by_cases hn : l ≤ n
    · exact .inl ⟨l, h1, hn, hwrap⟩
    · obtain ⟨d, rfl⟩ := Nat.exists_eq_add_of_le (Nat.le_of_not_le hn)
      exact .inr ⟨d, by omega, by omega, by rwa [← add_ofNat_add]⟩
  · rintro (⟨l, h1, hl, hwrap⟩ | ⟨l, h1, hl, hwrap⟩)
    · exact ⟨l, h1, by omega, hwrap⟩
    · exact ⟨n + l, by omega, by omega, by rwa [add_ofNat_add]⟩

/-! ### A running controller (R471 to R474) -/

/-- The controller runs, and FLR, which is raised at once, is not pending (R534). -/
structure Running (s : State) : Prop where
  rs : s.usbcmd.rs = true
  flrPending : s.usbstsPending.getLsbD 3 = false

/-- Between `s` and `t` a running controller has accounted n microframes. -/
structure RunsOn (n : Nat) (s t : State) : Prop where
  params : t.params = s.params
  uframeCtr : t.uframeCtr = s.uframeCtr + n
  frindex : t.frindex = s.frindex + BitVec.ofNat 14 n
  flr : t.usbsts.getLsbD 3 = true ↔ s.usbsts.getLsbD 3 = true ∨ WrapsWithin s.frindex n
  running : Running t

section RunsOn

variable {n m : Nat} {s t u : State}

/-- FLR is raised exactly where the frame index wraps (R474). -/
theorem advanceFrindex_flr : (advanceFrindex s).usbsts.getLsbD 3 = true ↔
    s.usbsts.getLsbD 3 = true ∨ (s.frindex + 1).extractLsb' 0 13 = 0#13 := by
  simp only [advanceFrindex]
  split
  · rename_i hwrap
    refine iff_of_true ?_ (.inr hwrap)
    exact BitVec.getLsbD_or.trans (Bool.or_true _)
  · rename_i hno
    exact (or_iff_left hno).symm

theorem advanceFrindex_frindex : (advanceFrindex s).frindex = s.frindex + 1 := by
  simp only [advanceFrindex]
  split <;> rfl

theorem advanceFrindex_params : (advanceFrindex s).params = s.params := by
  simp only [advanceFrindex]
  split <;> rfl

theorem RunsOn.trans (h1 : RunsOn n s t) (h2 : RunsOn m t u) : RunsOn (n + m) s u where
  params := h2.params.trans h1.params
  uframeCtr := by rw [h2.uframeCtr, h1.uframeCtr, Nat.add_assoc]
  frindex := by rw [h2.frindex, h1.frindex, add_ofNat_add]
  flr := by rw [h2.flr, h1.flr, h1.frindex, wrapsWithin_add, or_assoc]
  running := h2.running

/-- What follows a step that accounts no microframe. -/
theorem RunsOn.after_quiet (h1 : RunsOn 0 s t) (h2 : RunsOn n t u) : RunsOn n s u := by
  have h := h1.trans h2
  rwa [Nat.zero_add] at h

/-- A step that accounts no microframe and leaves FLR alone. -/
theorem RunsOn.of_eq (hp : t.params = s.params) (hc : t.uframeCtr = s.uframeCtr) (hf : t.frindex = s.frindex)
    (hs : t.usbsts.getLsbD 3 = s.usbsts.getLsbD 3) (hr : Running t) : RunsOn 0 s t where
  params := hp
  uframeCtr := hc
  frindex := by rw [hf, BitVec.add_zero]
  flr := by rw [hs, or_iff_left not_wrapsWithin_zero]
  running := hr

namespace Running

theorem runsOn_stepped (hr : Running s) (h : Stepped s t) : RunsOn 0 s t := by
  have hrs : t.usbcmd.rs = s.usbcmd.rs := by rw [← h.usbcmd]
  have hpending : t.usbstsPending.getLsbD 3 = s.usbstsPending.getLsbD 3 := by
    have hbit := congrArg (fun x : BitVec 6 => x.getLsbD 3) h.pending
    simpa [immediateBits] using hbit
  exact .of_eq h.params h.uframeCtr h.frindex (by rw [h.usbsts]) ⟨hrs.trans hr.rs, hpending.trans hr.flrPending⟩

/-- A commit does not set FLR, because FLR is not pending (R535). -/
theorem runsOn_commit (hr : Running s) : RunsOn 0 s s.commit := by
  refine .of_eq rfl rfl rfl ?_ ⟨hr.rs, BitVec.getLsbD_zero⟩
  rw [State.commit_usbsts, BitVec.getLsbD_or, hr.flrPending, Bool.or_false]

theorem runsOn_refl (hr : Running s) : RunsOn 0 s s := .of_eq rfl rfl rfl rfl hr

theorem runsOn_thresholdCommit (hr : Running s) : RunsOn 0 s s.thresholdCommit := by
  unfold State.thresholdCommit
  split
  · exact hr.runsOn_commit
  · exact hr.runsOn_refl

theorem runsOn_commitAll (hr : Running s) : RunsOn 0 s s.commitAll := by
  unfold State.commitAll
  split
  · exact hr.runsOn_commit
  · exact hr.runsOn_refl

theorem advanceFrindex_running (hr : Running s) : Running (advanceFrindex s) := by
  simp only [advanceFrindex]
  split <;> exact ⟨hr.rs, hr.flrPending⟩

theorem accountMicroframe_eq (hr : Running s) :
    accountMicroframe s = { advanceFrindex s with uframeCtr := s.uframeCtr + 1 } := by
  have hhch : s.hch = false := by rw [State.hch, hr.rs]; rfl
  rw [accountMicroframe, hhch, ← advanceFrindex_uframeCtr s]
  rfl

theorem runsOn_accountMicroframe (hr : Running s) : RunsOn 1 s (accountMicroframe s) := by
  rw [hr.accountMicroframe_eq]
  obtain ⟨hrs, hpending⟩ := hr.advanceFrindex_running
  exact ⟨advanceFrindex_params, rfl, advanceFrindex_frindex,
    advanceFrindex_flr.trans (or_congr_right wrapsWithin_one.symm), ⟨hrs, hpending⟩⟩

theorem runsOn_skipMicroframes (hr : Running s) (n : Nat) : RunsOn n s (skipMicroframes n s) := by
  induction n generalizing s with
  | zero => exact hr.runsOn_refl
  | succ n ih =>
    have hone := hr.runsOn_accountMicroframe
    have hall := hone.trans (ih hone.running)
    rwa [Nat.add_comm 1 n] at hall

/-- The processed microframes (R472): all that were left, or as many as let the interrupt end the loop. -/
theorem runsOn_processMicroframes {left i j : Nat} (hr : Running s) (h : processMicroframes left i s = .ok (j, t)) :
    ∃ m, j = i + m ∧ m ≤ left ∧ (m = left ∨ s.params.minUfrPerTick ≤ j) ∧ RunsOn m s t := by
  induction left generalizing i s with
  | zero =>
    cases h
    exact ⟨0, rfl, le_refl _, .inl rfl, hr.runsOn_refl⟩
  | succ left ih =>
    have hcommit := hr.runsOn_thresholdCommit
    simp only [processMicroframes] at h
    split at h
    · rename_i henough
      cases h
      exact ⟨0, rfl, Nat.zero_le _, .inr (hcommit.params ▸ henough.1), hcommit⟩
    · split at h
      · cases h
      · rename_i s2 hstep
        have haccount := hcommit.after_quiet hcommit.running.runsOn_accountMicroframe
        have hone : RunsOn 1 s s2 := haccount.trans (haccount.running.runsOn_stepped (.periodicStep hstep))
        obtain ⟨m, hj, hm, hend, hrest⟩ := ih hone.running h
        rw [hone.params] at hend
        exact ⟨1 + m, by omega, by omega, hend.imp_left (by omega), hone.trans hrest⟩

theorem runsOn_asyncAndCommit (hr : Running s) (h : asyncAndCommit s = .ok t) : RunsOn 0 s t := by
  obtain ⟨w, hw, rfl⟩ := asyncAndCommit_ok h
  have hstep := hr.runsOn_stepped (.asyncStep hw)
  have hcommit := hstep.running.runsOn_commitAll
  have hleave : RunsOn 0 w.commitAll { w.commitAll with inEntry := false } :=
    .of_eq rfl rfl rfl rfl ⟨hcommit.running.rs, hcommit.running.flrPending⟩
  exact (hstep.trans hcommit).trans hleave

end Running

/-- The tick of a running controller accounts the microframes elapsed but those it owes, which it bounds (R471, R472). -/
theorem tickEntry_runsOn {now : Nat} (hr : Running s) (h : tickEntry now s = .ok t) :
    ∃ n, n ≤ tickElapsed now s ∧ tickElapsed now s ≤ n + (s.params.maxUfrPerTick - s.params.minUfrPerTick) ∧
      t.lastRunUs = some (s.lastRunUs.getD now + 125 * n) ∧ RunsOn n s t := by
  cases hloop : tickLoop now s with
  | error x => rw [tickEntry_of_stop hloop] at h; cases h
  | ok r =>
    obtain ⟨i, u⟩ := r
    rw [tickEntry_of_loop hloop] at h
    have hstart : RunsOn 0 s (tickStart now s) := .of_eq rfl rfl rfl rfl ⟨hr.rs, hr.flrPending⟩
    have hskip := hstart.after_quiet
      (hstart.running.runsOn_skipMicroframes (tickElapsed now s - s.params.maxUfrPerTick))
    obtain ⟨m, hi, hm, hend, hprocess⟩ := hskip.running.runsOn_processMicroframes hloop
    have hloop' := hskip.trans hprocess
    rw [hskip.params] at hend
    have hn : tickElapsed now s - (min (tickElapsed now s) s.params.maxUfrPerTick - i) =
        (tickElapsed now s - s.params.maxUfrPerTick) + m := by omega
    rw [hn] at h
    have hset : RunsOn 0 u { u with lastRunUs := some (s.lastRunUs.getD now +
        125 * (tickElapsed now s - s.params.maxUfrPerTick + m)) } :=
      .of_eq rfl rfl rfl rfl ⟨hloop'.running.rs, hloop'.running.flrPending⟩
    have hall := hloop'.trans hset
    refine ⟨_, ?_, ?_, (asyncAndCommit_timer h).1, hall.trans (hall.running.runsOn_asyncAndCommit h)⟩ <;> omega

end RunsOn

end Sys2Proof.Machine

section
open Sys2Proof Sys2Proof.Machine

/-- Settles O50: a tick without a Fatal ends its entry, in which every step but the accounting moves nothing counted. -/
theorem runningTickAdvancesTheFrameIndex : Obligations.RunningTickAdvancesTheFrameIndex := by
  unfold Obligations.RunningTickAdvancesTheFrameIndex
  intro s t now b hrs hpending h hb
  obtain ⟨hbase, -, hfinish⟩ := exec_tick_next h
  have hentry := finish_next_noFatal hfinish (by rw [hb]; nofun)
  obtain ⟨n, hle, howed, htime, hrun⟩ := tickEntry_runsOn ⟨hrs, hpending⟩ hentry
  obtain rfl : b = s.lastRunUs.getD now + 125 * n := Option.some.inj (hb.symm.trans htime)
  have helapsed : tickElapsed now s = (now - s.lastRunUs.getD now) / 125 := rfl
  exact ⟨n, rfl, by omega, by omega, hrun.uframeCtr, hrun.frindex, hrun.flr⟩

end

/-! PROOFS. A tick while HCH = 1: microframes are counted, no schedule runs, the doorbell is answered (O49). -/

namespace Sys2Proof.Machine

section HaltedTick

variable {n m : Nat} {s t u : State}

/-! ### The steps of a tick while HCH = 1 (R476) -/

theorem hch_iff : s.hch = true ↔
    s.usbcmd.rs = false ∧ s.async.auto = .inactive ∧ s.periodic.auto = .inactive := by
  simp [State.hch, and_assoc]

theorem accountMicroframe_halted (h : s.hch = true) :
    accountMicroframe s = { s with uframeCtr := s.uframeCtr + 1 } := by
  simp only [accountMicroframe, if_pos h]

/-- A halted schedule is neither enabled nor disabled (R404, R440). -/
theorem schedEnable_halted (k : Sched) (h : s.hch = true) : schedEnable k s = .ok s := by
  obtain ⟨hrs, hasync, hperiodic⟩ := hch_iff.1 h
  have hoff : (s.sched k).auto = .inactive := by cases k <;> assumption
  refine schedEnable_stays (fun hon => ?_) fun hstop => ?_
  · exact Bool.noConfusion (hrs.symm.trans hon.2.2.1)
  · exact absurd (hoff.symm.trans hstop.2.1) nofun

theorem periodicStep_halted (h : s.hch = true) : periodicStep s = .ok s :=
  periodicStep_noPass (schedEnable_halted .periodic h) fun hstart =>
    absurd ((hch_iff.1 h).2.2.symm.trans (periodicCanStart_iff.1 hstart).1) nofun

/-- Of the asynchronous step the doorbell step is left (R404, R406). -/
theorem asyncStep_halted (h : s.hch = true) (hu : doorbell s = .ok u) : asyncStep s = .ok u :=
  asyncStep_noPass (schedEnable_halted .async h) (fun hstart =>
    absurd ((hch_iff.1 h).2.1.symm.trans (asyncCanStart_iff.1 hstart).1) nofun) hu

/-! ### What counting microframes leaves -/

/-- Between `s` and `t` n microframes were counted, the pending bits at most committed, and nothing else happened. -/
structure Counted (n : Nat) (s t : State) : Prop where
  uframeCtr : t.uframeCtr = s.uframeCtr + n
  status : t.usbsts = s.usbsts ∧ t.usbstsPending = s.usbstsPending ∨
    t.usbsts = s.usbsts ||| s.usbstsPending ∧ t.usbstsPending = 0
  frame : { t with
    usbsts := s.usbsts, usbstsPending := s.usbstsPending, nextCommit := s.nextCommit
    uframeCtr := s.uframeCtr } = s

namespace Counted

theorem refl (s : State) : Counted 0 s s := ⟨rfl, .inl ⟨rfl, rfl⟩, rfl⟩

theorem trans (h1 : Counted n s t) (h2 : Counted m t u) : Counted (n + m) s u where
  uframeCtr := by rw [h2.uframeCtr, h1.uframeCtr, Nat.add_assoc]
  status := by
    rcases h2.status with ⟨hs, hp⟩ | ⟨hs, hp⟩ <;> rw [hs, hp]
    · exact h1.status
    · rcases h1.status with ⟨hs, hp⟩ | ⟨hs, hp⟩ <;> rw [hs, hp]
      · exact .inr ⟨rfl, rfl⟩
      · exact .inr ⟨BitVec.or_zero, rfl⟩
  frame := (congrArg (fun x : State => { x with
    usbsts := s.usbsts, usbstsPending := s.usbstsPending, nextCommit := s.nextCommit
    uframeCtr := s.uframeCtr }) h2.frame).trans h1.frame

theorem hch (h : Counted n s t) : t.hch = s.hch := (congrArg State.hch h.frame :)

theorem usbcmd (h : Counted n s t) : t.usbcmd = s.usbcmd := (congrArg State.usbcmd h.frame :)

theorem async (h : Counted n s t) : t.async = s.async := (congrArg State.async h.frame :)

theorem outbox (h : Counted n s t) : t.outbox = s.outbox := (congrArg State.outbox h.frame :)

/-- Counting does not read `last_run_us`. -/
theorem setLastRun (h : Counted n s t) (b : Option Nat) :
    Counted n { s with lastRunUs := b } { t with lastRunUs := b } :=
  ⟨h.uframeCtr, h.status, (congrArg (fun x : State => { x with lastRunUs := b }) h.frame :)⟩

/-- No bit is lost and none comes from elsewhere. -/
theorem union (h : Counted n s t) : t.usbsts ||| t.usbstsPending = s.usbsts ||| s.usbstsPending := by
  rcases h.status with ⟨hs, hp⟩ | ⟨hs, hp⟩ <;> rw [hs, hp]
  exact BitVec.or_zero

theorem status_kept (h : Counted n s t) {i : Nat} (hi : s.usbsts.getLsbD i = true) : t.usbsts.getLsbD i = true := by
  rcases h.status with ⟨hs, -⟩ | ⟨hs, -⟩ <;> rw [hs]
  · exact hi
  · rw [BitVec.getLsbD_or, hi, Bool.true_or]

theorem status_clear (h : Counted n s t) {i : Nat} (hi : s.usbsts.getLsbD i = false)
    (hp : s.usbstsPending.getLsbD i = false) : t.usbsts.getLsbD i = false := by
  rcases h.status with ⟨hs, -⟩ | ⟨hs, -⟩ <;> rw [hs]
  · exact hi
  · rw [BitVec.getLsbD_or, hi, hp, Bool.or_self]

theorem thresholdCommit : Counted 0 s s.thresholdCommit := by
  unfold State.thresholdCommit
  split
  · exact ⟨rfl, .inr ⟨rfl, rfl⟩, rfl⟩
  · exact refl s

theorem accountMicroframe (h : s.hch = true) : Counted 1 s (Machine.accountMicroframe s) := by
  rw [accountMicroframe_halted h]
  exact ⟨rfl, .inl ⟨rfl, rfl⟩, rfl⟩

theorem skipMicroframes (n : Nat) (h : s.hch = true) : Counted n s (Machine.skipMicroframes n s) := by
  induction n generalizing s with
  | zero => exact refl s
  | succ n ih =>
    have hone := accountMicroframe h
    have hall := hone.trans (ih (hone.hch.trans h))
    rwa [Nat.add_comm 1 n] at hall

/-- The processed microframes run no pass; an interrupt may end them early (R472). -/
theorem processMicroframes (left i : Nat) (h : s.hch = true) :
    ∃ m t, m ≤ left ∧ Machine.processMicroframes left i s = .ok (i + m, t) ∧ Counted m s t := by
  induction left generalizing i s with
  | zero => exact ⟨0, s, le_refl _, rfl, refl s⟩
  | succ left ih =>
    by_cases henough : s.params.minUfrPerTick ≤ i ∧ s.thresholdCommit.irq = true
    · exact ⟨0, _, Nat.zero_le _, processMicroframes_enough henough, thresholdCommit⟩
    · have hcommitted : s.thresholdCommit.hch = true := thresholdCommit.hch.trans h
      have hone := thresholdCommit.trans (accountMicroframe hcommitted)
      have hhalted := hone.hch.trans h
      obtain ⟨m, t, hm, hrest, hcount⟩ := ih (i + 1) hhalted
      refine ⟨0 + 1 + m, t, by omega, ?_, hone.trans hcount⟩
      rw [processMicroframes_step henough, periodicStep_halted hhalted, show i + (0 + 1 + m) = i + 1 + m by omega]
      exact hrest

end Counted

theorem tickLoop_inv {now i : Nat} (hinv : Inv s = true) (h : tickLoop now s = .ok (i, u)) : Inv u = true := by
  have hstart : Inv (tickStart now s) = true := inv_free hinv rfl rfl rfl rfl rfl rfl
  have hkeeps := processMicroframes_keeps (left := min (tickElapsed now s) s.params.maxUfrPerTick) (i := 0)
    (inv_skipMicroframes (tickElapsed now s - s.params.maxUfrPerTick) hstart)
  unfold tickLoop at h
  rwa [h] at hkeeps

/-- The state in which a tick that accounts n microframes counts them. -/
def countingStart (now n : Nat) (s : State) : State :=
  { s with inEntry := true, lastRunUs := some (s.lastRunUs.getD now + 125 * n), lastTickUs := some now }

/-- A tick while HCH = 1: it counts n of the microframes elapsed, and then ends as every tick does (R471, R472). -/
theorem tickEntry_halted (now : Nat) (hinv : Inv s = true) (h : s.hch = true) :
    ∃ n v, n ≤ tickElapsed now s ∧ tickEntry now s = asyncAndCommit v ∧ Inv v = true ∧
      Counted n (countingStart now n s) v := by
  have hskip := Counted.skipMicroframes (s := tickStart now s) (tickElapsed now s - s.params.maxUfrPerTick) h
  obtain ⟨m, u, hm, hloop, hprocess⟩ :=
    Counted.processMicroframes (min (tickElapsed now s) s.params.maxUfrPerTick) 0 (hskip.hch.trans h)
  have hcount := hskip.trans hprocess
  have hn : tickElapsed now s - (min (tickElapsed now s) s.params.maxUfrPerTick - (0 + m)) =
      tickElapsed now s - s.params.maxUfrPerTick + m := by omega
  have hentry := tickEntry_of_loop hloop
  rw [hn] at hentry
  exact ⟨_, _, by omega, hentry, inv_free (tickLoop_inv hinv hloop) rfl rfl rfl rfl rfl rfl,
    hcount.setLastRun _⟩

/-! ### The doorbell and the commit (R406, R536) -/

/-- IAA in USBSTS already: raising it adds nothing. -/
theorem or_iaa_of_set {x : BitVec 6} (h : x.getLsbD 5 = true) : x ||| 0b100000#6 = x := by
  revert x; decide

/-- The doorbell step from `s` to `t`, whether it answers or not. -/
structure DoorbellStep (s t : State) : Prop where
  rs : t.usbcmd.rs = s.usbcmd.rs
  status : t.usbsts ||| t.usbstsPending =
    s.usbsts ||| s.usbstsPending ||| (if s.usbcmd.iaad = true then 0b100000#6 else 0)
  async : t.async = { s.async with cache := t.async.cache, curQueue := t.async.curQueue }
  silent : s.usbcmd.iaad = false ∨ s.usbsts.getLsbD 5 = true → t = s
  answers : s.usbcmd.iaad = true → s.usbsts.getLsbD 5 = false →
    t.usbcmd = { s.usbcmd with iaad := false } ∧
      ∀ a, t.queue? .async a = (s.queue? .async a).filter fun q => q.seen
  frame : { t with
    usbcmd := s.usbcmd, usbstsPending := s.usbstsPending, async := s.async, outbox := s.outbox } = s

theorem doorbell_step (hinv : Inv s = true) : ∃ t, doorbell s = .ok t ∧ DoorbellStep s t := by
  by_cases hsilent : s.usbcmd.iaad = false ∨ s.usbsts.getLsbD 5 = true
  · refine ⟨s, doorbell_silent hsilent, rfl, ?status, rfl, fun _ => rfl, fun hiaad hiaa => ?answers, rfl⟩
    case status =>
      split
      · rename_i hiaad
        have hset : s.usbsts.getLsbD 5 = true := hsilent.resolve_left (by rw [hiaad]; nofun)
        refine (or_iaa_of_set ?_).symm
        rw [BitVec.getLsbD_or, hset, Bool.true_or]
      · exact BitVec.or_zero.symm
    case answers =>
      rw [hiaad, hiaa] at hsilent
      exact absurd hsilent (by decide)
  · obtain ⟨hiaad, hiaa⟩ : s.usbcmd.iaad = true ∧ s.usbsts.getLsbD 5 = false := by simpa using hsilent
    obtain ⟨cs, q, cur, hbell, -, hfind, -⟩ := doorbell_answers hinv hiaad hiaa
    refine ⟨_, hbell, rfl, ?status, rfl, fun h => absurd h hsilent, fun _ _ => ⟨rfl, hfind⟩, rfl⟩
    case status => rw [if_pos hiaad, BitVec.or_assoc]

/-- After the final commit nothing is pending (R536). -/
theorem commitAll_eq (s : State) : ∃ nc,
    s.commitAll = { s with usbsts := s.usbsts ||| s.usbstsPending, usbstsPending := 0, nextCommit := nc } := by
  unfold State.commitAll
  split
  · exact ⟨_, rfl⟩
  · rename_i hnone
    have hzero : s.usbstsPending = 0 := not_not.1 hnone
    have hsame : s.usbsts ||| s.usbstsPending = s.usbsts := by rw [hzero]; exact BitVec.or_zero
    exact ⟨s.nextCommit, by rw [hsame, ← hzero]⟩

/-- `x` with all that a tick while HCH = 1 may change as in `s`. -/
def asBeforeTick (s x : State) : State := { x with
  usbcmd := s.usbcmd, usbsts := s.usbsts, usbstsPending := s.usbstsPending, nextCommit := s.nextCommit
  uframeCtr := s.uframeCtr, lastRunUs := s.lastRunUs, lastTickUs := s.lastTickUs, inEntry := s.inEntry
  async := s.async, outbox := s.outbox }

end HaltedTick

end Sys2Proof.Machine

section
open Sys2Proof Sys2Proof.Machine

/-- Settles O49: what counting the microframes leaves, then the doorbell step, then the commit. -/
theorem haltedTickRunsNoSchedule : Obligations.HaltedTickRunsNoSchedule := by
  unfold Obligations.HaltedTickRunsNoSchedule
  intro s now hinv hrs hasync hperiodic hbase hlast
  have hhalted : s.hch = true := hch_iff.2 ⟨hrs, hasync, hperiodic⟩
  obtain ⟨n, v, hn, hentry, hinvv, hcount⟩ := tickEntry_halted now hinv hhalted
  obtain ⟨w, hbell, hdone⟩ := doorbell_step hinvv
  obtain ⟨nc, hcommit⟩ := commitAll_eq w
  have hstep := asyncStep_halted (hcount.hch.trans hhalted) hbell
  have hrow : exec (.tick now) s = .next { w with
      usbsts := w.usbsts ||| w.usbstsPending, usbstsPending := 0, nextCommit := nc, inEntry := false } := by
    rw [exec_tick hbase hlast, hentry, asyncAndCommit_of_ok hstep, hcommit]
    rfl
  have hle : n ≤ (now - s.lastRunUs.getD now) / 125 := hn
  have hcmd : v.usbcmd = s.usbcmd := hcount.usbcmd
  have hregs : v.async = s.async := hcount.async
  have hctr : w.uframeCtr = s.uframeCtr + n := (congrArg State.uframeCtr hdone.frame :).trans hcount.uframeCtr
  have hauto : w.async.auto = .inactive := by rw [hdone.async, hregs]; exact hasync
  have hframe : asBeforeTick s w = s :=
    calc asBeforeTick s w
        = asBeforeTick s v := (congrArg (asBeforeTick s) hdone.frame :)
      _ = asBeforeTick s (countingStart now n s) := (congrArg (asBeforeTick s) hcount.frame :)
      _ = s := rfl
  refine ⟨_, s.lastRunUs.getD now + 125 * n, hrow, ?lastRun, by omega, by omega, ?lastTick, ?counter,
    (congrArg State.frindex hframe :), (congrArg State.periodic hframe :), ?auto, ?fetch, ?visits, ?hch, rfl, rfl,
    ?status, fun hsilent => ?silent, fun hiaad hiaa hpending => ?answers, hframe⟩
  case lastRun => exact (congrArg State.lastRunUs hdone.frame :).trans (congrArg State.lastRunUs hcount.frame :)
  case lastTick => exact (congrArg State.lastTickUs hdone.frame :).trans (congrArg State.lastTickUs hcount.frame :)
  case counter => exact hctr.trans (by omega)
  case auto => exact hauto
  case fetch => rw [hdone.async, hregs]
  case visits => rw [hdone.async, hregs]
  case hch =>
    have hother : w.periodic = s.periodic := (congrArg State.periodic hframe :)
    exact hch_iff.2 ⟨hdone.rs.trans (hcmd ▸ hrs), hauto, hother ▸ hperiodic⟩
  case status =>
    have hstatus := hdone.status
    rwa [hcount.union, hcmd] at hstatus
  case silent =>
    have hsilentv : v.usbcmd.iaad = false ∨ v.usbsts.getLsbD 5 = true :=
      hsilent.imp (fun h => hcmd ▸ h) hcount.status_kept
    obtain rfl := hdone.silent hsilentv
    exact ⟨hcmd, hregs, hcount.outbox⟩
  case answers =>
    obtain ⟨hwithdrawn, hfind⟩ := hdone.answers (hcmd ▸ hiaad) (hcount.status_clear hiaa hpending)
    rw [hcmd] at hwithdrawn
    have hcache : ∀ a, v.queue? .async a = s.queue? .async a := fun a =>
      congrArg (fun r : SchedRegs => cacheFind r.cache a) hregs
    exact ⟨hwithdrawn, fun a => (hfind a).trans (congrArg _ (hcache a))⟩

end

/-! PROOFS. Register access (`46_registers.md`): the fields a USBCMD write stores (O7), the other status registers (O10),
the values that reads give out (O13), and the register that the offset of a read or a write selects (O14, O16). -/

namespace Sys2Proof.Machine

/-! ### Words put together from fields, as numbers -/

theorem toNat_append_eq_add {n m : Nat} (x : BitVec n) (y : BitVec m) :
    (x ++ y).toNat = x.toNat * 2 ^ m + y.toNat := by
  rw [BitVec.toNat_append, ← Nat.shiftLeft_add_eq_or_of_lt y.isLt, Nat.shiftLeft_eq]

theorem toNat_bit (b : Bool) : (bit b).toNat = b.toNat := BitVec.toNat_ofBool b

theorem eq_ofNat_of_toNat {v : Word} {n : Nat} (h : v.toNat = n) : v = BitVec.ofNat 32 n := by
  rw [← h, BitVec.ofNat_toNat, BitVec.setWidth_eq]

/-- USBCMD reads its fields at the places of R40. -/
theorem usbcmdValue_eq (c : UsbCmd) : usbcmdValue c = BitVec.ofNat 32
    (c.rs.toNat + c.pse.toNat * 2 ^ 4 + c.ase.toNat * 2 ^ 5 + c.iaad.toNat * 2 ^ 6 + c.itc.toNat * 2 ^ 16) := by
  refine eq_ofNat_of_toNat ?_
  simp only [usbcmdValue, toNat_append_eq_add, toNat_bit, BitVec.toNat_zero]
  omega

/-- USBSTS reads its stored bits and HCH, RECL, PSS and ASS at bits 12 to 15 (R41). -/
theorem usbstsValue_eq (s : State) : usbstsValue s = BitVec.ofNat 32
    (s.usbsts.toNat + s.hch.toNat * 2 ^ 12 + s.recl.toNat * 2 ^ 13 + s.pss.toNat * 2 ^ 14 + s.ass.toNat * 2 ^ 15) := by
  refine eq_ofNat_of_toNat ?_
  simp only [usbstsValue, toNat_append_eq_add, toNat_bit, BitVec.toNat_zero]
  omega

/-! ### Status bits (R44, R55) -/

theorem hch_eq_decide (s : State) :
    s.hch = decide (s.usbcmd.rs = false ∧ s.async.auto = .inactive ∧ s.periodic.auto = .inactive) :=
  Bool.eq_iff_iff.2 (hch_iff.trans decide_eq_true_iff.symm)

theorem pss_eq_decide (s : State) : s.pss = decide (s.periodic.auto ≠ .inactive) :=
  Bool.eq_iff_iff.2 (bne_iff_ne.trans decide_eq_true_iff.symm)

theorem ass_eq_decide (s : State) : s.ass = decide (s.async.auto ≠ .inactive) :=
  Bool.eq_iff_iff.2 (bne_iff_ne.trans decide_eq_true_iff.symm)

/-- Some bit raised is also enabled. -/
theorem irq_iff (s : State) : s.irq = true ↔ ∃ b < 6, s.usbsts.getLsbD b = true ∧ s.usbintr.getLsbD b = true := by
  have hne : s.irq = true ↔ ¬ s.usbsts &&& s.usbintr = 0#6 := bne_iff_ne
  rw [hne, BitVec.zero_iff_eq_false, not_forall]
  simp only [BitVec.getLsbD_and, Bool.not_eq_false, Bool.and_eq_true]
  exact exists_congr fun b => ⟨fun h => ⟨BitVec.lt_of_getLsbD h.1, h⟩, And.right⟩

/-! ### The offsets of the registers (R39) -/

/-- The offsets of the registers beside the ports. -/
def fixedOffsets : List Word :=
  [offUsbcmd, offUsbsts, offUsbintr, offFrindex, offCtrldssegment, offPeriodiclistbase, offAsynclistaddr, offConfigflag]

theorem isPortsc_iff {p : Params} {off : Word} :
    isPortsc p off = true ↔ ∃ i < p.numPorts, off.toNat = 0x44 + 4 * i := by
  simp only [isPortsc, Bool.and_eq_true, decide_eq_true_eq, beq_iff_eq]
  constructor
  · rintro ⟨⟨hlow, halign⟩, hport⟩
    exact ⟨_, hport, by omega⟩
  · rintro ⟨i, hi, hoff⟩
    omega

theorem portsc_toNat (i : BitVec 4) : (0x44#32 + 4#32 * i.setWidth 32).toNat = 0x44 + 4 * i.toNat := by
  have := i.isLt
  simp only [BitVec.toNat_add, BitVec.toNat_mul, BitVec.toNat_setWidth, BitVec.toNat_ofNat]
  omega

/-- With at most 16 ports, 4 bits number them. -/
theorem isPortsc_iff_port {p : Params} (hp : p.numPorts ≤ 16) {off : Word} :
    isPortsc p off = true ↔ ∃ i : BitVec 4, i.toNat < p.numPorts ∧ off = 0x44#32 + 4#32 * i.setWidth 32 := by
  rw [isPortsc_iff]
  constructor
  · rintro ⟨i, hi, hoff⟩
    have hnat : (BitVec.ofNat 4 i).toNat = i := by rw [BitVec.toNat_ofNat]; omega
    exact ⟨BitVec.ofNat 4 i, by omega, BitVec.eq_of_toNat_eq (by rw [portsc_toNat]; omega)⟩
  · rintro ⟨i, hi, rfl⟩
    exact ⟨i.toNat, hi, portsc_toNat i⟩

theorem not_mem_fixedOffsets_iff {off : Word} : off ∉ fixedOffsets ↔
    off ≠ offUsbcmd ∧ off ≠ offUsbsts ∧ off ≠ offUsbintr ∧ off ≠ offFrindex ∧ off ≠ offCtrldssegment ∧
      off ≠ offPeriodiclistbase ∧ off ≠ offAsynclistaddr ∧ off ≠ offConfigflag := by
  simp only [fixedOffsets, List.mem_cons, List.not_mem_nil, or_false, not_or, ne_eq]

/-- The ports lie above every other register. -/
theorem not_mem_fixedOffsets {p : Params} {off : Word} (h : isPortsc p off = true) : off ∉ fixedOffsets := by
  obtain ⟨i, -, hoff⟩ := isPortsc_iff.1 h
  have above {r : Word} (hr : r.toNat < 0x44) : off ≠ r := by
    rintro rfl
    omega
  exact not_mem_fixedOffsets_iff.2 ⟨above (by decide), above (by decide), above (by decide), above (by decide),
    above (by decide), above (by decide), above (by decide), above (by decide)⟩

/-! ### Reads (R510) -/

section Reads

variable {s : State} {off : Word}

theorem exec_readOp (off : Word) (s : State) :
    exec (.readOp off) s = .next ((readOpValue off s).2.emit (.readValue .w4 (readOpValue off s).1)) := rfl

theorem readOpValue_of_not_fixed (h : off ∉ fixedOffsets) :
    readOpValue off s = if isPortsc s.params off then readPort off s else (0, s) := by
  obtain ⟨hcmd, hsts, hintr, hframe, hseg, hper, hasync, hconfig⟩ := not_mem_fixedOffsets_iff.1 h
  rw [readOpValue, if_neg hcmd, if_neg hsts, if_neg hintr, if_neg hframe, if_neg hseg, if_neg hper, if_neg hasync]
  simp only [hconfig, false_or]

/-- CONFIGFLAG and the ports are read from the port model (R509). -/
theorem readOpValue_port (h : off = offConfigflag ∨ isPortsc s.params off = true) :
    readOpValue off s = readPort off s := by
  rcases h with rfl | hport
  · rfl
  · rw [readOpValue_of_not_fixed (not_mem_fixedOffsets hport), if_pos hport]

theorem readOpValue_absent (h : off ∉ fixedOffsets) (hport : ¬ isPortsc s.params off = true) :
    readOpValue off s = (0, s) := by
  rw [readOpValue_of_not_fixed h, if_neg hport]

end Reads

/-! ### The capability bytes of a read (R500) -/

section Capability

variable {off : Word} {w : Width}

/-- Byte i of a word put together from four. -/
theorem wordByte_wordOf (b0 b1 b2 b3 : Byte) :
    wordByte (wordOf b0 b1 b2 b3) 0 = b0 ∧ wordByte (wordOf b0 b1 b2 b3) 1 = b1 ∧
      wordByte (wordOf b0 b1 b2 b3) 2 = b2 ∧ wordByte (wordOf b0 b1 b2 b3) 3 = b3 := by
  have upper (i : Nat) {n : Nat} (hi : BitVec n) (lo : Byte) :
      (hi ++ lo).extractLsb' (8 * (i + 1)) 8 = hi.extractLsb' (8 * i) 8 :=
    BitVec.extractLsb'_append_eq_of_le (by omega)
  have lowest {n : Nat} (hi : BitVec n) (lo : Byte) : (hi ++ lo).extractLsb' (8 * 0) 8 = lo :=
    BitVec.extractLsb'_append_eq_right
  refine ⟨lowest _ _, ?_, ?_, ?_⟩
  · exact (upper 0 _ _).trans (lowest _ _)
  · exact (upper 1 _ _).trans ((upper 0 _ _).trans (lowest _ _))
  · exact (upper 2 _ _).trans ((upper 1 _ _).trans ((upper 0 _ _).trans BitVec.extractLsb'_eq_self))

theorem toNat_wordOf (b0 b1 b2 b3 : Byte) :
    (wordOf b0 b1 b2 b3).toNat = b0.toNat + b1.toNat * 2 ^ 8 + b2.toNat * 2 ^ 16 + b3.toNat * 2 ^ 24 := by
  simp only [wordOf, toNat_append_eq_add]
  omega

/-- The bytes of a capability read are those of the image. -/
theorem capabilityValue_byte (p : Params) (a : Nat) {i : Nat} (hi : i < widthBytes w) :
    wordByte (capabilityValue p a w) i = capabilityByte p (a + i) := by
  cases w with
  | w1 =>
    obtain ⟨h0, -⟩ := wordByte_wordOf (capabilityByte p a) 0 0 0
    obtain rfl : i = 0 := Nat.lt_one_iff.1 hi
    exact h0
  | w2 =>
    obtain ⟨h0, h1, -⟩ := wordByte_wordOf (capabilityByte p a) (capabilityByte p (a + 1)) 0 0
    obtain rfl | rfl : i = 0 ∨ i = 1 := by simp only [widthBytes] at hi; omega
    exacts [h0, h1]
  | w4 =>
    obtain ⟨h0, h1, h2, h3⟩ := wordByte_wordOf (capabilityByte p a) (capabilityByte p (a + 1))
      (capabilityByte p (a + 2)) (capabilityByte p (a + 3))
    obtain rfl | rfl | rfl | rfl : i = 0 ∨ i = 1 ∨ i = 2 ∨ i = 3 := by simp only [widthBytes] at hi; omega
    exacts [h0, h1, h2, h3]

/-- Above the width the value is zero. -/
theorem capabilityValue_lt (p : Params) (a : Nat) (w : Width) :
    (capabilityValue p a w).toNat < 2 ^ (8 * widthBytes w) := by
  have h0 := (capabilityByte p a).isLt
  have h1 := (capabilityByte p (a + 1)).isLt
  have hzero : (0 : Byte).toNat = 0 := rfl
  cases w with
  | w1 => rw [capabilityValue, toNat_wordOf, widthBytes, hzero]; omega
  | w2 => rw [capabilityValue, toNat_wordOf, widthBytes, hzero]; omega
  | w4 => exact BitVec.isLt _

theorem capAccess_iff {p : Params} : capAccess p off w = true ↔
    off.toNat % widthBytes w = 0 ∧ off.toNat + widthBytes w ≤ p.opregBase.toNat := by
  rw [capAccess, Bool.and_eq_true, beq_iff_eq, decide_eq_true_iff]

theorem opAccess_iff : opAccess off w = true ↔ w = .w4 ∧ off.toNat % 4 = 0 := by
  rw [opAccess, Bool.and_eq_true, beq_iff_eq, beq_iff_eq]

theorem widthBytes_eq_four : widthBytes w = 4 ↔ w = .w4 := by cases w <;> decide

end Capability

/-! ### Writes of USBCMD (R502) -/

section Usbcmd

variable {s : State} {v : Word}

theorem hcresetValue_hcreset (hi : BitVec 30) (rs : BitVec 1) : (hcresetValue hi rs).getLsbD 1 = true := by
  simp only [hcresetValue, BitVec.getLsbD_append]; rfl

theorem runValue_hcreset (hi : BitVec 30) : (runValue hi).getLsbD 1 = false := by
  simp only [runValue, BitVec.getLsbD_append]; rfl

/-- The other rows fix bits 1 and 0 as zeros. -/
theorem append_hcreset (hi : BitVec 28) (fls : BitVec 2) : (hi ++ fls ++ 0b00#2).getLsbD 1 = false := by
  simp only [BitVec.getLsbD_append]; rfl

theorem writeUsbcmd_hcreset (h : v.getLsbD 1 = true) (s : State) : writeUsbcmd v s = controllerReset s := if_pos h

theorem writeUsbcmd_stores (h : v.getLsbD 1 = false) (s : State) :
    writeUsbcmd v s = .ok { s with usbcmd := usbcmdOf v } := if_neg (Bool.eq_false_iff.1 h)

/-- Whichever row names a value, what it does is the one write of USBCMD (log 19). -/
theorem exec_decodeUsbcmd (v : Word) (s : State) : exec (decodeUsbcmd v) s = outcome (writeUsbcmd v s) := by
  have row {u : Word} (h : u = v) : outcome (writeUsbcmd u s) = outcome (writeUsbcmd v s) := by rw [h]
  unfold decodeUsbcmd
  split_ifs with h1 h0 h4 h5 h6
  · exact row (hcresetValue_fields h1)
  · exact row (runValue_fields h1 h0)
  · exact row (pseValue_fields h1 h0 h4)
  · exact row (aseValue_fields h1 h0 h4 h5)
  · exact row (iaadValue_fields h1 h0 h4 h5 h6)
  · exact row (itcValue_fields h1 h0 h4 h5 h6)

theorem decode_usbcmdWrite (v : Word) : decode (wordMsg .usbcmdWrite .async v) = .ok (decodeUsbcmd v) := by
  simp only [decode, wordMsg, withWord_word]

/-- Bits 31:4 of a value whose bits 3:0 are the frame list size and two zeros. -/
theorem usbcmdOf_append (hi : BitVec 28) (fls : BitVec 2) : usbcmdOf (hi ++ fls ++ 0b00#2) =
    ⟨false, hi.getLsbD 0, hi.getLsbD 1, hi.getLsbD 2, hi.extractLsb' 12 8⟩ := by
  have hitc : (hi ++ fls ++ 0b00#2).extractLsb' 16 8 = hi.extractLsb' 12 8 :=
    (BitVec.extractLsb'_append_eq_of_le (by decide)).trans (BitVec.extractLsb'_append_eq_of_le (by decide))
  rw [usbcmdOf, hitc]
  simp only [BitVec.getLsbD_append]
  rfl

theorem usbcmdOf_runValue (hi : BitVec 30) : usbcmdOf (runValue hi) =
    ⟨true, hi.getLsbD 2, hi.getLsbD 3, hi.getLsbD 4, hi.extractLsb' 14 8⟩ := by
  have hitc : (runValue hi).extractLsb' 16 8 = hi.extractLsb' 14 8 := BitVec.extractLsb'_append_eq_of_le (by decide)
  rw [usbcmdOf, hitc]
  simp only [runValue, BitVec.getLsbD_append]
  rfl

theorem usbcmdOf_pseValue (hi : BitVec 27) (fls : BitVec 2) : usbcmdOf (pseValue hi fls) =
    ⟨false, true, hi.getLsbD 0, hi.getLsbD 1, hi.extractLsb' 11 8⟩ := by
  have hitc : (hi ++ 1#1).extractLsb' 12 8 = hi.extractLsb' 11 8 := BitVec.extractLsb'_append_eq_of_le (by decide)
  rw [pseValue, usbcmdOf_append, hitc]
  simp only [BitVec.getLsbD_append]
  rfl

theorem usbcmdOf_aseValue (hi : BitVec 26) (fls : BitVec 2) : usbcmdOf (aseValue hi fls) =
    ⟨false, false, true, hi.getLsbD 0, hi.extractLsb' 10 8⟩ := by
  have hitc : (hi ++ 0b10#2).extractLsb' 12 8 = hi.extractLsb' 10 8 := BitVec.extractLsb'_append_eq_of_le (by decide)
  rw [aseValue, usbcmdOf_append, hitc]
  simp only [BitVec.getLsbD_append]
  rfl

theorem usbcmdOf_iaadValue (hi : BitVec 25) (fls : BitVec 2) : usbcmdOf (iaadValue hi fls) =
    ⟨false, false, false, true, hi.extractLsb' 9 8⟩ := by
  have hitc : (hi ++ 0b100#3).extractLsb' 12 8 = hi.extractLsb' 9 8 := BitVec.extractLsb'_append_eq_of_le (by decide)
  rw [iaadValue, usbcmdOf_append, hitc]
  simp only [BitVec.getLsbD_append]
  rfl

theorem usbcmdOf_itcValue (hi : BitVec 25) (fls : BitVec 2) : usbcmdOf (itcValue hi fls) =
    ⟨false, false, false, false, hi.extractLsb' 9 8⟩ := by
  have hitc : (hi ++ 0b000#3).extractLsb' 12 8 = hi.extractLsb' 9 8 := BitVec.extractLsb'_append_eq_of_le (by decide)
  rw [itcValue, usbcmdOf_append, hitc]
  simp only [BitVec.getLsbD_append]
  rfl

/-- A row that writes a value with HCRESET = 0 stores the fields of its value and changes nothing else. -/
theorem exec_usbcmd_stores {i : Instr} {c : UsbCmd} (hrow : exec i s = outcome (writeUsbcmd v s))
    (hc : usbcmdOf v = c) (h1 : v.getLsbD 1 = false) : exec i s = .next { s with usbcmd := c } := by
  rw [hrow, writeUsbcmd_stores h1, hc]; rfl

/-- HCRESET takes the controller reset (R583). -/
theorem takesFatal_usbcmdHcreset (hinv : Inv s = true) (hi : BitVec 30) (rs : BitVec 1) :
    TakesFatal (.usbcmdHcreset hi rs) s := by
  obtain ⟨t, hreset, ht⟩ := controllerReset_good hinv
  have hrow : exec (.usbcmdHcreset hi rs) s = .next t := by
    show outcome (writeUsbcmd (hcresetValue hi rs) s) = _
    rw [writeUsbcmd_hcreset (hcresetValue_hcreset hi rs), hreset]
    rfl
  exact ⟨t, hrow, ht, ht.irq⟩

end Usbcmd

/-! ### The dispatch of a write (R501) -/

section Writes

variable {s : State} {off v : Word}

theorem writeOp_of_not_fixed (h : off ∉ fixedOffsets) : writeOp off v s =
    if isPortsc s.params off then .ok (writePortsc ((off.toNat - 0x44) / 4) v s) else .ok s := by
  obtain ⟨hcmd, hsts, hintr, hframe, hseg, hper, hasync, hconfig⟩ := not_mem_fixedOffsets_iff.1 h
  rw [writeOp, if_neg hcmd, if_neg hsts, if_neg hintr, if_neg hframe, if_neg hseg, if_neg hper, if_neg hasync,
    if_neg hconfig]

theorem writeOp_absent (h : off ∉ fixedOffsets) (hport : ¬ isPortsc s.params off = true) :
    writeOp off v s = .ok s := by
  rw [writeOp_of_not_fixed h, if_neg hport]

theorem writeOp_portsc {i : BitVec 4} (hi : i.toNat < s.params.numPorts) :
    writeOp (0x44#32 + 4#32 * i.setWidth 32) v s = .ok (writePortsc i.toNat v s) := by
  have hport : isPortsc s.params (0x44#32 + 4#32 * i.setWidth 32) = true :=
    isPortsc_iff.2 ⟨i.toNat, hi, portsc_toNat i⟩
  rw [writeOp_of_not_fixed (not_mem_fixedOffsets hport), if_pos hport, portsc_toNat, Nat.add_sub_cancel_left,
    Nat.mul_div_cancel_left _ (by decide)]

theorem writeUsbcmd_ok (h : Inv s = true) : ∃ t, writeUsbcmd v s = .ok t := by
  cases h1 : v.getLsbD 1 with
  | true =>
    obtain ⟨t, hreset, -⟩ := controllerReset_good h
    exact ⟨t, (writeUsbcmd_hcreset h1 s).trans hreset⟩
  | false => exact ⟨_, writeUsbcmd_stores h1 s⟩

/-- A write only ever stops where the controller reset does, so never from a state of the invariant. -/
theorem writeOp_ok (h : Inv s = true) : ∃ t, writeOp off v s = .ok t := by
  unfold writeOp
  split_ifs
  · exact writeUsbcmd_ok h
  all_goals exact ⟨_, rfl⟩

theorem exec_mmioWrite_narrow {w : Width} (hoff : s.params.opregBase.toNat ≤ off.toNat)
    (h : ¬ (w = .w4 ∧ off.toNat % 4 = 0)) : exec (.mmioWrite off w v) s = .refused .narrowAccess :=
  (if_neg (Nat.not_lt.2 hoff)).trans (if_neg (mt opAccess_iff.1 h))

theorem exec_mmioWrite_op (hoff : s.params.opregBase.toNat ≤ off.toNat) (halign : off.toNat % 4 = 0) :
    exec (.mmioWrite off .w4 v) s = outcome (writeOp (opOffset s.params off) v s) :=
  (if_neg (Nat.not_lt.2 hoff)).trans (if_pos (opAccess_iff.2 ⟨rfl, halign⟩))

end Writes

/-! ### The dispatch of a read (R500) -/

section MmioReads

variable {s : State} {off : Word} {w : Width}

/-- A read that the capability block takes gives the bytes of the image there. -/
theorem exec_mmioRead_capability (halign : off.toNat % widthBytes w = 0)
    (hend : off.toNat + widthBytes w ≤ s.params.opregBase.toNat) :
    exec (.mmioRead off w) s = .next (s.emit (.readValue w (capabilityValue s.params off.toNat w))) :=
  mmioRead_capability (capAccess_iff.2 ⟨halign, hend⟩) rfl

theorem exec_mmioRead_capability_refused (hoff : off.toNat < s.params.opregBase.toNat)
    (h : ¬ (off.toNat % widthBytes w = 0 ∧ off.toNat + widthBytes w ≤ s.params.opregBase.toNat)) :
    exec (.mmioRead off w) s = .refused .capabilityAccess :=
  (if_pos hoff).trans (if_neg (mt capAccess_iff.1 h))

theorem exec_mmioRead_op (hoff : s.params.opregBase.toNat ≤ off.toNat) (h : widthBytes w = 4 ∧ off.toNat % 4 = 0) :
    exec (.mmioRead off w) s = exec (.readOp (opOffset s.params off)) s :=
  (if_neg (Nat.not_lt.2 hoff)).trans (if_pos (opAccess_iff.2 ⟨widthBytes_eq_four.1 h.1, h.2⟩))

theorem exec_mmioRead_narrow (hoff : s.params.opregBase.toNat ≤ off.toNat)
    (h : ¬ (widthBytes w = 4 ∧ off.toNat % 4 = 0)) : exec (.mmioRead off w) s = .refused .narrowAccess :=
  (if_neg (Nat.not_lt.2 hoff)).trans (if_neg fun hw => h ((opAccess_iff.1 hw).imp_left widthBytes_eq_four.2))

end MmioReads

end Sys2Proof.Machine

section
open Sys2Proof Sys2Proof.Machine

/-- Settles O7: every row of a USBCMD write is the one write of its value. -/
theorem usbcmdWriteStoresItsFields : Obligations.UsbcmdWriteStoresItsFields := by
  unfold Obligations.UsbcmdWriteStoresItsFields
  intro s
  refine ⟨?hcreset, ?run, ?pse, ?ase, ?iaad, ?itc, ?value⟩
  case hcreset => exact fun hi rs hinv => takesFatal_usbcmdHcreset hinv hi rs
  case run => exact fun hi => exec_usbcmd_stores rfl (usbcmdOf_runValue hi) (runValue_hcreset hi)
  case pse => exact fun hi fls => exec_usbcmd_stores rfl (usbcmdOf_pseValue hi fls) (append_hcreset _ fls)
  case ase => exact fun hi fls => exec_usbcmd_stores rfl (usbcmdOf_aseValue hi fls) (append_hcreset _ fls)
  case iaad => exact fun hi fls => exec_usbcmd_stores rfl (usbcmdOf_iaadValue hi fls) (append_hcreset _ fls)
  case itc => exact fun hi fls => exec_usbcmd_stores rfl (usbcmdOf_itcValue hi fls) (append_hcreset _ fls)
  case value =>
    intro v h1
    exact ⟨_, decode_usbcmdWrite v, exec_usbcmd_stores (exec_decodeUsbcmd v s) rfl h1⟩

/-- Settles O10: each row is its write; HCH = 1 is RS = 0 with both schedules INACTIVE. -/
theorem statusRegisterWrites : Obligations.StatusRegisterWrites := by
  unfold Obligations.StatusRegisterWrites
  intro s v
  refine ⟨rfl, rfl, fun hhalted => ?halted, fun hrunning => ?running, rfl, rfl, irq_iff s⟩
  case halted => exact congrArg Host.Outcome.next (if_pos (hch_iff.2 hhalted))
  case running => exact congrArg Host.Outcome.next (if_neg (mt hch_iff.1 hrunning))

/-- Settles O13: the read of each register, of the port model, and of an offset without a register. -/
theorem readsReturnTheRegisterTable : Obligations.ReadsReturnTheRegisterTable := by
  unfold Obligations.ReadsReturnTheRegisterTable
  intro s value
  refine ⟨?usbcmd, ?usbsts, ?usbintr, ?frindex, rfl, rfl, rfl,
    fun off => ⟨fun hoff => ?port, fun hfixed hport => ?absent⟩⟩
  case usbcmd => rw [← usbcmdValue_eq]; rfl
  case usbsts =>
    rw [← hch_eq_decide, ← pss_eq_decide, ← ass_eq_decide, ← usbstsValue_eq]; rfl
  case usbintr => rw [BitVec.ofNat_toNat]; rfl
  case frindex => rw [BitVec.ofNat_toNat]; rfl
  case port =>
    have hport : readOpValue off s = readPort off s := readOpValue_port (hoff.imp_right isPortsc_iff.2)
    exact ⟨_, by rw [exec_readOp, hport]; rfl⟩
  case absent => rw [exec_readOp, readOpValue_absent hfixed (mt isPortsc_iff.1 hport)]

/-- Settles O14: the four outcomes of a read, by the side of OPREG_BASE and whether the access is one the spec takes. -/
theorem mmioReadDispatch : Obligations.MmioReadDispatch := by
  unfold Obligations.MmioReadDispatch
  intro s off w n
  have hn : n = widthBytes w := rfl
  clear_value n
  subst hn
  refine ⟨fun hoff => ⟨fun ⟨halign, hend⟩ => ?inside, ?outside⟩, fun hoff => ⟨fun haccess => ?op, ?narrow⟩⟩
  case inside =>
    exact ⟨_, exec_mmioRead_capability halign hend, fun i hi => capabilityValue_byte _ _ hi, capabilityValue_lt _ _ w⟩
  case outside => exact exec_mmioRead_capability_refused hoff
  case op =>
    have hrow := exec_mmioRead_op hoff haccess
    exact ⟨hrow, _, _, readOpValue_state _ s, hrow.trans (exec_readOp _ s)⟩
  case narrow => exact exec_mmioRead_narrow hoff

/-- Settles O16: the write of an offset is the row of the register there; with at most 15 ports, 4 bits number them. -/
theorem mmioWriteDispatch : Obligations.MmioWriteDispatch := by
  unfold Obligations.MmioWriteDispatch
  intro s off w v hwf op
  refine ⟨mmioWrite_capability, fun hoff => exec_mmioWrite_narrow hoff, ?_⟩
  rintro hoff rfl halign
  have hrow : exec (.mmioWrite off .w4 v) s = outcome (writeOp op v s) := exec_mmioWrite_op hoff halign
  have hports : s.params.numPorts ≤ 16 := by
    simp only [Params.wf, Bool.and_eq_true, decide_eq_true_eq] at hwf
    omega
  have selects {r : Word} {i : Instr} (hi : exec i s = outcome (writeOp r v s)) :
      op = r → exec (.mmioWrite off .w4 v) s = exec i s := fun hop => by rw [hrow, hop, hi]
  refine ⟨fun hop i hi => ?usbcmd, selects rfl, selects rfl, selects rfl, selects rfl, selects rfl, selects rfl,
    selects rfl, fun i hi => selects ?portsc, fun hfixed hport => ?absent, fun hinv => ?good⟩
  case usbcmd =>
    obtain rfl : decodeUsbcmd v = i := Except.ok.inj ((decode_usbcmdWrite v).symm.trans hi)
    exact selects (r := offUsbcmd) (exec_decodeUsbcmd v s) hop
  case portsc => rw [writeOp_portsc hi]; rfl
  case absent =>
    have hnone : ¬ isPortsc s.params op = true := fun h => by
      obtain ⟨i, hi, hop⟩ := (isPortsc_iff_port hports).1 h
      exact hport i hi hop
    rw [hrow, writeOp_absent hfixed hnone]
    rfl
  case good =>
    obtain ⟨t, ht⟩ := writeOp_ok (off := op) (v := v) hinv
    exact ⟨t, by rw [hrow, ht]; rfl, writeOp_inv hinv ht⟩

end

/-! PROOFS. What a controller reset leaves (O8), and the conditions of a Fatal (O9). -/

namespace Sys2Proof.Machine

/-! ### What a reset leaves as it reads, and of memory (R583) -/

section Reset

variable {s t : State}

/-- Without a status bit there is nothing to interrupt for (R55). -/
theorem irq_of_noStatus (h : t.usbsts = 0) : t.irq = false := by
  rw [State.irq, h]
  exact bne_eq_false_iff_eq.2 BitVec.zero_and

/-- USBSTS reads as HCH = 1 alone where no bit is raised and neither RS nor a schedule keeps the controller running. -/
theorem usbstsValue_halted (hsts : t.usbsts = 0) (hrecl : t.recl = false) (hrs : t.usbcmd.rs = false)
    (hasync : t.async.auto = .inactive) (hperiodic : t.periodic.auto = .inactive) :
    usbstsValue t = 0x00001000#32 := by
  have hhch : t.hch = true := hch_iff.2 ⟨hrs, hasync, hperiodic⟩
  have hass : t.ass = false := bne_eq_false_iff_eq.2 hasync
  have hpss : t.pss = false := bne_eq_false_iff_eq.2 hperiodic
  rw [usbstsValue, hass, hpss, hrecl, hhch, hsts]
  rfl

/-- USBCMD reads as ITC = 8 alone (R40). -/
theorem usbcmdValue_reset : usbcmdValue UsbCmd.reset = 0x00080000#32 := by decide

theorem ResetTo.usbcmdValue (h : ResetTo s t) : usbcmdValue t.usbcmd = 0x00080000#32 := by
  have hcmd : t.usbcmd = UsbCmd.reset := (congrArg State.usbcmd h.1 :)
  rw [hcmd, usbcmdValue_reset]

theorem ResetTo.usbstsValue (h : ResetTo s t) : usbstsValue t = 0x00001000#32 :=
  usbstsValue_halted (congrArg State.usbsts h.1 :) (congrArg State.recl h.1 :)
    (congrArg (fun x : State => x.usbcmd.rs) h.1 :) (congrArg (fun x : State => x.async.auto) h.1 :)
    (congrArg (fun x : State => x.periodic.auto) h.1 :)

/-- The reset writes no guest memory. -/
theorem ResetTo.mem (h : ResetTo s t) : t.mem = s.mem := (congrArg State.mem h.1 :)

end Reset

/-! ### EXECUTE's two checks (R280, R284) -/

section Checks

variable {k : Sched} {s : State} {q : Queue} {e : Packet}

theorem executePacket_reserved (h : tokPid e.qtd.token = 0b11#2) :
    executePacket k q e s = .error (.fatal .reservedPid s) := by
  have hdir : direction e = none := if_pos h
  simp only [executePacket, hdir]

theorem executePacket_pageIndex (hdir : tokPid e.qtd.token ≠ 0b11#2) (h : ¬ WalkFits e.qtd e.len.toNat) :
    executePacket k q e s = .error (.fatal .pageIndex s) := by
  simp only [executePacket, direction_eq hdir, segments_none.2 h]

/-- A transfer that needs a page above 4 is a Fatal whatever its PID code; the reserved one is checked first. -/
theorem executePacket_walkFails (h : ¬ WalkFits e.qtd e.len.toNat) :
    ∃ f, executePacket k q e s = .error (.fatal f s) := by
  by_cases hdir : tokPid e.qtd.token = 0b11#2
  · exact ⟨_, executePacket_reserved hdir⟩
  · exact ⟨_, executePacket_pageIndex hdir h⟩

/-- The token presented replaces the Packet's own (log 17). -/
theorem exec_pidReserved {p : Packet} (hp : HasPacket s k q p) (ht : p.tag = .uninit) (t : TokenOps) :
    exec (.pidReserved k t) s = finish (executePacket k q (p.withToken (t.word pidReservedCode 1#1)) s) :=
  congrArg finish (withPacket_eq hp ht)

end Checks

end Sys2Proof.Machine

section
open Sys2Proof Sys2Proof.Machine

/-- Settles O8: each of the rows takes a reset, and what it leaves determines both registers as they read. -/
theorem controllerResetLeavesResetValues : Obligations.ControllerResetLeavesResetValues := by
  unfold Obligations.ControllerResetLeavesResetValues
  intro s i hinv hrow
  have htakes : TakesFatal i s := by
    rcases hrow with ⟨hi, rs, rfl⟩ | rfl | rfl | rfl | rfl
    · exact takesFatal_usbcmdHcreset hinv hi rs
    · exact takesFatal_of_raise (f := .asyncType) hinv rfl
    · exact takesFatal_of_raise (f := .fstn) hinv rfl
    · exact takesFatal_of_raise (f := .reservedPid) hinv rfl
    · exact takesFatal_of_raise (f := .pageIndex) hinv rfl
  obtain ⟨t, hexec, hreset, hirq⟩ := htakes
  exact ⟨t, hexec, hreset, hirq, hreset.usbcmdValue, hreset.usbstsValue, hreset.mem⟩

/-- Settles O9: a link row raises its Fatal once the link is in `fetch_addr`, EXECUTE raises its own before it changes
anything. -/
theorem fatalConditionsResetTheController : Obligations.FatalConditionsResetTheController := by
  unfold Obligations.FatalConditionsResetTheController
  refine ⟨rfl, rfl, rfl, rfl, fun s hinv => ⟨fun addr rsvd => ⟨?itd, ?sitd, fun k => ?fstn⟩,
    fun k q p t hp ht => ?reservedRow, fun k q p hp ht hpid => ?reserved,
    fun k q p i e hp ht hrow hwalk => ?pageIndex, fun t hreset => hreset.mem⟩⟩
  case itd => exact takesFatal_of_setSched hinv rfl rfl rfl
  case sitd => exact takesFatal_of_setSched hinv rfl rfl rfl
  case fstn => exact takesFatal_of_setSched hinv rfl rfl rfl
  case reservedRow =>
    have hpid : tokPid (p.withToken (t.word pidReservedCode 1#1)).qtd.token = 0b11#2 := token_pid t _ _
    exact takesFatal_of_raise hinv (by rw [exec_pidReserved hp ht, executePacket_reserved hpid])
  case reserved =>
    have hrow : ExecutesAs k p (.stateExecute k) p := .inl ⟨rfl, rfl⟩
    exact takesFatal_of_raise hinv (by rw [exec_executesAs hp ht hrow, executePacket_reserved hpid])
  case pageIndex =>
    obtain ⟨f, hfatal⟩ := executePacket_walkFails (k := k) (q := q) (s := s) hwalk
    exact takesFatal_of_raise hinv (by rw [exec_executesAs hp ht hrow, hfatal])

end

/-! PROOFS. DEVICE_REMOVE (O19). -/

namespace Sys2Proof.Machine

/-! ### Freeing selected Queues of a schedule (R249, R251) -/

/-- The registers of a schedule before and after its selected Queues are freed: the map without them, and the current
Queue where it was not one of them. -/
structure Freed (sel : Queue → Bool) (r r' : SchedRegs) : Prop where
  find : ∀ a, cacheFind r'.cache a = (cacheFind r.cache a).filter fun q => !sel q
  curQueue : r'.curQueue = r.curQueue.filter fun a => !(cacheFind r.cache a).any sel
  auto : r'.auto = r.auto
  fetchAddr : r'.fetchAddr = r.fetchAddr
  visits : r'.visits = r.visits

/-- In a good schedule the current Queue is kept exactly where it is not a selected one. -/
theorem keptCur_filtered {ctr : Nat} {k : Sched} {r : SchedRegs} {c : List Queue} {sel : Queue → Bool}
    (h : schedOk ctr k r = true) (hfind : ∀ a, cacheFind c a = (cacheFind r.cache a).filter fun q => !sel q) :
    keptCur r.curQueue c = r.curQueue.filter fun a => !(cacheFind r.cache a).any sel := by
  cases hcur : r.curQueue with
  | none => rfl
  | some a =>
    obtain ⟨q, hq⟩ := (schedOk_iff.1 h).2.2 a hcur
    cases hsel : sel q <;> simp [keptCur, Option.filter, hfind, hq, hsel]

/-- Freeing the selected Queues of a good schedule: the cancels are given out, and only its registers change. -/
theorem reapSel_freed (sel : Queue → Bool) {k : Sched} {s : State} (h : schedOk s.uframeCtr k (s.sched k) = true) :
    ∃ cs r, freeQueues sel (s.sched k).cache s = .ok ({ s with outbox := cs ++ s.outbox }.setSched k r) ∧
      Freed sel (s.sched k) r ∧ ∀ o, o ∈ cs ↔ Cancelled s k sel o := by
  obtain ⟨cs, c, u, hfree, hgood, hu, hmem, hcs⟩ := reapSel_good sel h
  have hfind := reapSel_find h hgood hmem
  exact ⟨cs, _, hfree, ⟨hfind, hu.trans (keptCur_filtered h hfind), rfl, rfl, rfl⟩, hcs⟩

/-! ### The departing device's Queues (R541) -/

/-- The Queue's device is `d`. -/
def ofDevice (d : DevRef) (q : Queue) : Bool := decide (q.dev = some d)

theorem beq_device_eq (d : DevRef) : (fun q : Queue => q.dev == some d) = ofDevice d :=
  funext fun _ => Bool.eq_iff_iff.2 (beq_iff_eq.trans decide_eq_true_iff.symm)

/-- `reap_device` (R249) of a good state: both schedules without the device's Queues, whose cancels are given out. -/
theorem reapDevice_good {s : State} (d : DevRef) (h : Inv s = true) :
    ∃ cs ra rp, reapDevice d s = .ok { s with outbox := cs ++ s.outbox, async := ra, periodic := rp } ∧
      Freed (ofDevice d) s.async ra ∧ Freed (ofDevice d) s.periodic rp ∧
      ∀ o, o ∈ cs ↔ ∃ k, Cancelled s k (ofDevice d) o := by
  obtain ⟨cs1, ra, hfree1, hra, hcs1⟩ := reapSel_freed (ofDevice d) (inv_sched h .async)
  set s1 := ({ s with outbox := cs1 ++ s.outbox } : State).setSched .async ra
  obtain ⟨cs2, rp, hfree2, hrp, hcs2⟩ := reapSel_freed (k := .periodic) (s := s1) (ofDevice d) (inv_sched h .periodic)
  refine ⟨cs2 ++ cs1, ra, rp, ?reaped, hra, hrp, fun o => ?cancels⟩
  case reaped =>
    simp only [reapDevice, beq_device_eq, hfree1, hfree2, List.append_assoc]
    rfl
  case cancels =>
    rw [List.mem_append, hcs1, hcs2]
    constructor
    · rintro (hperiodic | hasync)
      · exact ⟨.periodic, hperiodic⟩
      · exact ⟨.async, hasync⟩
    · rintro ⟨_ | _, ho⟩
      · exact .inr ho
      · exact .inl ho

theorem cancelled_ofDevice_iff {s : State} {k : Sched} {d : DevRef} {o : Output} : Cancelled s k (ofDevice d) o ↔
    ∃ q p, q ∈ (s.sched k).cache ∧ p ∈ q.packets ∧ p.tag = .inflight ∧ q.dev = some d ∧
      o = .cancel d k q.qhaddr p.qtdaddr := by
  constructor
  · rintro ⟨q, p, d', hq, hsel, hp, ht, hd', ho⟩
    have hd : q.dev = some d := of_decide_eq_true hsel
    obtain rfl : d' = d := Option.some.inj (hd'.symm.trans hd)
    exact ⟨q, p, hq, hp, ht, hd, ho⟩
  · rintro ⟨q, p, hq, hp, ht, hd, ho⟩
    exact ⟨q, p, d, hq, decide_eq_true hd, hp, ht, hd, ho⟩

/-- No address leads to a device that was dropped. -/
theorem lookupDevice_dropDevice (s : State) (d : DevRef) (a : BitVec 7) : (s.dropDevice d).lookupDevice a ≠ some d := by
  unfold State.lookupDevice
  split
  · nofun
  · rename_i x hx
    have hmem : x ∈ s.devices.filter fun e => e.2 != d := List.mem_of_find?_eq_some hx
    exact fun h => bne_iff_ne.1 (List.mem_filter.1 hmem).2 (Option.some.inj h)

end Sys2Proof.Machine

section
open Sys2Proof Sys2Proof.Machine

/-- Settles O19: what `reap_device` leaves, schedule by schedule, and then the address map. -/
theorem deviceRemoveFreesItsQueues : Obligations.DeviceRemoveFreesItsQueues := by
  unfold Obligations.DeviceRemoveFreesItsQueues
  intro s d hinv
  obtain ⟨cs, ra, rp, hreap, hra, hrp, hcs⟩ := reapDevice_good d hinv
  have hrow : exec (.deviceRemove d) s =
      .next (({ s with outbox := cs ++ s.outbox, async := ra, periodic := rp } : State).dropDevice d) := by
    show execDeviceRemove d s = _
    simp only [execDeviceRemove, hreap, outcome]
  set t := ({ s with outbox := cs ++ s.outbox, async := ra, periodic := rp } : State).dropDevice d
  have hfreed : ∀ k, Freed (ofDevice d) (s.sched k) (t.sched k) := fun k => by
    cases k
    · exact hra
    · exact hrp
  refine ⟨t, cs, hrow, fun k a => ?queues, rfl, fun o => ?cancels, lookupDevice_dropDevice _ d, rfl,
    fun k => (hfreed k).curQueue, fun k => ⟨(hfreed k).auto, (hfreed k).fetchAddr, (hfreed k).visits⟩, rfl⟩
  case queues =>
    simp only [ne_eq, decide_not]
    exact (hfreed k).find a
  case cancels => simp only [hcs, cancelled_ofDevice_iff]

end

/-! PROOFS. Interrupt bits: raised (O17), committed (O18), and none pending after an entry (O51). -/

namespace Sys2Proof.Machine

section Commits

variable {s t : State}

/-! ### The commits (R535, R536) -/

theorem thresholdCommit_acts (hp : s.usbstsPending ≠ 0) (hctr : s.nextCommit ≤ s.uframeCtr) :
    s.thresholdCommit = s.commit := if_pos ⟨hp, hctr⟩

theorem thresholdCommit_waits (h : s.usbstsPending = 0 ∨ s.uframeCtr < s.nextCommit) : s.thresholdCommit = s :=
  if_neg fun ⟨hp, hctr⟩ => h.elim hp (Nat.not_lt.2 hctr)

theorem commitAll_acts (h : s.usbstsPending ≠ 0) : s.commitAll = s.commit := if_pos h

theorem commitAll_idle (h : s.usbstsPending = 0) : s.commitAll = s := if_neg (not_not.2 h)

/-! ### The end of an entry (R310, R472, R530) -/

/-- An entry is over, with no interrupt bit left pending. -/
def EntryOver (t : State) : Prop := t.usbstsPending = 0 ∧ t.inEntry = false

theorem asyncAndCommit_entryOver (h : asyncAndCommit s = .ok t) : EntryOver t := by
  obtain ⟨w, -, rfl⟩ := asyncAndCommit_ok h
  obtain ⟨nc, hcommit⟩ := commitAll_eq w
  exact ⟨congrArg State.usbstsPending hcommit, rfl⟩

theorem controllerReset_entryOver (h : controllerReset s = .ok t) : EntryOver t := by
  refine ⟨(controllerReset_wasReset h).usbstsPending, ?_⟩
  simp only [controllerReset] at h
  split at h
  · cases h
  · split at h <;> cases h
    rfl

/-- Where an entry that ends normally is over, it is over after a Fatal too, by the reset. -/
theorem finish_entryOver {x : Except Stop State} (hx : x = .ok t → EntryOver t) (h : finish x = .next t) :
    EntryOver t := by
  rcases finish_next h with hok | ⟨r, u, -, hreset⟩
  · exact hx hok
  · exact controllerReset_entryOver hreset

theorem tickEntry_entryOver {now : Nat} (h : tickEntry now s = .ok t) : EntryOver t := by
  obtain ⟨i, u, b, -, hend⟩ := tickEntry_ok h
  exact asyncAndCommit_entryOver hend

/-- Outside an entry the completion of an asynchronous Packet is an entry of its own (D51). -/
theorem completeEntry_entryOver {c : Completion} (hin : s.inEntry = false) (hk : c.kind = .async)
    (h : completeEntry c s = .ok t) : EntryOver t := by
  cases hd : deliver c s with
  | error f => rw [completeEntry_of_fault hd] at h; cases h
  | ok u => exact asyncAndCommit_entryOver ((completeEntry_of_rerun hd hin hk).symm.trans h)

end Commits

end Sys2Proof.Machine

section
open Sys2Proof Sys2Proof.Machine

/-- Settles O17, bit by bit. -/
theorem interruptBitsAreRaised : Obligations.InterruptBitsAreRaised := by
  unfold Obligations.InterruptBitsAreRaised
  exact fun s => ⟨⟨_, rfl, rfl⟩, rfl, rfl, rfl, rfl, rfl, rfl,
    Bool.eq_iff_iff.2 (bne_iff_ne.trans decide_eq_true_iff.symm)⟩

/-- Settles O18: each commit acts or leaves the state alone. -/
theorem commitsMoveThePendingBits : Obligations.CommitsMoveThePendingBits := by
  unfold Obligations.CommitsMoveThePendingBits
  exact fun s => ⟨thresholdCommit_acts, thresholdCommit_waits, commitAll_acts, commitAll_idle⟩

/-- Settles O51: the last act of both entries is the commit, or the reset of a Fatal. -/
theorem entriesCommitAllPendingBits : Obligations.EntriesCommitAllPendingBits := by
  unfold Obligations.EntriesCommitAllPendingBits
  refine ⟨fun s t now h => ?tick, fun s t qh qtd r hin h => ?complete⟩
  case tick =>
    obtain ⟨-, -, hfinish⟩ := exec_tick_next h
    exact finish_entryOver tickEntry_entryOver hfinish
  case complete => exact finish_entryOver (completeEntry_entryOver hin rfl) h

end

/-! PROOFS. Power-on (O20), the reset state (O56), and writes for the port model (O12). -/

namespace Sys2Proof.Machine

/-- The offset of a port that 4 bits number (R39). -/
theorem offPortsc_toNat (i : BitVec 4) : offPortsc i.toNat = 0x44#32 + 4#32 * i.setWidth 32 := by
  refine BitVec.eq_of_toNat_eq ?_
  have := i.isLt
  rw [portsc_toNat, offPortsc, BitVec.toNat_add, BitVec.toNat_ofNat, BitVec.toNat_ofNat]
  omega

theorem writePortsc_exists {i : Nat} {s : State} (h : i < s.params.numPorts) (v : Word) :
    writePortsc i v s = s.emit (.portWrite (offPortsc i) v) := if_pos h

theorem writePortsc_absent {i : Nat} {s : State} (h : s.params.numPorts ≤ i) (v : Word) : writePortsc i v s = s :=
  if_neg (Nat.not_lt.2 h)

end Sys2Proof.Machine

section
open Sys2Proof Sys2Proof.Machine

/-- Settles O20: power-on writes every field that is the engine's, and no other but the outbox. -/
theorem powerOnTakesTheResetValues : Obligations.PowerOnTakesTheResetValues := by
  unfold Obligations.PowerOnTakesTheResetValues
  exact fun s => ⟨_, rfl, rfl, rfl, rfl, rfl, rfl, rfl, rfl, rfl, rfl, rfl, rfl, rfl, rfl, rfl, rfl, rfl,
    irq_of_noStatus rfl, usbcmdValue_reset, usbstsValue_halted rfl rfl rfl rfl rfl, rfl, rfl, rfl, rfl, rfl, rfl, rfl⟩

/-- Settles O56: the caches are empty and the automata INACTIVE; the rest is evaluated. -/
theorem resetMeetsTheInvariant : Obligations.ResetMeetsTheInvariant := by
  unfold Obligations.ResetMeetsTheInvariant
  refine ⟨by decide, ⟨rfl, fun k q hq => ?unseen⟩, rfl, by decide⟩
  case unseen => cases k <;> cases hq

/-- Settles O12: the port of a write exists or not. -/
theorem portWritesGoToThePortModel : Obligations.PortWritesGoToThePortModel := by
  unfold Obligations.PortWritesGoToThePortModel
  refine fun s v i => ⟨rfl, fun hport => ?port, fun hport => ?absent⟩
  case port =>
    rw [← offPortsc_toNat]
    exact congrArg Host.Outcome.next (writePortsc_exists hport v)
  case absent => exact congrArg Host.Outcome.next (writePortsc_absent hport v)

end
